-- ==== Sys2Proof/Word.lean ====
section
/-! DEFINITION. The word types of the 4F20 (spec/00_scope.md 5.2) and tables of a fixed number of entries. -/

namespace Sys2Proof

/-- A byte of memory. -/
abbrev Byte := BitVec 8

/-- A 16-bit record field. -/
abbrev Half := BitVec 16

/-- A 32-bit data word or address (00_scope 5.2). -/
abbrev Word := BitVec 32

/-- Entry `i` of a table of `n` entries; an index past the end reads the default entry. -/
def tget {α : Type} {n : Nat} [Inhabited α] (t : Vector α n) (i : Nat) : α := t[i]?.getD default

/-- The table with entry `i` replaced; an index past the end changes nothing. -/
def tset {α : Type} {n : Nat} (t : Vector α n) (i : Nat) (x : α) : Vector α n := t.setIfInBounds i x

/-- The lowest index of a table whose entry satisfies `p`. -/
def tfind {α : Type} {n : Nat} [Inhabited α] (t : Vector α n) (p : α → Bool) : Option Nat :=
  (List.range n).find? fun i => p (tget t i)

end Sys2Proof
end

