-- ==== Sys2Proof/Syntax.lean ====
section
/-! DEFINITION. The commands of the 4F20: one constructor for each row of spec/opcode_table.json. An event names the
line or render context it happens on; a request carries its tag and the fields of its record as 11.5 lays them out. -/

namespace Sys2Proof

/-- Direction of a system-bus transaction (03 R38). -/
inductive Dir where
  | read
  | write
deriving DecidableEq, Repr, Inhabited

/-- One word of a transaction: its data (of a WRITE) and its four byte enables, bit i for byte i (03 R38). -/
structure BusWord where
  data : Word
  enables : BitVec 4
deriving DecidableEq, Repr, Inhabited

/-- A system-bus transaction (03 R38): its length is the number of its words. -/
structure Transaction where
  addr : Word
  dir : Dir
  words : List BusWord
  master : Fin 16
deriving DecidableEq, Repr, Inhabited

/-- The body of a LINE_SET record (11.5, 07 R139). -/
structure LineSetFields where
  line : Byte
  method : Byte
  prescale : Byte
  period : Byte
  breakCount : Byte
  settle : Byte
  gap : Half
  toneOn : Half
  toneOff : Half
  pause : Byte
  toneWait : Byte
  answerWait : Byte
  flags : Byte
  ringQualify : Half
  meterQualify : Byte
  txStall : Byte
  guard : Half
  meterValue : Half
deriving DecidableEq, Repr, Inhabited

/-- The body of a CALL record (11.5, 08 R144). -/
structure CallFields where
  desk : Byte
  document : Byte
  first : Byte
  last : Byte
  priority : Byte
  attempts : Byte
  retry : Half
  lineMask : Byte
  access : Byte
  count : Byte
  flags : Byte
  nbSecond : Word
  nbDay : Byte
  dest : List (BitVec 4)
deriving DecidableEq, Repr, Inhabited

/-- The commands: one constructor for each row of spec/opcode_table.json, in the table's order. -/
inductive Instr where
  /-- HARDWARE_RESET (R57): the straps are the level of the twelve strap pins when reset ends. -/
  | hardwareReset (straps : BitVec 12)
  /-- SPORT_TRANSACTION (R39). -/
  | sportTransaction (t : Transaction)
  /-- ARBITER_GRANT (R53). -/
  | arbiterGrant
  /-- POSTED_WRITE_DRAIN (R48). -/
  | postedWriteDrain
  /-- THROUGH_READ_SERVED (R50). -/
  | throughReadServed
  /-- SLOT_READ_COMPLETE (R79). -/
  | slotReadComplete
  /-- BLOCK_WRITE_COMPLETE (R84). -/
  | blockWriteComplete
  /-- BLOCK_READ_COMPLETE (R98). -/
  | blockReadComplete
  /-- SLOT_WRITE_COMPLETE (R70). -/
  | slotWriteComplete
  /-- TARIFF_READ_COMPLETE (R164). -/
  | tariffReadComplete
  /-- NOTICE_PRODUCER_WRITE_COMPLETE (R186). -/
  | noticeProducerWriteComplete
  /-- REPORT_RECORD_WRITE_COMPLETE (R184). -/
  | reportRecordWriteComplete
  /-- STALL_TIMER_EXPIRY (R74), of the ring of a render context. -/
  | stallTimerExpiry (ctx : Fin 5)
  /-- CLOCK_ADVANCE (R160). -/
  | clockAdvance
  /-- UNIT_TIMER_EXPIRY (R169). -/
  | unitTimerExpiry (line : Fin 4)
  /-- RING_BURST (R123). -/
  | ringBurst (line : Fin 4)
  /-- RING_ABSENT (R123). -/
  | ringAbsent (line : Fin 4)
  /-- RING_END_TIMER_EXPIRY (R123). -/
  | ringEndTimerExpiry (line : Fin 4)
  /-- SETTLE_TIMER_EXPIRY (R125), with the level of LOOP at that moment. -/
  | settleTimerExpiry (line : Fin 4) (loop : Bool)
  /-- DIAL_TONE_DETECTED (R126). -/
  | dialToneDetected (line : Fin 4)
  /-- DIAL_TONE_WAIT_EXPIRY (R126). -/
  | dialToneWaitExpiry (line : Fin 4)
  /-- TONE_ON_EXPIRY (R128). -/
  | toneOnExpiry (line : Fin 4)
  /-- TONE_OFF_EXPIRY (R128). -/
  | toneOffExpiry (line : Fin 4)
  /-- PULSE_BREAK_END (R130). -/
  | pulseBreakEnd (line : Fin 4)
  /-- PULSE_MAKE_END (R130). -/
  | pulseMakeEnd (line : Fin 4)
  /-- INTER_DIGIT_GAP_EXPIRY (R130). -/
  | interDigitGapExpiry (line : Fin 4)
  /-- PAUSE_EXPIRY (R127). -/
  | pauseExpiry (line : Fin 4)
  /-- ANSWER_TONE_DETECTED (R132). -/
  | answerToneDetected (line : Fin 4)
  /-- BUSY_TONE_DETECTED (R132). -/
  | busyToneDetected (line : Fin 4)
  /-- ANSWER_WAIT_EXPIRY (R132). -/
  | answerWaitExpiry (line : Fin 4)
  /-- LOOP_LOSS (R131). -/
  | loopLoss (line : Fin 4)
  /-- METER_PULSE (R170). -/
  | meterPulse (line : Fin 4)
  /-- GUARD_EXPIRY (R137). -/
  | guardExpiry (line : Fin 4)
  /-- APERTURE_SET (R44). -/
  | apertureSet (tag : Half) (entry kind logSize line : Byte) (base : Word) (slotSize : Half) (slotCount policy : Byte)
  /-- APERTURE_CLEAR (R46). -/
  | apertureClear (tag : Half) (entry : Byte)
  /-- MASTER_SET (R51). -/
  | masterSet (tag : Half) (master ordering : Byte)
  /-- SHARE_SET (R56). -/
  | shareSet (tag : Half) (setting : Byte)
  /-- ROUTE_SET (R188). -/
  | routeSet (tag : Half) (cls target : Byte)
  /-- STORE_SET (R17). -/
  | storeSet (tag : Half) (base : Word) (size : Byte) (reserve lowMark : Half)
  /-- DELETE (R35). -/
  | delete (tag : Half) (document : Byte)
  /-- REPORT_DOCUMENTS (R37): a REPORT record whose kind is none of 1 to 4; a kind that is not 0 either is refused. -/
  | reportDocuments (tag : Half) (kind : Byte) (address : Word)
  /-- REPORT_PAGES (R37). -/
  | reportPages (tag : Half) (document : Byte) (address : Word)
  /-- REPORT_ACCOUNTS (R177). -/
  | reportAccounts (tag : Half) (address : Word)
  /-- REPORT_CALLS (R158). -/
  | reportCalls (tag : Half) (address : Word)
  /-- REPORT_LINES (R184). -/
  | reportLines (tag : Half) (address : Word)
  /-- SCAN_BEGIN (R77). -/
  | scanBegin (tag : Half) (desk resolution : Byte) (width : Half)
  /-- INGEST_STOP (R92). -/
  | ingestStop (tag : Half) (context mode : Byte)
  /-- INGEST_SET (R83). -/
  | ingestSet (tag : Half) (context limit : Byte)
  /-- PRINT_SETUP (R104). -/
  | printSetup (tag : Half) (width : Half) (resolution stall : Byte)
  /-- PRINT (R106). -/
  | print (tag : Half) (document first last copies : Byte)
  /-- PRINT_CANCEL (R110). -/
  | printCancel (tag : Half) (job : Byte)
  /-- PAGE_RESULT (R114). -/
  | pageResult (tag : Half) (line result : Byte)
  /-- LINE_SET (R139). -/
  | lineSet (tag : Half) (fields : LineSetFields)
  /-- ANSWER (R124). -/
  | answer (tag : Half) (line : Byte)
  /-- CONNECT_RX (R78): a CONNECT record whose direction is not TX; one that is not RX either is refused. -/
  | connectRx (tag : Half) (line direction : Byte) (width : Half) (resolution desk : Byte)
  /-- CONNECT_TX (R112). -/
  | connectTx (tag : Half) (line : Byte) (width : Half) (resolution : Byte)
  /-- RELEASE (R135). -/
  | release (tag : Half) (line reason : Byte)
  /-- CALL (R144). -/
  | call (tag : Half) (fields : CallFields)
  /-- CALL_CANCEL (R157). -/
  | callCancel (tag : Half) (record : Byte)
  /-- OUTGOING_LIMIT (R150). -/
  | outgoingLimit (tag : Half) (limit : Byte)
  /-- SEED (R154). -/
  | seed (tag : Half) (value : Half)
  /-- SET_CLOCK (R161). -/
  | setClock (tag : Half) (second : Word) (day : Byte)
  /-- HOLIDAY (R162). -/
  | holiday (tag : Half) (setting : Byte)
  /-- TARIFF_COMMIT (R164). -/
  | tariffCommit (tag : Half) (address : Word)
  /-- ACCOUNT_SET (R175). -/
  | accountSet (tag : Half) (desk : Byte) (limit : Word)
  /-- ACCOUNT_CLEAR (R176). -/
  | accountClear (tag : Half) (desk : Byte)
  /-- LOG_SET (R179). -/
  | logSet (tag : Half) (address : Word) (count : Half)
  /-- WARM_RESTART (R185). -/
  | warmRestart (tag : Half)
  /-- UNKNOWN_KIND (R182). -/
  | unknownKind (tag kind : Half)
deriving DecidableEq, Repr

end Sys2Proof
end

