-- ==== Sys2Proof/Machine/Bytes.lean ====
section
/-! DEFINITION. Bits, bytes and record layouts: most significant bit first for pels and codes (00_scope 5.2, 01 R10),
little-endian for the fields of records (11). -/

namespace Sys2Proof.Machine

/-- The low `w` bits of `n`, most significant first. -/
def bitsOf : (w n : Nat) → List Bool
  | 0, _ => []
  | w + 1, n => n.testBit w :: bitsOf w n

/-- The number whose bits, most significant first, are the list. -/
def bitsVal (bs : List Bool) : Nat := bs.foldl (fun acc b => 2 * acc + b.toNat) 0

/-- The list cut or filled with 0 bits to `n` bits. -/
def padBits (n : Nat) (bs : List Bool) : List Bool := bs.take n ++ List.replicate (n - bs.length) false

/-- The bits of bytes, bit 7 of each first (01 R10). -/
def bytesToBits (bytes : List Byte) : List Bool := bytes.flatMap fun b => bitsOf 8 b.toNat

/-- `n` bytes that hold the bits, bit 7 first, every bit past the list 0 (01 R10). -/
def bitsToBytes : (n : Nat) → List Bool → List Byte
  | 0, _ => []
  | n + 1, bs => BitVec.ofNat 8 (bitsVal (padBits 8 bs)) :: bitsToBytes n (bs.drop 8)

/-- `size` bytes of `v`, the low byte first (11). -/
def leBytes : (size v : Nat) → List Byte
  | 0, _ => []
  | size + 1, v => BitVec.ofNat 8 v :: leBytes size (v / 256)

/-- The value of bytes, the low byte first (11). -/
def leVal : List Byte → Nat
  | [] => 0
  | b :: bs => b.toNat + 256 * leVal bs

/-- The field of `size` bytes at an offset of a record (11.1). -/
def fieldAt (bytes : List Byte) (offset size : Nat) : Nat := leVal ((bytes.drop offset).take size)

/-- A field to be written: offset, size in bytes, value. -/
abbrev Field := Nat × Nat × Nat

/-- A record with one field written, saturated at the field's largest value (11 R191). -/
def putField (bytes : List Byte) (f : Field) : List Byte :=
  let (offset, size, v) := f
  bytes.take offset ++ leBytes size (min v (256 ^ size - 1)) ++ bytes.drop (offset + size)

/-- A record of `n` bytes with the given fields; every byte not assigned is 0 (11 R191). -/
def layout (n : Nat) (fields : List Field) : List Byte := fields.foldl putField (List.replicate n 0)

/-- Four-bit symbols packed two to a byte, the earlier in bits 4..7 (11.2). -/
def packNibbles : List Nat → List Byte
  | [] => []
  | [a] => [BitVec.ofNat 8 (16 * a)]
  | a :: b :: rest => BitVec.ofNat 8 (16 * a + b % 16) :: packNibbles rest

/-- The four-bit symbols packed in bytes, the earlier in bits 4..7 (11.2). -/
def unpackNibbles (bytes : List Byte) : List Nat := bytes.flatMap fun b => [b.toNat / 16, b.toNat % 16]

/-- Two regions of addresses share an address. -/
def overlaps (a n b m : Nat) : Bool := decide (a < b + m) && decide (b < a + n)

/-- A number raised by `k`, staying at `top` (a saturating count). -/
def satAdd (top x k : Nat) : Nat := min top (x + k)

end Sys2Proof.Machine
end

