-- ==== Sys2Proof/Config.lean ====
section
/-! DEFINITION. What the manual fixes as sizes, and the free values it leaves open. A free value is an opaque
constant: nothing in Lean can evaluate it, so whatever is proved holds for every value of it. -/

namespace Sys2Proof

/-- The six detector inputs of one line (07 R118). -/
structure LineInputs where
  ring : Bool := false
  loop : Bool := false
  dt : Bool := false
  bt : Bool := false
  ans : Bool := false
  mp : Bool := false
deriving DecidableEq, Repr, Inhabited

namespace Config

/-- The posting queue holds up to eight entries (03 R47). -/
abbrev postingDepth : Nat := 8

/-- The notice ring holds 128 notices (10 R186). -/
abbrev noticeRing : Nat := 128

/-- A block is 1 KiB, 8192 bits (01 R10, 02 R18). -/
abbrev blockBits : Nat := 8192

/-- A page holds at most 16383 lines (05 R86). -/
abbrev lineLimit : Nat := 16383

/-- Loop loss is detected when the loop loss count reaches 410 (07 R120). -/
abbrev loopLossTicks : Nat := 410

/-- Half-periods of the 32,768 Hz input in one line tick (00_scope 5.3). -/
abbrev halvesPerTick : Nat := 64

/-- FREE VALUE (log 5): the levels on line `n`'s inputs in line tick `k`. -/
opaque lineInputs : (k : Nat) → (n : Nat) → LineInputs

/-- FREE VALUE (log 6): which of several events due at once is taken first, at free index `k`. -/
opaque dueChoice : (k : Nat) → Nat

/-- FREE VALUE (log 14): what memory holds at an address whose write a hardware reset abandoned (03 R49). -/
opaque abandonedByte : (k : Nat) → (address : Nat) → BitVec 8

/-- FREE VALUE (log 23): a 32-bit count whose exact value passes 32 bits where the manual states no result. -/
opaque overflow32 : (k : Nat) → BitVec 32

/-- FREE VALUE (log 13): what a RECORD_READ returns for a byte past the last address. -/
opaque pastByte : (k : Nat) → (address : Nat) → BitVec 8

/-- FREE VALUE (log 13): the address at which a RECORD_WRITE puts a byte past the last address, if it puts it anywhere. -/
opaque pastPlace : (k : Nat) → (address : Nat) → Option (BitVec 32)

end Config

end Sys2Proof
end

