-- ==== Sys2Proof/Machine/State.lean ====
section
/-! DEFINITION. The state of the 4F20 as plain data, block by block, and its value after a hardware reset. -/

namespace Sys2Proof.Machine

/-- Why a step stops with a fault: no command of the 4F20 stops on a fault, so there is no reason to name. -/
inductive Fault where
deriving DecidableEq, Repr

/-- Why a command has no meaning. -/
inductive Refusal where
  /-- Raised by the dispatch of a row without a meaning; none is left. Safe: the model stops. -/
  | notModelled (mnemonic : String)
deriving DecidableEq, Repr

/-! ## Names shared by several blocks -/

/-- Release causes and call outcomes with the codes of 11.2. -/
inductive Cause where
  | ok | lineDead | noTone | busy | noAnswer | lineLost | normal | protocol | notFax | aborted | cancelled | restart | partialSent
deriving DecidableEq, Repr, Inhabited

/-- Results of a request (10 R182). -/
inductive Result where
  | ok | badField | busy | state | noRoom | notFound | gone | budget | badKind
deriving DecidableEq, Repr, Inhabited

/-- The seven notice classes (10 R188). -/
inductive NoticeClass where
  | request | line | page | store | call | charge | path
deriving DecidableEq, Repr, Inhabited

/-- Where a notice class is routed (10 R188). -/
inductive Target where
  | none | int0 | int1
deriving DecidableEq, Repr, Inhabited

/-- Direction of the call on a line (07 R119). -/
inductive LineDir where
  | none | inward | outward
deriving DecidableEq, Repr, Inhabited

/-- Why an allocation or page open is refused (02 R25). -/
inductive StoreCause where
  | blocks | reserve | records | pages
deriving DecidableEq, Repr, Inhabited

/-- Why a transaction is answered FAULT (03 R42). -/
inductive FaultCause where
  | form | control | store | ring
deriving DecidableEq, Repr, Inhabited

/-! ## Notices (10 R188, 11.6) -/

/-- A notice with the values its record carries. Contexts are numbered 0 (SCAN or PRINT), 1 to 4 (LINE0 to LINE3). -/
inductive Notice where
  | done (tag kind : Nat) (result : Result) (value : Nat)
  | ring (line bursts : Nat)
  | ringStopped (line bursts : Nat)
  | answered (line : Nat) (dir : LineDir) (call : Option Nat)
  | released (line : Nat) (dir : LineDir) (cause : Cause)
  | attemptEnded (line : Nat) (cause : Cause) (sequence billed duration : Nat) (call : Option Nat)
  | lineFault (line dead : Nat)
  | pageStored (ctx doc page : Nat) (truncated poor : Bool) (lines bytes damaged : Nat)
  | docClosed (ctx doc desk pages : Nat) (incomplete : Bool)
  | pageSent (line call page slots : Nat)
  | docSent (line call accepted unaccepted : Nat)
  | printDone (job doc pages : Nat) (cancelled short corrupt restart : Bool)
  | pageCorrupt (doc page line : Nat)
  | docFreed (doc pages blocks : Nat)
  | storeLow (free mark : Nat)
  | storeFull (ctx doc page : Nat) (cause : StoreCause)
  | callEnded (call : Nat) (outcome : Cause) (attempts accepted doc desk : Nat)
  | budgetReached (desk total limit : Nat)
  | protectFault (address master : Nat) (cause : FaultCause)
  | consumerStall (ctx ready : Nat)
  | indexBad (index value count : Nat)
  | lost (count : Nat)
deriving DecidableEq, Repr, Inhabited

/-- The notice unit (10 R186). -/
structure NoticeUnit where
  /-- Producer count Pn. -/
  pn : Nat
  /-- Delivered count Pd. -/
  pd : Nat
  /-- Consumer shadow Cn. -/
  cn : Nat
  lost : Nat
  /-- The class of the notice at each ring position. -/
  classes : Vector NoticeClass 128
  /-- The routing of each class, by class code. -/
  routes : Vector Target 7
deriving DecidableEq, Repr, Inhabited

/-! ## The memory path (03) -/

/-- Kinds of aperture (R43), with the line of the line rings. -/
inductive ApKind where
  | through
  | scanRing
  | rxRing (line : Nat)
  | printRing
  | txRing (line : Nat)
deriving DecidableEq, Repr, Inhabited

/-- An enabled aperture entry (R43). Fields its kind does not use are 0. -/
structure Aperture where
  base : Nat
  logSize : Nat
  kind : ApKind
  slotSize : Nat
  slotCount : Nat
  overwrite : Bool
deriving DecidableEq, Repr, Inhabited

/-- What a posted write is watched for (R47). A ring slot names its ingest context too. -/
inductive Watch where
  | none
  | producer
  | consumer
  | both
  | slot (entry ctx slot : Nat) (completing : Bool)
deriving DecidableEq, Repr, Inhabited

/-- A posted write: the address of its first word, its words, its master and its watch (R47). -/
structure Posted where
  addr : Nat
  words : List BusWord
  master : Nat
  watch : Watch
deriving DecidableEq, Repr, Inhabited

/-- The read held at the S-port (R50, R54). -/
structure HeldRead where
  addr : Nat
  words : Nat
  master : Nat
  /-- For a read of a READY render slot: context, slot, and whether it is completing (R71). -/
  slot : Option (Nat × Nat × Bool)
  /-- The wait set, as positions in the posting queue counted from the oldest entry. -/
  waits : List Nat
  /-- The drain of the oldest entry began waiting before this read did (R54). -/
  behindDrain : Bool
deriving DecidableEq, Repr, Inhabited

/-- A response given on the S-port (R38). -/
inductive Response where
  | done (data : List Word)
  | retry
  | fault
deriving DecidableEq, Repr, Inhabited

/-- S-port, path decoder and posting queue. -/
structure Path where
  strap : Nat
  apertures : Vector (Option Aperture) 12
  ordered : Vector Bool 16
  posted : List Posted
  held : Option HeldRead
  response : Option Response
deriving DecidableEq, Repr, Inhabited

/-- The arbiter's classes (R52). -/
inductive OpClass where
  | through
  | engine
deriving DecidableEq, Repr, Inhabited

/-- Share settings (R53). -/
inductive Share where
  | threeOne
  | oneOne
  | oneThree
deriving DecidableEq, Repr, Inhabited

/-- The status words written by "unless one is already waiting" (10 R189); the notice producer word has its own
operation. -/
inductive StatusWord where
  | consumer | lost | freeBlocks | clock | lineStates | logNext
deriving DecidableEq, Repr, Inhabited

/-- The markers of a render slot (04 R61). -/
structure Markers where
  line : Bool
  endPage : Bool
  endDoc : Bool
  cut : Bool
deriving DecidableEq, Repr, Inhabited

/-- Operations of the RECORD requester (R55). -/
inductive RecordOp where
  /-- RECORD_READ of the request record at a ring position (10 R180). -/
  | requestRead (position : Nat)
  /-- RECORD_READ of `length` bytes of a tariff image (09 R164). -/
  | tariffRead (address length : Nat)
  /-- RECORD_WRITE of a status word, with the value it has when served. -/
  | word (w : StatusWord)
  /-- RECORD_WRITE of the notice producer word, carrying `value` (10 R186). -/
  | noticeProducer (value : Nat)
  /-- RECORD_WRITE of a notice at a ring position. -/
  | notice (position : Nat) (n : Notice)
  /-- RECORD_WRITE of a call log entry (09 R179). -/
  | logEntry (address : Nat) (bytes : List Byte)
  /-- RECORD_WRITE of a report record (10 R184). -/
  | reportRecord (address : Nat) (bytes : List Byte)
deriving DecidableEq, Repr, Inhabited

/-- Operations of the line, SCAN and PRINT requesters (R52, R55). -/
inductive EngineOp where
  /-- SLOT_READ of an ingest slot: `width` pels at `address`, the tag word at `tagAddress` (04 R66). -/
  | slotRead (ctx slot address tagAddress width : Nat)
  /-- SLOT_WRITE of a render slot (04 R70): `pels` absent for a NO-LINE slot; `pageEnd`: the page's end slot (06 R103);
  `final`: the slot that ends the work (06 R108, R115); `orphan`: its ring has been unbound since. -/
  | slotWrite (ctx slot address tagAddress : Nat) (pels : Option (List Bool)) (markers : Markers) (sequence : Nat)
      (pageEnd final orphan : Bool)
  /-- BLOCK_READ of a block of a page record (06 R98). -/
  | blockRead (ctx page address : Nat)
  /-- BLOCK_WRITE of a block of a page record, with the bits it carries (05 R84). -/
  | blockWrite (ctx page address : Nat) (bits : List Bool)
deriving DecidableEq, Repr, Inhabited

/-- What holds the M-port. -/
inductive PortOp where
  | drain
  | read
  | record (op : RecordOp)
  | engine (op : EngineOp)
deriving DecidableEq, Repr, Inhabited

/-- The M-port and its arbiter (R52 to R55). -/
structure MPort where
  busy : Option PortOp
  records : List RecordOp
  lineOps : Vector (List EngineOp) 4
  scanOps : List EngineOp
  printOps : List EngineOp
  share : Share
  turn : OpClass
  turnCount : Nat
  lastLine : Nat
deriving DecidableEq, Repr, Inhabited

/-! ## Ingest (01, 04, 05) -/

/-- States of an ingest slot (04 R62). -/
inductive IngestSlotState where
  | empty | filled | coding
deriving DecidableEq, Repr, Inhabited

/-- An ingest slot with its marks (04 R62). -/
structure IngestSlot where
  st : IngestSlotState
  readServed : Bool
  posted : Bool
  overrun : Bool
deriving DecidableEq, Repr, Inhabited

/-- A bound ingest ring: the geometry it was bound with, its slots and its next-take position (04 R58, R62). -/
structure IngestRing where
  entry : Nat
  base : Nat
  slotSize : Nat
  overwrite : Bool
  slots : List IngestSlot
  next : Nat
deriving DecidableEq, Repr, Inhabited

/-- A coder (01 R7). `run` is the open SAME run, 0 for none; `buffer` the placed bits of the block being filled. -/
structure Coder where
  ref : List Bool
  run : Nat
  buffer : List Bool
  bitLength : Nat
  placed : Nat
deriving DecidableEq, Repr, Inhabited

/-- A line code to be placed: its bits, the lines it stands for, and the line that becomes the reference line. -/
structure LineCode where
  bits : List Bool
  lines : Nat
  ref : Option (List Bool)
deriving DecidableEq, Repr, Inhabited

/-- What an ingest context has still to do in the coding step, close or stop in progress (05 R79 to R93). -/
inductive Task where
  /-- Open a page (R80). -/
  | openPage
  /-- `k` lost lines are to be handed in or thrown away (R81, R87). -/
  | lost (k : Nat)
  /-- The slot's line, or a replacement for a bad one (R81). -/
  | line (pels : Option (List Bool))
  /-- Place the codes of one line in order; the first has `start` bits of the buffer before it and `rest` to place. -/
  | place (codes : List LineCode)
  /-- The first code is part placed: `before` bits stood in the buffer before it, `rest` are left. -/
  | placing (before : Nat) (rest : List Bool) (codes : List LineCode)
  /-- Act on the slot's markers (R88). -/
  | marks (endPage endDoc : Bool)
  /-- The coding step ends (04 R66). -/
  | endStep
  /-- Emit the open SAME run at a close (R89). -/
  | emitRun
  /-- Issue the last block's write once no write of the page is in flight (R89). -/
  | lastWrite
  /-- Once every write has completed the page is CLOSED (02 R28). -/
  | pageClosed
  /-- Leave CLOSING for the after-close state (R89). -/
  | afterClose
  /-- Act on the recorded stop (R92). -/
  | stopAct
  /-- Free the discarded page once its writes have completed (R93). -/
  | discardPage
  /-- Close the document (R90); `stopped` if the close comes from a stop. -/
  | docClose (stopped : Bool)
  /-- The stop has finished (R92). -/
  | stopDone
deriving DecidableEq, Repr, Inhabited

/-- The state of an ingest context below a stop (05 R76). -/
inductive IngestPhase where
  | idle | ready | page | discard | closing
deriving DecidableEq, Repr, Inhabited

/-- Where a recorded stop comes from: an INGEST_STOP with its tag, or a line release or warm restart (R92 to R95). -/
inductive StopSource where
  | request (tag : Nat)
  | noRequest
deriving DecidableEq, Repr, Inhabited

/-- A recorded stop: its mode, its source and the document its DONE names (R92). -/
structure Stop where
  keep : Bool
  source : StopSource
  doc : Nat
deriving DecidableEq, Repr, Inhabited

/-- An ingest context (05 R76). Contexts are numbered 0 (SCAN), 1 to 4 (LINE0 to LINE3). -/
structure IngestCtx where
  phase : IngestPhase
  stop : Option Stop
  doc : Option Nat
  width : Nat
  res : Nat
  lineTotal : Nat
  badRun : Nat
  poorLimit : Nat
  afterClose : Option IngestPhase
  blockWrite : Bool
  page : Option Nat
  coder : Option Coder
  tasks : List Task
  reading : Bool
  pendingLost : Nat
  strays : Nat
  ring : Option IngestRing
deriving DecidableEq, Repr, Inhabited

/-! ## Rendering (01, 04, 06) -/

/-- States of a render slot (04 R69). -/
inductive RenderSlotState where
  | empty | writing | ready
deriving DecidableEq, Repr, Inhabited

/-- A render slot: its state, void mark, markers and sequence number (04 R69). -/
structure RenderSlot where
  st : RenderSlotState
  void : Bool
  markers : Markers
  sequence : Nat
deriving DecidableEq, Repr, Inhabited

/-- A stall timer (04 R74). -/
inductive StallTimer where
  | stopped
  | running (ticks : Nat)
  | expired
deriving DecidableEq, Repr, Inhabited

/-- A bound render ring (04 R69). `inFlight`: one of its SLOT_WRITEs has been issued and has not completed. -/
structure RenderRing where
  entry : Nat
  base : Nat
  slotSize : Nat
  slots : List RenderSlot
  next : Nat
  sequence : Nat
  inFlight : Bool
  stall : StallTimer
deriving DecidableEq, Repr, Inhabited

/-- States of a render context (06 R96). -/
inductive RenderState where
  | idle | render | waitPage | ending | pageWait | docDone
deriving DecidableEq, Repr, Inhabited

/-- The page being decoded, copied when its decode starts (06 R96). -/
structure Source where
  record : Nat
  width : Nat
  res : Nat
  lines : Nat
  bitLength : Nat
  chain : List Nat
  corrupt : Bool
deriving DecidableEq, Repr, Inhabited

/-- A decoder (01 R12). `pos` is the position of the next code; `held` the stream's bits from there to the end of the
last block read; `fetched` the number of chain blocks read. -/
structure Decoder where
  ref : List Bool
  pos : Nat
  held : List Bool
  fetched : Nat
  produced : Nat
  again : Nat
  corrupt : Bool
deriving DecidableEq, Repr, Inhabited

/-- The vertical stage (06 R100): going down the OR of the open group and its line count, going up the line and the
repeats still to give. -/
structure Vertical where
  group : List Bool
  count : Nat
  repeatLine : List Bool
  repeats : Nat
deriving DecidableEq, Repr, Inhabited

/-- A render context (06 R96). Contexts are numbered 0 (PRINT), 1 to 4 (LINE0 to LINE3 transmit). -/
structure RenderCtx where
  state : RenderState
  target : Option (Nat × Nat)
  job : Option Nat
  call : Option Nat
  copyNo : Nat
  page : Nat
  position : Nat
  source : Option Source
  decoder : Decoder
  vertical : Vertical
  reading : Bool
  readDead : Bool
  lineOut : Nat
  /-- A NO-LINE slot handed to the ring and not yet issued: its markers (04 R70). -/
  outgoing : Option Markers
  ring : Option RenderRing
deriving DecidableEq, Repr, Inhabited

/-- States of a print job (06 R105). -/
inductive JobState where
  | free | queued | active | finishing
deriving DecidableEq, Repr, Inhabited

/-- A print job record (06 R105). -/
structure Job where
  st : JobState
  doc : Nat
  first : Nat
  last : Nat
  copies : Nat
  pagesOut : Nat
  cancelled : Bool
  short : Bool
  corrupt : Bool
  restart : Bool
  endSequence : Nat
  deferred : Bool
deriving DecidableEq, Repr, Inhabited

/-- The print queue and print setup (06 R104, R105; 04 R75). -/
structure PrintUnit where
  setup : Option (Nat × Nat)
  stallSeconds : Nat
  jobs : Vector Job 16
  queue : List Nat
deriving DecidableEq, Repr, Inhabited

/-! ## The page store (02) -/

/-- States of a page record (R26). -/
inductive PageState where
  | free | opened | closed
deriving DecidableEq, Repr, Inhabited

/-- A page record (R26). -/
structure PageRecord where
  st : PageState
  doc : Nat
  number : Nat
  width : Nat
  res : Nat
  lines : Nat
  bitLength : Nat
  chain : List Nat
  damaged : Nat
  truncated : Bool
  poor : Bool
  corrupt : Bool
deriving DecidableEq, Repr, Inhabited

/-- States of a document record (R31). -/
inductive DocState where
  | free | opened | complete | doomed
deriving DecidableEq, Repr, Inhabited

/-- A document record (R31). `origin` is a context number: 0 SCAN, 1 to 4 LINE0 to LINE3. -/
structure DocRecord where
  st : DocState
  origin : Nat
  desk : Nat
  pages : List Nat
  incomplete : Bool
  holds : Nat
  createdDay : Nat
  createdSecond : Nat
deriving DecidableEq, Repr, Inhabited

/-- The store controller (R17 to R31). The free count is the length of `pool`. -/
structure Store where
  configured : Bool
  base : Nat
  blocks : Nat
  reserve : Nat
  lowMark : Nat
  pool : List Nat
  pages : Vector PageRecord 1024
  docs : Vector DocRecord 64
deriving DecidableEq, Repr, Inhabited

/-! ## Lines (07) -/

/-- Line states with the codes of 11.2 (R122). -/
inductive LineState where
  | idle | ringing | answering | seizing | awaitTone | dialling | awaitAnswer | answered | connected | releasing
deriving DecidableEq, Repr, Inhabited

/-- Connected direction (R119). -/
inductive Conn where
  | none | rx | tx
deriving DecidableEq, Repr, Inhabited

/-- What the dialler is doing within the current symbol (R127, R128, R130). `left`: pulses after the one in progress. -/
inductive DialPhase where
  | none
  | toneOn
  | toneOff
  | breaking (left : Nat)
  | making (left : Nat)
  | gap
  | pause
deriving DecidableEq, Repr, Inhabited

/-- A qualifier: its level and its count of ticks (R120). -/
structure Qualifier where
  present : Bool
  count : Nat
deriving DecidableEq, Repr, Inhabited

/-- A line's configuration (R139). -/
structure LineConfig where
  pulse : Bool
  prescale : Nat
  period : Nat
  breakCount : Nat
  gap : Nat
  toneOn : Nat
  toneOff : Nat
  pause : Nat
  toneWait : Nat
  answerWait : Nat
  settle : Nat
  ringQualify : Nat
  meterQualify : Nat
  guard : Nat
  blind : Bool
  outgoing : Bool
  meterPulses : Bool
  meterValue : Nat
  txStall : Nat
deriving DecidableEq, Repr, Inhabited

/-- A line channel and its pins (R118, R119). Timers hold the ticks left, absent when STOPPED; `phaseTimer` counts line
ticks in the tone phases and the gap, half-periods in a break or make (R129). -/
structure Line where
  state : LineState
  dir : LineDir
  call : Option Nat
  conn : Conn
  dial : List Nat
  pos : Nat
  phase : DialPhase
  phaseTimer : Option Nat
  stateTimer : Option Nat
  ringEnd : Option Nat
  settle : Option Nat
  /-- The pulse train period of R121 runs. -/
  train : Bool
  ringQ : Qualifier
  dtQ : Qualifier
  btQ : Qualifier
  atQ : Qualifier
  mpQ : Qualifier
  loopLoss : Nat
  bursts : Nat
  cause : Option Cause
  skipped : Nat
  dead : Nat
  hook : Bool
  toneOn : Bool
  digit : Nat
  inputs : LineInputs
  cfg : LineConfig
deriving DecidableEq, Repr, Inhabited

/-! ## The call queue (08) -/

/-- States of a call record (R142). -/
inductive CallState where
  | free | waiting | active
deriving DecidableEq, Repr, Inhabited

/-- A call record (R142). `resends` lists a page number once for each resend of it in this attempt. -/
structure CallRecord where
  st : CallState
  dest : List Nat
  access : Nat
  desk : Nat
  doc : Nat
  first : Nat
  last : Nat
  flash : Bool
  allowed : Nat
  retry : Nat
  mask : List Nat
  line : Option Nat
  made : Nat
  answeredAttempt : Nat
  accepted : List Nat
  resends : List Nat
  charge : Nat
  sequence : Nat
  ready : Nat
deriving DecidableEq, Repr, Inhabited

/-- The call scheduler (R142 to R153). -/
structure CallUnit where
  records : Vector CallRecord 32
  schedule : Nat
  acceptance : Nat
  lfsr : Nat
  limit : Nat
deriving DecidableEq, Repr, Inhabited

/-! ## The charge unit (09) -/

/-- A band: start minute and rate class (R163). -/
structure Band where
  start : Nat
  cls : Nat
deriving DecidableEq, Repr, Inhabited

/-- A number prefix and its zone (R163). -/
structure ZonePrefix where
  digits : List Nat
  zone : Nat
deriving DecidableEq, Repr, Inhabited

/-- A rate table entry: unit length in seconds and unit charge (R163). -/
structure Rate where
  seconds : Nat
  charge : Nat
deriving DecidableEq, Repr, Inhabited

/-- A tariff (R163). Entry 8z + c of `rates` is zone z, class c. -/
structure Tariff where
  dayMap : List Nat
  bands : List (List Band)
  prefixes : List ZonePrefix
  defaultZone : Nat
  setup : List Nat
  rates : List Rate
deriving DecidableEq, Repr, Inhabited

/-- A tariff load in progress (R164): the bytes read so far. -/
structure Load where
  tag : Nat
  address : Nat
  bytes : List Byte
deriving DecidableEq, Repr, Inhabited

/-- An attempt record (R167). `opened` is the state OPEN. `rxGone`: the receive document has been freed since, so that its
number, if opened again, names another (log 27). -/
structure Attempt where
  opened : Bool
  outward : Bool
  call : Option Nat
  desk : Option Nat
  rxDoc : Option Nat
  rxGone : Bool
  meterPulses : Bool
  meterValue : Nat
  answered : Bool
  answerDay : Nat
  answerSecond : Nat
  zone : Option Nat
  duration : Nat
  unitTimer : Option Nat
  units : Nat
  pulses : Nat
  tariffCharge : Nat
  billed : Nat
  pages : Nat
deriving DecidableEq, Repr, Inhabited

/-- A desk account (R173). -/
structure Account where
  total : Nat
  limit : Nat
  blocked : Bool
  answered : Nat
  sent : Nat
  received : Nat
deriving DecidableEq, Repr, Inhabited

/-- The call log region and its write position (R179). -/
structure LogRegion where
  address : Nat
  count : Nat
  position : Nat
deriving DecidableEq, Repr, Inhabited

/-- The charge unit (R160 to R179). -/
structure ChargeUnit where
  day : Nat
  second : Nat
  tick : Nat
  holiday : Bool
  tariff : Tariff
  load : Option Load
  attempts : Vector Attempt 4
  accounts : Vector Account 64
  logSeq : Nat
  log : Option LogRegion
deriving DecidableEq, Repr, Inhabited

/-! ## The request unit (10) -/

/-- Kinds of report (R184). -/
inductive ReportKind where
  | documents | pages | accounts | calls | lines
deriving DecidableEq, Repr, Inhabited

/-- A report in progress (R184): records written so far and the number of the next object to look at. -/
structure Report where
  tag : Nat
  kind : ReportKind
  doc : Nat
  address : Nat
  written : Nat
  next : Nat
  /-- The document of a PAGES report has been freed (02 R37). -/
  ended : Bool
deriving DecidableEq, Repr, Inhabited

/-- A warm restart in progress: its tag and the ingest contexts it has stopped that are not yet IDLE (R185). -/
structure Restart where
  tag : Nat
  awaited : List Nat
deriving DecidableEq, Repr, Inhabited

/-- The request unit (R180, R183). -/
structure RequestUnit where
  producer : Nat
  consumer : Nat
  taking : Bool
  report : Option Report
  restart : Option Restart
deriving DecidableEq, Repr, Inhabited

/-! ## The part and the machine -/

/-- Everything the part holds. -/
structure Chip where
  path : Path
  mport : MPort
  ingest : Vector IngestCtx 5
  render : Vector RenderCtx 5
  print : PrintUnit
  store : Store
  lines : Vector Line 4
  calls : CallUnit
  charge : ChargeUnit
  req : RequestUnit
  notices : NoticeUnit
  subTick : Nat
  tickIndex : Nat
  freeIndex : Nat
deriving DecidableEq, Repr, Inhabited

/-- The machine: the commands waiting, page memory, and the part. -/
structure State where
  /-- The commands that wait, first in first out. -/
  pending : List Instr
  /-- Page memory: addresses strictly rising, no byte listed that reads 0. -/
  mem : List Host.Cell
  chip : Chip
deriving DecidableEq, Repr

/-! ## Reset values -/

/-- No markers. -/
def Markers.clear : Markers := ⟨false, false, false, false⟩

/-- A qualifier at ABSENT with count 0 (07 R120). -/
def Qualifier.restarted : Qualifier := ⟨false, 0⟩

/-- An ingest slot as a binding leaves it (03 R45). -/
def IngestSlot.fresh : IngestSlot := ⟨.empty, false, false, false⟩

/-- A render slot as a binding leaves it (04 R69). -/
def RenderSlot.fresh : RenderSlot := ⟨.empty, false, .clear, 0⟩

/-- An ingest context after a hardware reset (05 R76, R95). -/
def IngestCtx.reset : IngestCtx where
  phase := .idle
  stop := none
  doc := none
  width := 0
  res := 0
  lineTotal := 0
  badRun := 0
  poorLimit := 8
  afterClose := none
  blockWrite := false
  page := none
  coder := none
  tasks := []
  reading := false
  pendingLost := 0
  strays := 0
  ring := none

/-- A decoder that decodes nothing (01 R12). -/
def Decoder.blank : Decoder := ⟨[], 0, [], 0, 0, 0, false⟩

/-- A vertical stage that holds nothing (06 R100). -/
def Vertical.blank : Vertical := ⟨[], 0, [], 0⟩

/-- A render context after a hardware reset (06 R96). -/
def RenderCtx.reset : RenderCtx where
  state := .idle
  target := none
  job := none
  call := none
  copyNo := 0
  page := 0
  position := 0
  source := none
  decoder := .blank
  vertical := .blank
  reading := false
  readDead := false
  lineOut := 0
  outgoing := none
  ring := none

/-- A FREE job record (06 R105). -/
def Job.free : Job := ⟨.free, 0, 0, 0, 0, 0, false, false, false, false, 0, false⟩

/-- A FREE page record (02 R26). -/
def PageRecord.free : PageRecord := ⟨.free, 0, 0, 0, 0, 0, 0, [], 0, false, false, false⟩

/-- A FREE document record (02 R31). -/
def DocRecord.free : DocRecord := ⟨.free, 0, 0, [], false, 0, 0, 0⟩

/-- The configuration of a line after a hardware reset (07 R139). -/
def LineConfig.reset : LineConfig where
  pulse := false
  prescale := 64
  period := 50
  breakCount := 31
  gap := 768
  toneOn := 100
  toneOff := 100
  pause := 2
  toneWait := 5
  answerWait := 45
  settle := 64
  ringQualify := 205
  meterQualify := 20
  guard := 2048
  blind := false
  outgoing := true
  meterPulses := false
  meterValue := 0
  txStall := 5

/-- A line after a hardware reset (07 R119, R140). -/
def Line.reset : Line where
  state := .idle
  dir := .none
  call := none
  conn := .none
  dial := []
  pos := 0
  phase := .none
  phaseTimer := none
  stateTimer := none
  ringEnd := none
  settle := none
  train := false
  ringQ := .restarted
  dtQ := .restarted
  btQ := .restarted
  atQ := .restarted
  mpQ := .restarted
  loopLoss := 0
  bursts := 0
  cause := none
  skipped := 0
  dead := 0
  hook := false
  toneOn := false
  digit := 0
  inputs := {}
  cfg := .reset

/-- A FREE call record (08 R142). -/
def CallRecord.free : CallRecord :=
  ⟨.free, [], 0, 0, 0, 0, 0, false, 0, 0, [], none, 0, 0, [], [], 0, 0, 0⟩

/-- The null tariff (09 R163). -/
def Tariff.null : Tariff where
  dayMap := List.replicate 7 0
  bands := List.replicate 3 [⟨0, 0⟩]
  prefixes := []
  defaultZone := 0
  setup := List.replicate 16 0
  rates := List.replicate 128 ⟨60, 0⟩

/-- An attempt record in state NONE (09 R167). -/
def Attempt.closed : Attempt where
  opened := false
  outward := false
  call := none
  desk := none
  rxDoc := none
  rxGone := false
  meterPulses := false
  meterValue := 0
  answered := false
  answerDay := 0
  answerSecond := 0
  zone := none
  duration := 0
  unitTimer := none
  units := 0
  pulses := 0
  tariffCharge := 0
  billed := 0
  pages := 0

/-- A desk account after a hardware reset (09 R173). -/
def Account.reset : Account := ⟨0, 0, false, 0, 0, 0⟩

/-- The memory path after a hardware reset with the given straps (03 R57). -/
def Path.reset (strap : Nat) : Path where
  strap := strap
  apertures := Vector.replicate 12 none
  ordered := Vector.replicate 16 true
  posted := []
  held := none
  response := none

/-- The M-port after a hardware reset: the seven status word writes wait (03 R57, 10 R189). -/
def MPort.reset : MPort where
  busy := none
  records := [.word .consumer, .noticeProducer 0, .word .lost, .word .freeBlocks, .word .clock, .word .lineStates,
    .word .logNext]
  lineOps := Vector.replicate 4 []
  scanOps := []
  printOps := []
  share := .threeOne
  turn := .through
  turnCount := 0
  lastLine := 3

/-- The store after a hardware reset (02 R19). -/
def Store.reset : Store where
  configured := false
  base := 0
  blocks := 0
  reserve := 0
  lowMark := 0
  pool := []
  pages := Vector.replicate 1024 .free
  docs := Vector.replicate 64 .free

/-- The part after a hardware reset with the given straps. -/
def Chip.reset (strap : Nat) : Chip where
  path := .reset strap
  mport := .reset
  ingest := Vector.replicate 5 .reset
  render := Vector.replicate 5 .reset
  print := ⟨none, 10, Vector.replicate 16 .free, []⟩
  store := .reset
  lines := Vector.replicate 4 .reset
  calls := ⟨Vector.replicate 32 .free, 0, 0, 1, 3⟩
  charge := ⟨0, 0, 0, false, .null, none, Vector.replicate 4 .closed, Vector.replicate 64 .reset, 0, none⟩
  req := ⟨0, 0, false, none, none⟩
  notices := ⟨0, 0, 0, 0, Vector.replicate 128 .request, Vector.replicate 7 .int0⟩
  subTick := 0
  tickIndex := 0
  freeIndex := 0

/-- The machine right after a hardware reset with the straps at 0 (log 2): nothing waits, memory lists nothing. -/
def State.reset : State where
  pending := []
  mem := []
  chip := .reset 0

end Sys2Proof.Machine
end

