-- ==== Sys2Proof/Machine/Ops.lean ====
section
/-! DEFINITION. Named operations over page memory, over the part's tables, over the M-port's waiting operations and over
the notice ring. A block of the 4F20 has no exception to take: an error is a notice, a result or a bus response. -/

namespace Sys2Proof.Machine

/-! ## Page memory -/

/-- The byte at an address; a byte that nothing has written reads 0 (log 1). -/
def memRead : List Host.Cell → Nat → Byte
  | [], _ => 0
  | (k, b) :: m, a => if k = a then b else memRead m a

/-- Memory with one byte written, in canonical form: a byte written 0 is not listed. -/
def memWrite : List Host.Cell → Nat → Byte → List Host.Cell
  | [], a, b => if b = 0 then [] else [(a, b)]
  | (k, x) :: m, a, b =>
    if a < k then if b = 0 then (k, x) :: m else (a, b) :: (k, x) :: m
    else if a = k then if b = 0 then m else (a, b) :: m
    else (k, x) :: memWrite m a b

/-- Addresses rise strictly from above `low`, and no entry reads as an unlisted byte does. -/
def memWfFrom : (low : Nat) → List Host.Cell → Bool
  | _, [] => true
  | low, (k, b) :: m => decide (low ≤ k) && (b != 0) && memWfFrom (k + 1) m

/-- Memory is in canonical form. -/
def memWf (m : List Host.Cell) : Bool := memWfFrom 0 m

/-- Bytes written at rising addresses. -/
def memWriteBytes : List Host.Cell → Nat → List Byte → List Host.Cell
  | m, _, [] => m
  | m, a, b :: bs => memWriteBytes (memWrite m a b) (a + 1) bs

/-- `n` bytes read at rising addresses. -/
def memReadBytes (m : List Host.Cell) : (a n : Nat) → List Byte
  | _, 0 => []
  | a, n + 1 => memRead m a :: memReadBytes m (a + 1) n

/-- Addresses are 32 bits: the first address past the last (00_scope 5.2). -/
abbrev addressSpace : Nat := 2 ^ 32

/-- `n` bytes read at rising addresses by a RECORD_READ; a byte past the last address is free (log 13). -/
def memReadPast (k : Nat) (m : List Host.Cell) : (a n : Nat) → List Byte
  | _, 0 => []
  | a, n + 1 => (if a < addressSpace then memRead m a else Config.pastByte k a) :: memReadPast k m (a + 1) n

/-- Where a RECORD_WRITE puts the byte of an address: there, or, past the last address, at a place that is free, if
anywhere (log 13). -/
def recordPlace (k a : Nat) : Option Nat :=
  if a < addressSpace then some a else (Config.pastPlace k a).map BitVec.toNat

/-- Bytes written at rising addresses by a RECORD_WRITE, past the last address too (log 13). -/
def memWritePast (k : Nat) : List Host.Cell → Nat → List Byte → List Host.Cell
  | m, _, [] => m
  | m, a, b :: bs =>
    memWritePast k
      (match recordPlace k a with
        | some x => memWrite m x b
        | none => m) (a + 1) bs

/-- One bus word written with its byte enables (03 R38). -/
def memWriteWord (m : List Host.Cell) (a : Nat) (w : BusWord) : List Host.Cell :=
  (List.range 4).foldl
    (fun m i => if w.enables.getLsbD i then memWrite m (a + i) (w.data.extractLsb' (8 * i) 8) else m) m

/-- The words of a transaction written at consecutive word addresses (03 R38). -/
def memWriteWords : List Host.Cell → Nat → List BusWord → List Host.Cell
  | m, _, [] => m
  | m, a, w :: ws => memWriteWords (memWriteWord m a w) (a + 4) ws

/-- The data word at an address, little-endian (00_scope 5.2). -/
def memReadWord (m : List Host.Cell) (a : Nat) : Word := BitVec.ofNat 32 (leVal (memReadBytes m a 4))

/-- A 32-bit data word written, little-endian. -/
def memPutWord (m : List Host.Cell) (a v : Nat) : List Host.Cell := memWriteBytes m a (leBytes 4 v)

/-! ## Entries of the part's tables -/

def Chip.line (p : Chip) (n : Nat) : Line := tget p.lines n
def Chip.onLine (p : Chip) (n : Nat) (f : Line → Line) : Chip := { p with lines := tset p.lines n (f (p.line n)) }
def Chip.ing (p : Chip) (c : Nat) : IngestCtx := tget p.ingest c
def Chip.onIng (p : Chip) (c : Nat) (f : IngestCtx → IngestCtx) : Chip :=
  { p with ingest := tset p.ingest c (f (p.ing c)) }
def Chip.ren (p : Chip) (c : Nat) : RenderCtx := tget p.render c
def Chip.onRen (p : Chip) (c : Nat) (f : RenderCtx → RenderCtx) : Chip :=
  { p with render := tset p.render c (f (p.ren c)) }
def Chip.doc (p : Chip) (d : Nat) : DocRecord := tget p.store.docs d
def Chip.onDoc (p : Chip) (d : Nat) (f : DocRecord → DocRecord) : Chip :=
  { p with store := { p.store with docs := tset p.store.docs d (f (p.doc d)) } }
def Chip.pageRec (p : Chip) (r : Nat) : PageRecord := tget p.store.pages r
def Chip.onPage (p : Chip) (r : Nat) (f : PageRecord → PageRecord) : Chip :=
  { p with store := { p.store with pages := tset p.store.pages r (f (p.pageRec r)) } }
def Chip.job (p : Chip) (j : Nat) : Job := tget p.print.jobs j
def Chip.onJob (p : Chip) (j : Nat) (f : Job → Job) : Chip :=
  { p with print := { p.print with jobs := tset p.print.jobs j (f (p.job j)) } }
def Chip.callRec (p : Chip) (i : Nat) : CallRecord := tget p.calls.records i
def Chip.onCall (p : Chip) (i : Nat) (f : CallRecord → CallRecord) : Chip :=
  { p with calls := { p.calls with records := tset p.calls.records i (f (p.callRec i)) } }
def Chip.attempt (p : Chip) (n : Nat) : Attempt := tget p.charge.attempts n
def Chip.onAttempt (p : Chip) (n : Nat) (f : Attempt → Attempt) : Chip :=
  { p with charge := { p.charge with attempts := tset p.charge.attempts n (f (p.attempt n)) } }
def Chip.account (p : Chip) (d : Nat) : Account := tget p.charge.accounts d
def Chip.onAccount (p : Chip) (d : Nat) (f : Account → Account) : Chip :=
  { p with charge := { p.charge with accounts := tset p.charge.accounts d (f (p.account d)) } }
def Chip.aperture (p : Chip) (e : Nat) : Option Aperture := tget p.path.apertures e
def Chip.setAperture (p : Chip) (e : Nat) (a : Option Aperture) : Chip :=
  { p with path := { p.path with apertures := tset p.path.apertures e a } }

/-! ## Operations waiting for the M-port (03 R52, R55) -/

/-- A RECORD operation joins the RECORD requester's operations, in issue order (R55). -/
def Chip.issueRecord (p : Chip) (op : RecordOp) : Chip :=
  { p with mport := { p.mport with records := p.mport.records ++ [op] } }

/-- A RECORD_WRITE of a status word is issued unless one already waits for its grant (10 R189). -/
def Chip.issueWord (p : Chip) (w : StatusWord) : Chip :=
  if .word w ∈ p.mport.records then p else p.issueRecord (.word w)

/-- An operation of line `n`'s contexts is issued (R55). -/
def Chip.issueLine (p : Chip) (n : Nat) (op : EngineOp) : Chip :=
  { p with mport := { p.mport with lineOps := tset p.mport.lineOps n (tget p.mport.lineOps n ++ [op]) } }

/-- An operation of ingest context `c` is issued on its requester: SCAN, or its line (R55). -/
def Chip.issueIngest (p : Chip) (c : Nat) (op : EngineOp) : Chip :=
  if c = 0 then { p with mport := { p.mport with scanOps := p.mport.scanOps ++ [op] } } else p.issueLine (c - 1) op

/-- An operation of render context `c` is issued on its requester: PRINT, or its line (R55). -/
def Chip.issueRender (p : Chip) (c : Nat) (op : EngineOp) : Chip :=
  if c = 0 then { p with mport := { p.mport with printOps := p.mport.printOps ++ [op] } } else p.issueLine (c - 1) op

/-- The operation that holds the port has been served: the port is free for the next grant (R52). -/
def Chip.freePort (p : Chip) : Chip := { p with mport := { p.mport with busy := none } }

/-- An engine operation changed by `f` wherever it waits or holds the port. -/
def Chip.mapEngine (p : Chip) (f : EngineOp → EngineOp) : Chip :=
  { p with mport := { p.mport with
      busy := p.mport.busy.map fun o => match o with
        | .engine op => .engine (f op)
        | o => o
      lineOps := p.mport.lineOps.map (·.map f)
      scanOps := p.mport.scanOps.map f
      printOps := p.mport.printOps.map f } }

/-- The engine operations that wait or hold the port. -/
def Chip.engineOps (p : Chip) : List EngineOp :=
  (match p.mport.busy with
    | some (.engine op) => [op]
    | _ => []) ++ p.mport.lineOps.toList.flatten ++ p.mport.scanOps ++ p.mport.printOps

/-! ## The notice ring (10 R186) -/

/-- The class of a notice (R188). -/
def Notice.cls : Notice → NoticeClass
  | .done .. => .request
  | .ring .. | .ringStopped .. | .answered .. | .released .. | .attemptEnded .. | .lineFault .. => .line
  | .pageStored .. | .docClosed .. | .pageSent .. | .docSent .. | .printDone .. | .pageCorrupt .. | .docFreed .. => .page
  | .storeLow .. | .storeFull .. => .store
  | .callEnded .. => .call
  | .budgetReached .. => .charge
  | .protectFault .. | .consumerStall .. | .indexBad .. | .lost .. => .path

/-- The number of notices from count `a` to count `b`, modulo 65536. -/
def countDist (b a : Nat) : Nat := (b + 65536 - a) % 65536

/-- The notices unconsumed: (Pn - Cn) mod 65536 (R186). -/
def Chip.unconsumed (p : Chip) : Nat := countDist p.notices.pn p.notices.cn

/-- A notice is placed: its record and then the producer word are written, and its class recorded (R186). -/
def Chip.placeNotice (p : Chip) (n : Notice) : Chip :=
  let position := p.notices.pn % Config.noticeRing
  let pn := (p.notices.pn + 1) % 65536
  let p := (p.issueRecord (.notice position n)).issueRecord (.noticeProducer pn)
  { p with notices := { p.notices with pn := pn, classes := tset p.notices.classes position n.cls } }

/-- A notice is dropped: the lost count rises (R186). -/
def Chip.dropNotice (p : Chip) : Chip :=
  { p with notices := { p.notices with lost := satAdd 65535 p.notices.lost 1 } }.issueWord .lost

/-- A block hands the notice unit a notice: it is placed, or dropped when 128 are unconsumed (R186). -/
def Chip.send (p : Chip) (n : Notice) : Chip :=
  if p.unconsumed < Config.noticeRing then p.placeNotice n else p.dropNotice

/-- The DONE of a request (10 R182). -/
def Chip.done (p : Chip) (tag : Half) (kind : Nat) (r : Result) (value : Nat := 0) : Chip :=
  p.send (.done tag.toNat kind r value)

/-! ## Free values -/

/-- The free index moves on if an operation of `n` bytes at `a` passes the last address (log 13). -/
def Chip.pastTaken (p : Chip) (a n : Nat) : Chip :=
  if addressSpace < a + n then { p with freeIndex := p.freeIndex + 1 } else p

/-- A 32-bit count raised by `k`: where the exact value passes 32 bits the manual states none, and it is free (log 23). -/
def Chip.add32 (p : Chip) (x k : Nat) : Nat × Chip :=
  if x + k < 2 ^ 32 then (x + k, p)
  else ((Config.overflow32 p.freeIndex).toNat, { p with freeIndex := p.freeIndex + 1 })

end Sys2Proof.Machine
end

