-- ==== Sys2Proof/Machine/Flags.lean ====
section
/-! DEFINITION. Codes (11.2), slot tag words (11.4), notice records (11.6), the status words of the control area (11.3,
10 R189) and the interrupt outputs (10 R188). -/

namespace Sys2Proof.Machine

/-! ## Codes (11.2) -/

def Result.code : Result → Nat
  | .ok => 0 | .badField => 1 | .busy => 2 | .state => 3 | .noRoom => 4 | .notFound => 5 | .gone => 6 | .budget => 7
  | .badKind => 8

def Cause.code : Cause → Nat
  | .ok => 0 | .lineDead => 1 | .noTone => 2 | .busy => 3 | .noAnswer => 4 | .lineLost => 5 | .normal => 6
  | .protocol => 7 | .notFax => 8 | .aborted => 9 | .cancelled => 10 | .restart => 11 | .partialSent => 12

def NoticeClass.code : NoticeClass → Nat
  | .request => 0 | .line => 1 | .page => 2 | .store => 3 | .call => 4 | .charge => 5 | .path => 6

def LineDir.code : LineDir → Nat
  | .none => 0 | .inward => 1 | .outward => 2

def Conn.code : Conn → Nat
  | .none => 0 | .rx => 1 | .tx => 2

def LineState.code : LineState → Nat
  | .idle => 0 | .ringing => 1 | .answering => 2 | .seizing => 3 | .awaitTone => 4 | .dialling => 5
  | .awaitAnswer => 6 | .answered => 7 | .connected => 8 | .releasing => 9

def StoreCause.code : StoreCause → Nat
  | .blocks => 0 | .reserve => 1 | .records => 2 | .pages => 3

def FaultCause.code : FaultCause → Nat
  | .form => 0 | .control => 1 | .store => 2 | .ring => 3

/-- The state an ingest context shows: STOPPING while a stop is carried out (05 R92). -/
def IngestCtx.stateCode (c : IngestCtx) : Nat :=
  if c.stop.isSome then 5
  else match c.phase with
    | .idle => 0 | .ready => 1 | .page => 2 | .discard => 3 | .closing => 4

/-- The state of a transmit context; ENDING is a state of PRINT alone (06 R96). -/
def RenderState.transmitCode : RenderState → Nat
  | .idle => 0 | .render => 1 | .waitPage => 2 | .pageWait => 3 | .docDone => 4 | .ending => 0

/-- The 4-byte clock format (11.2). -/
def clockWord (day second : Nat) : Nat := day * 2 ^ 24 + second

/-- A field that is "none" is written 0xFF (11 R191). -/
def noneCode (x : Option Nat) : Nat := x.getD 0xFF

/-! ## Slot tag words (11.4) -/

/-- The render tag word: its markers and the output line sequence number (04 R61). -/
def renderTag (m : Markers) (sequence : Nat) : Nat :=
  m.line.toNat + 4 * m.endPage.toNat + 8 * m.endDoc.toNat + 16 * m.cut.toNat + 2 ^ 16 * sequence

/-- The markers of an ingest tag word: LINE, DAMAGED, END_PAGE, END_DOC (04 R60). -/
structure IngestTag where
  line : Bool
  damaged : Bool
  endPage : Bool
  endDoc : Bool
deriving DecidableEq, Repr, Inhabited

/-- The ingest tag word; its remaining bits are disregarded (04 R60, 11.4). -/
def ingestTag (w : Nat) : IngestTag := ⟨w.testBit 0, w.testBit 1, w.testBit 2, w.testBit 3⟩

/-! ## Notice records (11.6) -/

/-- The kind code of a notice and its parameters. -/
def Notice.fields : Notice → Nat × List Field
  | .done tag kind r v => (1, [(2, 2, tag), (4, 2, kind), (6, 1, r.code), (8, 4, v)])
  | .ring l b => (2, [(4, 1, l), (5, 1, b)])
  | .ringStopped l b => (3, [(4, 1, l), (5, 1, b)])
  | .answered l d c => (4, [(4, 1, l), (5, 1, d.code), (6, 1, noneCode c)])
  | .released l d c => (5, [(4, 1, l), (5, 1, d.code), (6, 1, c.code)])
  | .attemptEnded l c s b d k => (6, [(2, 1, l), (3, 1, c.code), (4, 4, s), (8, 4, b), (12, 3, d), (15, 1, noneCode k)])
  | .lineFault l d => (7, [(4, 1, l), (5, 1, d)])
  | .pageStored c d n t q ln by' dm =>
    (8, [(2, 1, c), (3, 1, d), (4, 1, n), (5, 1, t.toNat + 2 * q.toNat), (6, 2, ln), (8, 4, by'), (12, 2, dm)])
  | .docClosed c d k n i => (9, [(4, 1, c), (5, 1, d), (6, 1, k), (7, 1, n), (8, 1, i.toNat)])
  | .pageSent l c n s => (10, [(4, 1, l), (5, 1, c), (6, 1, n), (8, 4, s)])
  | .docSent l c a u => (11, [(4, 1, l), (5, 1, c), (6, 1, a), (7, 1, u)])
  | .printDone j d n c s k r =>
    (12, [(4, 1, j), (5, 1, d), (6, 2, n), (8, 1, c.toNat + 2 * s.toNat + 4 * k.toNat + 8 * r.toNat)])
  | .pageCorrupt d n l => (13, [(4, 1, d), (5, 1, n), (6, 2, l)])
  | .docFreed d n b => (14, [(4, 1, d), (5, 1, n), (8, 4, b)])
  | .storeLow f m => (15, [(4, 4, f), (8, 4, m)])
  | .storeFull c d n k => (16, [(4, 1, c), (5, 1, d), (6, 1, n), (7, 1, k.code)])
  | .callEnded i o m a d k => (17, [(4, 1, i), (5, 1, o.code), (6, 1, m), (7, 1, a), (8, 1, d), (9, 1, k)])
  | .budgetReached d t l => (18, [(4, 1, d), (8, 4, t), (12, 4, l)])
  | .protectFault a m c => (19, [(4, 4, a), (8, 1, m), (9, 1, c.code)])
  | .consumerStall c n => (20, [(4, 1, c), (5, 1, n)])
  | .indexBad i v c => (21, [(4, 1, i), (6, 2, v), (8, 2, c)])
  | .lost n => (22, [(4, 2, n)])

/-- The 16 bytes of a notice record (11.6, R191). -/
def Notice.bytes (n : Notice) : List Byte := layout 16 ((0, 1, n.fields.1) :: (1, 1, n.cls.code) :: n.fields.2)

/-! ## The control area (03 R40, 10 R189, 11.3) -/

/-- The control area is the 8 KiB from the strap value times 8 KiB (03 R40). -/
def Chip.control (p : Chip) : Nat := p.path.strap * 8192

/-- Offset of a status word (R189). -/
def StatusWord.offset : StatusWord → Nat
  | .consumer => 0x1804 | .lost => 0x1810 | .freeBlocks => 0x1814 | .clock => 0x1818 | .lineStates => 0x181C
  | .logNext => 0x1820

/-- The line states word: the four line states and the five stray flags (R189, 11.3). -/
def Chip.lineStatesWord (p : Chip) : Nat :=
  ((List.range 4).map fun n => (p.line n).state.code * 16 ^ n).sum
    + ((List.range 5).map fun c => if 0 < (p.ing c).strays then 2 ^ (16 + c) else 0).sum

/-- The value of a status word as it stands (R189). -/
def Chip.wordValue (p : Chip) : StatusWord → Nat
  | .consumer => p.req.consumer
  | .lost => p.notices.lost
  | .freeBlocks => p.store.pool.length
  | .clock => clockWord p.charge.day p.charge.second
  | .lineStates => p.lineStatesWord
  | .logNext => p.charge.logSeq

/-! ## The interrupt outputs (10 R188) -/

/-- The routing of a class. -/
def Chip.route (p : Chip) (c : NoticeClass) : Target := tget p.notices.routes c.code

/-- INTn is asserted while a position among counts Cn..Pd - 1 holds a notice of a class routed to n; when that range
would be longer than the unconsumed notices it holds no count (R188). -/
def Chip.intAsserted (p : Chip) (t : Target) : Bool :=
  let delivered := countDist p.notices.pd p.notices.cn
  decide (delivered ≤ p.unconsumed) &&
    (List.range delivered).any fun i => p.route (tget p.notices.classes ((p.notices.cn + i) % Config.noticeRing)) == t

/-- Bring one slot's stray count up; the line states word follows when it rises from 0 (10 R189, 04 R67, 05 R87). -/
def Chip.addStrays (p : Chip) (c k : Nat) : Chip :=
  let before := (p.ing c).strays
  let p := p.onIng c fun x => { x with strays := satAdd 65535 x.strays k }
  if before = 0 ∧ 0 < k then p.issueWord .lineStates else p

end Sys2Proof.Machine
end

