-- ==== Sys2Proof/Machine/Store.lean ====
section
/-! DEFINITION. The store controller (02): the free pool, page and document records, holds and freeing. -/

namespace Sys2Proof.Machine

/-! ## The free pool (R20 to R24) -/

/-- The pool takes a value; the free-blocks word follows when the free count changes (R23). -/
def Chip.setPool (p : Chip) (pool : List Nat) : Chip :=
  let q := { p with store := { p.store with pool := pool } }
  if pool.length = p.store.pool.length then q else q.issueWord .freeBlocks

/-- A block number put in its place in a rising list. -/
def insertBlock : List Nat → Nat → List Nat
  | [], b => [b]
  | x :: xs, b => if b ≤ x then b :: x :: xs else x :: insertBlock xs b

/-- All the blocks of a chain join the pool (R22). -/
def Chip.returnBlocks (p : Chip) (chain : List Nat) : Chip := p.setPool (chain.foldl insertBlock p.store.pool)

/-- A refused allocation or page open sends STORE_FULL (R25). Page 256 is written 255 by the notice's field (11 R191). -/
def Chip.storeFull (p : Chip) (ctx doc page : Nat) (cause : StoreCause) : Chip :=
  p.send (.storeFull ctx doc page cause)

/-- An allocation request of ingest context `ctx` for a page of document `d` (R21, R24, R25): the lowest block of the
pool, or none with STORE_FULL. DESIGN CHOICE (log 37): the free-blocks word's write is issued before STORE_LOW's. -/
def Chip.allocate (p : Chip) (ctx d page : Nat) : Option Nat × Chip :=
  match p.store.pool with
  | [] => (none, p.storeFull ctx d page .blocks)
  | b :: rest =>
    if (p.doc d).origin = 0 ∧ p.store.pool.length ≤ p.store.reserve then (none, p.storeFull ctx d page .reserve)
    else
      let q := p.setPool rest
      (some b, if rest.length = p.store.lowMark then q.send (.storeLow rest.length p.store.lowMark) else q)

/-! ## Page records (R26 to R30) -/

/-- A refused page open: STORE_FULL, and the document is INCOMPLETE (R25, R33). -/
def Chip.refuseOpen (p : Chip) (d : Nat) : Chip := p.onDoc d fun x => { x with incomplete := true }

/-- A page open of document `d` by ingest context `ctx` with width `w` and resolution `res` (R27): the page record, or
none when refused. -/
def Chip.openPage (p : Chip) (ctx d w res : Nat) : Option Nat × Chip :=
  let number := (p.doc d).pages.length + 1
  if 255 ≤ (p.doc d).pages.length then (none, (p.storeFull ctx d number .pages).refuseOpen d)
  else match tfind p.store.pages (·.st == .free) with
    | none => (none, (p.storeFull ctx d number .records).refuseOpen d)
    | some r =>
      match p.allocate ctx d number with
      | (none, p) => (none, p.refuseOpen d)
      | (some b, p) =>
        let p := p.onPage r fun _ =>
          { PageRecord.free with st := .opened, doc := d, number := number, width := w, res := res, chain := [b] }
        (some r, p.onDoc d fun x => { x with pages := x.pages ++ [r] })

/-- The page record takes its line count and bit length and becomes CLOSED (R28). -/
def Chip.closeRecord (p : Chip) (r lines bits : Nat) : Chip :=
  p.onPage r fun x => { x with st := .closed, lines := lines, bitLength := bits }

/-- A page record is freed: its blocks return, it leaves its document's list and becomes FREE (R29). -/
def Chip.freePage (p : Chip) (r : Nat) : Chip :=
  let x := p.pageRec r
  let p := (p.returnBlocks x.chain).onDoc x.doc fun d => { d with pages := d.pages.filter (· != r) }
  p.onPage r fun _ => .free

/-- Answers to a render context's question for a page (R30). -/
inductive PageAnswer where
  | closed (record : Nat)
  | notYet
  | ended
deriving DecidableEq, Repr, Inhabited

/-- The answer for page `n` of document `d` (R30). -/
def Chip.askPage (p : Chip) (d n : Nat) : PageAnswer :=
  match (p.doc d).pages[n - 1]? with
  | some r => if (p.pageRec r).st = .closed then .closed r else .notYet
  | none => if (p.doc d).st = .opened then .notYet else .ended

/-! ## Document records (R31 to R36) -/

/-- A document open (R32): the result of its refusal, or the document number. -/
def Chip.openDoc (p : Chip) (origin desk : Nat) : Except Result (Nat × Chip) :=
  if !p.store.configured then .error .state
  else match tfind p.store.docs (·.st == .free) with
    | none => .error .noRoom
    | some d => .ok (d, p.onDoc d fun _ =>
        { DocRecord.free with st := .opened, origin := origin, desk := desk,
                              createdDay := p.charge.day, createdSecond := p.charge.second })

/-- A BLOCK_READ of a page of the document is in flight (R29, R36). -/
def Chip.docReads (p : Chip) (d : Nat) : Bool :=
  p.engineOps.any fun op => match op with
    | .blockRead _ r _ => (p.doc d).pages.contains r
    | _ => false

/-- A PAGES report of a freed document ends (R37). -/
def Report.docFreed (d : Nat) (r : Report) : Report :=
  if r.kind = .pages ∧ r.doc = d then { r with ended := true } else r

/-- The receive document of an attempt has been freed (09 R172; log 27). -/
def Attempt.docFreed (d : Nat) (a : Attempt) : Attempt := if a.rxDoc = some d then { a with rxGone := true } else a

/-- A document is freed: its pages last first, then its record, then DOC_FREED; a PAGES report of it ends (R36, R37), and
an attempt that received it has it no longer (log 27). -/
def Chip.freeDoc (p : Chip) (d : Nat) : Chip :=
  let pages := (p.doc d).pages
  let blocks := (pages.map fun r => (p.pageRec r).chain.length).sum
  let p := pages.reverse.foldl Chip.freePage p
  let p := p.onDoc d fun _ => .free
  let p := { p with req := { p.req with report := p.req.report.map (Report.docFreed d) } }
  let p := { p with charge := { p.charge with attempts := p.charge.attempts.map (Attempt.docFreed d) } }
  p.send (.docFreed d pages.length blocks)

/-- A DOOMED document without holds and without block reads in flight is freed (R36). -/
def Chip.tryFree (p : Chip) (d : Nat) : Chip :=
  if (p.doc d).st = .doomed ∧ (p.doc d).holds = 0 ∧ p.docReads d = false then p.freeDoc d else p

/-- A hold is taken (R34). -/
def Chip.takeHold (p : Chip) (d : Nat) : Chip := p.onDoc d fun x => { x with holds := x.holds + 1 }

/-- A hold is released; a DOOMED document's last release starts its freeing (R34, R36). -/
def Chip.releaseHold (p : Chip) (d : Nat) : Chip := (p.onDoc d fun x => { x with holds := x.holds - 1 }).tryFree d

/-- The document takes no new reference (R34). -/
def Chip.docGone (p : Chip) (d : Nat) : Bool := (p.doc d).st == .free || (p.doc d).st == .doomed

/-- The document will get no more pages (R30, R151). -/
def Chip.docEnded (p : Chip) (d : Nat) : Bool := (p.doc d).st == .complete || (p.doc d).st == .doomed

/-- Address of a block of the store (R18). -/
def Chip.blockAddress (p : Chip) (b : Nat) : Nat := p.store.base + b * 1024

/-- A region overlaps the control area, or the page store region while a store is configured (R184, R179). -/
def Chip.protectedOverlap (p : Chip) (a n : Nat) : Bool :=
  overlaps a n p.control 8192 || (p.store.configured && overlaps a n p.store.base (p.store.blocks * 1024))

end Sys2Proof.Machine
end

