-- ==== Sys2Proof/Machine/Accounts.lean ====
section
/-! DEFINITION. The charge unit (09): day types, tariff selection, posting, the attempt records, and the call log. -/

namespace Sys2Proof.Machine

/-! ## Tariff selection (R162, R163, R166) -/

/-- The day type in force (R162). -/
def ChargeUnit.dayType (c : ChargeUnit) : Nat := if c.holiday then 2 else c.tariff.dayMap.getD c.day 0

/-- The minute of day (R160). -/
def ChargeUnit.minute (c : ChargeUnit) : Nat := c.second / 60

/-- The class in force: that of the last band whose start is at or below the minute (R163). -/
def classAt (bands : List Band) (minute : Nat) : Nat :=
  match (bands.filter fun b => b.start ≤ minute).getLast? with
  | some b => b.cls
  | none => 0

/-- The rate table entry for a zone at the present day type and minute (R169). -/
def ChargeUnit.rate (c : ChargeUnit) (zone : Nat) : Rate :=
  c.tariff.rates.getD (8 * zone + classAt (c.tariff.bands.getD c.dayType []) c.minute) ⟨0, 0⟩

/-- The number part: the access symbols removed, then every PAUSE (12) and WAIT (13) (R166). -/
def numberPart (dest : List Nat) (access : Nat) : List Nat := (dest.drop access).filter (· < 12)

/-- The zone of a number part: that of the longest matching prefix, else the default zone (R166). -/
def Tariff.zoneOf (t : Tariff) (number : List Nat) : Nat :=
  let best := (t.prefixes.filter fun x => x.digits.isPrefixOf number).foldl
    (fun (acc : Option ZonePrefix) x => match acc with
      | none => some x
      | some y => if y.digits.length < x.digits.length then some x else some y) none
  match best with
  | some x => x.zone
  | none => t.defaultZone

/-! ## Posting (R171, R173) -/

/-- Largest value of a 32-bit count. -/
abbrev top32 : Nat := 4294967295

/-- The budget test after a posting (R173). -/
def Chip.testBudget (p : Chip) (desk : Nat) : Chip :=
  let a := p.account desk
  if a.limit ≠ 0 ∧ a.limit ≤ a.total ∧ a.blocked = false then
    (p.onAccount desk fun a => { a with blocked := true }).send (.budgetReached desk a.total a.limit)
  else p

/-- A posting of a charge for the attempt on line `n`: to its desk's total, its billed charge and its call's attempt
charge, and the budget is tested (R171). -/
def Chip.post (p : Chip) (n amount : Nat) : Chip :=
  match (p.attempt n).desk with
  | none => p
  | some desk =>
    let p := p.onAccount desk fun a => { a with total := satAdd top32 a.total amount }
    let p := p.onAttempt n fun a => { a with billed := satAdd top32 a.billed amount }
    let p := match (p.attempt n).call with
      | some i => p.onCall i fun c => { c with charge := satAdd top32 c.charge amount }
      | none => p
    p.testBudget desk

/-- A charge computed by the tariff: added to the tariff charge, and posted in meter mode NONE (R168, R169, R170). -/
def Chip.tariffCharge (p : Chip) (n amount : Nat) : Chip :=
  let p := p.onAttempt n fun a => { a with tariffCharge := satAdd top32 a.tariffCharge amount }
  if (p.attempt n).meterPulses then p else p.post n amount

/-! ## Attempts (R167 to R170) -/

/-- The attempt record opens at a seizure (R167). -/
def Chip.openOutward (p : Chip) (n call : Nat) : Chip :=
  p.onAttempt n fun _ => { Attempt.closed with
    opened := true, outward := true, call := some call, desk := some (p.callRec call).desk,
    meterPulses := (p.line n).cfg.meterPulses, meterValue := (p.line n).cfg.meterValue }

/-- The attempt record opens at the answer of an incoming call, answered there (R167, R168). -/
def Chip.openInward (p : Chip) (n : Nat) : Chip :=
  p.onAttempt n fun _ => { Attempt.closed with
    opened := true, meterPulses := (p.line n).cfg.meterPulses, meterValue := (p.line n).cfg.meterValue,
    answered := true, answerDay := p.charge.day, answerSecond := p.charge.second }

/-- A unit start on line `n` (R169). -/
def Chip.unitStart (p : Chip) (n : Nat) : Chip :=
  let rate := p.charge.rate ((p.attempt n).zone.getD 0)
  let p := p.onAttempt n fun a => { a with units := satAdd 65535 a.units 1 }
  let p := p.tariffCharge n rate.charge
  p.onAttempt n fun a => { a with unitTimer := some (rate.seconds * 1024) }

/-- The answer of an outgoing attempt (R168). -/
def Chip.answerOutward (p : Chip) (n : Nat) : Chip :=
  let a := p.attempt n
  let number := match a.call with
    | some i => numberPart (p.callRec i).dest (p.callRec i).access
    | none => []
  let zone := p.charge.tariff.zoneOf number
  let p := p.onAttempt n fun a =>
    { a with answered := true, answerDay := p.charge.day, answerSecond := p.charge.second, duration := 0, zone := some zone }
  let p := p.tariffCharge n (p.charge.tariff.setup.getD zone 0)
  let p := p.unitStart n
  match a.desk with
  | some d => p.onAccount d fun x => { x with answered := satAdd 65535 x.answered 1 }
  | none => p

/-- A meter pulse on line `n`: counted, and posted in PULSES mode (R170). -/
def Chip.meterPulse (p : Chip) (n : Nat) : Chip :=
  let p := p.onAttempt n fun a => { a with pulses := satAdd 65535 a.pulses 1 }
  if (p.attempt n).meterPulses then p.post n (p.attempt n).meterValue else p

/-- A page of the call on line `n` was ACCEPTED: the desk's pages sent and the attempt's pages rise (R174). -/
def Chip.countPageSent (p : Chip) (n : Nat) : Chip :=
  let p := match (p.attempt n).desk with
    | some d => p.onAccount d fun x => { x with sent := satAdd 65535 x.sent 1 }
    | none => p
  p.onAttempt n fun a => { a with pages := a.pages + 1 }

/-- A LINE-origin document became COMPLETE: its desk's documents received rises (R174). -/
def Chip.countReceived (p : Chip) (d : Nat) : Chip :=
  if (p.doc d).origin = 0 then p
  else p.onAccount (p.doc d).desk fun x => { x with received := satAdd 65535 x.received 1 }

/-! ## The end of an attempt and the call log (R172, R178, R179) -/

/-- The log entry of the attempt on line `n` released with `cause` (R178, 11.8). -/
def Chip.logEntry (p : Chip) (n : Nat) (cause : Cause) : List Byte :=
  let a := p.attempt n
  let number := match a.call with
    | some i => numberPart (p.callRec i).dest (p.callRec i).access
    | none => []
  layout 64 [(0, 4, p.charge.logSeq), (4, 1, if a.outward then 2 else 1), (5, 1, noneCode a.call), (6, 1, n),
    (7, 1, noneCode a.desk), (8, 1, noneCode a.zone), (9, 1, cause.code), (10, 1, number.length),
    (11, 1, a.answered.toNat), (12, 4, if a.answered then clockWord a.answerDay a.answerSecond else 0),
    (16, 4, a.duration), (20, 2, a.units), (22, 2, a.pulses), (24, 4, a.tariffCharge), (28, 4, a.billed),
    (32, 2, a.pages), (36, 20, leVal (packNibbles number))]

/-- The entry is written at the log's write position, which advances, if a log is set (R179). -/
def Chip.writeLog (p : Chip) (entry : List Byte) : Chip :=
  match p.charge.log with
  | none => p
  | some l =>
    let p := p.issueRecord (.logEntry (l.address + l.position * 64) entry)
    { p with charge := { p.charge with log := some { l with position := (l.position + 1) % l.count } } }

/-- The log sequence counter rises, and its status word follows (R178). -/
def Chip.nextLogSeq (p : Chip) : Chip :=
  { p with charge := { p.charge with logSeq := (p.charge.logSeq + 1) % 2 ^ 32 } }.issueWord .logNext

/-- The pages of an attempt at its end: for IN, those of the receive document's list (R172); a document freed since has an
empty list (R36; log 27). -/
def Chip.closePages (p : Chip) (n : Nat) : Chip :=
  let a := p.attempt n
  if a.outward then p
  else p.onAttempt n fun x => { x with pages := match a.rxDoc with
    | some d => if x.rxGone then 0 else (p.doc d).pages.length
    | none => 0 }

/-- The charge unit closes the attempt record of a released line, if it is OPEN (R172). -/
def Chip.closeAttempt (p : Chip) (n : Nat) (cause : Cause) : Chip :=
  if (p.attempt n).opened = false then p
  else
    let p := p.onAttempt n fun a => { a with unitTimer := none }
    let a := p.attempt n
    let p := if a.meterPulses ∧ a.outward ∧ a.answered ∧ a.pulses = 0 then p.post n a.tariffCharge else p
    let p := p.closePages n
    let entry := p.logEntry n cause
    let sequence := p.charge.logSeq
    let p := (p.nextLogSeq).writeLog entry
    let a := p.attempt n
    let p := p.send (.attemptEnded n cause sequence a.billed a.duration a.call)
    p.onAttempt n fun _ => .closed

end Sys2Proof.Machine
end

