-- ==== Sys2Proof/Machine/Coding.lean ====
section
/-! DEFINITION. Store coding (01): the line model, the four line codes and the reading of them. A line is its pels, black
true; a code is a list of bits, first bit first. -/

namespace Sys2Proof.Machine

/-! ## The line model (R1) -/

/-- The transitions from position `i` on, the pel before it being `prev` (R1). -/
def transitionsFrom : (i : Nat) → (prev : Bool) → List Bool → List Nat
  | _, _, [] => []
  | i, prev, x :: xs => if x = prev then transitionsFrom (i + 1) x xs else i :: transitionsFrom (i + 1) x xs

/-- A line's transitions: the positions whose pel differs from the one before, an imaginary white pel standing first. -/
def transitions (line : List Bool) : List Nat := transitionsFrom 0 false line

/-- The lengths between `start`, the transitions and the end `w` (R1). -/
def runsFrom (w : Nat) : (start : Nat) → List Nat → List Nat
  | start, [] => [w - start]
  | start, t :: ts => (t - start) :: runsFrom w t ts

/-- A line's runs, the first one white (R1). -/
def lineRuns (line : List Bool) : List Nat := runsFrom line.length 0 (transitions line)

/-- Runs laid down in alternating colour, the first of colour `black`. -/
def layRuns : (black : Bool) → List Nat → List Bool
  | _, [] => []
  | black, r :: rs => List.replicate r black ++ layRuns (!black) rs

/-- The line of `w` pels with the given transitions. -/
def lineOf (w : Nat) (ts : List Nat) : List Bool := layRuns false (runsFrom w 0 ts)

/-- An all-white line. -/
def whiteLine (w : Nat) : List Bool := List.replicate w false

/-! ## The codes (R3 to R6) -/

/-- The order of run codes: 3 for white, 1 for black (R4). -/
def runOrder (black : Bool) : Nat := if black then 1 else 3

/-- The run code of `v` at order `k` (R4). -/
def runCode (k v : Nat) : List Bool :=
  let m := Nat.log2 (v + 2 ^ k)
  List.replicate (m - k) false ++ bitsOf (m + 1) (v + 2 ^ k)

/-- The run codes of runs in alternating colour (R5). -/
def runCodes : (black : Bool) → List Nat → List Bool
  | _, [] => []
  | black, r :: rs => runCode (runOrder black) r ++ runCodes (!black) rs

/-- The RUNS code of a line (R5). -/
def runsCode (line : List Bool) : List Bool := [true, false] ++ runCodes false (lineRuns line)

/-- The offset code of a DELTA code; none beyond 3 either way (R6). -/
def offsetCode (d : Int) : Option (List Bool) :=
  if d = 0 then some [false]
  else if d = 1 then some [true, false, false]
  else if d = -1 then some [true, false, true]
  else if d = 2 then some [true, true, false, false]
  else if d = -2 then some [true, true, false, true]
  else if d = 3 then some [true, true, true, false, false]
  else if d = -3 then some [true, true, true, false, true]
  else none

/-- The offset codes of transitions against the reference's, if there are as many and each has a code (R6). -/
def offsetCodes : (ref ts : List Nat) → Option (List Bool)
  | [], [] => some []
  | r :: rs, t :: ts =>
    match offsetCode ((t : Int) - (r : Int)), offsetCodes rs ts with
    | some a, some b => some (a ++ b)
    | _, _ => none
  | _, _ => none

/-- The DELTA code of a line against a reference line, if it is DELTA-eligible (R6, R8). -/
def deltaCode (ref line : List Bool) : Option (List Bool) :=
  if transitions ref = [] then none
  else (offsetCodes (transitions ref) (transitions line)).map ([true, true] ++ ·)

/-- The code of a line that differs from the reference line: BLANK, DELTA if strictly shorter, else RUNS (R8). -/
def lineCode (ref line : List Bool) : List Bool :=
  if line = whiteLine line.length then [false, false]
  else match deltaCode ref line with
    | some d => if d.length < (runsCode line).length then d else runsCode line
    | none => runsCode line

/-- The SAME code of `n` lines, 1 to 64 (R3). -/
def sameCode (n : Nat) : List Bool := [false, true] ++ bitsOf 6 (n - 1)

/-! ## Reading codes (R4, R6, R12, R13) -/

/-- What reading a run code comes to: a run and the bits after it; a run past the room left; the bits run out. -/
inductive RunRead where
  | run (v : Nat) (rest : List Bool)
  | pass
  | short
deriving DecidableEq, Repr, Inhabited

/-- Reads a run code of order `k` after `z` zero bits, where `room` pels are left (R4, R13). -/
def readRun (k room : Nat) : (z : Nat) → List Bool → RunRead
  | _, [] => .short
  | z, true :: rest =>
    if rest.length < z + k then .short
    else
      let v := 2 ^ (z + k) + bitsVal (rest.take (z + k)) - 2 ^ k
      if room < v then .pass else .run v (rest.drop (z + k))
  | z, false :: rest => if room < 2 ^ (z + 1 + k) - 2 ^ k then .pass else readRun k room (z + 1) rest

/-- What reading part of a line's code comes to: everything read, corruption, or the bits run out; with what was
accepted. -/
inductive PartRead where
  | ok (accepted : List Nat) (rest : List Bool)
  | bad (accepted : List Nat)
  | short (accepted : List Nat)
deriving DecidableEq, Repr, Inhabited

/-- Reads the run codes of a line of `w` pels until they reach `w` (R5, R12, R13). `fuel` bounds the run codes read. -/
def readRuns (w : Nat) : (fuel : Nat) → (black : Bool) → (accepted : List Nat) → List Bool → PartRead
  | 0, _, accepted, _ => .short accepted
  | fuel + 1, black, accepted, bits =>
    match readRun (runOrder black) (w - accepted.sum) 0 bits with
    | .short => .short accepted
    | .pass => .bad accepted
    | .run v rest =>
      if v = 0 ∧ accepted ≠ [] then .bad accepted
      else if accepted.sum + v = w then .ok (accepted ++ [v]) rest
      else readRuns w fuel (!black) (accepted ++ [v]) rest

/-- What reading an offset code comes to. -/
inductive OffsetRead where
  | offset (d : Int) (rest : List Bool)
  | bad
  | short
deriving DecidableEq, Repr, Inhabited

/-- Reads an offset code: four 1 bits begin none (R6, R13). -/
def readOffset : List Bool → OffsetRead
  | false :: rest => .offset 0 rest
  | true :: false :: s :: rest => .offset (if s then -1 else 1) rest
  | true :: true :: false :: s :: rest => .offset (if s then -2 else 2) rest
  | true :: true :: true :: false :: s :: rest => .offset (if s then -3 else 3) rest
  | true :: true :: true :: true :: _ => .bad
  | _ => .short

/-- Reads one offset code for each reference transition; a transition outside 0..w-1, or not above the one before,
is corruption (R6, R13). -/
def readDeltas (w : Nat) : (ref accepted : List Nat) → List Bool → PartRead
  | [], accepted, bits => .ok accepted bits
  | r :: rs, accepted, bits =>
    match readOffset bits with
    | .short => .short accepted
    | .bad => .bad accepted
    | .offset d rest =>
      let t := (r : Int) + d
      let floor : Int := match accepted.getLast? with
        | some q => (q : Int) + 1
        | none => 0
      if floor ≤ t ∧ t < (w : Int) then readDeltas w rs (accepted ++ [t.toNat]) rest else .bad accepted

/-- The line made from the runs accepted before corruption, the rest white (R14). -/
def partRuns (w : Nat) (runs : List Nat) : List Bool := padBits w (layRuns false runs)

/-- The line made from the transitions accepted before corruption: white from the last of them on (R14). -/
def partTransitions (w : Nat) (ts : List Nat) : List Bool :=
  match ts.getLast? with
  | some q => padBits w (lineOf q ts.dropLast)
  | none => whiteLine w

/-- What reading one line code comes to (R12): the line, the bits after the code, the lines of it still owed, and
whether it becomes the reference line; or corruption with the current line made up white (R14); or the bits run out,
with the line R14 gives if the stream ends there. -/
inductive CodeRead where
  | line (pels : List Bool) (rest : List Bool) (again : Nat) (newRef : Bool)
  | bad (pels : List Bool)
  | short (pels : List Bool)
deriving DecidableEq, Repr, Inhabited

/-- Reads the code at the head of the bits, for a page of width `w` with `left` lines still to produce (R12, R13). -/
def readCode (w : Nat) (ref : List Bool) (left : Nat) (bits : List Bool) : CodeRead :=
  match bits with
  | false :: false :: rest => .line (whiteLine w) rest 0 true
  | false :: true :: rest =>
    if rest.length < 6 then .short (whiteLine w)
    else
      let n := bitsVal (rest.take 6) + 1
      if left < n then .bad (whiteLine w) else .line ref (rest.drop 6) (n - 1) false
  | true :: false :: rest =>
    match readRuns w (rest.length + 1) false [] rest with
    | .ok runs rest => .line (layRuns false runs) rest 0 true
    | .bad runs => .bad (partRuns w runs)
    | .short runs => .short (partRuns w runs)
  | true :: true :: rest =>
    if transitions ref = [] then .bad (whiteLine w)
    else match readDeltas w (transitions ref) [] rest with
      | .ok ts rest => .line (lineOf w ts) rest 0 true
      | .bad ts => .bad (partTransitions w ts)
      | .short ts => .short (partTransitions w ts)
  | _ => .short (whiteLine w)

/-- What the decoder comes to when asked for the next line: a line, with `met` where corruption was met during it
(R14), or it needs a block it does not hold (06 R98). -/
inductive Produced where
  | line (pels : List Bool) (d : Decoder) (met : Bool)
  | needBlock
deriving DecidableEq, Repr, Inhabited

/-- The decoder after producing a line without a code of its own. -/
def Decoder.step (d : Decoder) : Decoder := { d with produced := d.produced + 1 }

/-- The decoder's next line (R12 to R14). -/
def Decoder.next (d : Decoder) (src : Source) : Produced :=
  if d.corrupt then .line (whiteLine src.width) d.step false
  else if 0 < d.again then .line d.ref { d.step with again := d.again - 1 } false
  else
    let bits := d.held.take (src.bitLength - d.pos)
    match readCode src.width d.ref (src.lines - d.produced) bits with
    | .line pels rest again newRef =>
      let used := bits.length - rest.length
      .line pels { d.step with
        ref := if newRef then pels else d.ref, pos := d.pos + used, held := d.held.drop used, again := again } false
    | .bad pels => .line pels { d.step with corrupt := true } true
    | .short pels =>
      if src.bitLength ≤ d.pos + d.held.length then .line pels { d.step with corrupt := true } true else .needBlock

/-- A decoder at the start of a page: the reference line is white (R2, R12). -/
def Decoder.start (w : Nat) : Decoder := { Decoder.blank with ref := whiteLine w }

/-! ## The coder (R7, R8) -/

/-- A coder at page open (R7). -/
def Coder.start (w : Nat) : Coder := ⟨whiteLine w, 0, [], 0, 0⟩

/-- The SAME code of an open run, for placement. -/
def sameLineCode (n : Nat) : LineCode := ⟨sameCode n, n, none⟩

/-- The coder takes a line: the codes to place for it and the coder with its SAME run moved (R8). -/
def Coder.take (c : Coder) (line : List Bool) : Coder × List LineCode :=
  if line = c.ref then
    if c.run + 1 = 64 then ({ c with run := 0 }, [sameLineCode 64]) else ({ c with run := c.run + 1 }, [])
  else
    ({ c with run := 0 },
      (if 0 < c.run then [sameLineCode c.run] else []) ++ [⟨lineCode c.ref line, 1, some line⟩])

end Sys2Proof.Machine
end

