-- ==== Sys2Proof/Machine/Convert.lean ====
section
/-! DEFINITION. Conversion of a page's lines in resolution and width (06 R99 to R103). -/

namespace Sys2Proof.Machine

/-- Two lines merged: black where either is black (R100). -/
def orLines (a b : List Bool) : List Bool := List.zipWith (· || ·) a b

/-- A line centred in a line of `wt` pels (R101). -/
def centreLine (wt : Nat) (line : List Bool) : List Bool :=
  let o := (wt - line.length) / 2
  List.replicate o false ++ line ++ List.replicate (wt - o - line.length) false

/-- The first source pel of output pel `x` (R102). -/
def rangeStart (ws wt x : Nat) : Nat := x * ws / wt

/-- A line reduced to `wt` pels: each output pel black if any pel of its source range is (R102). -/
def reduceLine (wt : Nat) (line : List Bool) : List Bool :=
  (List.range wt).map fun x =>
    let a := rangeStart line.length wt x
    ((line.drop a).take (rangeStart line.length wt (x + 1) - a)).any id

/-- The width stage (R101, R102). -/
def fitWidth (wt : Nat) (line : List Bool) : List Bool :=
  if line.length ≤ wt then centreLine wt line else reduceLine wt line

/-- The output lines of a page of `l` lines rendered from resolution `rs` to `rt` (R100, R103). -/
def outputLines (rs rt l : Nat) : Nat :=
  if rs ≤ rt then l * (rt / rs) else (l + rs / rt - 1) / (rs / rt)

/-- The vertical stage takes a source line: the vertical line it completes, if any (R100). `last`: the page's L-th. -/
def Vertical.take (v : Vertical) (rs rt : Nat) (last : Bool) (line : List Bool) : Option (List Bool) × Vertical :=
  if rs ≤ rt then (some line, { v with repeatLine := line, repeats := rt / rs - 1 })
  else
    let group := if v.count = 0 then line else orLines v.group line
    if v.count + 1 = rs / rt ∨ last then (some group, .blank)
    else (none, { v with group := group, count := v.count + 1 })

end Sys2Proof.Machine
end

