-- ==== Sys2Proof/Machine/Render.lean ====
section
/-! DEFINITION. Render rings (04) and the render engine, the print queue and the transmit contexts (06). Render context
0 is PRINT, context n + 1 is LINE n transmit. A page's line is decoded, converted and handed to the ring when the ring
can take a slot (log 17). -/

namespace Sys2Proof.Machine

/-! ## The render ring (04 R69 to R74) -/

/-- The ring of a context changed, if one is bound. -/
def Chip.onRenRing (p : Chip) (c : Nat) (f : RenderRing → RenderRing) : Chip :=
  p.onRen c fun x => { x with ring := x.ring.map f }

/-- A render slot of a ring. -/
def RenderRing.slot (r : RenderRing) (s : Nat) : RenderSlot := r.slots.getD s .fresh

/-- READY slots of a ring. -/
def RenderRing.readyCount (r : RenderRing) : Nat := (r.slots.filter (·.st == .ready)).length

/-- The ring can take a slot: the one at the next-write position is EMPTY and no SLOT_WRITE is in flight (06 R99). -/
def RenderCtx.canTake (x : RenderCtx) : Bool :=
  match x.ring with
  | none => false
  | some r => !r.inFlight && (r.slot r.next).st == .empty

/-- The full stall time of a context's ring in line ticks (R74, R75). -/
def Chip.stallFull (p : Chip) (c : Nat) : Nat :=
  (if c = 0 then p.print.stallSeconds else (p.line (c - 1)).cfg.txStall) * 1024

/-- The ring with its next slot issued: WRITING, the position and the sequence counter advanced (R61, R70). -/
def RenderRing.issued (m : Markers) (r : RenderRing) : RenderRing :=
  { r with slots := r.slots.set r.next ⟨.writing, false, m, r.sequence⟩, next := (r.next + 1) % r.slots.length,
           sequence := (r.sequence + 1) % 65536, inFlight := true }

/-- A SLOT_WRITE is issued to the slot at the next-write position (R70). -/
def Chip.issueSlot (p : Chip) (c : Nat) (pels : Option (List Bool)) (m : Markers) (pageEnd final : Bool) : Chip :=
  match (p.ren c).ring with
  | none => p
  | some r =>
    let a := r.base + r.next * r.slotSize
    (p.issueRender c (.slotWrite c r.next a (a + r.slotSize - 4) pels m r.sequence pageEnd final false)).onRenRing c
      (RenderRing.issued m)

/-- A ring at a stop: READY slots empty, a WRITING slot is voided, position 0, timer STOPPED (R73). -/
def RenderRing.stopped (r : RenderRing) : RenderRing :=
  { r with
    slots := r.slots.map fun s => match s.st with
      | .ready => .fresh
      | .writing => { s with void := true }
      | .empty => s
    next := 0
    stall := .stopped }

/-- The stall timer when a slot becomes READY (R74). -/
def StallTimer.onReady (full : Nat) : StallTimer → StallTimer
  | .stopped => .running full
  | t => t

/-- A ring whose SLOT_WRITE to slot `s` has completed: READY, or EMPTY if the slot was voided (R70, R74). -/
def RenderRing.written (full s : Nat) (r : RenderRing) : RenderRing :=
  if (r.slot s).void then { r with slots := r.slots.set s .fresh, inFlight := false }
  else { r with slots := r.slots.set s { r.slot s with st := .ready }, inFlight := false, stall := r.stall.onReady full }

/-- A ring whose slot `s` has been consumed: EMPTY, and the timer restarted or stopped (R72, R74). -/
def RenderRing.consumed (full s : Nat) (r : RenderRing) : RenderRing :=
  let r := { r with slots := r.slots.set s .fresh }
  { r with stall := if 0 < r.readyCount then .running full else .stopped }

/-- A ring whose READY slots are emptied as PRINT ceases to be active (06 R109). -/
def RenderRing.ceased (r : RenderRing) : RenderRing :=
  { r with slots := r.slots.map fun s => if s.st = .ready then .fresh else s, stall := .stopped }

/-! ## Fetching a page (06 R97, R98) -/

/-- The document of a context's work. -/
def Chip.workDoc (p : Chip) (c : Nat) : Option Nat :=
  if c = 0 then (p.ren c).job.map fun j => (p.job j).doc else (p.ren c).call.map fun i => (p.callRec i).doc

/-- The PRINT job's CORRUPT flag (R107). -/
def Chip.markJobCorrupt (p : Chip) (c : Nat) : Chip :=
  match c, (p.ren c).job with
  | 0, some j => p.onJob j fun x => { x with corrupt := true }
  | _, _ => p

/-- A CLOSED page: its fields are copied, decoder and conversion start, and the context enters RENDER (R97). -/
def Chip.startPage (p : Chip) (c r : Nat) : Chip :=
  let x := p.pageRec r
  let src : Source := ⟨r, x.width, x.res, x.lines, x.bitLength, x.chain, x.corrupt⟩
  let p := p.onRen c fun y => { y with
    state := .render, source := some src, decoder := .start src.width, vertical := .blank, lineOut := 0 }
  if src.corrupt then p.markJobCorrupt c else p

/-- The decoder needs its next chain block: a BLOCK_READ is issued unless one is in flight (R98). -/
def Chip.needBlock (p : Chip) (c : Nat) (src : Source) : Chip :=
  if (p.ren c).reading then p
  else (p.issueRender c (.blockRead c src.record (p.blockAddress (src.chain.getD (p.ren c).decoder.fetched 0)))).onRen c
    fun x => { x with reading := true }

/-- The decoder met corruption during line `line`: the job's flag, the page's flag, and PAGE_CORRUPT if the page's was
clear (01 R14, R107). -/
def Chip.metCorruption (p : Chip) (c : Nat) (src : Source) (line : Nat) : Chip :=
  let x := p.pageRec src.record
  let p := p.markJobCorrupt c
  if x.corrupt then p
  else (p.onPage src.record fun x => { x with corrupt := true }).send (.pageCorrupt x.doc x.number line)

/-- The next vertical line of the page, if the blocks held give one (R99, R100). A vertical line takes at most four
source lines. -/
def Chip.pullLine (c : Nat) (src : Source) (rt : Nat) : (fuel : Nat) → Chip → Option (List Bool) × Chip
  | 0, p => (none, p)
  | fuel + 1, p =>
    let x := p.ren c
    if 0 < x.vertical.repeats then
      (some x.vertical.repeatLine, p.onRen c fun x => { x with vertical := { x.vertical with repeats := x.vertical.repeats - 1 } })
    else match x.decoder.next src with
      | .needBlock => (none, p.needBlock c src)
      | .line pels d met =>
        let p := p.onRen c fun x => { x with decoder := d }
        let p := if met then p.metCorruption c src d.produced else p
        match x.vertical.take src.res rt (d.produced == src.lines) pels with
        | (some v, w) => (some v, p.onRen c fun x => { x with vertical := w })
        | (none, w) => Chip.pullLine c src rt fuel (p.onRen c fun x => { x with vertical := w })

/-! ## Printing (06 R107 to R109) -/

/-- The job ends on a NO-LINE slot with END_DOC alone, and PRINT enters ENDING (R108). DESIGN CHOICE (log 45): the slot counts
as handed at once, also where the ring cannot take it yet; the ring logic holds it until it can (04 R70). -/
def Chip.printEnd (p : Chip) : Chip :=
  p.onRen 0 fun x => { x with state := .ending, source := none, outgoing := some ⟨false, false, true, false⟩ }

/-- PRINT fetches the page at its position (R97, R107). An ENDED answer ends the copy; the next copy's first page is
then asked for, so two questions suffice. -/
def Chip.printFetch : (fuel : Nat) → Chip → Chip
  | 0, p => p
  | fuel + 1, p =>
    match (p.ren 0).job with
    | none => p
    | some j =>
      let job := p.job j
      let n := (p.ren 0).page
      match p.askPage job.doc n with
      | .closed r => p.startPage 0 r
      | .notYet => p.onRen 0 fun x => { x with state := .waitPage, source := none }
      | .ended =>
        let p := if job.last ≠ 0 ∧ n ≤ job.last then p.onJob j fun x => { x with short := true } else p
        if n ≠ job.first ∧ (p.ren 0).copyNo < job.copies then
          Chip.printFetch fuel (p.onRen 0 fun x => { x with copyNo := x.copyNo + 1, page := job.first })
        else p.printEnd

/-- Some job is ACTIVE or FINISHING: PRINT is active (03 R45, 04 R71). -/
def Chip.printActive (p : Chip) : Bool := (tfind p.print.jobs fun j => j.st == .active || j.st == .finishing).isSome

/-- The IDLE PRINT context takes the head QUEUED job (R107). -/
def Chip.printTake (p : Chip) : Chip :=
  match p.print.queue with
  | [] => p
  | j :: rest =>
    let finishing := (tfind p.print.jobs (·.st == .finishing)).isSome
    let p := { p with print := { p.print with queue := rest } }
    let p := p.onJob j fun x => { x with st := .active }
    let p := if finishing then p else p.onRenRing 0 fun r => { r with sequence := 0 }
    let p := p.onRen 0 fun x => { x with job := some j, copyNo := 1, page := (p.job j).first }
    p.printFetch 2

/-- Whether the end slot being handed ends the job, and whether it ends short (R108). -/
def Chip.printFinal (p : Chip) : Bool × Bool :=
  match (p.ren 0).job with
  | none => (false, false)
  | some j =>
    let job := p.job j
    let x := p.ren 0
    if x.copyNo < job.copies then (false, false)
    else if job.last ≠ 0 ∧ x.page = job.last then (true, false)
    else if x.page < (p.doc job.doc).pages.length then (false, false)
    else if p.docEnded job.doc then (true, decide (job.last ≠ 0 ∧ x.page < job.last))
    else (false, false)

/-- PRINT's end slot has been handed to the ring: it moves on, or enters ENDING if the slot is the final one (R107). -/
def Chip.printHanded (p : Chip) (final short : Bool) : Chip :=
  match (p.ren 0).job with
  | none => p
  | some j =>
    let p := if short then p.onJob j fun x => { x with short := true } else p
    let job := p.job j
    if final then p.onRen 0 fun x => { x with state := .ending, source := none }
    else
      let p := p.onRen 0 fun x =>
        if job.last ≠ 0 ∧ x.page = job.last then { x with copyNo := x.copyNo + 1, page := job.first, source := none }
        else { x with page := x.page + 1, source := none }
      p.printFetch 2

/-- PRINT without work: the block read in flight is discarded when it completes (R98). -/
def RenderCtx.cleared (x : RenderCtx) : RenderCtx :=
  { RenderCtx.reset with target := x.target, reading := x.reading, readDead := x.reading, ring := x.ring }

/-- The final slot's SLOT_WRITE has completed: the job is FINISHING, its hold released or deferred, and the next job is
taken (R108). -/
def Chip.printFinished (p : Chip) (sequence : Nat) : Chip :=
  match (p.ren 0).job with
  | none => p
  | some j =>
    let d := (p.job j).doc
    let defer := (p.doc d).st == .doomed && (p.doc d).holds == 1
    let p := p.onJob j fun x => { x with st := .finishing, endSequence := sequence, deferred := defer }
    let p := if defer then p else p.releaseHold d
    (p.onRen 0 RenderCtx.cleared).printTake

/-- PRINT_DONE of a job (R109). -/
def Chip.sendPrintDone (p : Chip) (j : Nat) : Chip :=
  let x := p.job j
  p.send (.printDone j x.doc x.pagesOut x.cancelled x.short x.corrupt x.restart)

/-- A slot carrying END_DOC has been consumed from the print ring (R109). -/
def Chip.printConsumed (p : Chip) (sequence : Nat) : Chip :=
  match tfind p.print.jobs fun j => j.st == .finishing && j.endSequence == sequence with
  | none => p
  | some j =>
    let p := p.sendPrintDone j
    let p := if (p.job j).deferred then p.releaseHold (p.job j).doc else p
    let p := p.onJob j fun _ => .free
    if p.printActive then p else p.onRenRing 0 RenderRing.ceased

/-! ## Transmitting (06 R113 to R116) -/

/-- The page is in the call's range (R113). -/
def CallRecord.inRange (c : CallRecord) (n : Nat) : Bool := decide (c.first ≤ n) && (c.last == 0 || decide (n ≤ c.last))

/-- The candidate: the lowest page above the position, in range, not accepted (R113). -/
def Chip.candidate (p : Chip) (c i : Nat) : Option Nat :=
  let call := p.callRec i
  (List.range' ((p.ren c).position + 1) (255 - (p.ren c).position)).find? fun n =>
    call.inRange n && !call.accepted.contains n

/-- DOC_DONE: one NO-LINE slot carrying END_DOC is handed to the ring (R115), at once as in `Chip.printEnd` (log 45). -/
def Chip.txDone (p : Chip) (c : Nat) : Chip :=
  p.onRen c fun x => { x with state := .docDone, source := none, outgoing := some ⟨false, false, true, false⟩ }

/-- A transmit context fetches page `n` (R97, R113). -/
def Chip.txFetch (p : Chip) (c i n : Nat) : Chip :=
  let p := p.onRen c fun x => { x with page := n }
  match p.askPage (p.callRec i).doc n with
  | .closed r => p.startPage c r
  | .notYet => p.onRen c fun x => { x with state := .waitPage, source := none }
  | .ended => p.txDone c

/-- A transmit context selects its next page (R113). -/
def Chip.txSelect (p : Chip) (c : Nat) : Chip :=
  match (p.ren c).call with
  | none => p
  | some i =>
    match p.candidate c i with
    | none => p.txDone c
    | some n => p.txFetch c i n

/-- A page has been written out: the position moves, PAGE_WAIT, PAGE_SENT (R113). -/
def Chip.txWritten (p : Chip) (c : Nat) : Chip :=
  match (p.ren c).call with
  | none => p
  | some i =>
    let p := p.onRen c fun x => { x with position := x.page, state := .pageWait }
    p.send (.pageSent (c - 1) i (p.ren c).page (p.ren c).lineOut)

/-- The END_DOC slot has been written: DOC_SENT (R115). -/
def Chip.txFinished (p : Chip) (c : Nat) : Chip :=
  match (p.ren c).call with
  | none => p
  | some i =>
    let call := p.callRec i
    let owed := (List.range' 1 (p.doc call.doc).pages.length).filter fun n => call.inRange n && !call.accepted.contains n
    p.send (.docSent (c - 1) i call.accepted.length owed.length)

/-! ## Handing slots to the ring (06 R99, R103) -/

/-- A page slot is handed to the ring; after the page's end slot the context moves on (R103). -/
def Chip.handSlot (p : Chip) (c : Nat) (pels : Option (List Bool)) (isEnd : Bool) : Chip :=
  let (final, short) := if isEnd && c == 0 then p.printFinal else (false, false)
  let p := p.issueSlot c pels ⟨pels.isSome, isEnd, final, false⟩ isEnd final
  let p := p.onRen c fun x => { x with lineOut := x.lineOut + 1 }
  if !isEnd then p
  else if c = 0 then p.printHanded final short
  else p.onRen c fun x => { x with source := none }

/-- The context gives the ring its next page slot, as far as the blocks it holds allow (R99, R103). DESIGN CHOICE (log 45): the
NO-LINE slot of a page without lines is handed like a line, when the ring can take it. -/
def Chip.produce (p : Chip) (c : Nat) (src : Source) : Chip :=
  if src.lines = 0 then p.handSlot c none true
  else match (p.ren c).target with
    | none => p
    | some (wt, rt) =>
      match Chip.pullLine c src rt 4 p with
      | (none, p) => p
      | (some v, p) => p.handSlot c (some (fitWidth wt v)) ((p.ren c).lineOut + 1 == outputLines src.res rt src.lines)

/-- The context goes on when its ring can take a slot: a NO-LINE slot already handed first, then the page's slots (04 R70; when
each counts as handed: logs 17 and 45). -/
def Chip.advance (p : Chip) (c : Nat) : Chip :=
  let x := p.ren c
  if !x.canTake then p
  else match x.outgoing with
    | some m => (p.issueSlot c none m false true).onRen c fun x => { x with outgoing := none }
    | none =>
      match x.state, x.source with
      | .render, some src => p.produce c src
      | _, _ => p

/-- A context in WAIT_PAGE on document `d` asks again (02 R30, 06 R97). -/
def Chip.signalOne (d : Nat) (p : Chip) (c : Nat) : Chip :=
  if (p.ren c).state = .waitPage ∧ p.workDoc c = some d then
    if c = 0 then (p.printFetch 2).advance 0
    else match (p.ren c).call with
      | none => p
      | some i => (p.txFetch c i (p.ren c).page).advance c
  else p

/-- The store controller signals the render engine that a page of `d` closed or `d` became COMPLETE (02 R30). -/
def Chip.signal (p : Chip) (d : Nat) : Chip := [0, 1, 2, 3, 4].foldl (Chip.signalOne d) p

/-! ## Completions and stops -/

/-- A SLOT_WRITE of a bound ring has completed (04 R70): a voided slot's context is not told; otherwise pages output,
PAGE_SENT, JOB_FINISHING or DOC_SENT follow, and the context goes on. -/
def Chip.slotWritten (p : Chip) (c slot sequence : Nat) (pageEnd final : Bool) : Chip :=
  let void := match (p.ren c).ring with
    | some r => (r.slot slot).void
    | none => true
  let p := p.onRenRing c (RenderRing.written (p.stallFull c) slot)
  let p :=
    if void then p
    else if c = 0 then
      let p := match pageEnd, (p.ren 0).job with
        | true, some j => p.onJob j fun x => { x with pagesOut := x.pagesOut + 1 }
        | _, _ => p
      if final then p.printFinished sequence else p
    else
      let p := if pageEnd then p.txWritten c else p
      if final then p.txFinished c else p
  p.advance c

/-- A completing read of a READY slot has been served: the slot's consumption (04 R72). -/
def Chip.consume (p : Chip) (c slot : Nat) : Chip :=
  match (p.ren c).ring with
  | none => p
  | some r =>
    let s := r.slot slot
    if s.st ≠ .ready then p
    else
      let p := p.onRenRing c (RenderRing.consumed (p.stallFull c) slot)
      let p := if c = 0 ∧ s.markers.endDoc then p.printConsumed s.sequence else p
      p.advance c

/-- A BLOCK_READ has completed with the block's bits: the decoder takes them unless the decode was given up; a freeing
that waited for it is taken (06 R98, 02 R36). -/
def Chip.blockRead (p : Chip) (c record : Nat) (bits : List Bool) : Chip :=
  let p := p.onRen c fun x =>
    if x.readDead then { x with reading := false, readDead := false }
    else { x with reading := false, decoder := { x.decoder with held := x.decoder.held ++ bits, fetched := x.decoder.fetched + 1 } }
  (p.tryFree (p.pageRec record).doc).advance c

/-- A held read of a slot of a render context whose ring is reset or unbound consumes nothing (04 R72; log 18). -/
def HeldRead.unbind (c : Nat) (r : HeldRead) : HeldRead :=
  match r.slot with
  | some (c', _, _) => if c' = c then { r with slot := none } else r
  | none => r

/-- The read that waits at the S-port consumes nothing of context `c` (04 R72). -/
def Chip.unbindHeld (p : Chip) (c : Nat) : Chip :=
  { p with path := { p.path with held := p.path.held.map (HeldRead.unbind c) } }

/-- A render context stops: its ring is reset, a read that waits no longer consumes a slot of it, and its work is given up
(04 R72, R73, 06 R117). -/
def Chip.stopRender (p : Chip) (c : Nat) : Chip :=
  (p.unbindHeld c).onRen c fun x => { x.cleared with target := if c = 0 then x.target else none, ring := x.ring.map RenderRing.stopped }

/-- PRINT_CANCEL cuts the ACTIVE job: decoding is given up and a NO-LINE slot with END_PAGE, END_DOC and CUT ends it
(06 R110). -/
def Chip.cutJob (p : Chip) (j : Nat) : Chip :=
  let p := p.onJob j fun x => { x with cancelled := true }
  let p := p.onRen 0 fun x => { x with
    state := .ending, source := none, decoder := .blank, vertical := .blank, readDead := x.reading,
    outgoing := some ⟨false, true, true, true⟩ }
  p.advance 0

end Sys2Proof.Machine
end

