-- ==== Sys2Proof/Machine/Ingest.lean ====
section
/-! DEFINITION. Ingest rings (04 R62 to R68) and the ingest engine (05). Ingest context 0 is SCAN, context n + 1 is LINE n
receive. What a context has still to do is a list of tasks; it is run until it is done or waits for a block write, so
that a coding step, a close or a stop can last over several of the part's steps (R84, R89, R92). -/

namespace Sys2Proof.Machine

/-! ## Ingest rings -/

/-- The ring of a context changed, if one is bound. -/
def Chip.onIngRing (p : Chip) (c : Nat) (f : IngestRing → IngestRing) : Chip :=
  p.onIng c fun x => { x with ring := x.ring.map f }

/-- A slot of an ingest ring. -/
def IngestRing.slot (r : IngestRing) (s : Nat) : IngestSlot := r.slots.getD s .fresh

/-- A ring with one slot replaced. -/
def IngestRing.setSlot (r : IngestRing) (s : Nat) (x : IngestSlot) : IngestRing := { r with slots := r.slots.set s x }

/-- The next-take position advanced, wrapping (R66). -/
def IngestRing.advanced (r : IngestRing) : IngestRing := { r with next := (r.next + 1) % r.slots.length }

/-- A slot EMPTY with its overrun and read-served marks cleared; a posted completion stays marked (R66). -/
def IngestSlot.emptied (x : IngestSlot) : IngestSlot := { x with st := .empty, readServed := false, overrun := false }

/-- The slot at the position EMPTY, the position advanced: the end of a coding step (R66). -/
def IngestRing.endTake (r : IngestRing) : IngestRing := (r.setSlot r.next (r.slot r.next).emptied).advanced

/-- The slot at the position EMPTY with all its marks cleared, the position advanced: a discard (R67). -/
def IngestRing.discarded (r : IngestRing) : IngestRing := (r.setSlot r.next .fresh).advanced

/-- The stop has done all it has to do, its DONE sent (log 42), and the context is IDLE in every respect (R67). -/
def IngestCtx.atRest (x : IngestCtx) : Bool := x.phase == .idle && x.stop.isNone && x.tasks.isEmpty && !x.reading

/-- The context is ready for a line (05 R79). -/
def IngestCtx.readyForLine (x : IngestCtx) : Bool :=
  (x.phase == .ready || x.phase == .page || x.phase == .discard) && x.stop.isNone && x.tasks.isEmpty && !x.reading

/-- FILLED slots at the position of an IDLE context are discarded as strays, in order (R67). -/
def Chip.discardStrays (c : Nat) : (fuel : Nat) → Chip → Chip
  | 0, p => p
  | fuel + 1, p =>
    match (p.ing c).ring with
    | none => p
    | some r =>
      if (r.slot r.next).st = .filled then Chip.discardStrays c fuel ((p.onIngRing c IngestRing.discarded).addStrays c 1) else p

/-- A SLOT_READ of the slot at the position is issued, if it is FILLED: the slot is CODING (R66). -/
def Chip.takeSlot (p : Chip) (c : Nat) : Chip :=
  match (p.ing c).ring with
  | none => p
  | some r =>
    if (r.slot r.next).st ≠ .filled then p
    else
      let a := r.base + r.next * r.slotSize
      let p := p.issueIngest c (.slotRead c r.next a (a + r.slotSize - 4) (p.ing c).width)
      p.onIng c fun x => { x with
        reading := true
        ring := some (r.setSlot r.next { r.slot r.next with st := .coding, readServed := false }) }

/-- The ring logic serves its context: strays are discarded, or the next slot is taken (R66, R67). -/
def Chip.serveRing (p : Chip) (c : Nat) : Chip :=
  if (p.ing c).atRest then
    match (p.ing c).ring with
    | some r => Chip.discardStrays c r.slots.length p
    | none => p
  else if (p.ing c).readyForLine then p.takeSlot c
  else p

/-- A line counted lost: to the pending-lost count, or as a stray of an IDLE context (R64, R65). -/
def Chip.countLost (p : Chip) (c : Nat) : Chip :=
  if (p.ing c).phase = .idle then p.addStrays c 1
  else p.onIng c fun x => { x with pendingLost := satAdd 255 x.pendingLost 1 }

/-- What the drain of a write does to the slot's marks and state (R64; log 38 where 03 R48's table says less). -/
def IngestSlot.drained (completing : Bool) (x : IngestSlot) : IngestSlot :=
  let unread := x.st = .filled ∨ (x.st = .coding ∧ x.readServed = false)
  if completing then
    if x.st = .empty then { x with st := .filled, posted := false, overrun := false }
    else if unread then { x with posted := false, overrun := false }
    else { x with posted := false }
  else if unread then { x with overrun := true } else x

/-- The drain of a posted write into an ingest slot (R64). -/
def Chip.drainSlot (p : Chip) (c s : Nat) (completing : Bool) : Chip :=
  match (p.ing c).ring with
  | none => p
  | some r =>
    let lost := completing && (r.slot s).st != .empty
    let p := p.onIngRing c fun r => r.setSlot s ((r.slot s).drained completing)
    let p := if lost then p.countLost c else p
    p.serveRing c

/-! ## The tasks of an ingest context (05) -/

/-- The tasks of a context set. -/
def Chip.setTasks (p : Chip) (c : Nat) (ts : List Task) : Chip := p.onIng c fun x => { x with tasks := ts }

/-- The context's open page record changed. -/
def Chip.onOpenPage (p : Chip) (c : Nat) (f : PageRecord → PageRecord) : Chip :=
  match (p.ing c).page with
  | some r => p.onPage r f
  | none => p

/-- The context's coder, or a fresh one where none is open. -/
def IngestCtx.coderOf (x : IngestCtx) : Coder := x.coder.getD (.start x.width)

/-- The page opens (R80): READY goes to PAGE, or a refusal to DISCARD. A context without a document has no page to open. -/
def Chip.taskOpenPage (p : Chip) (c : Nat) : Chip :=
  let x := p.ing c
  match x.doc with
  | none => p
  | some d =>
    match p.openPage c d x.width x.res with
    | (some r, p) => p.onIng c fun x => { x with
        phase := .page, page := some r, coder := some (.start x.width), lineTotal := 0, badRun := 0 }
    | (none, p) => p.onIng c fun x => { x with phase := .discard }

/-- The bad run after a replacement, and POOR when it reaches the limit (R81, R82). -/
def Chip.countReplacement (p : Chip) (c : Nat) : Chip :=
  let run := satAdd 255 (p.ing c).badRun 1
  let p := p.onOpenPage c fun r => { r with damaged := satAdd 65535 r.damaged 1 }
  let p := p.onIng c fun x => { x with badRun := run }
  if run = (p.ing c).poorLimit then p.onOpenPage c fun r => { r with poor := true } else p

/-- One line comes up: in PAGE it is handed to the coder, or truncates the page at the line limit; in any other state
it is thrown away (R79, R81, R86, R87). `rest` are the tasks after it; `pels` is absent for a replacement. -/
def Chip.giveLine (p : Chip) (c : Nat) (pels : Option (List Bool)) (rest : List Task) : Chip :=
  let x := p.ing c
  if x.phase ≠ .page then (p.addStrays c 1).setTasks c rest
  else if Config.lineLimit ≤ x.lineTotal then
    let p := p.onOpenPage c fun r => { r with truncated := true }
    ((p.onIng c fun x => { x with phase := .closing }).addStrays c 1).setTasks c rest
  else
    let p := match pels with
      | none => p.countReplacement c
      | some _ => p.onIng c fun x => { x with badRun := 0 }
    let coder := x.coderOf
    let (coder, codes) := coder.take (pels.getD coder.ref)
    p.onIng c fun x => { x with lineTotal := x.lineTotal + 1, coder := some coder, tasks := .place codes :: rest }

/-- A code has its last bit in the page's blocks: it is placed (01 R11). -/
def Coder.placedCode (c : Coder) (code : LineCode) : Coder :=
  { c with bitLength := c.bitLength + code.bits.length, placed := c.placed + code.lines, ref := code.ref.getD c.ref }

/-- A refused code is dropped with the codes after it; a page being coded is truncated and closes (01 R11, 05 R81, R85);
a page already closing is TRUNCATED (R89). -/
def Chip.dropCode (p : Chip) (c before : Nat) (rest : List Task) : Chip :=
  let p := p.onOpenPage c fun r => { r with truncated := true }
  p.onIng c fun x =>
    let coder := x.coderOf
    { x with
      coder := some { coder with buffer := coder.buffer.take before, run := 0 }
      lineTotal := coder.placed
      phase := .closing
      tasks := rest }

/-- A BLOCK_WRITE of the last block of the page's chain goes out with the block buffer (R84, 01 R10). -/
def Chip.writeBlock (p : Chip) (c : Nat) : Chip :=
  let x := p.ing c
  match x.page with
  | none => p
  | some r =>
    let p := p.issueIngest c
      (.blockWrite c r (p.blockAddress ((p.pageRec r).chain.getLastD 0)) (padBits Config.blockBits x.coderOf.buffer))
    p.onIng c fun x => { x with blockWrite := true }

/-- The block buffer is full and a bit is to be placed: the next block is asked for (01 R10, 05 R84, R85). -/
def Chip.nextBlock (p : Chip) (c before : Nat) (bits : List Bool) (codes : List LineCode) (rest : List Task) : Chip :=
  match (p.ing c).page with
  | none => p.setTasks c rest
  | some r =>
    match p.allocate c ((p.ing c).doc.getD 0) (p.pageRec r).number with
    | (none, p) => p.dropCode c before rest
    | (some b, p) =>
      let p := p.writeBlock c
      let p := p.onPage r fun x => { x with chain := x.chain ++ [b] }
      p.onIng c fun x => { x with coder := some { x.coderOf with buffer := [] }, tasks := .placing 0 bits codes :: rest }

/-- Placement of a part-placed code goes on (01 R10, R11): `none` while it waits for a block write (R84). -/
def Chip.taskPlacing (p : Chip) (c before : Nat) (bits : List Bool) (codes : List LineCode) (rest : List Task) :
    Option Chip :=
  let x := p.ing c
  let coder := x.coderOf
  if bits = [] then
    match codes with
    | [] => some (p.setTasks c rest)
    | code :: more => some (p.onIng c fun x => { x with
        coder := some (x.coderOf.placedCode code), tasks := .place more :: rest })
  else
    let room := Config.blockBits - coder.buffer.length
    if 0 < room then
      some (p.onIng c fun x => { x with
        coder := some { coder with buffer := coder.buffer ++ bits.take room }
        tasks := .placing before (bits.drop room) codes :: rest })
    else if x.blockWrite then none
    else some (p.nextBlock c before bits codes rest)

/-- The steps of a page close (R89), then what follows it. -/
def closeTasks : List Task := [.emitRun, .lastWrite, .pageClosed]

/-- The after-close state that a slot's markers give a truncated page (R85). -/
def afterTruncation (endPage endDoc : Bool) : IngestPhase :=
  if endDoc then .idle else if endPage then .ready else .discard

/-- The context acts on the slot's markers (R88). `rest` begins with the end of the coding step, which comes when the
context has entered CLOSING. -/
def Chip.taskMarks (p : Chip) (c : Nat) (endPage endDoc : Bool) (rest : List Task) : Chip :=
  let close (after : IngestPhase) : Chip := p.onIng c fun x => { x with
    phase := .closing, afterClose := some after, tasks := .endStep :: closeTasks ++ [.afterClose] ++ rest.drop 1 }
  match (p.ing c).phase with
  | .page => if endDoc then close .idle else if endPage then close .ready else p.setTasks c rest
  | .closing => close (afterTruncation endPage endDoc)
  | .discard =>
    if endDoc then p.setTasks c (.docClose false :: rest)
    else if endPage then p.onIng c fun x => { x with phase := .ready, tasks := rest }
    else p.setTasks c rest
  | _ => if endDoc then p.setTasks c (.docClose false :: rest) else p.setTasks c rest

/-- The coder emits its open SAME run at a close (R89, 01 R9). -/
def Chip.taskEmitRun (p : Chip) (c : Nat) (rest : List Task) : Chip :=
  let coder := (p.ing c).coderOf
  if coder.run = 0 then p.setTasks c rest
  else p.onIng c fun x => { x with
    coder := some { coder with run := 0 }, tasks := .place [sameLineCode coder.run] :: rest }

/-- Every block write of the page has completed: the page is CLOSED, render contexts are signalled and PAGE_STORED is
sent (R89, R91, 02 R28). -/
def Chip.taskPageClosed (p : Chip) (c : Nat) (rest : List Task) : Chip :=
  let x := p.ing c
  match x.page with
  | none => p.setTasks c rest
  | some r =>
    let coder := x.coderOf
    let p := p.closeRecord r coder.placed coder.bitLength
    let p := p.onIng c fun x => { x with coder := none, page := none, tasks := rest }
    let p := p.signal (p.pageRec r).doc
    let r := p.pageRec r
    p.send (.pageStored c r.doc r.number r.truncated r.poor r.lines ((r.bitLength + 7) / 8) r.damaged)

/-- The context leaves CLOSING for its after-close state; under a stop the stop acts next (R89, R92). -/
def Chip.taskAfterClose (p : Chip) (c : Nat) (rest : List Task) : Chip :=
  let x := p.ing c
  let p := p.onIng c fun x => { x with afterClose := none, tasks := rest }
  if x.stop.isSome then p
  else match x.afterClose with
    | some .idle => p.setTasks c (.docClose false :: rest)
    | some ph => p.onIng c fun x => { x with phase := ph }
    | none => p

/-- The stop acts on the state the coding step has left (R92). -/
def Chip.taskStopAct (p : Chip) (c : Nat) (rest : List Task) : Chip :=
  let x := p.ing c
  let keep := match x.stop with
    | some s => s.keep
    | none => true
  match x.phase with
  | .idle => p.setTasks c (.stopDone :: rest)
  | .page =>
    if keep then
      let p := p.onOpenPage c fun r => { r with truncated := true }
      p.onIng c fun x => { x with phase := .closing, tasks := closeTasks ++ [.docClose true, .stopDone] ++ rest }
    else p.onIng c fun x => { x with
      phase := .closing, coder := none, tasks := [.discardPage, .docClose true, .stopDone] ++ rest }
  | _ => p.setTasks c (.docClose true :: .stopDone :: rest)

/-- The discarded page is freed (R93). -/
def Chip.taskDiscardPage (p : Chip) (c : Nat) (rest : List Task) : Chip :=
  match (p.ing c).page with
  | none => p.setTasks c rest
  | some r => (p.freePage r).onIng c fun x => { x with page := none, tasks := rest }

/-- A context enters IDLE: no document, its pending-lost count 0 (R90, 04 R65; log 25). -/
def IngestCtx.toIdle (x : IngestCtx) : IngestCtx :=
  { x with phase := .idle, doc := none, page := none, coder := none, afterClose := none, pendingLost := 0, lineTotal := 0,
           badRun := 0 }

/-- A document close (R90, R91, 02 R33): COMPLETE, render contexts signalled, the desk counted, DOC_CLOSED. -/
def Chip.closeDoc (p : Chip) (c d : Nat) (stopped : Bool) : Chip :=
  let p := p.onDoc d fun x => { x with st := .complete, incomplete := x.incomplete || stopped }
  let p := (p.signal d).countReceived d
  let x := p.doc d
  p.send (.docClosed c d x.desk x.pages.length x.incomplete)

/-- The context's document closes, and the context is IDLE (R90). A context without a document has none to close. -/
def Chip.taskDocClose (p : Chip) (c : Nat) (stopped : Bool) (rest : List Task) : Chip :=
  let p := match (p.ing c).doc with
    | none => p
    | some d => p.closeDoc c d stopped
  p.onIng c fun x => { x.toIdle with tasks := rest }

/-- A warm restart waits for a context no longer; its DONE is sent when it waits for none (10 R185). -/
def Chip.restartReached (p : Chip) (c : Nat) : Chip :=
  match p.req.restart with
  | none => p
  | some r =>
    if r.awaited.contains c then
      let left := r.awaited.filter (· != c)
      if left = [] then
        { p with req := { p.req with restart := none } }.send (.done r.tag 30 .ok 0)
      else { p with req := { p.req with restart := some { r with awaited := left } } }
    else p

/-- The stop has finished: its DONE is sent if a request asked for it (R92). DESIGN CHOICE (log 42): DONE comes before the
ring logic discards the strays of the IDLE context (04 R67). -/
def Chip.taskStopDone (p : Chip) (c : Nat) (rest : List Task) : Chip :=
  let s := (p.ing c).stop
  let p := p.onIng c fun x => { x with stop := none, tasks := rest }
  let p := match s with
    | some ⟨_, .request tag, d⟩ => p.send (.done tag 10 .ok d)
    | _ => p
  p.restartReached c

/-- One task of a context is carried out; `none` when there is none or it must wait. -/
def Chip.runTask (p : Chip) (c : Nat) : Option Chip :=
  let x := p.ing c
  match x.tasks with
  | [] => none
  | .openPage :: rest => some ((p.setTasks c rest).taskOpenPage c)
  | .lost 0 :: rest => some (p.setTasks c rest)
  | .lost (k + 1) :: rest => some (p.giveLine c none (.lost k :: rest))
  | .line pels :: rest => some (p.giveLine c pels rest)
  | .place [] :: rest => some (p.setTasks c rest)
  | .place (code :: codes) :: rest =>
    some (p.setTasks c (.placing x.coderOf.buffer.length code.bits (code :: codes) :: rest))
  | .placing before bits codes :: rest => p.taskPlacing c before bits codes rest
  | .marks endPage endDoc :: rest => some (p.taskMarks c endPage endDoc rest)
  | .endStep :: rest => some ((p.setTasks c rest).onIngRing c IngestRing.endTake)
  | .emitRun :: rest => some (p.taskEmitRun c rest)
  | .lastWrite :: rest => if x.blockWrite then none else some ((p.setTasks c rest).writeBlock c)
  | .pageClosed :: rest => if x.blockWrite then none else some (p.taskPageClosed c rest)
  | .afterClose :: rest => some (p.taskAfterClose c rest)
  | .stopAct :: rest => if x.reading then none else some (p.taskStopAct c rest)
  | .discardPage :: rest => if x.blockWrite then none else some (p.taskDiscardPage c rest)
  | .docClose stopped :: rest => some (p.taskDocClose c stopped rest)
  | .stopDone :: rest => some (p.taskStopDone c rest)

/-- The context's tasks run until none is left or one must wait. -/
def Chip.runTasks (c : Nat) : (fuel : Nat) → Chip → Chip
  | 0, p => p
  | fuel + 1, p =>
    match p.runTask c with
    | none => p
    | some p => Chip.runTasks c fuel p

/-- More tasks than a context can have at once: 256 lines of a slot with their codes, a close and a stop. -/
def taskFuel : Nat := 4096

/-- The context goes on with its tasks, and then the ring logic serves it. -/
def Chip.runIngest (p : Chip) (c : Nat) : Chip := (Chip.runTasks c taskFuel p).serveRing c

/-! ## Entries from the steps -/

/-- The tasks of a coding step, by the state when the read completed (R79). -/
def stepTasks (phase : IngestPhase) (k : Nat) (bad : Bool) (tag : IngestTag) (pels : List Bool) : List Task :=
  (if phase = .ready ∧ tag.line then [.openPage] else []) ++ [.lost k]
    ++ (if tag.line then [.line (if bad then none else some pels)] else []) ++ [.marks tag.endPage tag.endDoc, .endStep]

/-- A SLOT_READ has been served with the slot's pels and tag word (04 R65, R66, 05 R79). -/
def Chip.slotRead (p : Chip) (c slot : Nat) (pels : List Bool) (tagWord : Nat) : Chip :=
  let x := p.ing c
  let overrun := match x.ring with
    | some r => (r.slot slot).overrun
    | none => false
  let tag := ingestTag tagWord
  let p := p.onIngRing c fun r => r.setSlot slot { r.slot slot with readServed := true }
  let p := p.onIng c fun x => { x with
    reading := false, pendingLost := 0
    tasks := stepTasks x.phase x.pendingLost (tag.damaged || overrun) tag pels ++ x.tasks }
  p.runIngest c

/-- A BLOCK_WRITE of the context's page has completed (R84). -/
def Chip.blockWritten (p : Chip) (c : Nat) : Chip := (p.onIng c fun x => { x with blockWrite := false }).runIngest c

/-- A stop is recorded and carried out as far as it can be: a coding step in progress, or a SLOT_READ issued, ends first
(R92, R94; log 15). -/
def Chip.stopIngest (p : Chip) (c : Nat) (keep : Bool) (source : StopSource) : Chip :=
  (p.onIng c fun x => { x with stop := some ⟨keep, source, x.doc.getD 0⟩, tasks := x.tasks ++ [.stopAct] }).runIngest c

/-- A stop without a request, of a context that is not IDLE and not already STOPPING (R94, R95). -/
def Chip.stopIngestIfActive (p : Chip) (c : Nat) : Chip :=
  if (p.ing c).phase ≠ .idle ∧ (p.ing c).stop = none then p.stopIngest c true .noRequest else p

end Sys2Proof.Machine
end

