-- ==== Sys2Proof/Machine/Lines.lean ====
section
/-! DEFINITION. The line channel (07): HOOK and its disregard periods, the dialler, seizure. -/

namespace Sys2Proof.Machine

/-! ## Qualifiers, HOOK and disregard periods (R120, R121) -/

/-- The qualifiers of DT, BT, AT and MP held at ABSENT with counts 0, and the loop loss count at 0 (R121). -/
def Line.held (l : Line) : Line :=
  { l with dtQ := .restarted, btQ := .restarted, atQ := .restarted, mpQ := .restarted, loopLoss := 0 }

/-- A qualifier of an input other than RING judged by a qualify time: PRESENT with its count at or above the time it changes
to ABSENT, on which no state acts (R120). -/
def Qualifier.judged (time : Nat) (q : Qualifier) : Qualifier := if q.present ∧ time ≤ q.count then .restarted else q

/-- All five qualifiers restarted and the loop loss count 0 (R120, R121). -/
def Line.restartAll (l : Line) : Line := { l.held with ringQ := .restarted }

/-- HOOK takes a level; a change starts the settle timer at the settle time (R121). -/
def Line.setHook (h : Bool) (l : Line) : Line :=
  if l.hook = h then l else { l.held with hook := h, settle := some l.cfg.settle }

/-- A disregard period runs: settle, pulse train or guard; DT, BT, AT, MP and LOOP are not sampled (R121; log 41). -/
def Line.disregard (l : Line) : Bool := l.settle.isSome || l.train || l.state == .releasing

/-- The line is assigned to a call (R119, 08 R148). -/
def Line.assigned (l : Line) : Bool :=
  match l.state with
  | .seizing | .awaitTone | .dialling | .awaitAnswer => true
  | .answered | .connected => l.dir == .outward
  | _ => false

/-- The state acts on loop loss (R131). -/
def LineState.actsOnLoss : LineState → Bool
  | .awaitTone | .dialling | .awaitAnswer | .answered | .connected => true
  | _ => false

/-- Meter pulses are acted on (R134). -/
def Line.metered (l : Line) : Bool :=
  match l.state with
  | .awaitTone | .dialling | .awaitAnswer => true
  | .answered | .connected => l.dir == .outward
  | _ => false

/-- The line enters a state, and the line states word follows (R122). -/
def Chip.setLineState (p : Chip) (n : Nat) (st : LineState) : Chip :=
  (p.onLine n fun l => { l with state := st }).issueWord .lineStates

/-! ## Dialling (R126 to R130) -/

/-- Line ticks in a second. -/
abbrev ticksPerSecond : Nat := 1024

/-- The DIGIT code of a dial symbol sent as a tone (R118; symbols as in 11.2). -/
def digitCode (symbol : Nat) : Nat := if symbol = 0 then 10 else if symbol < 10 then symbol else symbol + 1

/-- Half-periods of a break (R129). -/
def LineConfig.breakHalves (c : LineConfig) : Nat := c.prescale * (2 * c.breakCount + 1)

/-- Half-periods of a make (R129). -/
def LineConfig.makeHalves (c : LineConfig) : Nat := c.prescale * (2 * (c.period - c.breakCount) + 1)

/-- Pulses of a digit (R130). -/
def pulseCount (digit : Nat) : Nat := if digit = 0 then 10 else digit

/-- The on phase of a tone symbol begins (R128). -/
def Line.startTone (symbol : Nat) (l : Line) : Line :=
  { l with phase := .toneOn, phaseTimer := some l.cfg.toneOn, toneOn := true, digit := digitCode symbol }

/-- A break begins, `left` pulses to follow its own (R130). -/
def Line.startBreak (left : Nat) (l : Line) : Line :=
  { (l.setHook false).held with phase := .breaking left, phaseTimer := some l.cfg.breakHalves, train := true }

/-- A make begins, `left` pulses to follow its own (R130). -/
def Line.startMake (left : Nat) (l : Line) : Line :=
  { l.setHook true with phase := .making left, phaseTimer := some l.cfg.makeHalves }

/-- The line enters AWAIT_TONE (R120, R126). -/
def Chip.enterAwaitTone (p : Chip) (n : Nat) : Chip :=
  (p.onLine n fun l => { l with
    dtQ := .restarted, phase := .none, phaseTimer := none, stateTimer := some (l.cfg.toneWait * ticksPerSecond) })
  |>.setLineState n .awaitTone

/-- The line enters AWAIT_ANSWER (R120, R132). -/
def Chip.enterAwaitAnswer (p : Chip) (n : Nat) : Chip :=
  (p.onLine n fun l => { l with
    atQ := .restarted, btQ := .restarted, phase := .none, phaseTimer := none,
    stateTimer := some (l.cfg.answerWait * ticksPerSecond) })
  |>.setLineState n .awaitAnswer

/-- The dialler takes the symbol at the position (R127): it starts it, or moves past a skipped or WAIT symbol; with none
left the line enters AWAIT_ANSWER. A destination has at most 40 symbols, so 41 turns suffice. -/
def Chip.dialNext (n : Nat) : (fuel : Nat) → Chip → Chip
  | 0, p => p
  | fuel + 1, p =>
    let l := p.line n
    match l.dial[l.pos]? with
    | none => p.enterAwaitAnswer n
    | some symbol =>
      if symbol = 12 then
        p.onLine n fun l => { l with phase := .pause, phaseTimer := none, stateTimer := some (l.cfg.pause * ticksPerSecond) }
      else if symbol = 13 then (p.onLine n fun l => { l with pos := l.pos + 1 }).enterAwaitTone n
      else if !l.cfg.pulse then p.onLine n (Line.startTone symbol)
      else if symbol < 10 then p.onLine n (Line.startBreak (pulseCount symbol - 1))
      else Chip.dialNext n fuel (p.onLine n fun l => { l with pos := l.pos + 1, skipped := satAdd 65535 l.skipped 1 })

/-- Turns the dialler can take at most (R142: 40 symbols). -/
abbrev dialFuel : Nat := 41

/-- The line enters DIALLING at its position (R125, R126). -/
def Chip.enterDialling (p : Chip) (n : Nat) : Chip := Chip.dialNext n dialFuel (p.setLineState n .dialling)

/-- The symbol being sent is done: the position moves to the next (R127). -/
def Chip.symbolDone (p : Chip) (n : Nat) : Chip :=
  Chip.dialNext n dialFuel (p.onLine n fun l => { l with
    phase := .none, phaseTimer := none, stateTimer := none, toneOn := false, digit := 0, pos := l.pos + 1 })

/-! ## Seizure (R125) -/

/-- The line takes the call record, goes off hook into SEIZING, and the charge unit opens the attempt (R125). -/
def Chip.seize (p : Chip) (n i : Nat) : Chip :=
  let p := p.onLine n fun l => { l.setHook true with
    call := some i, dir := .outward, dial := (p.callRec i).dest, pos := 0 }
  (p.setLineState n .seizing).openOutward n i

end Sys2Proof.Machine
end

