-- ==== Sys2Proof/Machine/Calls.lean ====
section
/-! DEFINITION. The call scheduler (08): the line arbiter, the end of an attempt, the redial LFSR, the end of a call. -/

namespace Sys2Proof.Machine

/-- The document is COMPLETE or DOOMED, and every page of its list within the range is accepted (R149, R151). -/
def Chip.allSent (p : Chip) (i : Nat) : Bool :=
  let c := p.callRec i
  p.docEnded c.doc &&
    (List.range' 1 (p.doc c.doc).pages.length).all fun n => !c.inRange n || c.accepted.contains n

/-- A call ends: CALL_ENDED, its hold released, its record FREE (R155). -/
def Chip.endCall (p : Chip) (i : Nat) (outcome : Cause) : Chip :=
  let c := p.callRec i
  let p := (p.send (.callEnded i outcome c.made c.accepted.length c.doc c.desk)).releaseHold c.doc
  p.onCall i fun _ => .free

/-! ## The arbiter (R146 to R149) -/

/-- The record is eligible in a pass (R147). -/
def Chip.eligible (p : Chip) (i : Nat) : Bool :=
  let c := p.callRec i
  c.st == .waiting && decide (c.ready ≤ p.calls.schedule) && (c.flash || !(p.account c.desk).blocked)

/-- The record `a` comes before `b` in a pass (R147). Records that are equal in all three come in no order here: log 43. -/
def CallRecord.before (a b : CallRecord) : Bool :=
  if a.flash != b.flash then a.flash
  else if a.ready = b.ready then decide (a.sequence < b.sequence)
  else decide (a.ready < b.ready)

/-- A record number put in its place in a pass's order. DESIGN CHOICE (log 43): of two records equal in priority, ready time
and queue sequence, which a wrapped acceptance count can give, the higher record number comes first. -/
def Chip.insertRecord (p : Chip) (i : Nat) : List Nat → List Nat
  | [] => [i]
  | j :: js => if (p.callRec i).before (p.callRec j) then i :: j :: js else j :: p.insertRecord i js

/-- The eligible records in the order of a pass (R147). -/
def Chip.passOrder (p : Chip) : List Nat := ((List.range 32).filter p.eligible).foldr p.insertRecord []

/-- The number of lines assigned to calls (R148). -/
def Chip.assignedLines (p : Chip) : Nat := ((List.range 4).filter fun n => (p.line n).assigned).length

/-- The lowest-numbered usable line of a record (R148). -/
def Chip.usableLine (p : Chip) (i : Nat) : Option Nat :=
  (List.range 4).find? fun n =>
    (p.line n).state == .idle && (p.line n).cfg.outgoing && (p.callRec i).mask.contains n

/-- The record is assigned to the line, which is seized (R149). -/
def Chip.assign (p : Chip) (i n : Nat) : Chip :=
  (p.onCall i fun c => { c with st := .active, line := some n, made := c.made + 1, resends := [], charge := 0 }).seize n i

/-- A pass reaches a record: it ends the call, assigns it a line, or passes over it (R148, R149). -/
def Chip.passRecord (p : Chip) (i : Nat) : Chip :=
  if p.allSent i then p.endCall i .ok
  else if (p.callRec i).flash = false ∧ p.calls.limit ≤ p.assignedLines then p
  else match p.usableLine i with
    | some n => p.assign i n
    | none => p

/-- One arbiter pass (R146). -/
def Chip.arbiterPass (p : Chip) : Chip := p.passOrder.foldl Chip.passRecord p

/-! ## The end of an attempt (R151 to R153) -/

/-- The redial LFSR advanced (R153). -/
def lfsrNext (s : Nat) : Nat := 2 * s % 1024 + (s.testBit 9 ^^ s.testBit 6).toNat

/-- The outcome of an attempt (R151). -/
def attemptOutcome (success : Bool) (cause : Cause) : Cause :=
  if success then .ok
  else match cause with
    | .normal => .partialSent
    | c => c

/-- The record waits for its redial; the LFSR advances once and gives the jitter (R152, R153). -/
def Chip.retryCall (p : Chip) (i : Nat) : Chip :=
  let lfsr := lfsrNext p.calls.lfsr
  let c := p.callRec i
  let p := { p with calls := { p.calls with lfsr := lfsr } }
  let (ready, p) := p.add32 p.calls.schedule (c.retry + lfsr % (c.retry / 4 + 1))
  p.onCall i fun c => { c with st := .waiting, line := none, ready := ready }

/-- The attempt on an ACTIVE record has ended: retry or end, then the arbiter is considered (R151, R152). -/
def Chip.attemptEnd (p : Chip) (i : Nat) (cause : Cause) : Chip :=
  let outcome := attemptOutcome (p.allSent i) cause
  let c := p.callRec i
  let p :=
    if outcome ≠ .ok ∧ outcome ≠ .cancelled ∧ c.made < c.allowed then p.retryCall i
    else p.endCall i outcome
  p.arbiterPass

end Sys2Proof.Machine
end

