-- ==== Sys2Proof/Machine/Release.lean ====
section
/-! DEFINITION. The release of a line (07 R136) and the events of the line channel (07 R123 to R137). An event whose
condition does not hold leaves the part as it is (log 7). -/

namespace Sys2Proof.Machine

/-! ## Release (R136) -/

/-- The line channel's own part of a release: RELEASING, on hook, the tone off, timers and dial phase stopped, inputs
disregarded (R136 step 1, R121). -/
def Line.released (cause : Cause) (l : Line) : Line :=
  { l.restartAll with
    state := .releasing, cause := some cause, conn := .none, dial := [], pos := 0, phase := .none, phaseTimer := none,
    stateTimer := none, ringEnd := none, settle := none, train := false, hook := false, toneOn := false, digit := 0 }

/-- The transmit context of a line that was CONNECTED TX stops, and its receive context if it is not IDLE (R136 step 2,
05 R94, 06 R117). -/
def Chip.stopContexts (p : Chip) (n : Nat) (l : Line) : Chip :=
  (if l.state = .connected ∧ l.conn = .tx then p.stopRender (n + 1) else p).stopIngestIfActive (n + 1)

/-- The call scheduler is told of the end of an outgoing attempt, and the line gives up its record (R136 step 4). -/
def Chip.giveUpCall (p : Chip) (n : Nat) (cause : Cause) : Chip :=
  match (p.line n).dir, (p.line n).call with
  | .outward, some i => (p.onLine n fun l => { l with call := none }).attemptEnd i cause
  | _, _ => p

/-- The line is released with a cause (R136). -/
def Chip.release (p : Chip) (n : Nat) (cause : Cause) : Chip :=
  let l := p.line n
  let p := (p.onLine n (Line.released cause)).issueWord .lineStates
  let p := ((p.stopContexts n l).closeAttempt n cause).giveUpCall n cause
  p.onLine n fun l => { l with stateTimer := some l.cfg.guard }

/-! ## Ringing (R123) -/

/-- RING qualifies PRESENT (R123). -/
def Chip.ringBurst (p : Chip) (n : Nat) : Chip :=
  let l := p.line n
  if l.state = .releasing then p
  else
    let p := p.onLine n fun l => { l with ringQ := ⟨true, 0⟩ }
    match l.state with
    | .idle =>
      ((p.onLine n fun l => { l with dir := .inward, bursts := 1 }).setLineState n .ringing).send (.ring n 1)
    | .ringing =>
      let k := satAdd 255 l.bursts 1
      (p.onLine n fun l => { l with bursts := k, ringEnd := none }).send (.ring n k)
    | _ => p

/-- Ticks of the ring-end timer (R123). -/
abbrev ringEndTicks : Nat := 8192

/-- RING qualifies ABSENT (R123). -/
def Chip.ringAbsent (p : Chip) (n : Nat) : Chip :=
  if (p.line n).state = .releasing then p
  else p.onLine n fun l => { l with
    ringQ := .restarted, ringEnd := if l.state = .ringing then some ringEndTicks else l.ringEnd }

/-- A RINGING line returns to IDLE: direction NONE, ring burst count 0, qualifiers restarted (R123, R120, R141). -/
def Chip.ringingToIdle (p : Chip) (n : Nat) : Chip :=
  (p.onLine n fun l => { l.restartAll with dir := .none, bursts := 0, ringEnd := none }).setLineState n .idle

/-- The ring-end timer expires (R123). -/
def Chip.ringEnded (p : Chip) (n : Nat) : Chip :=
  let l := p.line n
  if l.state = .ringing ∧ l.ringEnd.isSome then
    let p := (p.onLine n fun l => { l with ringEnd := none }).setLineState n .idle
    let p := p.send (.ringStopped n l.bursts)
    p.onLine n fun l => { l.restartAll with dir := .none, bursts := 0 }
  else p

/-! ## The end of settle (R124, R125, R121) -/

/-- ANSWERING becomes ANSWERED (R124). -/
def Chip.inwardAnswered (p : Chip) (n : Nat) : Chip :=
  let p := ((p.setLineState n .answered).openInward n).send (.answered n .inward none)
  p.onLine n fun l => { l with bursts := 0 }

/-- SEIZING judges LOOP (R125). -/
def Chip.judgeLoop (p : Chip) (n : Nat) (loop : Bool) : Chip :=
  if !loop then
    let p := p.onLine n fun l => { l with dead := satAdd 255 l.dead 1 }
    (p.send (.lineFault n (p.line n).dead)).release n .lineDead
  else
    let l := p.line n
    let p := p.onLine n fun l => { l with dead := 0 }
    let waits := l.dial.head? = some 13
    if l.cfg.blind = true ∧ ¬ waits then p.enterDialling n
    else (if waits then p.onLine n fun l => { l with pos := 1 } else p).enterAwaitTone n

/-- The settle period of a pulse train's last make has ended: the train period ends (R121; log 21). -/
def Line.trainSettled (l : Line) : Line :=
  match l.state, l.phase with
  | .dialling, .breaking _ => l
  | .dialling, .making (_ + 1) => l
  | _, _ => { l with train := false }

/-- The settle timer expires, LOOP being at the level `loop` (R124, R125, R121). -/
def Chip.settled (p : Chip) (n : Nat) (loop : Bool) : Chip :=
  let l := p.line n
  if l.settle.isNone then p
  else
    let p := p.onLine n fun l => { l with settle := none, inputs := { l.inputs with loop := loop } }
    match l.state with
    | .answering => p.inwardAnswered n
    | .seizing => p.judgeLoop n loop
    | _ => p.onLine n Line.trainSettled

/-! ## Dialling (R126 to R130) -/

/-- DT qualifies PRESENT (R126). -/
def Chip.dialTone (p : Chip) (n : Nat) : Chip :=
  let l := p.line n
  if l.disregard then p
  else
    let p := p.onLine n fun l => { l with dtQ := ⟨true, 0⟩ }
    if l.state = .awaitTone then (p.onLine n fun l => { l with stateTimer := none }).enterDialling n else p

/-- The dial-tone wait expires (R126). -/
def Chip.toneWaitExpired (p : Chip) (n : Nat) : Chip :=
  if (p.line n).state = .awaitTone ∧ (p.line n).stateTimer.isSome then p.release n .noTone else p

/-- The on phase of a tone symbol expires: the off phase begins (R128). -/
def Chip.toneOnExpired (p : Chip) (n : Nat) : Chip :=
  if (p.line n).phase = .toneOn then
    p.onLine n fun l => { l with phase := .toneOff, phaseTimer := some l.cfg.toneOff, toneOn := false, digit := 0 }
  else p

/-- The off phase of a tone symbol expires: the symbol is done (R128). -/
def Chip.toneOffExpired (p : Chip) (n : Nat) : Chip := if (p.line n).phase = .toneOff then p.symbolDone n else p

/-- A break ends: its make begins (R130). -/
def Chip.breakEnded (p : Chip) (n : Nat) : Chip :=
  match (p.line n).phase with
  | .breaking left => p.onLine n (Line.startMake left)
  | _ => p

/-- A make ends: the next break begins, or the inter-digit gap (R130). -/
def Chip.makeEnded (p : Chip) (n : Nat) : Chip :=
  match (p.line n).phase with
  | .making (left + 1) => p.onLine n (Line.startBreak left)
  | .making 0 => p.onLine n fun l => { l with phase := .gap, phaseTimer := some l.cfg.gap }
  | _ => p

/-- The inter-digit gap expires: the symbol is done (R130). -/
def Chip.gapExpired (p : Chip) (n : Nat) : Chip := if (p.line n).phase = .gap then p.symbolDone n else p

/-- A pause expires: the symbol is done (R127). -/
def Chip.pauseExpired (p : Chip) (n : Nat) : Chip := if (p.line n).phase = .pause then p.symbolDone n else p

/-! ## Answer and supervision (R131 to R134) -/

/-- The call record of an answered line takes its answered attempt (08 R142). -/
def Chip.markAnswered (p : Chip) (n : Nat) : Chip :=
  match (p.line n).call with
  | some i => p.onCall i fun c => { c with answeredAttempt := c.made }
  | none => p

/-- AT qualifies PRESENT (R132). -/
def Chip.answerTone (p : Chip) (n : Nat) : Chip :=
  let l := p.line n
  if l.disregard then p
  else
    let p := p.onLine n fun l => { l with atQ := ⟨true, 0⟩ }
    if l.state = .awaitAnswer then
      let p := (p.onLine n fun l => { l with stateTimer := none }).setLineState n .answered
      ((p.markAnswered n).answerOutward n).send (.answered n .outward l.call)
    else p

/-- BT qualifies PRESENT (R132). -/
def Chip.busyTone (p : Chip) (n : Nat) : Chip :=
  let l := p.line n
  if l.disregard then p
  else
    let p := p.onLine n fun l => { l with btQ := ⟨true, 0⟩ }
    if l.state = .awaitAnswer then p.release n .busy else p

/-- The answer wait expires (R132). -/
def Chip.answerWaitExpired (p : Chip) (n : Nat) : Chip :=
  if (p.line n).state = .awaitAnswer ∧ (p.line n).stateTimer.isSome then p.release n .noAnswer else p

/-- The loop loss count reaches 410 (R120, R131). -/
def Chip.loopLost (p : Chip) (n : Nat) : Chip :=
  let l := p.line n
  if l.disregard then p
  else
    let p := p.onLine n fun l => { l with loopLoss := Config.loopLossTicks }
    if l.state.actsOnLoss then p.release n .lineLost else p

/-- MP qualifies PRESENT (R134). -/
def Chip.meterPulsed (p : Chip) (n : Nat) : Chip :=
  let l := p.line n
  if l.disregard then p
  else
    let p := p.onLine n fun l => { l with mpQ := ⟨true, 0⟩ }
    if l.metered then p.meterPulse n else p

/-! ## The guard (R137) -/

/-- The guard time expires (R137). -/
def Chip.guardExpired (p : Chip) (n : Nat) : Chip :=
  let l := p.line n
  match l.state, l.cause, l.stateTimer with
  | .releasing, some cause, some _ =>
    let p := (p.onLine n fun l => { l.restartAll with dir := .none, cause := none, stateTimer := none }).setLineState n .idle
    (p.send (.released n l.dir cause)).arbiterPass
  | _, _, _ => p

end Sys2Proof.Machine
end

