-- ==== Sys2Proof/Machine/Operands.lean ====
section
/-! DEFINITION. The forms in which operands reach the part: request records (11.5), enabled bytes of an index word (10
R181, R187), tariff images (11.7, 09 R165), and the ranges that several requests test. -/

namespace Sys2Proof.Machine

/-! ## Request records (11.5) -/

/-- A one-byte field. -/
def byteAt (r : List Byte) (k : Nat) : Byte := r.getD k 0

/-- A two-byte field. -/
def halfAt (r : List Byte) (k : Nat) : Half := BitVec.ofNat 16 (fieldAt r k 2)

/-- A four-byte field. -/
def wordAt (r : List Byte) (k : Nat) : Word := BitVec.ofNat 32 (fieldAt r k 4)

/-- The body of a LINE_SET record (11.5). -/
def lineSetBody (r : List Byte) : LineSetFields where
  line := byteAt r 4
  method := byteAt r 5
  prescale := byteAt r 6
  period := byteAt r 7
  breakCount := byteAt r 8
  settle := byteAt r 9
  gap := halfAt r 10
  toneOn := halfAt r 12
  toneOff := halfAt r 14
  pause := byteAt r 16
  toneWait := byteAt r 17
  answerWait := byteAt r 18
  flags := byteAt r 19
  ringQualify := halfAt r 20
  meterQualify := byteAt r 22
  txStall := byteAt r 23
  guard := halfAt r 24
  meterValue := halfAt r 26

/-- The body of a CALL record (11.5). -/
def callBody (r : List Byte) : CallFields where
  desk := byteAt r 4
  document := byteAt r 5
  first := byteAt r 6
  last := byteAt r 7
  priority := byteAt r 8
  attempts := byteAt r 9
  retry := halfAt r 10
  lineMask := byteAt r 12
  access := byteAt r 13
  count := byteAt r 14
  flags := byteAt r 15
  nbSecond := wordAt r 16
  nbDay := byteAt r 20
  dest := (unpackNibbles ((List.range 20).map fun k => byteAt r (24 + k))).map (BitVec.ofNat 4)

/-- The request that a record of 64 bytes spells (11.5). A kind of no listed code is UNKNOWN_KIND (R182); a REPORT or
CONNECT whose kind or direction field holds no listed code goes to the row named in log 10. -/
def decodeRequest (r : List Byte) : Instr :=
  let tag := halfAt r 2
  match fieldAt r 0 2 with
  | 1 => .apertureSet tag (byteAt r 4) (byteAt r 5) (byteAt r 6) (byteAt r 7) (wordAt r 8) (halfAt r 12) (byteAt r 14)
      (byteAt r 15)
  | 2 => .apertureClear tag (byteAt r 4)
  | 3 => .masterSet tag (byteAt r 4) (byteAt r 5)
  | 4 => .shareSet tag (byteAt r 4)
  | 5 => .routeSet tag (byteAt r 4) (byteAt r 5)
  | 6 => .storeSet tag (wordAt r 4) (byteAt r 8) (halfAt r 10) (halfAt r 12)
  | 7 => .delete tag (byteAt r 4)
  | 8 =>
    match (byteAt r 4).toNat with
    | 1 => .reportPages tag (byteAt r 5) (wordAt r 8)
    | 2 => .reportAccounts tag (wordAt r 8)
    | 3 => .reportCalls tag (wordAt r 8)
    | 4 => .reportLines tag (wordAt r 8)
    | _ => .reportDocuments tag (byteAt r 4) (wordAt r 8)
  | 9 => .scanBegin tag (byteAt r 4) (byteAt r 5) (halfAt r 6)
  | 10 => .ingestStop tag (byteAt r 4) (byteAt r 5)
  | 11 => .ingestSet tag (byteAt r 4) (byteAt r 5)
  | 12 => .printSetup tag (halfAt r 4) (byteAt r 6) (byteAt r 7)
  | 13 => .print tag (byteAt r 4) (byteAt r 5) (byteAt r 6) (byteAt r 7)
  | 14 => .printCancel tag (byteAt r 4)
  | 15 => .lineSet tag (lineSetBody r)
  | 16 => .answer tag (byteAt r 4)
  | 17 =>
    if byteAt r 5 = 1 then .connectTx tag (byteAt r 4) (halfAt r 6) (byteAt r 8)
    else .connectRx tag (byteAt r 4) (byteAt r 5) (halfAt r 6) (byteAt r 8) (byteAt r 9)
  | 18 => .pageResult tag (byteAt r 4) (byteAt r 5)
  | 19 => .release tag (byteAt r 4) (byteAt r 5)
  | 20 => .outgoingLimit tag (byteAt r 4)
  | 21 => .call tag (callBody r)
  | 22 => .callCancel tag (byteAt r 4)
  | 23 => .seed tag (halfAt r 4)
  | 24 => .setClock tag (wordAt r 4) (byteAt r 8)
  | 25 => .holiday tag (byteAt r 4)
  | 26 => .tariffCommit tag (wordAt r 4)
  | 27 => .accountSet tag (byteAt r 4) (wordAt r 8)
  | 28 => .accountClear tag (byteAt r 4)
  | 29 => .logSet tag (wordAt r 4) (halfAt r 8)
  | 30 => .warmRestart tag
  | _ => .unknownKind tag (halfAt r 0)

/-! ## Ranges that several requests test -/

/-- A resolution code: STANDARD, FINE or SUPER (11.2). -/
def goodRes (r : Nat) : Bool := r == 1 || r == 2 || r == 4

/-- A width: a multiple of 32 in 512..2432. -/
def goodWidth (w : Nat) : Bool := w % 32 == 0 && decide (512 ≤ w) && decide (w ≤ 2432)

/-- A width fits a slot size (04 R58). -/
def widthFits (w slotSize : Nat) : Bool := decide (w / 8 + 4 ≤ slotSize)

/-- A value lies in lo..hi. -/
def within (lo hi x : Nat) : Bool := decide (lo ≤ x) && decide (x ≤ hi)

/-- A page range: first 1..255, last 0 or not below first (06 R106, 08 R144; the byte fields reach 255 at most). -/
def goodRange (first last : Nat) : Bool := first != 0 && (last == 0 || decide (first ≤ last))

/-! ## Enabled bytes over a shadow (03 R48, 10 R180, R181) -/

/-- The 16-bit count that a written word gives over the old count: its enabled bytes, the others kept; the high 16 bits
are disregarded. -/
def indexOver (old : Nat) (w : BusWord) : Nat :=
  (if w.enables.getLsbD 0 then w.data.toNat % 256 else old % 256)
    + 256 * (if w.enables.getLsbD 1 then w.data.toNat / 256 % 256 else old / 256 % 256)

/-! ## The tariff image (11.7, R165) -/

/-- Bytes of a tariff image (R192). -/
abbrev imageBytes : Nat := 1016

/-- Band `j` of day type `t`. -/
def imageBand (m : List Byte) (t j : Nat) : Band :=
  ⟨fieldAt m (0x10 + 24 * t + 4 * j) 2, fieldAt m (0x10 + 24 * t + 4 * j + 2) 1⟩

/-- The bands of day type `t`: its count many, six at most. -/
def imageBands (m : List Byte) (t : Nat) : List Band := (List.range (min 6 (fieldAt m (8 + t) 1))).map (imageBand m t)

/-- Prefix entry `i`. -/
def imagePrefix (m : List Byte) (i : Nat) : ZonePrefix :=
  let a := 0x58 + 8 * i
  ⟨(unpackNibbles ((m.drop (a + 2)).take 6)).take (fieldAt m a 1), fieldAt m (a + 1) 1⟩

/-- The prefixes: the prefix count many, 48 at most. -/
def imagePrefixes (m : List Byte) : List ZonePrefix := (List.range (min 48 (fieldAt m 0x0B 1))).map (imagePrefix m)

/-- The tariff an image spells (R192). -/
def imageTariff (m : List Byte) : Tariff where
  dayMap := (List.range 7).map fun d => fieldAt m d 1
  bands := (List.range 3).map (imageBands m)
  prefixes := imagePrefixes m
  defaultZone := fieldAt m 0x0C 1
  setup := (List.range 16).map fun z => fieldAt m (0x1D8 + 2 * z) 2
  rates := (List.range 128).map fun k => ⟨fieldAt m (0x1F8 + 4 * k) 2, fieldAt m (0x1F8 + 4 * k + 2) 2⟩

/-- The starts of a list of bands rise strictly. -/
def risingStarts : List Band → Bool
  | a :: b :: rest => decide (a.start < b.start) && risingStarts (b :: rest)
  | _ => true

/-- The bands of a day type pass (R165); `count` is its band count as stored. -/
def goodBands (count : Nat) (bands : List Band) : Bool :=
  within 1 6 count && (bands.head?.map (·.start)) == some 0 && risingStarts bands
    && bands.all fun b => decide (b.start ≤ 1439) && decide (b.cls ≤ 7)

/-- The prefixes pass: their stored lengths, digits and zones, and no two the same (R165). -/
def goodPrefixes (count : Nat) (lengths : List Nat) (prefixes : List ZonePrefix) : Bool :=
  decide (count ≤ 48) && lengths.all (within 1 12)
    && (prefixes.all fun x => decide (x.zone ≤ 15) && x.digits.all (decide <| · ≤ 9))
    && decide (prefixes.map (·.digits)).Nodup

/-- The image passes validation (R165). -/
def imageValid (m : List Byte) : Bool :=
  let t := imageTariff m
  (t.dayMap.all (decide <| · ≤ 2))
    && ((List.range 3).all fun k => goodBands (fieldAt m (8 + k) 1) (t.bands.getD k []))
    && goodPrefixes (fieldAt m 0x0B 1) ((List.range t.prefixes.length).map fun i => fieldAt m (0x58 + 8 * i) 1) t.prefixes
    && decide (t.defaultZone ≤ 15)
    && t.rates.all fun r => within 1 3600 r.seconds

end Sys2Proof.Machine
end

