-- ==== Sys2Proof/Machine/Path.lean ====
section
/-! DEFINITION. The memory path (03): the S-port and its path decoder, the posting queue and its drains, the arbiter,
and the two host-owned index words (10 R181, R187). -/

namespace Sys2Proof.Machine

/-- A meaning that acts on the part alone. -/
def event (f : Chip → Chip) (s : State) : Host.Outcome State Fault Refusal := .next { s with chip := f s.chip }

/-! ## The path decoder (R39 to R43) -/

/-- The transaction is malformed (R39). -/
def malformed (t : Transaction) : Bool :=
  t.addr.toNat % 4 != 0 || decide (64 < t.addr.toNat % 64 + 4 * t.words.length)

/-- A word with at least one enabled byte. -/
def touched (w : BusWord) : Bool := w.enables != 0

/-- The words of a transaction with their addresses. -/
def wordsAt : (a : Nat) → List BusWord → List (Nat × BusWord)
  | _, [] => []
  | a, w :: ws => (a, w) :: wordsAt (a + 4) ws

/-- Offsets in the control area of the part-owned words (R40). -/
def partOwned (o : Nat) : Bool :=
  within 0x1000 0x17FF o || [0x1804, 0x1808, 0x1810, 0x1814, 0x1818, 0x181C, 0x1820].contains o

/-- Offsets of the two watched words (R40, R47). -/
abbrev producerOffset : Nat := 0x1800
abbrev consumerOffset : Nat := 0x180C

/-- The word of a write at an offset of the control area, if it has an enabled byte. -/
def Chip.controlWord (p : Chip) (a : Nat) (ws : List BusWord) (offset : Nat) : Option BusWord :=
  ((wordsAt a ws).find? fun (b, w) => b == p.control + offset && touched w).map (·.2)

/-- The watch of a write in the control area (R47). -/
def Chip.controlWatch (p : Chip) (a : Nat) (ws : List BusWord) : Watch :=
  match (p.controlWord a ws producerOffset).isSome, (p.controlWord a ws consumerOffset).isSome with
  | true, true => .both
  | true, false => .producer
  | false, true => .consumer
  | false, false => .none

/-- Bytes of an aperture (R43). -/
def Aperture.size (a : Aperture) : Nat := 4096 * 2 ^ a.logSize

/-- The lowest-numbered enabled aperture that contains an address (R43). -/
def Chip.matchAperture (p : Chip) (a : Nat) : Option (Nat × Aperture) :=
  (List.range 12).findSome? fun e =>
    match p.aperture e with
    | some x => if x.base ≤ a ∧ a < x.base + x.size then some (e, x) else none
    | none => none

/-- The ingest context that a kind binds (R45). -/
def ApKind.ingestCtx : ApKind → Option Nat
  | .scanRing => some 0
  | .rxRing n => some (n + 1)
  | _ => none

/-- The render context that a kind binds (R45). -/
def ApKind.renderCtx : ApKind → Option Nat
  | .printRing => some 0
  | .txRing n => some (n + 1)
  | _ => none

/-- How the path decoder handles a well-formed transaction (R39 to R43). -/
inductive Handling where
  | control
  | store
  | ingest (entry ctx slot : Nat) (ap : Aperture)
  | render (ctx slot : Nat) (ap : Aperture)
  | plain
deriving DecidableEq, Repr, Inhabited

/-- The handling that an aperture gives (R43). -/
def Aperture.handling (e : Nat) (x : Aperture) (a : Nat) : Handling :=
  let slot := (a - x.base) / x.slotSize
  match x.kind.ingestCtx, x.kind.renderCtx with
  | some c, _ => if slot < x.slotCount then .ingest e c slot x else .plain
  | none, some c => if slot < x.slotCount then .render c slot x else .plain
  | none, none => .plain

/-- The region that contains the first address decides (R39). -/
def Chip.handling (p : Chip) (a : Nat) : Handling :=
  if p.control ≤ a ∧ a < p.control + 8192 then .control
  else if p.store.configured = true ∧ p.store.base ≤ a ∧ a < p.store.base + p.store.blocks * 1024 then .store
  else match p.matchAperture a with
    | some (e, x) => x.handling e a
    | none => .plain

/-- The transaction covers the tag word of its slot (04 R59); `anyWord` counts a word without enabled bytes. -/
def coversTag (anyWord : Bool) (ap : Aperture) (slot a : Nat) (ws : List BusWord) : Bool :=
  (wordsAt a ws).any fun (b, w) => b == ap.base + slot * ap.slotSize + ap.slotSize - 4 && (anyWord || touched w)

/-! ## Responses (R38, R42, R47, R50) -/

/-- The S-port answers a transaction. -/
def Chip.respond (p : Chip) (r : Response) : Chip := { p with path := { p.path with response := some r } }

/-- FAULT, with its PROTECT_FAULT (R42). -/
def Chip.faultAt (p : Chip) (address : Nat) (master : Fin 16) (cause : FaultCause) : Chip :=
  (p.respond .fault).send (.protectFault address master cause)

/-- A write joins the posting queue, or is answered RETRY when it is full (R47). -/
def Chip.postWrite (p : Chip) (t : Transaction) (w : Watch) : Chip :=
  if p.path.posted.length < Config.postingDepth then
    { p with path := { p.path with
        posted := p.path.posted ++ [⟨t.addr.toNat, t.words, t.master, w⟩], response := some (.done []) } }
  else p.respond .retry

/-- Two runs of words have a word address in common. -/
def shareWord (a n b m : Nat) : Bool := overlaps a (4 * n) b (4 * m)

/-- The wait set of a read, as positions in the posting queue (R50). -/
def Chip.waitSet (p : Chip) (t : Transaction) : List Nat :=
  (List.range p.path.posted.length).filter fun k =>
    tget p.path.ordered t.master ||
      match p.path.posted[k]? with
      | some e => shareWord e.addr e.words.length t.addr.toNat t.words.length
      | none => false

/-- A read is held until memory has served it (R50); the drain of an entry already in the queue began waiting before a
read whose wait set is empty (R54). -/
def Chip.holdRead (p : Chip) (t : Transaction) (slot : Option (Nat × Nat × Bool)) : Chip :=
  let waits := p.waitSet t
  { p with path := { p.path with
      held := some ⟨t.addr.toNat, t.words.length, t.master, slot, waits, waits.isEmpty && !p.path.posted.isEmpty⟩
      response := none } }

/-- A write into an ingest slot: the hold policy first, then the posting queue (04 R63, R47). -/
def Chip.ingestWrite (p : Chip) (t : Transaction) (e c slot : Nat) (ap : Aperture) : Chip :=
  let x := match (p.ing c).ring with
    | some r => r.slot slot
    | none => .fresh
  let completing := coversTag false ap slot t.addr.toNat t.words
  if ap.overwrite = false ∧ (x.st ≠ .empty ∨ x.posted = true) then p.respond .retry
  else
    let q := p.postWrite t (.slot e c slot completing)
    if completing && decide (p.path.posted.length < Config.postingDepth) then
      q.onIngRing c fun r => r.setSlot slot { r.slot slot with posted := true }
    else q

/-- A read of a render slot: RETRY unless the slot is READY (04 R71). -/
def Chip.renderRead (p : Chip) (t : Transaction) (c slot : Nat) (ap : Aperture) : Chip :=
  let ready : Bool := match (p.ren c).ring with
    | some r => (r.slot slot).st == .ready
    | none => false
  if ready then p.holdRead t (some (c, slot, coversTag true ap slot t.addr.toNat t.words)) else p.respond .retry

/-- A write in the control area (R40). -/
def Chip.controlWrite (p : Chip) (t : Transaction) : Chip :=
  match (wordsAt t.addr.toNat t.words).find? fun (b, w) => partOwned (b - p.control) && touched w with
  | some (b, _) => p.faultAt b t.master .control
  | none => p.postWrite t (p.controlWatch t.addr.toNat t.words)

/-- A transaction is taken at the S-port (R38 to R43). While a read is held the S-port takes none (log 28). -/
def Chip.transaction (p : Chip) (t : Transaction) : Chip :=
  let a := t.addr.toNat
  if p.path.held.isSome then p
  else if malformed t then p.faultAt a t.master .form
  else match t.dir, p.handling a with
    | .write, .control => p.controlWrite t
    | .write, .store => p.faultAt a t.master .store
    | .write, .ingest e c slot ap => p.ingestWrite t e c slot ap
    | .write, .render .. => p.faultAt a t.master .ring
    | .write, .plain => p.postWrite t .none
    | .read, .render c slot ap => p.renderRead t c slot ap
    | .read, _ => p.holdRead t none

/-- SPORT_TRANSACTION (R39). -/
def execSportTransaction (t : Transaction) (s : State) : Host.Outcome State Fault Refusal :=
  event (Chip.transaction · t) s

/-! ## The index words (10 R181, R187) -/

/-- While C differs from P and no record is being taken, a RECORD_READ of record C is issued (10 R180). -/
def Chip.takeRequest (p : Chip) : Chip :=
  if p.req.consumer ≠ p.req.producer ∧ p.req.taking = false then
    { p with req := { p.req with taking := true } }.issueRecord (.requestRead (p.req.consumer % 64))
  else p

/-- The request producer word has been written (10 R181). -/
def Chip.producerWritten (p : Chip) (w : BusWord) : Chip :=
  let v := indexOver p.req.producer w
  if countDist v p.req.consumer ≤ 64 then { p with req := { p.req with producer := v } }.takeRequest
  else p.send (.indexBad 0 v p.req.consumer)

/-- LOST is placed once room frees in the ring (10 R187). -/
def Chip.placeLost (p : Chip) : Chip :=
  if 0 < p.notices.lost ∧ p.unconsumed < Config.noticeRing then
    let k := p.notices.lost
    ({ p with notices := { p.notices with lost := 0 } }.placeNotice (.lost k)).issueWord .lost
  else p

/-- The notice consumer word has been written (10 R187). -/
def Chip.consumerWritten (p : Chip) (w : BusWord) : Chip :=
  let v := indexOver p.notices.cn w
  if countDist p.notices.pn v ≤ Config.noticeRing then { p with notices := { p.notices with cn := v } }.placeLost
  else p.send (.indexBad 1 v p.notices.pn)

/-! ## Drains (R48) -/

/-- The oldest entry leaves the queue: the wait set of a held read shrinks, and the read is no longer behind a drain
(R47, R50, R54). -/
def Chip.dropOldest (p : Chip) : Chip :=
  { p with path := { p.path with
      posted := p.path.posted.drop 1
      held := p.path.held.map fun r =>
        { r with waits := (r.waits.filter (0 < ·)).map (· - 1), behindDrain := false } } }

/-- A watch acts at its drain on the watched word, if the write touched it (R48). -/
def Chip.watchWord (p : Chip) (e : Posted) (offset : Nat) (f : Chip → BusWord → Chip) : Chip :=
  match p.controlWord e.addr e.words offset with
  | some w => f p w
  | none => p

/-- The drain of an entry acts by its watch (R48). DESIGN CHOICE (log 40): of a write that touches both index words, the
request unit acts first. -/
def Chip.drained (p : Chip) (e : Posted) : Chip :=
  match e.watch with
  | .none => p
  | .producer => p.watchWord e producerOffset Chip.producerWritten
  | .consumer => p.watchWord e consumerOffset Chip.consumerWritten
  | .both => (p.watchWord e producerOffset Chip.producerWritten).watchWord e consumerOffset Chip.consumerWritten
  | .slot _ c slot completing => p.drainSlot c slot completing

/-- POSTED_WRITE_DRAIN (R48): memory serves the oldest entry, which holds the port. -/
def execPostedWriteDrain (s : State) : Host.Outcome State Fault Refusal :=
  match s.chip.mport.busy, s.chip.path.posted with
  | some .drain, e :: _ =>
    .next { s with mem := memWriteWords s.mem e.addr e.words, chip := (s.chip.freePort.dropOldest).drained e }
  | _, _ => .next s

/-! ## Reads (R50) -/

/-- The words that a read returns. -/
def readWords (m : List Host.Cell) (a n : Nat) : List Word := (List.range n).map fun k => memReadWord m (a + 4 * k)

/-- The held read is answered with its data; a completing read of a render slot consumes it (R50, 04 R72). -/
def Chip.answerRead (p : Chip) (r : HeldRead) (data : List Word) : Chip :=
  let p := { p.freePort with path := { p.path with held := none, response := some (.done data) } }
  match r.slot with
  | some (c, slot, true) => p.consume c slot
  | _ => p

/-- THROUGH_READ_SERVED (R50): memory serves the held read, which holds the port. -/
def execThroughReadServed (s : State) : Host.Outcome State Fault Refusal :=
  match s.chip.mport.busy, s.chip.path.held with
  | some .read, some r => .next { s with chip := s.chip.answerRead r (readWords s.mem r.addr r.words) }
  | _, _ => .next s

/-! ## The arbiter (R52 to R55) -/

/-- The THROUGH request that is granted first, if any waits (R54). -/
def Chip.throughWaiting (p : Chip) : Option PortOp :=
  let drain := !p.path.posted.isEmpty
  match p.path.held with
  | some r =>
    if r.waits.isEmpty then (if drain && r.behindDrain then some .drain else some .read)
    else if drain then some .drain else none
  | none => if drain then some .drain else none

/-- The first line after the last granted one that has an operation waiting (R55). -/
def Chip.nextLine (p : Chip) : Option Nat :=
  [1, 2, 3, 4].findSome? fun k =>
    let n := (p.mport.lastLine + k) % 4
    if (tget p.mport.lineOps n).isEmpty then none else some n

/-- The ENGINE operation that is granted, and the M-port with it taken from its requester (R55). -/
def Chip.engineGrant (p : Chip) : Option (PortOp × MPort) :=
  let m := p.mport
  match m.records with
  | op :: rest => some (.record op, { m with records := rest })
  | [] =>
    match p.nextLine with
    | some n =>
      (tget m.lineOps n).head?.map fun op =>
        (.engine op, { m with lineOps := tset m.lineOps n ((tget m.lineOps n).drop 1), lastLine := n })
    | none =>
      match m.scanOps, m.printOps with
      | op :: rest, _ => some (.engine op, { m with scanOps := rest })
      | [], op :: rest => some (.engine op, { m with printOps := rest })
      | [], [] => none

/-- Turn lengths (R53). -/
def Share.turn : Share → OpClass → Nat
  | .threeOne, .through => 3
  | .oneThree, .engine => 3
  | _, _ => 1

/-- The other class. -/
def OpClass.other : OpClass → OpClass
  | .through => .engine
  | .engine => .through

/-- A grant to the class whose turn it is while both wait: its count rises, and at the turn length the turn passes
(R53). -/
def MPort.countGrant (m : MPort) : MPort :=
  if m.turnCount + 1 = m.share.turn m.turn then { m with turn := m.turn.other, turnCount := 0 }
  else { m with turnCount := m.turnCount + 1 }

/-- One grant (R53). -/
def Chip.grant (p : Chip) : Chip :=
  if p.mport.busy.isSome then p
  else match p.throughWaiting, p.engineGrant with
    | none, none => p
    | some op, none => { p with mport := { p.mport with busy := some op } }
    | none, some (op, m) => { p with mport := { m with busy := some op } }
    | some through, some (op, m) =>
      match p.mport.turn with
      | .through => { p with mport := { p.mport.countGrant with busy := some through } }
      | .engine => { p with mport := { m.countGrant with busy := some op } }

/-- Memory after a RECORD_WRITE that no row of the table serves: a status word, a notice or a log entry (log 11). -/
def Chip.rowlessWrite (p : Chip) (m : List Host.Cell) : Option (List Host.Cell) :=
  match p.mport.busy with
  | some (.record (.word w)) => some (memPutWord m (p.control + w.offset) (p.wordValue w))
  | some (.record (.notice position n)) => some (memWriteBytes m (p.control + 0x1000 + 16 * position) n.bytes)
  | some (.record (.logEntry a bytes)) => some (memWriteBytes m a bytes)
  | _ => none

/-- Memory serves the RECORD_WRITE that holds the port, if no row of the table serves it: its bytes are in memory, a status
word with the value it has now (10 R189), and the port is free. DESIGN CHOICE (log 11): this comes before the next grant, or
when no command waits. -/
def State.serveRowless (s : State) : State :=
  match s.chip.rowlessWrite s.mem with
  | some m => { s with mem := m, chip := s.chip.freePort }
  | none => s

/-- ARBITER_GRANT (R53): one grant, made only when the port is free; a RECORD_WRITE without a row of its own that holds the
port is served first (log 11). -/
def execArbiterGrant (s : State) : Host.Outcome State Fault Refusal :=
  let s := s.serveRowless
  .next { s with chip := s.chip.grant }

/-! ## Requests taken (10 R180, R182) -/

/-- The RECORD_READ of a request record that holds the port is served with the bytes of command `c` (log 9). -/
def State.served (s : State) (c : Instr) : Bool :=
  match s.chip.mport.busy with
  | some (.record (.requestRead position)) =>
    decide (decodeRequest (memReadBytes s.mem (s.chip.control + 64 * position) 64) = c)
  | _ => false

/-- C rises by 1, the request consumer word follows, and the next record is taken (10 R180). -/
def Chip.nextRequest (p : Chip) : Chip :=
  ({ p with req := { p.req with consumer := (p.req.consumer + 1) % 65536, taking := false } }.issueWord .consumer).takeRequest

/-- A request is dispatched to its block, which acts (10 R180). -/
def Chip.dispatch (p : Chip) (act : Chip → Chip) : Chip := (act p.freePort).nextRequest

/-- The meaning of a request: it acts when its record is the one served. -/
def request (c : Instr) (act : Chip → Chip) (s : State) : Host.Outcome State Fault Refusal :=
  if s.served c then .next { s with chip := s.chip.dispatch act } else .next s

end Sys2Proof.Machine
end

