-- ==== Sys2Proof/Machine/PathRequests.lean ====
section
/-! DEFINITION. Requests of the memory path and the notice unit: apertures, master ordering, share, routing (03 R44 to
R46, R51, R56; 10 R188). -/

namespace Sys2Proof.Machine

/-! ## Apertures (R43 to R46) -/

/-- The context that a kind binds is active (R45). -/
def Chip.kindActive (p : Chip) : ApKind → Bool
  | .through => false
  | .scanRing => (p.ing 0).stateCode != 0
  | .rxRing n => (p.ing (n + 1)).stateCode != 0
  | .printRing => p.printActive
  | .txRing n => (p.line n).state == .connected && (p.line n).conn == .tx

/-- The entry through which the context of a kind is bound (R45). -/
def Chip.boundEntry (p : Chip) (k : ApKind) : Option Nat :=
  match k.ingestCtx, k.renderCtx with
  | some c, _ => (p.ing c).ring.map (·.entry)
  | none, some c => (p.ren c).ring.map (·.entry)
  | none, none => none

/-- A posted write into a slot of an unbound entry is made plain (R46). -/
def Posted.unwatch (e : Nat) (x : Posted) : Posted :=
  match x.watch with
  | .slot entry _ _ _ => if entry = e then { x with watch := .none } else x
  | _ => x

/-- A SLOT_WRITE of a context whose ring is unbound touches no ring when it completes. -/
def EngineOp.unbind (c : Nat) : EngineOp → EngineOp
  | .slotWrite c' slot a ta pels m sq pe fin orphan => .slotWrite c' slot a ta pels m sq pe fin (orphan || c' == c)
  | op => op

/-- The ring of an entry is unbound from its context: its slot states are given up and its posted writes made plain
(R46). -/
def Chip.unbind (p : Chip) (e : Nat) : Chip :=
  match p.aperture e with
  | none => p
  | some x =>
    match x.kind.ingestCtx, x.kind.renderCtx with
    | some c, _ =>
      let p := p.onIng c fun y => { y with ring := none }
      { p with path := { p.path with posted := p.path.posted.map (Posted.unwatch e) } }
    | none, some c =>
      ((p.onRen c fun y => { y with ring := none }).mapEngine (EngineOp.unbind c)).unbindHeld c
    | none, none => p

/-- A new ring entry binds its context: every slot EMPTY, marks clear, position 0, timer STOPPED (R45). -/
def Chip.bind (p : Chip) (e : Nat) (x : Aperture) : Chip :=
  match x.kind.ingestCtx, x.kind.renderCtx with
  | some c, _ => p.onIng c fun y =>
      { y with ring := some ⟨e, x.base, x.slotSize, x.overwrite, List.replicate x.slotCount .fresh, 0⟩ }
  | none, some c => p.onRen c fun y =>
      { y with ring := some ⟨e, x.base, x.slotSize, List.replicate x.slotCount .fresh, 0, 0, false, .stopped⟩ }
  | none, none => p

/-- The kind that the kind and line fields name (11.5). -/
def apertureKind (kind line : Nat) : Option ApKind :=
  match kind with
  | 0 => some .through
  | 1 => some .scanRing
  | 2 => some (.rxRing line)
  | 3 => some .printRing
  | 4 => some (.txRing line)
  | _ => none

/-- The kind is a ring. -/
def ApKind.isRing (k : ApKind) : Bool := k != .through

/-- The kind names a line. -/
def ApKind.hasLine : ApKind → Bool
  | .rxRing _ | .txRing _ => true
  | _ => false

/-- The entry as the request's fields give it; fields its kind does not use are 0 (R43, R44). -/
def newAperture (k : ApKind) (logSize base slotSize slotCount policy : Nat) : Aperture where
  base := base
  logSize := logSize
  kind := k
  slotSize := if k.isRing then slotSize else 0
  slotCount := if k.isRing then slotCount else 0
  overwrite := k.ingestCtx.isSome && policy == 1

/-- The field checks of APERTURE_SET (R44). -/
def Chip.apertureFields (p : Chip) (entry line policy : Nat) (x : Aperture) : Bool :=
  decide (entry ≤ 11) && decide (x.logSize ≤ 12) && x.base % x.size == 0
    && (!x.kind.isRing || ((x.slotSize == 128 || x.slotSize == 256 || x.slotSize == 512) && within 2 64 x.slotCount
          && decide (x.slotSize * x.slotCount ≤ x.size)))
    && (!x.kind.hasLine || decide (line ≤ 3)) && (x.kind.ingestCtx.isNone || decide (policy ≤ 1))
    && !overlaps x.base x.size p.control 8192

/-- An aperture entry holds a ring whose bound context is active (R44, R46). -/
def Chip.entryActive (p : Chip) (e : Nat) : Bool :=
  match p.aperture e with
  | some x => p.kindActive x.kind
  | none => false

/-- APERTURE_SET acts (R44, R45). -/
def Chip.apertureSet (p : Chip) (tag : Half) (entry kind logSize line base slotSize slotCount policy : Nat) : Chip :=
  match apertureKind kind line with
  | none => p.done tag 1 .badField
  | some k =>
    let x := newAperture k logSize base slotSize slotCount policy
    if !p.apertureFields entry line policy x then p.done tag 1 .badField
    else if p.entryActive entry || p.kindActive k then p.done tag 1 .state
    else if k.isRing && (p.boundEntry k).any (· != entry) then p.done tag 1 .busy
    else (((p.unbind entry).setAperture entry (some x)).bind entry x).done tag 1 .ok

/-- APERTURE_SET (R44). -/
def execApertureSet (tag : Half) (entry kind logSize line : Byte) (base : Word) (slotSize : Half)
    (slotCount policy : Byte) (s : State) : Host.Outcome State Fault Refusal :=
  request (.apertureSet tag entry kind logSize line base slotSize slotCount policy)
    (fun p => p.apertureSet tag entry.toNat kind.toNat logSize.toNat line.toNat base.toNat slotSize.toNat slotCount.toNat
      policy.toNat) s

/-- APERTURE_CLEAR acts (R46). -/
def Chip.apertureClear (p : Chip) (tag : Half) (entry : Nat) : Chip :=
  if 11 < entry then p.done tag 2 .badField
  else if p.entryActive entry then p.done tag 2 .state
  else ((p.unbind entry).setAperture entry none).done tag 2 .ok

/-- APERTURE_CLEAR (R46). -/
def execApertureClear (tag : Half) (entry : Byte) (s : State) : Host.Outcome State Fault Refusal :=
  request (.apertureClear tag entry) (fun p => p.apertureClear tag entry.toNat) s

/-! ## Ordering, share, routing -/

/-- MASTER_SET acts (R51). -/
def Chip.masterSet (p : Chip) (tag : Half) (master ordering : Nat) : Chip :=
  if 15 < master ∨ 1 < ordering then p.done tag 3 .badField
  else
    let p := { p with path := { p.path with ordered := tset p.path.ordered master (ordering == 0) } }
    p.done tag 3 .ok

/-- MASTER_SET (R51). -/
def execMasterSet (tag : Half) (master ordering : Byte) (s : State) : Host.Outcome State Fault Refusal :=
  request (.masterSet tag master ordering) (fun p => p.masterSet tag master.toNat ordering.toNat) s

/-- The share setting of a code (11.5). -/
def shareOf : Nat → Option Share
  | 0 => some .threeOne
  | 1 => some .oneOne
  | 2 => some .oneThree
  | _ => none

/-- SHARE_SET acts (R56). -/
def Chip.shareSet (p : Chip) (tag : Half) (setting : Nat) : Chip :=
  match shareOf setting with
  | none => p.done tag 4 .badField
  | some x =>
    let p := { p with mport := { p.mport with share := x, turn := .through, turnCount := 0 } }
    p.done tag 4 .ok

/-- SHARE_SET (R56). -/
def execShareSet (tag : Half) (setting : Byte) (s : State) : Host.Outcome State Fault Refusal :=
  request (.shareSet tag setting) (fun p => p.shareSet tag setting.toNat) s

/-- The target of a code (11.5). -/
def targetOf : Nat → Option Target
  | 0 => some .none
  | 1 => some .int0
  | 2 => some .int1
  | _ => none

/-- ROUTE_SET acts (10 R188). -/
def Chip.routeSet (p : Chip) (tag : Half) (cls target : Nat) : Chip :=
  match targetOf target with
  | none => p.done tag 5 .badField
  | some x =>
    if 6 < cls then p.done tag 5 .badField
    else
      let p := { p with notices := { p.notices with routes := tset p.notices.routes cls x } }
      p.done tag 5 .ok

/-- ROUTE_SET (10 R188). -/
def execRouteSet (tag : Half) (cls target : Byte) (s : State) : Host.Outcome State Fault Refusal :=
  request (.routeSet tag cls target) (fun p => p.routeSet tag cls.toNat target.toNat) s

/-- UNKNOWN_KIND (10 R182): the record is answered BAD_KIND and has no other effect. -/
def execUnknownKind (tag kind : Half) (s : State) : Host.Outcome State Fault Refusal :=
  request (.unknownKind tag kind) (fun p => p.done tag kind.toNat .badKind) s

end Sys2Proof.Machine
end

