-- ==== Sys2Proof/Machine/Reports.lean ====
section
/-! DEFINITION. Reports (10 R184, 11.9; contents by 02 R37, 08 R158, 09 R177). A record is taken when its RECORD_WRITE is
issued, one at a time. -/

namespace Sys2Proof.Machine

/-- The kind code of REPORT (11.5). -/
abbrev reportCode : Nat := 8

/-- Bytes of a record (11.9). -/
def ReportKind.recordSize : ReportKind → Nat
  | .documents => 16
  | .pages => 32
  | .accounts => 32
  | .calls => 32
  | .lines => 16

/-- Bytes of the largest report (11.9). -/
def ReportKind.largest : ReportKind → Nat
  | .documents => 1024
  | .pages => 8160
  | .accounts => 2048
  | .calls => 1024
  | .lines => 80

/-! ## Records (11.9) -/

/-- A DOCUMENTS record. -/
def Chip.documentRecord (p : Chip) (d : Nat) : List Byte :=
  let x := p.doc d
  let st := match x.st with
    | .free => 0
    | .opened => 1
    | .complete => 2
    | .doomed => 3
  layout 16 [(0, 1, d), (1, 1, st), (2, 1, x.origin), (3, 1, x.desk), (4, 1, x.pages.length), (5, 1, x.incomplete.toNat),
    (6, 1, x.holds), (8, 4, clockWord x.createdDay x.createdSecond)]

/-- A PAGES record. -/
def Chip.pageRecord (p : Chip) (r : Nat) : List Byte :=
  let x := p.pageRec r
  let st := match x.st with
    | .free => 0
    | .opened => 1
    | .closed => 2
  layout 32 [(0, 1, x.number), (1, 1, st), (2, 1, x.res),
    (3, 1, x.truncated.toNat + 2 * x.poor.toNat + 4 * x.corrupt.toNat), (4, 2, x.width), (6, 2, x.lines),
    (8, 4, x.bitLength), (12, 4, (x.bitLength + 7) / 8), (16, 2, x.chain.length), (18, 2, x.damaged)]

/-- An ACCOUNTS record. -/
def Chip.accountRecord (p : Chip) (d : Nat) : List Byte :=
  let x := p.account d
  layout 32 [(0, 1, d), (1, 1, x.blocked.toNat), (4, 4, x.limit), (8, 4, x.total), (12, 2, x.answered), (14, 2, x.sent),
    (16, 2, x.received)]

/-- A CALLS record. -/
def Chip.callRecord (p : Chip) (i : Nat) : List Byte :=
  let x := p.callRec i
  let st := match x.st with
    | .free => 0
    | .waiting => 1
    | .active => 2
  let left := if x.st = .waiting then x.ready - p.calls.schedule else 0
  layout 32 [(0, 1, i), (1, 1, st), (2, 1, noneCode x.line), (3, 1, x.desk), (4, 1, x.doc), (5, 1, x.first),
    (6, 1, x.last), (7, 1, x.flash.toNat), (8, 1, x.made), (9, 1, x.allowed), (10, 1, x.answeredAttempt),
    (11, 1, x.accepted.length), (12, 4, x.charge), (16, 4, x.sequence), (20, 4, left)]

/-- A LINES record: lines 0..3, then 4 for SCAN, whose line fields are 0. -/
def Chip.lineRecord (p : Chip) (n : Nat) : List Byte :=
  if n < 4 then
    let l := p.line n
    let x := p.ing (n + 1)
    layout 16 [(0, 1, n), (1, 1, l.state.code), (2, 1, l.dir.code), (3, 1, noneCode l.call), (4, 1, l.conn.code),
      (5, 1, l.bursts), (6, 1, l.dead), (7, 1, x.stateCode), (8, 1, (p.ren (n + 1)).state.transmitCode),
      (9, 1, x.pendingLost), (10, 2, x.strays), (12, 2, l.skipped)]
  else
    let x := p.ing 0
    layout 16 [(0, 1, 4), (7, 1, x.stateCode), (9, 1, x.pendingLost), (10, 2, x.strays)]

/-- The lowest number from `k` to `n - 1` that satisfies `f`. -/
def lowestFrom (k n : Nat) (f : Nat → Bool) : Option Nat := (List.range n).find? fun i => decide (k ≤ i) && f i

/-- The next record of a report, with the number after its object; none when the report has no more. -/
def Chip.nextRecord (p : Chip) (r : Report) : Option (List Byte × Nat) :=
  match r.kind with
  | .documents => (lowestFrom r.next 64 fun d => (p.doc d).st != .free).map fun d => (p.documentRecord d, d + 1)
  | .pages =>
    if r.ended then none
    else ((p.doc r.doc).pages[r.next]?).map fun x => (p.pageRecord x, r.next + 1)
  | .accounts => if r.next < 64 then some (p.accountRecord r.next, r.next + 1) else none
  | .calls => (lowestFrom r.next 32 fun i => (p.callRec i).st != .free).map fun i => (p.callRecord i, i + 1)
  | .lines => if r.next < 5 then some (p.lineRecord r.next, r.next + 1) else none

/-- The report takes its next record and issues its RECORD_WRITE, or ends with DONE (R184). -/
def Chip.reportNext (p : Chip) : Chip :=
  match p.req.report with
  | none => p
  | some r =>
    match p.nextRecord r with
    | some (bytes, next) =>
      let p := p.issueRecord (.reportRecord (r.address + r.written * r.kind.recordSize) bytes)
      { p with req := { p.req with report := some { r with written := r.written + 1, next := next } } }
    | none =>
      let p := { p with req := { p.req with report := none } }
      p.send (.done r.tag reportCode .ok r.written)

/-- The checks of REPORT in order (R184): the first that applies, if any. -/
def Chip.reportRefusal (p : Chip) (kind : ReportKind) (doc address : Nat) : Option Result :=
  if address % 4 ≠ 0 then some .badField
  else if p.protectedOverlap address kind.largest then some .badField
  else if p.req.report.isSome then some .busy
  else if kind = .pages ∧ 63 < doc then some .badField
  else if kind = .pages ∧ (p.doc doc).st = .free then some .notFound
  else none

/-- REPORT acts (R184). -/
def Chip.beginReport (p : Chip) (tag : Half) (kind : ReportKind) (doc address : Nat) : Chip :=
  match p.reportRefusal kind doc address with
  | some r => p.done tag reportCode r
  | none =>
    let p := { p with req := { p.req with report := some ⟨tag.toNat, kind, doc, address, 0, 0, false⟩ } }
    p.reportNext

/-- REPORT_DOCUMENTS (02 R37): a kind that is none of the five is refused BAD_FIELD. -/
def execReportDocuments (tag : Half) (kind : Byte) (address : Word) (s : State) : Host.Outcome State Fault Refusal :=
  request (.reportDocuments tag kind address)
    (fun p => if kind = 0 then p.beginReport tag .documents 0 address.toNat else p.done tag reportCode .badField) s

/-- REPORT_PAGES (02 R37). -/
def execReportPages (tag : Half) (document : Byte) (address : Word) (s : State) : Host.Outcome State Fault Refusal :=
  request (.reportPages tag document address) (fun p => p.beginReport tag .pages document.toNat address.toNat) s

/-- REPORT_ACCOUNTS (09 R177). -/
def execReportAccounts (tag : Half) (address : Word) (s : State) : Host.Outcome State Fault Refusal :=
  request (.reportAccounts tag address) (fun p => p.beginReport tag .accounts 0 address.toNat) s

/-- REPORT_CALLS (08 R158). -/
def execReportCalls (tag : Half) (address : Word) (s : State) : Host.Outcome State Fault Refusal :=
  request (.reportCalls tag address) (fun p => p.beginReport tag .calls 0 address.toNat) s

/-- REPORT_LINES (10 R184). -/
def execReportLines (tag : Half) (address : Word) (s : State) : Host.Outcome State Fault Refusal :=
  request (.reportLines tag address) (fun p => p.beginReport tag .lines 0 address.toNat) s

end Sys2Proof.Machine
end

