-- ==== Sys2Proof/Machine/ChargeRequests.lean ====
section
/-! DEFINITION. Requests of the charge unit (09): clock, holiday, tariff load, accounts, log. -/

namespace Sys2Proof.Machine

/-- SET_CLOCK acts (R161). -/
def Chip.setClock (p : Chip) (tag : Half) (second day : Nat) : Chip :=
  if 6 < day ∨ 86399 < second then p.done tag 24 .badField
  else
    let p := { p with charge := { p.charge with day := day, second := second, tick := 0 } }
    (p.issueWord .clock).done tag 24 .ok

/-- SET_CLOCK (R161). -/
def execSetClock (tag : Half) (second : Word) (day : Byte) (s : State) : Host.Outcome State Fault Refusal :=
  request (.setClock tag second day) (fun p => p.setClock tag second.toNat day.toNat) s

/-- HOLIDAY acts (R162). -/
def Chip.setHoliday (p : Chip) (tag : Half) (setting : Nat) : Chip :=
  if 1 < setting then p.done tag 25 .badField
  else
    let p := { p with charge := { p.charge with holiday := setting == 1 } }
    p.done tag 25 .ok

/-- HOLIDAY (R162). -/
def execHoliday (tag : Half) (setting : Byte) (s : State) : Host.Outcome State Fault Refusal :=
  request (.holiday tag setting) (fun p => p.setHoliday tag setting.toNat) s

/-! ## The tariff load (R164, R192) -/

/-- Bytes of the next read of a load that has read `k` bytes: fifteen reads of 64 bytes and a last of 56 (R192). -/
def loadLength (k : Nat) : Nat := min 64 (imageBytes - k)

/-- TARIFF_COMMIT acts (R164): the load's reads are issued one at a time (log 22). -/
def Chip.tariffCommit (p : Chip) (tag : Half) (address : Nat) : Chip :=
  if address % 4 ≠ 0 then p.done tag 26 .badField
  else if p.charge.load.isSome then p.done tag 26 .busy
  else { p with charge := { p.charge with load := some ⟨tag.toNat, address, []⟩ } }.issueRecord
    (.tariffRead address (loadLength 0))

/-- TARIFF_COMMIT (R164). -/
def execTariffCommit (tag : Half) (address : Word) (s : State) : Host.Outcome State Fault Refusal :=
  request (.tariffCommit tag address) (fun p => p.tariffCommit tag address.toNat) s

/-- The last read has been served: the image is validated, and the commit's DONE sent (R164, R165). -/
def Chip.endLoad (p : Chip) (l : Load) : Chip :=
  let p := { p with charge := { p.charge with load := none } }
  if imageValid l.bytes then
    let t := imageTariff l.bytes
    { p with charge := { p.charge with tariff := t } }.send (.done l.tag 26 .ok t.prefixes.length)
  else p.send (.done l.tag 26 .badField 0)

/-- A read of the load has been served with `bytes` (R164). -/
def Chip.tariffRead (p : Chip) (bytes : List Byte) : Chip :=
  match p.charge.load with
  | none => p
  | some l =>
    let l := { l with bytes := l.bytes ++ bytes }
    if l.bytes.length < imageBytes then
      { p with charge := { p.charge with load := some l } }.issueRecord
        (.tariffRead (l.address + l.bytes.length) (loadLength l.bytes.length))
    else p.endLoad l

/-! ## Accounts (R175, R176) -/

/-- A desk's state after a new limit (R175). -/
def blockedBy (limit total : Nat) : Bool := limit != 0 && decide (limit ≤ total)

/-- A desk that has changed from BLOCKED to OPEN considers the arbiter (R175, R176). -/
def Chip.deskChanged (p : Chip) (was : Bool) (desk : Nat) : Chip :=
  if was ∧ (p.account desk).blocked = false then p.arbiterPass else p

/-- ACCOUNT_SET acts (R175). -/
def Chip.accountSet (p : Chip) (tag : Half) (desk limit : Nat) : Chip :=
  if 63 < desk then p.done tag 27 .badField
  else
    let was := (p.account desk).blocked
    let p := p.onAccount desk fun a => { a with limit := limit, blocked := blockedBy limit a.total }
    let now := (p.account desk).blocked
    (p.deskChanged was desk).done tag 27 .ok now.toNat

/-- ACCOUNT_SET (R175). -/
def execAccountSet (tag : Half) (desk : Byte) (limit : Word) (s : State) : Host.Outcome State Fault Refusal :=
  request (.accountSet tag desk limit) (fun p => p.accountSet tag desk.toNat limit.toNat) s

/-- An account cleared: its limit is kept (R176). -/
def Account.cleared (a : Account) : Account := { Account.reset with limit := a.limit }

/-- ACCOUNT_CLEAR acts (R176). -/
def Chip.accountClear (p : Chip) (tag : Half) (desk : Nat) : Chip :=
  if 63 < desk then p.done tag 28 .badField
  else
    let a := p.account desk
    ((p.onAccount desk Account.cleared).deskChanged a.blocked desk).done tag 28 .ok a.total

/-- ACCOUNT_CLEAR (R176). -/
def execAccountClear (tag : Half) (desk : Byte) (s : State) : Host.Outcome State Fault Refusal :=
  request (.accountClear tag desk) (fun p => p.accountClear tag desk.toNat) s

/-! ## The call log (R179) -/

/-- The checks of LOG_SET (R179). -/
def Chip.logFields (p : Chip) (address count : Nat) : Bool :=
  count == 0 || (within 16 4096 count && address % 64 == 0 && decide (address + count * 64 ≤ 2 ^ 32)
    && !p.protectedOverlap address (count * 64))

/-- LOG_SET acts (R179). -/
def Chip.logSet (p : Chip) (tag : Half) (address count : Nat) : Chip :=
  if !p.logFields address count then p.done tag 29 .badField
  else
    let log := if count = 0 then none else some ⟨address, count, 0⟩
    let p := { p with charge := { p.charge with log := log } }
    p.done tag 29 .ok p.charge.logSeq

/-- LOG_SET (R179). -/
def execLogSet (tag : Half) (address : Word) (count : Half) (s : State) : Host.Outcome State Fault Refusal :=
  request (.logSet tag address count) (fun p => p.logSet tag address.toNat count.toNat) s

end Sys2Proof.Machine
end

