-- ==== Sys2Proof/Machine/Completions.lean ====
section
/-! DEFINITION. The completions at the M-port (03 R52): memory serves the operation that holds the port. A completion
whose operation does not hold the port leaves the machine as it is (log 7). -/

namespace Sys2Proof.Machine

/-- SLOT_READ_COMPLETE (05 R79, 04 R66): the slot's pels and tag word as memory holds them. -/
def execSlotReadComplete (s : State) : Host.Outcome State Fault Refusal :=
  match s.chip.mport.busy with
  | some (.engine (.slotRead c slot a tagAddress width)) =>
    let pels := bytesToBits (memReadBytes s.mem a (width / 8))
    .next { s with chip := s.chip.freePort.slotRead c slot pels (memReadWord s.mem tagAddress).toNat }
  | _ => .next s

/-- BLOCK_WRITE_COMPLETE (05 R84): the 1 KiB block reaches memory. -/
def execBlockWriteComplete (s : State) : Host.Outcome State Fault Refusal :=
  match s.chip.mport.busy with
  | some (.engine (.blockWrite c _ a bits)) =>
    .next { s with mem := memWriteBytes s.mem a (bitsToBytes 1024 bits), chip := s.chip.freePort.blockWritten c }
  | _ => .next s

/-- BLOCK_READ_COMPLETE (06 R98): the decoder takes the 1 KiB block as memory holds it. -/
def execBlockReadComplete (s : State) : Host.Outcome State Fault Refusal :=
  match s.chip.mport.busy with
  | some (.engine (.blockRead c r a)) =>
    .next { s with chip := s.chip.freePort.blockRead c r (bytesToBits (memReadBytes s.mem a 1024)) }
  | _ => .next s

/-- Memory after a SLOT_WRITE: the pel words and the tag word; of a NO-LINE slot the tag word alone (04 R61). -/
def slotBytes (m : List Host.Cell) (a tagAddress : Nat) (pels : Option (List Bool)) (tag : Nat) : List Host.Cell :=
  let m := match pels with
    | some bits => memWriteBytes m a (bitsToBytes (bits.length / 8) bits)
    | none => m
  memPutWord m tagAddress tag

/-- SLOT_WRITE_COMPLETE (04 R70). -/
def execSlotWriteComplete (s : State) : Host.Outcome State Fault Refusal :=
  match s.chip.mport.busy with
  | some (.engine (.slotWrite c slot a tagAddress pels markers sequence pageEnd final orphan)) =>
    let p := s.chip.freePort
    .next { s with
      mem := slotBytes s.mem a tagAddress pels (renderTag markers sequence)
      chip := if orphan then p else p.slotWritten c slot sequence pageEnd final }
  | _ => .next s

/-- TARIFF_READ_COMPLETE (09 R164): the bytes as memory holds them, those past the last address free (log 13). -/
def execTariffReadComplete (s : State) : Host.Outcome State Fault Refusal :=
  match s.chip.mport.busy with
  | some (.record (.tariffRead a n)) =>
    .next { s with
      chip := (s.chip.freePort.pastTaken a n).tariffRead (memReadPast s.chip.freeIndex s.mem a n) }
  | _ => .next s

/-- NOTICE_PRODUCER_WRITE_COMPLETE (10 R186): the word carries its count, and Pd takes it. -/
def execNoticeProducerWriteComplete (s : State) : Host.Outcome State Fault Refusal :=
  match s.chip.mport.busy with
  | some (.record (.noticeProducer v)) =>
    let p := s.chip.freePort
    .next { s with
      mem := memPutWord s.mem (p.control + 0x1808) v
      chip := { p with notices := { p.notices with pd := v } } }
  | _ => .next s

/-- REPORT_RECORD_WRITE_COMPLETE (10 R184): the record reaches memory, and the report goes on; where bytes past the last
address go is free (log 13). -/
def execReportRecordWriteComplete (s : State) : Host.Outcome State Fault Refusal :=
  match s.chip.mport.busy with
  | some (.record (.reportRecord a bytes)) =>
    .next { s with
      mem := memWritePast s.chip.freeIndex s.mem a bytes
      chip := (s.chip.freePort.pastTaken a bytes.length).reportNext }
  | _ => .next s

end Sys2Proof.Machine
end

