-- ==== Sys2Proof/Machine/StoreRequests.lean ====
section
/-! DEFINITION. Requests of the store controller and of the ingest engine (02 R17, R35; 05 R77, R83, R92). -/

namespace Sys2Proof.Machine

/-- The checks of STORE_SET in order (02 R17): the first that applies, if any. -/
def Chip.storeRefusal (p : Chip) (base size reserve lowMark : Nat) : Option Result :=
  let n := size * 1024
  if base % 2 ^ 20 ≠ 0 ∨ within 1 32 size = false ∨ 2 ^ 32 < base + size * 2 ^ 20 then some .badField
  else if overlaps base (n * 1024) p.control 8192 then some .badField
  else if 4095 < reserve ∨ n ≤ reserve then some .badField
  else if 32767 < lowMark ∨ n < lowMark then some .badField
  else if (tfind p.store.docs (·.st != .free)).isSome then some .state
  else none

/-- STORE_SET acts (02 R17, R18). -/
def Chip.storeSet (p : Chip) (tag : Half) (base size reserve lowMark : Nat) : Chip :=
  match p.storeRefusal base size reserve lowMark with
  | some r => p.done tag 6 r
  | none =>
    let n := size * 1024
    let p := p.setPool (List.range n)
    let p := { p with store := { p.store with
      configured := true, base := base, blocks := n, reserve := reserve, lowMark := lowMark } }
    p.done tag 6 .ok n

/-- STORE_SET (02 R17). -/
def execStoreSet (tag : Half) (base : Word) (size : Byte) (reserve lowMark : Half) (s : State) :
    Host.Outcome State Fault Refusal :=
  request (.storeSet tag base size reserve lowMark)
    (fun p => p.storeSet tag base.toNat size.toNat reserve.toNat lowMark.toNat) s

/-- A COMPLETE document is deleted: freed at once, or DOOMED until its holds and block reads end (02 R35). -/
def Chip.deleteComplete (p : Chip) (tag : Half) (d : Nat) : Chip :=
  let holds := (p.doc d).holds
  ((p.onDoc d fun x => { x with st := .doomed }).tryFree d).done tag 7 .ok holds

/-- DELETE acts (02 R35). -/
def Chip.delete (p : Chip) (tag : Half) (d : Nat) : Chip :=
  if 63 < d then p.done tag 7 .badField
  else match (p.doc d).st with
    | .free => p.done tag 7 .notFound
    | .opened => p.done tag 7 .state (p.doc d).holds
    | .complete => p.deleteComplete tag d
    | .doomed => p.done tag 7 .ok (p.doc d).holds

/-- DELETE (02 R35). -/
def execDelete (tag : Half) (document : Byte) (s : State) : Host.Outcome State Fault Refusal :=
  request (.delete tag document) (fun p => p.delete tag document.toNat) s

/-! ## Ingest (05) -/

/-- The ingest context is IDLE (05 R76). -/
def IngestCtx.isIdle (x : IngestCtx) : Bool := x.stateCode == 0

/-- The checks that open a document on context `c`, in order (05 R77, R78): the first that applies, or the document. -/
def Chip.openIngest (p : Chip) (c desk w res : Nat) : Except Result (Nat × Chip) :=
  if 63 < desk ∨ goodWidth w = false ∨ goodRes res = false then .error .badField
  else if !(p.ing c).isIdle then .error .busy
  else match (p.ing c).ring with
    | none => .error .state
    | some r => if !widthFits w r.slotSize then .error .badField else p.openDoc c desk

/-- The context takes the document and enters READY (05 R77). -/
def Chip.startIngest (p : Chip) (c d w res : Nat) : Chip :=
  p.onIng c fun x => { x with phase := .ready, doc := some d, width := w, res := res, lineTotal := 0, badRun := 0 }

/-- SCAN_BEGIN acts (05 R77); the slot at the position, if FILLED, is then taken (04 R67). -/
def Chip.scanBegin (p : Chip) (tag : Half) (desk res w : Nat) : Chip :=
  match p.openIngest 0 desk w res with
  | .error r => p.done tag 9 r
  | .ok (d, p) => ((p.startIngest 0 d w res).done tag 9 .ok d).serveRing 0

/-- SCAN_BEGIN (05 R77). -/
def execScanBegin (tag : Half) (desk resolution : Byte) (width : Half) (s : State) : Host.Outcome State Fault Refusal :=
  request (.scanBegin tag desk resolution width) (fun p => p.scanBegin tag desk.toNat resolution.toNat width.toNat) s

/-- INGEST_STOP acts (05 R92). -/
def Chip.ingestStop (p : Chip) (tag : Half) (c mode : Nat) : Chip :=
  if 4 < c ∨ 1 < mode then p.done tag 10 .badField
  else if (p.ing c).stop.isSome then p.done tag 10 .busy
  else if (p.ing c).isIdle then p.done tag 10 .state
  else p.stopIngest c (mode == 0) (.request tag.toNat)

/-- INGEST_STOP (05 R92). -/
def execIngestStop (tag : Half) (context mode : Byte) (s : State) : Host.Outcome State Fault Refusal :=
  request (.ingestStop tag context mode) (fun p => p.ingestStop tag context.toNat mode.toNat) s

/-- INGEST_SET acts (05 R83). -/
def Chip.ingestSet (p : Chip) (tag : Half) (c limit : Nat) : Chip :=
  if 4 < c ∨ within 1 255 limit = false then p.done tag 11 .badField
  else (p.onIng c fun x => { x with poorLimit := limit }).done tag 11 .ok

/-- INGEST_SET (05 R83). -/
def execIngestSet (tag : Half) (context limit : Byte) (s : State) : Host.Outcome State Fault Refusal :=
  request (.ingestSet tag context limit) (fun p => p.ingestSet tag context.toNat limit.toNat) s

end Sys2Proof.Machine
end

