-- ==== Sys2Proof/Machine/RenderRequests.lean ====
section
/-! DEFINITION. Requests of the print queue and the transmit contexts (06 R104, R106, R110, R112, R114). -/

namespace Sys2Proof.Machine

/-! ## Printing -/

/-- A width fits the print ring, if one is bound (06 R104, R106). -/
def Chip.ringFits (p : Chip) (c w : Nat) : Option Bool := (p.ren c).ring.map fun r => widthFits w r.slotSize

/-- The checks of PRINT_SETUP in order (06 R104): the first that applies, if any. -/
def Chip.setupRefusal (p : Chip) (w res stall : Nat) : Option Result :=
  if goodWidth w = false ∨ goodRes res = false ∨ within 1 60 stall = false then some .badField
  else if (p.ren 0).state ≠ .idle ∨ (tfind p.print.jobs (·.st != .free)).isSome then some .state
  else match p.ringFits 0 w with
    | none => some .state
    | some false => some .badField
    | some true => none

/-- PRINT_SETUP acts (06 R104). -/
def Chip.printSetup (p : Chip) (tag : Half) (w res stall : Nat) : Chip :=
  match p.setupRefusal w res stall with
  | some r => p.done tag 12 r
  | none =>
    let p := { p with print := { p.print with setup := some (w, res), stallSeconds := stall } }
    (p.onRen 0 fun x => { x with target := some (w, res) }).done tag 12 .ok

/-- PRINT_SETUP (06 R104). -/
def execPrintSetup (tag : Half) (width : Half) (resolution stall : Byte) (s : State) : Host.Outcome State Fault Refusal :=
  request (.printSetup tag width resolution stall) (fun p => p.printSetup tag width.toNat resolution.toNat stall.toNat) s

/-- The print setup's width fits the bound print ring (06 R106). -/
def Chip.printReady (p : Chip) : Bool :=
  match p.print.setup with
  | none => false
  | some (w, _) => p.ringFits 0 w == some true

/-- The checks of PRINT in order (06 R106): the first that applies, or the job record it takes. -/
def Chip.printCheck (p : Chip) (doc first last : Nat) : Except Result Nat :=
  if 63 < doc ∨ goodRange first last = false then .error .badField
  else if !p.printReady then .error .state
  else if p.docGone doc then .error .gone
  else match tfind p.print.jobs (·.st == .free) with
    | none => .error .noRoom
    | some j => .ok j

/-- The IDLE PRINT context takes the head job, and goes on (06 R107). -/
def Chip.printWake (p : Chip) : Chip := if (p.ren 0).state = .idle then p.printTake.advance 0 else p

/-- PRINT acts (06 R106). -/
def Chip.printJob (p : Chip) (tag : Half) (doc first last copies : Nat) : Chip :=
  match p.printCheck doc first last with
  | .error r => p.done tag 13 r
  | .ok j =>
    let p := p.onJob j fun _ =>
      { Job.free with st := .queued, doc := doc, first := first, last := last, copies := max 1 (min 99 copies) }
    let p := { p with print := { p.print with queue := p.print.queue ++ [j] } }
    ((p.takeHold doc).done tag 13 .ok j).printWake

/-- PRINT (06 R106). -/
def execPrint (tag : Half) (document first last copies : Byte) (s : State) : Host.Outcome State Fault Refusal :=
  request (.print tag document first last copies)
    (fun p => p.printJob tag document.toNat first.toNat last.toNat copies.toNat) s

/-- A QUEUED job is cancelled (06 R110). -/
def Chip.cancelQueued (p : Chip) (tag : Half) (j : Nat) : Chip :=
  let p := { p with print := { p.print with queue := p.print.queue.filter (· != j) } }
  let p := (p.onJob j fun x => { x with cancelled := true }).sendPrintDone j
  let p := (p.releaseHold (p.job j).doc).onJob j fun _ => .free
  p.done tag 14 .ok

/-- PRINT_CANCEL acts (06 R110). -/
def Chip.printCancel (p : Chip) (tag : Half) (j : Nat) : Chip :=
  if 15 < j then p.done tag 14 .badField
  else match (p.job j).st with
    | .free => p.done tag 14 .notFound
    | .queued => p.cancelQueued tag j
    | .active => if (p.ren 0).state = .ending then p.done tag 14 .state else (p.cutJob j).done tag 14 .ok
    | .finishing => p.done tag 14 .state

/-- PRINT_CANCEL (06 R110). -/
def execPrintCancel (tag : Half) (job : Byte) (s : State) : Host.Outcome State Fault Refusal :=
  request (.printCancel tag job) (fun p => p.printCancel tag job.toNat) s

/-! ## Transmitting -/

/-- The resend count of a page in this attempt (08 R142). -/
def CallRecord.resendCount (c : CallRecord) (n : Nat) : Nat := c.resends.count n

/-- A page's result, as taken: a fourth RESEND is REJECTED (06 R114). -/
def resultTaken (c : CallRecord) (n result : Nat) : Nat := if result = 1 ∧ 3 ≤ c.resendCount n then 2 else result

/-- The result of the page at the position of the context of line `n` acts (06 R114). -/
def Chip.takeResult (p : Chip) (n i page result : Nat) : Chip :=
  match result with
  | 0 => (p.onCall i fun c => { c with accepted := if c.accepted.contains page then c.accepted else c.accepted ++ [page] })
      |>.countPageSent n
  | 1 => (p.onCall i fun c => { c with resends := c.resends ++ [page] }).onRen (n + 1) fun x => { x with position := page - 1 }
  | _ => p

/-- PAGE_RESULT acts (06 R114). -/
def Chip.pageResult (p : Chip) (tag : Half) (n result : Nat) : Chip :=
  if 3 < n ∨ 2 < result then p.done tag 18 .badField
  else
    let x := p.ren (n + 1)
    match x.state, x.call with
    | .pageWait, some i =>
      let taken := resultTaken (p.callRec i) x.position result
      (((p.takeResult n i x.position taken).txSelect (n + 1)).advance (n + 1)).done tag 18 .ok taken
    | _, _ => p.done tag 18 .state

/-- PAGE_RESULT (06 R114). -/
def execPageResult (tag : Half) (line result : Byte) (s : State) : Host.Outcome State Fault Refusal :=
  request (.pageResult tag line result) (fun p => p.pageResult tag line.toNat result.toNat) s

/-- The checks of CONNECT TX in order (07 R133, 06 R112): the first that applies, or the call record on the line. -/
def Chip.connectTxCheck (p : Chip) (n w res : Nat) : Except Result Nat :=
  if 3 < n then .error .badField
  else match (p.line n).state, (p.line n).dir, (p.line n).call with
    | .answered, .outward, some i =>
      if goodWidth w = false ∨ goodRes res = false then .error .badField
      else match p.ringFits (n + 1) w with
        | none => .error .state
        | some false => .error .badField
        | some true => .ok i
    | _, _, _ => .error .state

/-- The transmit context of line `n` starts on call record `i` (06 R112). -/
def Chip.startTransmit (p : Chip) (n i w res : Nat) : Chip :=
  let p := (p.onLine n fun l => { l with conn := .tx }).setLineState n .connected
  let p := p.onRen (n + 1) fun x => { x with
    target := some (w, res), call := some i, position := (p.callRec i).first - 1
    ring := x.ring.map fun r => { r with sequence := 0 } }
  (p.txSelect (n + 1)).advance (n + 1)

/-- The page that CONNECT TX has selected, or 0 in DOC_DONE (06 R112). -/
def RenderCtx.selected (x : RenderCtx) : Nat := if x.state = .docDone then 0 else x.page

/-- CONNECT_TX acts (06 R112). -/
def Chip.connectTx (p : Chip) (tag : Half) (n w res : Nat) : Chip :=
  match p.connectTxCheck n w res with
  | .error r => p.done tag 17 r
  | .ok i =>
    let p := p.startTransmit n i w res
    p.done tag 17 .ok (p.ren (n + 1)).selected

/-- CONNECT_TX (06 R112). -/
def execConnectTx (tag : Half) (line : Byte) (width : Half) (resolution : Byte) (s : State) :
    Host.Outcome State Fault Refusal :=
  request (.connectTx tag line width resolution) (fun p => p.connectTx tag line.toNat width.toNat resolution.toNat) s

end Sys2Proof.Machine
end

