-- ==== Sys2Proof/Machine/LineRequests.lean ====
section
/-! DEFINITION. Requests of the line controller (07 R124, R133, R135, R139; 05 R78). -/

namespace Sys2Proof.Machine

/-- The fields of LINE_SET lie within their ranges (07 R139). -/
def lineSetGood (f : LineSetFields) : Bool :=
  decide (f.line.toNat ≤ 3) && decide (f.method.toNat ≤ 1) && [1, 4, 16, 64].contains f.prescale.toNat
    && decide (f.breakCount.toNat ≤ f.period.toNat) && within 256 4095 f.gap.toNat && within 32 1023 f.toneOn.toNat
    && within 32 1023 f.toneOff.toNat && within 1 15 f.pause.toNat && within 1 30 f.toneWait.toNat
    && within 10 120 f.answerWait.toNat && [32, 64, 128].contains f.settle.toNat && within 64 1023 f.ringQualify.toNat
    && within 4 255 f.meterQualify.toNat && within 256 8191 f.guard.toNat && within 1 60 f.txStall.toNat

/-- The configuration that the fields give (07 R139, 11.5). -/
def lineSetConfig (f : LineSetFields) : LineConfig where
  pulse := f.method.toNat == 1
  prescale := f.prescale.toNat
  period := f.period.toNat
  breakCount := f.breakCount.toNat
  gap := f.gap.toNat
  toneOn := f.toneOn.toNat
  toneOff := f.toneOff.toNat
  pause := f.pause.toNat
  toneWait := f.toneWait.toNat
  answerWait := f.answerWait.toNat
  settle := f.settle.toNat
  ringQualify := f.ringQualify.toNat
  meterQualify := f.meterQualify.toNat
  guard := f.guard.toNat
  blind := f.flags.getLsbD 0
  outgoing := f.flags.getLsbD 1
  meterPulses := f.flags.getLsbD 2
  meterValue := f.meterValue.toNat
  txStall := f.txStall.toNat

/-- A line takes its configuration (07 R139). DESIGN CHOICE (log 39): the qualify time of MP judges a count that stands. -/
def Line.configured (cfg : LineConfig) (l : Line) : Line := { l with cfg := cfg, mpQ := l.mpQ.judged cfg.meterQualify }

/-- LINE_SET acts (07 R139): an outgoing setting turned from no to yes considers the arbiter (log 20). -/
def Chip.lineSet (p : Chip) (tag : Half) (f : LineSetFields) : Chip :=
  let n := f.line.toNat
  if !lineSetGood f then p.done tag 15 .badField
  else if (p.line n).state ≠ .idle then p.done tag 15 .state
  else
    let was := (p.line n).cfg.outgoing
    let p := (p.onLine n (Line.configured (lineSetConfig f))).done tag 15 .ok
    if was = false ∧ (lineSetConfig f).outgoing = true then p.arbiterPass else p

/-- LINE_SET (07 R139). -/
def execLineSet (tag : Half) (fields : LineSetFields) (s : State) : Host.Outcome State Fault Refusal :=
  request (.lineSet tag fields) (fun p => p.lineSet tag fields) s

/-- ANSWER acts (07 R124). -/
def Chip.answer (p : Chip) (tag : Half) (n : Nat) : Chip :=
  if 3 < n then p.done tag 16 .badField
  else if (p.line n).state ≠ .ringing then p.done tag 16 .state
  else
    ((p.onLine n fun l => { l with ringEnd := none }.setHook true).setLineState n .answering).done tag 16 .ok

/-- ANSWER (07 R124). -/
def execAnswer (tag : Half) (line : Byte) (s : State) : Host.Outcome State Fault Refusal :=
  request (.answer tag line) (fun p => p.answer tag line.toNat) s

/-- The checks of CONNECT RX in order (07 R133, 05 R78): the first that applies, or the document it opens. -/
def Chip.connectRxCheck (p : Chip) (n direction desk w res : Nat) : Except Result (Nat × Chip) :=
  if 3 < n ∨ direction ≠ 0 then .error .badField
  else if (p.line n).state ≠ .answered ∨ (p.line n).dir ≠ .inward then .error .state
  else p.openIngest (n + 1) desk w res

/-- The attempt record takes the desk and the document of a CONNECT RX (09 R167). -/
def Chip.attemptReceives (p : Chip) (n desk d : Nat) : Chip :=
  p.onAttempt n fun a => { a with desk := some desk, rxDoc := some d, rxGone := false }

/-- CONNECT_RX acts (05 R78); the slot at the position, if FILLED, is then taken (04 R67). -/
def Chip.connectRx (p : Chip) (tag : Half) (n direction desk w res : Nat) : Chip :=
  match p.connectRxCheck n direction desk w res with
  | .error r => p.done tag 17 r
  | .ok (d, p) =>
    let p := (p.startIngest (n + 1) d w res).attemptReceives n desk d
    let p := (p.onLine n fun l => { l with conn := .rx }).setLineState n .connected
    (p.done tag 17 .ok d).serveRing (n + 1)

/-- CONNECT_RX (05 R78). -/
def execConnectRx (tag : Half) (line direction : Byte) (width : Half) (resolution desk : Byte) (s : State) :
    Host.Outcome State Fault Refusal :=
  request (.connectRx tag line direction width resolution desk)
    (fun p => p.connectRx tag line.toNat direction.toNat desk.toNat width.toNat resolution.toNat) s

/-- The cause that a reason code of RELEASE names (11.5). -/
def reasonOf : Nat → Option Cause
  | 6 => some .normal
  | 7 => some .protocol
  | 8 => some .notFax
  | 9 => some .aborted
  | _ => none

/-- The states in which RELEASE is accepted (07 R135). -/
def LineState.releasable : LineState → Bool
  | .seizing | .awaitTone | .dialling | .awaitAnswer | .answered | .connected => true
  | _ => false

/-- RELEASE acts (07 R135). -/
def Chip.releaseRequest (p : Chip) (tag : Half) (n reason : Nat) : Chip :=
  match reasonOf reason with
  | none => p.done tag 19 .badField
  | some cause =>
    if 3 < n then p.done tag 19 .badField
    else if (p.line n).state.releasable then (p.release n cause).done tag 19 .ok
    else p.done tag 19 .state

/-- RELEASE (07 R135). -/
def execRelease (tag : Half) (line reason : Byte) (s : State) : Host.Outcome State Fault Refusal :=
  request (.release tag line reason) (fun p => p.releaseRequest tag line.toNat reason.toNat) s

end Sys2Proof.Machine
end

