-- ==== Sys2Proof/Machine/CallRequests.lean ====
section
/-! DEFINITION. Requests of the call scheduler (08 R144, R150, R154, R157). -/

namespace Sys2Proof.Machine

/-! ## CALL (R144, R145) -/

/-- The destination symbols that the part reads (R190). -/
def callSymbols (f : CallFields) : List Nat := (f.dest.map BitVec.toNat).take f.count.toNat

/-- The line mask as a list of lines (R190: bits 0..3 alone). -/
def callLines (f : CallFields) : List Nat := (List.range 4).filter fun n => f.lineMask.getLsbD n

/-- The not-before is present (11.5). -/
def callNotBefore (f : CallFields) : Bool := f.flags.getLsbD 0

/-- The field checks of CALL (R144). -/
def callGood (f : CallFields) : Bool :=
  within 1 40 f.count.toNat && (callSymbols f).all (decide <| · ≤ 13)
    && decide (f.access.toNat ≤ 8) && decide (f.access.toNat ≤ f.count.toNat)
    && decide (f.desk.toNat ≤ 63) && decide (f.document.toNat ≤ 63)
    && goodRange f.first.toNat f.last.toNat
    && decide (f.priority.toNat ≤ 1)
    && !(callLines f).isEmpty
    && (!callNotBefore f || (decide (f.nbDay.toNat ≤ 6) && decide (f.nbSecond.toNat ≤ 86399)))

/-- The checks of CALL in order (R144): the first that applies, or the record it takes. -/
def Chip.callCheck (p : Chip) (f : CallFields) : Except Result Nat :=
  if !callGood f then .error .badField
  else match tfind p.calls.records (·.st == .free) with
    | none => .error .noRoom
    | some i =>
      if p.docGone f.document.toNat then .error .gone
      else if f.priority.toNat = 0 ∧ (p.account f.desk.toNat).blocked = true then .error .budget
      else .ok i

/-- Seconds until the clock shows the not-before (R145). -/
def notBeforeDelay (day second nbDay nbSecond : Nat) : Nat :=
  (nbDay * 86400 + nbSecond + 604800 - (day * 86400 + second)) % 604800

/-- The record that an accepted CALL fills, its ready time and sequence apart (R144, R145). -/
def newCall (f : CallFields) (sequence ready : Nat) : CallRecord :=
  { CallRecord.free with
    st := .waiting, dest := callSymbols f, access := f.access.toNat, desk := f.desk.toNat, doc := f.document.toNat,
    first := f.first.toNat, last := f.last.toNat, flash := f.priority.toNat == 1,
    allowed := max 1 (min 15 f.attempts.toNat), retry := max 10 (min 3600 f.retry.toNat), mask := callLines f,
    sequence := sequence, ready := ready }

/-- The delay of an accepted CALL (R145). -/
def Chip.callDelay (p : Chip) (f : CallFields) : Nat :=
  if callNotBefore f then notBeforeDelay p.charge.day p.charge.second f.nbDay.toNat f.nbSecond.toNat else 0

/-- CALL acts (R144, R145). -/
def Chip.placeCall (p : Chip) (tag : Half) (f : CallFields) : Chip :=
  match p.callCheck f with
  | .error r => p.done tag 21 r
  | .ok i =>
    let (ready, p) := p.add32 p.calls.schedule (p.callDelay f)
    let sequence := p.calls.acceptance
    let p := { p with calls := { p.calls with acceptance := (sequence + 1) % 2 ^ 32 } }
    let p := (p.onCall i fun _ => newCall f sequence ready).takeHold f.document.toNat
    (p.done tag 21 .ok i).arbiterPass

/-- CALL (R144). -/
def execCall (tag : Half) (fields : CallFields) (s : State) : Host.Outcome State Fault Refusal :=
  request (.call tag fields) (fun p => p.placeCall tag fields) s

/-! ## The others -/

/-- The effect of a cancel on a record that is not FREE (R157). -/
def Chip.cancelCall (p : Chip) (i : Nat) : Chip :=
  match (p.callRec i).st, (p.callRec i).line with
  | .active, some n => p.release n .cancelled
  | _, _ => p.endCall i .cancelled

/-- CALL_CANCEL acts (R157). -/
def Chip.callCancel (p : Chip) (tag : Half) (i : Nat) : Chip :=
  if 31 < i then p.done tag 22 .badField
  else if (p.callRec i).st = .free then p.done tag 22 .notFound
  else
    let made := (p.callRec i).made
    (p.cancelCall i).done tag 22 .ok made

/-- CALL_CANCEL (R157). -/
def execCallCancel (tag : Half) (record : Byte) (s : State) : Host.Outcome State Fault Refusal :=
  request (.callCancel tag record) (fun p => p.callCancel tag record.toNat) s

/-- OUTGOING_LIMIT acts (R150). -/
def Chip.outgoingLimit (p : Chip) (tag : Half) (limit : Nat) : Chip :=
  if 4 < limit then p.done tag 20 .badField
  else
    let old := p.calls.limit
    let p := { p with calls := { p.calls with limit := limit } }
    let p := p.done tag 20 .ok limit
    if old < limit then p.arbiterPass else p

/-- OUTGOING_LIMIT (R150). -/
def execOutgoingLimit (tag : Half) (limit : Byte) (s : State) : Host.Outcome State Fault Refusal :=
  request (.outgoingLimit tag limit) (fun p => p.outgoingLimit tag limit.toNat) s

/-- SEED acts (R154). -/
def Chip.seed (p : Chip) (tag : Half) (value : Nat) : Chip :=
  if 1023 < value then p.done tag 23 .badField
  else
    let v := if value = 0 then 1 else value
    { p with calls := { p.calls with lfsr := v } }.done tag 23 .ok v

/-- SEED (R154). -/
def execSeed (tag : Half) (value : Half) (s : State) : Host.Outcome State Fault Refusal :=
  request (.seed tag value) (fun p => p.seed tag value.toNat) s

end Sys2Proof.Machine
end

