-- ==== Sys2Proof/Machine/Restart.lean ====
section
/-! DEFINITION. Hardware reset (03 R49, R57) and warm restart (10 R185). -/

namespace Sys2Proof.Machine

/-! ## Hardware reset -/

/-- The addresses of the bytes that a write of words writes (03 R38). -/
def enabledBytes (a : Nat) (ws : List BusWord) : List Nat :=
  (wordsAt a ws).flatMap fun (b, w) => ((List.range 4).filter fun i => w.enables.getLsbD i).map (b + ·)

/-- The addresses that the operation holding the port writes (03 R49). -/
def Chip.writingBytes (p : Chip) : List Nat :=
  match p.mport.busy with
  | some .drain =>
    match p.path.posted with
    | e :: _ => enabledBytes e.addr e.words
    | [] => []
  | some (.engine (.slotWrite _ _ a ta pels _ _ _ _ _)) =>
    (match pels with
      | some bits => (List.range (bits.length / 8)).map (a + ·)
      | none => []) ++ (List.range 4).map (ta + ·)
  | some (.engine (.blockWrite _ _ a _)) => (List.range 1024).map (a + ·)
  | some (.record (.word w)) => (List.range 4).map (p.control + w.offset + ·)
  | some (.record (.notice position _)) => (List.range 16).map (p.control + 0x1000 + 16 * position + ·)
  | some (.record (.noticeProducer _)) => (List.range 4).map (p.control + 0x1808 + ·)
  | some (.record (.logEntry a bytes)) => (List.range bytes.length).map (a + ·)
  | some (.record (.reportRecord a bytes)) => (List.range bytes.length).filterMap fun i => recordPlace p.freeIndex (a + i)
  | _ => []

/-- Memory after the operation in progress has been abandoned: the bytes it was writing are free (03 R49; log 14). -/
def abandonBytes (k : Nat) (m : List Host.Cell) (addresses : List Nat) : List Host.Cell :=
  addresses.foldl (fun m a => memWrite m a (Config.abandonedByte k a)) m

/-- The part after a hardware reset; the levels on the line inputs and the model's own counters go on. -/
def Chip.restarted (p : Chip) (straps : Nat) : Chip :=
  { Chip.reset straps with
    lines := p.lines.map fun l => { Line.reset with inputs := l.inputs }
    tickIndex := p.tickIndex
    freeIndex := p.freeIndex + 1 }

/-- HARDWARE_RESET (03 R57). -/
def execHardwareReset (straps : BitVec 12) (s : State) : Host.Outcome State Fault Refusal :=
  .next { s with
    mem := abandonBytes s.chip.freeIndex s.mem s.chip.writingBytes
    chip := s.chip.restarted straps.toNat }

/-! ## Warm restart -/

/-- The numbers of the jobs that are ACTIVE or FINISHING. -/
def Chip.jobsInProgress (p : Chip) : List Nat :=
  (List.range 16).filter fun j => (p.job j).st == .active || (p.job j).st == .finishing

/-- A job in progress ends: PRINT_DONE, and its hold if it still has it (06 R111 step 1). -/
def Chip.endJob (p : Chip) (j : Nat) : Chip :=
  let x := p.job j
  let p := (p.onJob j fun x => { x with restart := true }).sendPrintDone j
  if x.st = .active ∨ x.deferred = true then p.releaseHold x.doc else p

/-- Warm restart of PRINT and its queue (06 R111). -/
def Chip.restartPrint (p : Chip) : Chip :=
  let jobs := p.jobsInProgress
  let p := jobs.foldl Chip.endJob (p.stopRender 0)
  let p := jobs.foldl (fun p j => p.onJob j fun _ => .free) p
  p.printTake.advance 0

/-- Warm restart of a line, by the state it was in (07 R141, R119). -/
def Chip.restartLine (before p : Chip) (n : Nat) : Chip :=
  let p := match (before.line n).state with
    | .idle | .releasing => p
    | .ringing => p.ringingToIdle n
    | _ => p.release n .restart
  p.onLine n fun l => { l with bursts := 0 }

/-- The ingest contexts that a warm restart stops: those not IDLE and not already STOPPING (05 R95). DESIGN CHOICE (log 44): a
context already STOPPING, through a line's release as through an INGEST_STOP, is left to its stop (05 R94) and the DONE of
the restart does not wait for it. -/
def Chip.stoppable (p : Chip) : List Nat :=
  (List.range 5).filter fun c => (p.ing c).phase != .idle && (p.ing c).stop.isNone

/-- A warm restart acts on every block, in the order of R185's table. DESIGN CHOICE (log 19): that order, and that of the
ingest contexts among themselves (SCAN, then LINE0 to LINE3) and of the lines. -/
def Chip.restartBlocks (p : Chip) : Chip :=
  let p := (List.range 5).foldl Chip.stopIngestIfActive p
  let p := p.restartPrint
  (List.range 4).foldl (Chip.restartLine p) p

/-- WARM_RESTART acts (10 R185): its DONE waits for the contexts it has stopped. -/
def Chip.warmRestart (p : Chip) (tag : Half) : Chip :=
  if p.req.restart.isSome then p.done tag 30 .busy
  else
    let stopped := p.stoppable
    let p := p.restartBlocks
    let awaited := stopped.filter fun c => (p.ing c).stop.isSome
    if awaited = [] then p.done tag 30 .ok
    else { p with req := { p.req with restart := some ⟨tag.toNat, awaited⟩ } }

/-- WARM_RESTART (10 R185). -/
def execWarmRestart (tag : Half) (s : State) : Host.Outcome State Fault Refusal :=
  request (.warmRestart tag) (fun p => p.warmRestart tag) s

end Sys2Proof.Machine
end

