-- ==== Sys2Proof/Machine/Events.lean ====
section
/-! DEFINITION. The meanings of the timer and line events: the stall timer (04 R74), the clock (09 R160), the unit timer
(09 R169), and the line channel's events (07). -/

namespace Sys2Proof.Machine

/-! ## Timers of the rings and the charge unit -/

/-- A stall timer that runs becomes EXPIRED, and CONSUMER_STALL is sent (04 R74). -/
def Chip.stallExpired (p : Chip) (c : Nat) : Chip :=
  match (p.ren c).ring with
  | some r =>
    match r.stall with
    | .running _ => (p.onRenRing c fun r => { r with stall := .expired }).send (.consumerStall c r.readyCount)
    | _ => p
  | none => p

/-- STALL_TIMER_EXPIRY (04 R74). -/
def execStallTimerExpiry (ctx : Fin 5) (s : State) : Host.Outcome State Fault Refusal :=
  event (Chip.stallExpired · ctx) s

/-- The clock a second on: midnight ends a holiday override (09 R160). -/
def ChargeUnit.nextSecond (c : ChargeUnit) : ChargeUnit :=
  if c.second < 86399 then { c with second := c.second + 1, tick := 0 }
  else { c with second := 0, day := (c.day + 1) % 7, tick := 0, holiday := false }

/-- The schedule count rises; if a ready time has just passed the arbiter is considered (08 R143). -/
def Chip.advanceSchedule (p : Chip) : Chip :=
  let old := p.calls.schedule
  let (new, p) := p.add32 old 1
  let p := { p with calls := { p.calls with schedule := new } }
  let passed := (List.range 32).any fun i =>
    let c := p.callRec i
    c.st == .waiting && decide (c.ready ≤ new) && !decide (c.ready ≤ old)
  if passed then p.arbiterPass else p

/-- The duration of an answered attempt in progress rises (09 R160, R168). -/
def Chip.advanceDuration (p : Chip) (n : Nat) : Chip :=
  let a := p.attempt n
  if a.opened ∧ a.answered then
    let (d, p) := p.add32 a.duration 1
    p.onAttempt n fun a => { a with duration := d }
  else p

/-- The clock advances by one second (09 R160). -/
def Chip.advanceClock (p : Chip) : Chip :=
  let p := { p with charge := p.charge.nextSecond }
  let p := p.advanceSchedule
  ([0, 1, 2, 3].foldl Chip.advanceDuration p).issueWord .clock

/-- CLOCK_ADVANCE (09 R160). -/
def execClockAdvance (s : State) : Host.Outcome State Fault Refusal := event Chip.advanceClock s

/-- The unit timer of an answered attempt expires: the next unit starts (09 R169). -/
def Chip.unitExpired (p : Chip) (n : Nat) : Chip :=
  let a := p.attempt n
  if a.opened = true ∧ a.answered = true ∧ a.unitTimer.isSome = true then p.unitStart n else p

/-- UNIT_TIMER_EXPIRY (09 R169). -/
def execUnitTimerExpiry (line : Fin 4) (s : State) : Host.Outcome State Fault Refusal :=
  event (Chip.unitExpired · line) s

/-! ## The line channel -/

/-- RING_BURST (07 R123). -/
def execRingBurst (line : Fin 4) (s : State) : Host.Outcome State Fault Refusal := event (Chip.ringBurst · line) s

/-- RING_ABSENT (07 R123). -/
def execRingAbsent (line : Fin 4) (s : State) : Host.Outcome State Fault Refusal := event (Chip.ringAbsent · line) s

/-- RING_END_TIMER_EXPIRY (07 R123). -/
def execRingEndTimerExpiry (line : Fin 4) (s : State) : Host.Outcome State Fault Refusal := event (Chip.ringEnded · line) s

/-- SETTLE_TIMER_EXPIRY (07 R125, R124, R121). -/
def execSettleTimerExpiry (line : Fin 4) (loop : Bool) (s : State) : Host.Outcome State Fault Refusal :=
  event (Chip.settled · line loop) s

/-- DIAL_TONE_DETECTED (07 R126). -/
def execDialToneDetected (line : Fin 4) (s : State) : Host.Outcome State Fault Refusal := event (Chip.dialTone · line) s

/-- DIAL_TONE_WAIT_EXPIRY (07 R126). -/
def execDialToneWaitExpiry (line : Fin 4) (s : State) : Host.Outcome State Fault Refusal :=
  event (Chip.toneWaitExpired · line) s

/-- TONE_ON_EXPIRY (07 R128). -/
def execToneOnExpiry (line : Fin 4) (s : State) : Host.Outcome State Fault Refusal := event (Chip.toneOnExpired · line) s

/-- TONE_OFF_EXPIRY (07 R128). -/
def execToneOffExpiry (line : Fin 4) (s : State) : Host.Outcome State Fault Refusal := event (Chip.toneOffExpired · line) s

/-- PULSE_BREAK_END (07 R130). -/
def execPulseBreakEnd (line : Fin 4) (s : State) : Host.Outcome State Fault Refusal := event (Chip.breakEnded · line) s

/-- PULSE_MAKE_END (07 R130). -/
def execPulseMakeEnd (line : Fin 4) (s : State) : Host.Outcome State Fault Refusal := event (Chip.makeEnded · line) s

/-- INTER_DIGIT_GAP_EXPIRY (07 R130). -/
def execInterDigitGapExpiry (line : Fin 4) (s : State) : Host.Outcome State Fault Refusal := event (Chip.gapExpired · line) s

/-- PAUSE_EXPIRY (07 R127). -/
def execPauseExpiry (line : Fin 4) (s : State) : Host.Outcome State Fault Refusal := event (Chip.pauseExpired · line) s

/-- ANSWER_TONE_DETECTED (07 R132). -/
def execAnswerToneDetected (line : Fin 4) (s : State) : Host.Outcome State Fault Refusal := event (Chip.answerTone · line) s

/-- BUSY_TONE_DETECTED (07 R132). -/
def execBusyToneDetected (line : Fin 4) (s : State) : Host.Outcome State Fault Refusal := event (Chip.busyTone · line) s

/-- ANSWER_WAIT_EXPIRY (07 R132). -/
def execAnswerWaitExpiry (line : Fin 4) (s : State) : Host.Outcome State Fault Refusal :=
  event (Chip.answerWaitExpired · line) s

/-- LOOP_LOSS (07 R131). -/
def execLoopLoss (line : Fin 4) (s : State) : Host.Outcome State Fault Refusal := event (Chip.loopLost · line) s

/-- METER_PULSE (07 R134, 09 R170). -/
def execMeterPulse (line : Fin 4) (s : State) : Host.Outcome State Fault Refusal := event (Chip.meterPulsed · line) s

/-- GUARD_EXPIRY (07 R137). -/
def execGuardExpiry (line : Fin 4) (s : State) : Host.Outcome State Fault Refusal := event (Chip.guardExpired · line) s

end Sys2Proof.Machine
end

