-- ==== Sys2Proof/Machine/Time.lean ====
section
/-! DEFINITION. The passing of time when no command waits (log 3): half-periods of the 32,768 Hz input, line ticks, and
the events that fall due when a timer, a qualifier or the clock's tick count has run out. -/

namespace Sys2Proof.Machine

/-! ## What is due -/

/-- The event of a phase timer that has run out (07 R128, R130). -/
def Line.phaseDue (n : Fin 4) (l : Line) : List Instr :=
  if l.phaseTimer ≠ some 0 then []
  else match l.phase with
    | .toneOn => [.toneOnExpiry n]
    | .toneOff => [.toneOffExpiry n]
    | .breaking _ => [.pulseBreakEnd n]
    | .making _ => [.pulseMakeEnd n]
    | .gap => [.interDigitGapExpiry n]
    | .pause | .none => []

/-- The event of a state timer that has run out (07 R126, R127, R132, R137). -/
def Line.stateDue (n : Fin 4) (l : Line) : List Instr :=
  if l.stateTimer ≠ some 0 then []
  else match l.state, l.phase with
    | .awaitTone, _ => [.dialToneWaitExpiry n]
    | .dialling, .pause => [.pauseExpiry n]
    | .awaitAnswer, _ => [.answerWaitExpiry n]
    | .releasing, _ => [.guardExpiry n]
    | _, _ => []

/-- The qualify time of DT, BT and AT (07 R120). -/
abbrev toneQualify : Nat := 256

/-- A qualifier's count has reached its qualify time (07 R120). DESIGN CHOICE (log 39): a count that stands when LINE_SET
changes the time is judged by the new time. -/
def Qualifier.due (time : Nat) (q : Qualifier) (e : Instr) : List Instr := if time ≤ q.count then [e] else []

/-- The event of a change to PRESENT alone: DT, BT, AT and MP have no event for a change to ABSENT (07 R120). -/
def Qualifier.rises (time : Nat) (q : Qualifier) (e : Instr) : List Instr := if q.present then [] else q.due time e

/-- The events of a line that are due (07). -/
def Line.due (n : Fin 4) (l : Line) : List Instr :=
  l.phaseDue n ++ l.stateDue n
    ++ (if l.settle = some 0 then [.settleTimerExpiry n l.inputs.loop] else [])
    ++ (if l.ringEnd = some 0 then [.ringEndTimerExpiry n] else [])
    ++ l.ringQ.due l.cfg.ringQualify (if l.ringQ.present then .ringAbsent n else .ringBurst n)
    ++ l.dtQ.rises toneQualify (.dialToneDetected n) ++ l.btQ.rises toneQualify (.busyToneDetected n)
    ++ l.atQ.rises toneQualify (.answerToneDetected n) ++ l.mpQ.rises l.cfg.meterQualify (.meterPulse n)
    ++ (if Config.loopLossTicks ≤ l.loopLoss ∧ l.state.actsOnLoss = true ∧ l.disregard = false then [.loopLoss n] else [])

/-- The events that are due. -/
def Chip.due (p : Chip) : List Instr :=
  (if 1024 ≤ p.charge.tick then [.clockAdvance] else [])
    ++ (List.finRange 4).flatMap (fun (n : Fin 4) => (p.line n).due n)
    ++ (List.finRange 4).flatMap (fun (n : Fin 4) => if (p.attempt n).unitTimer = some 0 then [.unitTimerExpiry n] else [])
    ++ (List.finRange 5).flatMap (fun (c : Fin 5) =>
        match (p.ren c).ring with
        | some r => if r.stall = .running 0 then [.stallTimerExpiry c] else []
        | none => [])

/-- The due event that is taken next: of several the choice is free (log 6). -/
def Chip.nextDue (p : Chip) : Option (Instr × Chip) :=
  match p.due with
  | [] => none
  | [e] => some (e, p)
  | e :: es =>
    some ((e :: es).getD (Config.dueChoice p.freeIndex % (es.length + 1)) e, { p with freeIndex := p.freeIndex + 1 })

/-! ## A half-period and a line tick -/

/-- A timer counted down. -/
def countDown : Option Nat → Option Nat := Option.map (· - 1)

/-- One tick of a qualifier outside a disregard period (07 R120); the change to PRESENT, and RING's change to ABSENT, are
taken as events when the count stands at the qualify time. -/
def Qualifier.tick (time : Nat) (isRing input : Bool) (q : Qualifier) : Qualifier :=
  if input = q.present then { q with count := 0 }
  else
    let q := { q with count := min time (q.count + 1) }
    if isRing then q else q.judged time

/-- One tick of the qualifiers and the loop loss count (07 R120, R121). -/
def Line.sample (l : Line) (x : LineInputs) : Line :=
  let l := { l with inputs := x }
  if l.state = .releasing then l.restartAll
  else
    let l := { l with ringQ := l.ringQ.tick l.cfg.ringQualify true x.ring }
    if l.settle.isSome || l.train then l.held
    else { l with
      dtQ := l.dtQ.tick toneQualify false x.dt
      btQ := l.btQ.tick toneQualify false x.bt
      atQ := l.atQ.tick toneQualify false x.ans
      mpQ := l.mpQ.tick l.cfg.meterQualify false x.mp
      loopLoss := if x.loop then 0 else min Config.loopLossTicks (l.loopLoss + 1) }

/-- The phase timer counts half-periods in a break or make, line ticks otherwise (07 R129). -/
def DialPhase.isPulse : DialPhase → Bool
  | .breaking _ | .making _ => true
  | _ => false

/-- One line tick of a line: its inputs sampled, its timers counted down (07 R120, R122). -/
def Line.tick (l : Line) (x : LineInputs) : Line :=
  let l := l.sample x
  { l with
    phaseTimer := if l.phase.isPulse then l.phaseTimer else countDown l.phaseTimer
    stateTimer := countDown l.stateTimer
    settle := countDown l.settle
    ringEnd := countDown l.ringEnd }

/-- One line tick of a stall timer (04 R74). -/
def StallTimer.tick : StallTimer → StallTimer
  | .running k => .running (k - 1)
  | t => t

/-- One line tick of the part (00_scope 5.3; 04 R74, 07, 09 R160, R169). -/
def Chip.lineTick (p : Chip) : Chip :=
  { p with
    lines := p.lines.mapIdx fun n l => l.tick (Config.lineInputs p.tickIndex n)
    charge := { p.charge with
      tick := p.charge.tick + 1
      attempts := p.charge.attempts.map fun a => { a with unitTimer := countDown a.unitTimer } }
    render := p.render.map fun x => { x with ring := x.ring.map fun r => { r with stall := r.stall.tick } }
    tickIndex := p.tickIndex + 1 }

/-- One half-period of a line: a break or make is counted down (07 R129). -/
def Line.half (l : Line) : Line := if l.phase.isPulse then { l with phaseTimer := countDown l.phaseTimer } else l

/-- One half-period passes; every sixty-fourth brings a line tick (00_scope 5.3). -/
def Chip.halfPeriod (p : Chip) : Chip :=
  let p := { p with lines := p.lines.map Line.half }
  if p.subTick + 1 < Config.halvesPerTick then { p with subTick := p.subTick + 1 }
  else { p with subTick := 0 }.lineTick

end Sys2Proof.Machine
end

