-- ==== Sys2Proof/Machine/Dispatch.lean ====
section
/-! DEFINITION. The meaning of each command: one arm per constructor. -/

namespace Sys2Proof.Machine

/-- The effect of a command on everything but the queue. -/
def exec (i : Instr) (s : State) : Host.Outcome State Fault Refusal :=
  match i with
  | .hardwareReset straps => Sys2Proof.Machine.execHardwareReset straps s
  | .sportTransaction t => Sys2Proof.Machine.execSportTransaction t s
  | .arbiterGrant => Sys2Proof.Machine.execArbiterGrant s
  | .postedWriteDrain => Sys2Proof.Machine.execPostedWriteDrain s
  | .throughReadServed => Sys2Proof.Machine.execThroughReadServed s
  | .slotReadComplete => Sys2Proof.Machine.execSlotReadComplete s
  | .blockWriteComplete => Sys2Proof.Machine.execBlockWriteComplete s
  | .blockReadComplete => Sys2Proof.Machine.execBlockReadComplete s
  | .slotWriteComplete => Sys2Proof.Machine.execSlotWriteComplete s
  | .tariffReadComplete => Sys2Proof.Machine.execTariffReadComplete s
  | .noticeProducerWriteComplete => Sys2Proof.Machine.execNoticeProducerWriteComplete s
  | .reportRecordWriteComplete => Sys2Proof.Machine.execReportRecordWriteComplete s
  | .stallTimerExpiry ctx => Sys2Proof.Machine.execStallTimerExpiry ctx s
  | .clockAdvance => Sys2Proof.Machine.execClockAdvance s
  | .unitTimerExpiry line => Sys2Proof.Machine.execUnitTimerExpiry line s
  | .ringBurst line => Sys2Proof.Machine.execRingBurst line s
  | .ringAbsent line => Sys2Proof.Machine.execRingAbsent line s
  | .ringEndTimerExpiry line => Sys2Proof.Machine.execRingEndTimerExpiry line s
  | .settleTimerExpiry line loop => Sys2Proof.Machine.execSettleTimerExpiry line loop s
  | .dialToneDetected line => Sys2Proof.Machine.execDialToneDetected line s
  | .dialToneWaitExpiry line => Sys2Proof.Machine.execDialToneWaitExpiry line s
  | .toneOnExpiry line => Sys2Proof.Machine.execToneOnExpiry line s
  | .toneOffExpiry line => Sys2Proof.Machine.execToneOffExpiry line s
  | .pulseBreakEnd line => Sys2Proof.Machine.execPulseBreakEnd line s
  | .pulseMakeEnd line => Sys2Proof.Machine.execPulseMakeEnd line s
  | .interDigitGapExpiry line => Sys2Proof.Machine.execInterDigitGapExpiry line s
  | .pauseExpiry line => Sys2Proof.Machine.execPauseExpiry line s
  | .answerToneDetected line => Sys2Proof.Machine.execAnswerToneDetected line s
  | .busyToneDetected line => Sys2Proof.Machine.execBusyToneDetected line s
  | .answerWaitExpiry line => Sys2Proof.Machine.execAnswerWaitExpiry line s
  | .loopLoss line => Sys2Proof.Machine.execLoopLoss line s
  | .meterPulse line => Sys2Proof.Machine.execMeterPulse line s
  | .guardExpiry line => Sys2Proof.Machine.execGuardExpiry line s
  | .apertureSet tag entry kind logSize line base slotSize slotCount policy => Sys2Proof.Machine.execApertureSet tag entry kind logSize line base slotSize slotCount policy s
  | .apertureClear tag entry => Sys2Proof.Machine.execApertureClear tag entry s
  | .masterSet tag master ordering => Sys2Proof.Machine.execMasterSet tag master ordering s
  | .shareSet tag setting => Sys2Proof.Machine.execShareSet tag setting s
  | .routeSet tag cls target => Sys2Proof.Machine.execRouteSet tag cls target s
  | .storeSet tag base size reserve lowMark => Sys2Proof.Machine.execStoreSet tag base size reserve lowMark s
  | .delete tag document => Sys2Proof.Machine.execDelete tag document s
  | .reportDocuments tag kind address => Sys2Proof.Machine.execReportDocuments tag kind address s
  | .reportPages tag document address => Sys2Proof.Machine.execReportPages tag document address s
  | .reportAccounts tag address => Sys2Proof.Machine.execReportAccounts tag address s
  | .reportCalls tag address => Sys2Proof.Machine.execReportCalls tag address s
  | .reportLines tag address => Sys2Proof.Machine.execReportLines tag address s
  | .scanBegin tag desk resolution width => Sys2Proof.Machine.execScanBegin tag desk resolution width s
  | .ingestStop tag context mode => Sys2Proof.Machine.execIngestStop tag context mode s
  | .ingestSet tag context limit => Sys2Proof.Machine.execIngestSet tag context limit s
  | .printSetup tag width resolution stall => Sys2Proof.Machine.execPrintSetup tag width resolution stall s
  | .print tag document first last copies => Sys2Proof.Machine.execPrint tag document first last copies s
  | .printCancel tag job => Sys2Proof.Machine.execPrintCancel tag job s
  | .pageResult tag line result => Sys2Proof.Machine.execPageResult tag line result s
  | .lineSet tag fields => Sys2Proof.Machine.execLineSet tag fields s
  | .answer tag line => Sys2Proof.Machine.execAnswer tag line s
  | .connectRx tag line direction width resolution desk => Sys2Proof.Machine.execConnectRx tag line direction width resolution desk s
  | .connectTx tag line width resolution => Sys2Proof.Machine.execConnectTx tag line width resolution s
  | .release tag line reason => Sys2Proof.Machine.execRelease tag line reason s
  | .call tag fields => Sys2Proof.Machine.execCall tag fields s
  | .callCancel tag record => Sys2Proof.Machine.execCallCancel tag record s
  | .outgoingLimit tag limit => Sys2Proof.Machine.execOutgoingLimit tag limit s
  | .seed tag value => Sys2Proof.Machine.execSeed tag value s
  | .setClock tag second day => Sys2Proof.Machine.execSetClock tag second day s
  | .holiday tag setting => Sys2Proof.Machine.execHoliday tag setting s
  | .tariffCommit tag address => Sys2Proof.Machine.execTariffCommit tag address s
  | .accountSet tag desk limit => Sys2Proof.Machine.execAccountSet tag desk limit s
  | .accountClear tag desk => Sys2Proof.Machine.execAccountClear tag desk s
  | .logSet tag address count => Sys2Proof.Machine.execLogSet tag address count s
  | .warmRestart tag => Sys2Proof.Machine.execWarmRestart tag s
  | .unknownKind tag kind => Sys2Proof.Machine.execUnknownKind tag kind s

end Sys2Proof.Machine
end

