-- ==== Sys2Proof/Machine/Step.lean ====
section
/-! DEFINITION. The step: the command at the front of the queue, or, on an empty queue, what time brings (log 3). -/

namespace Sys2Proof.Machine

/-- The block idles: a RECORD_WRITE without a row of its own that holds the port is served (log 11); else an event that is
due is taken, or a half-period passes (log 3). -/
def State.idle (s : State) : Host.Outcome State Fault Refusal :=
  match s.chip.rowlessWrite s.mem, s.chip.nextDue with
  | some _, _ => .next s.serveRowless
  | none, some (e, p) => exec e { s with chip := p }
  | none, none => .next { s with chip := s.chip.halfPeriod }

/-- One step: the command at the front of the queue runs on the state with the queue's rest. -/
def step (s : State) : Host.Outcome State Fault Refusal :=
  match s.pending with
  | c :: rest => exec c { s with pending := rest }
  | [] => s.idle

/-- The state with the command that a word spells put at the front of its queue; unchanged where it spells none. -/
def State.withFetchWord (s : State) (nbits w : Nat) : State :=
  match decodeTableWord nbits w with
  | some c => { s with pending := c :: s.pending }
  | none => s

end Sys2Proof.Machine
end

