-- ==== Sys2Proof/Safety.lean ====
section
/-! DEFINITION. The terms in which claims are stated: the invariants that every step is meant to keep, what answering a
request and handing over a notice come to, and what reading back coded lines gives. -/

namespace Sys2Proof.Machine

/-! ## Invariants -/

/-- Page memory is in canonical form: addresses strictly rising, no byte listed that reads as an unlisted one. -/
def State.MemoryCanonical (s : State) : Prop := memWf s.mem = true

/-- The notice ring never holds more than 128 unconsumed notices (10 R182). -/
def Chip.NoticesBounded (p : Chip) : Prop := p.unconsumed ≤ Config.noticeRing

/-- The posting queue holds up to eight entries (03 R47). -/
def Chip.PostingBounded (p : Chip) : Prop := p.path.posted.length ≤ Config.postingDepth

/-- The redial LFSR holds a state of 1..1023 (08 R153). -/
def Chip.LfsrInRange (p : Chip) : Prop := 1 ≤ p.calls.lfsr ∧ p.calls.lfsr ≤ 1023

/-- DIGIT carries a nonzero code exactly while TONE_ON is asserted (07 R118). -/
def Line.DigitFollowsTone (l : Line) : Prop := l.digit ≠ 0 ↔ l.toneOn = true

/-- DIGIT follows TONE_ON on all four lines. -/
def Chip.DigitsFollowTones (p : Chip) : Prop := ∀ n, n < 4 → (p.line n).DigitFollowsTone

/-- A line that holds a call record is outgoing and in one of the states of a call, and the record is ACTIVE on it; each
ACTIVE record has its line, and no WAITING one has any (08 R149, R151; 07 R136). -/
def Chip.CallsOnLines (p : Chip) : Prop :=
  (∀ n i, n < 4 → (p.line n).call = some i →
    i < 32 ∧ (p.callRec i).st = .active ∧ (p.callRec i).line = some n ∧ (p.line n).dir = .outward
    ∧ (p.line n).state ∈ [.seizing, .awaitTone, .dialling, .awaitAnswer, .answered, .connected])
  ∧ (∀ i, i < 32 → (p.callRec i).st = .active → ∃ n, n < 4 ∧ (p.callRec i).line = some n ∧ (p.line n).call = some i)
  ∧ ∀ i, i < 32 → (p.callRec i).st = .waiting → (p.callRec i).line = none

/-- Attempts made do not exceed attempts allowed, and are below them while the record waits (08 R152). -/
def Chip.AttemptsAllowed (p : Chip) : Prop :=
  ∀ i, i < 32 → ((p.callRec i).st = .waiting → (p.callRec i).made < (p.callRec i).allowed)
    ∧ ((p.callRec i).st = .active → (p.callRec i).made ≤ (p.callRec i).allowed)

/-- Every block of the store is in the free pool or in the chain of just one page record (02 R20). This rests on: a FREE
page record has no chain, the page lists of the documents and the page records agree (R26, R31), and each ingest context
adds to an OPEN document of its own, to a page of that document if it has one open, an IDLE context to none (R27, R33). -/
def Chip.StoreWhole (p : Chip) : Prop :=
  (p.store.pool ++ (List.range 1024).flatMap fun r => (p.pageRec r).chain).Perm (List.range p.store.blocks)
  ∧ (∀ r, r < 1024 → (p.pageRec r).st = .free → (p.pageRec r).chain = [])
  ∧ (∀ r, r < 1024 → (p.pageRec r).st ≠ .free →
      (p.pageRec r).doc < 64 ∧ (p.doc (p.pageRec r).doc).st ≠ .free ∧ r ∈ (p.doc (p.pageRec r).doc).pages)
  ∧ (∀ d r, d < 64 → r ∈ (p.doc d).pages → r < 1024 ∧ (p.pageRec r).st ≠ .free ∧ (p.pageRec r).doc = d)
  ∧ (∀ c d, c < 5 → (p.ing c).doc = some d → d < 64 ∧ (p.doc d).st = .opened
      ∧ ∀ b, b < 5 → (p.ing b).doc = some d → b = c)
  ∧ (∀ c r, c < 5 → (p.ing c).page = some r → (p.ing c).phase ≠ .idle ∧ r < 1024 ∧ (p.pageRec r).st ≠ .free
      ∧ (p.ing c).doc = some (p.pageRec r).doc)

/-- A print job holds its document: QUEUED, ACTIVE, or FINISHING with its release deferred (02 R34, 06 R108). -/
def Job.holdsDoc (x : Job) (d : Nat) : Bool :=
  decide (x.doc = d ∧ (x.st = .queued ∨ x.st = .active ∨ x.st = .finishing ∧ x.deferred = true))

/-- A call record holds its document while it is not FREE (02 R34, 08 R155). -/
def CallRecord.holdsDoc (x : CallRecord) (d : Nat) : Bool := decide (x.doc = d ∧ x.st ≠ .free)

/-- A document's hold count is the number of print jobs and call records that hold it (02 R34). This rests on: a FREE
document has no holds, the print queue names QUEUED jobs, each once, and PRINT's job is ACTIVE (06 R105, R107). -/
def Chip.HoldsCounted (p : Chip) : Prop :=
  (∀ d, d < 64 → (p.doc d).holds = ((List.range 16).filter fun j => (p.job j).holdsDoc d).length
    + ((List.range 32).filter fun i => (p.callRec i).holdsDoc d).length)
  ∧ (∀ d, d < 64 → (p.doc d).st = .free → (p.doc d).holds = 0)
  ∧ p.print.queue.Nodup ∧ (∀ j ∈ p.print.queue, j < 16 ∧ (p.job j).st = .queued)
  ∧ ∀ j, (p.ren 0).job = some j → j < 16 ∧ (p.job j).st = .active

/-! ## Notices and requests -/

/-- Waiting RECORD operations with a status word's write among them: a new one joins unless one waits (10 R189). -/
def withWord (ops : List RecordOp) (w : StatusWord) : List RecordOp := if .word w ∈ ops then ops else ops ++ [.word w]

/-- `q` is `p` after the notice unit has been handed `n` (10 R186): below 128 unconsumed it is placed, its record and
then the producer word going out; at 128 it is dropped, the lost count rising and its word going out. -/
def Chip.Told (p q : Chip) (n : Notice) : Prop :=
  if p.unconsumed < 128 then
    q = { p with
      mport := { p.mport with records := p.mport.records ++
        [.notice (p.notices.pn % 128) n, .noticeProducer ((p.notices.pn + 1) % 65536)] }
      notices := { p.notices with
        pn := (p.notices.pn + 1) % 65536, classes := tset p.notices.classes (p.notices.pn % 128) n.cls } }
  else
    q = { p with
      mport := { p.mport with records := withWord p.mport.records .lost }
      notices := { p.notices with lost := min 65535 (p.notices.lost + 1) } }

/-- `q` is `p` after a request's dispatch has been made (10 R180): C rises by 1, the consumer word goes out, and the next
record is read if one is there. -/
def Chip.Ended (p q : Chip) : Prop :=
  q = { p with
    req := { p.req with
      consumer := (p.req.consumer + 1) % 65536, taking := decide ((p.req.consumer + 1) % 65536 ≠ p.req.producer) }
    mport := { p.mport with records := withWord p.mport.records .consumer ++
      if (p.req.consumer + 1) % 65536 = p.req.producer then []
      else [.requestRead ((p.req.consumer + 1) % 65536 % 64)] } }

/-- `t` is `p` after the notice `n` and then the end of the request's dispatch. -/
def Chip.AnsweredWith (p t : Chip) (n : Notice) : Prop := ∃ q, p.Told q n ∧ q.Ended t

/-- `t` is `q` after the request unit has taken a drained write of the request producer word (10 R181): the new value is
the enabled bytes over the old shadow; at a distance of 64 or less from C it is taken, and the next record is read unless
one is being taken; above it INDEX_BAD is handed over. -/
def Chip.ProducerTaken (q t : Chip) (w : BusWord) : Prop :=
  let old := q.req.producer
  let v := (if w.enables.getLsbD 0 then w.data.toNat % 256 else old % 256)
    + 256 * (if w.enables.getLsbD 1 then w.data.toNat / 256 % 256 else old / 256 % 256)
  let c := q.req.consumer
  ((v + 65536 - c) % 65536 ≤ 64 → t = { q with
    req := { q.req with producer := v, taking := q.req.taking || decide (c ≠ v) }
    mport := { q.mport with records := q.mport.records ++
      if c ≠ v ∧ q.req.taking = false then [.requestRead (c % 64)] else [] } })
  ∧ (64 < (v + 65536 - c) % 65536 → q.Told t (.indexBad 0 v c))

/-- `t` is `q` after the notice unit has taken a drained write of the notice consumer word (10 R187): at a distance of 128
or less from Pn the new value is taken, and with notices lost and room in the ring LOST is placed first, carrying the
count, which returns to 0; above 128 INDEX_BAD is handed over. -/
def Chip.ConsumerTaken (q t : Chip) (w : BusWord) : Prop :=
  let old := q.notices.cn
  let v := (if w.enables.getLsbD 0 then w.data.toNat % 256 else old % 256)
    + 256 * (if w.enables.getLsbD 1 then w.data.toNat / 256 % 256 else old / 256 % 256)
  let pn := q.notices.pn
  ((pn + 65536 - v) % 65536 ≤ 128 → (q.notices.lost = 0 ∨ (pn + 65536 - v) % 65536 = 128) →
    t = { q with notices := { q.notices with cn := v } })
  ∧ ((pn + 65536 - v) % 65536 < 128 → 0 < q.notices.lost → t = { q with
      notices := { q.notices with
        cn := v, lost := 0, pn := (pn + 1) % 65536, classes := tset q.notices.classes (pn % 128) .path }
      mport := { q.mport with records := withWord (q.mport.records ++
        [.notice (pn % 128) (.lost q.notices.lost), .noticeProducer ((pn + 1) % 65536)]) .lost } })
  ∧ (128 < (pn + 65536 - v) % 65536 → q.Told t (.indexBad 1 v pn))

/-! ## Pages asked for -/

/-- `t` is `p` after transmit context `c` on call record `i` has asked for page `n` (02 R30, 06 R97, R115): a CLOSED page
is copied and its decode starts in RENDER; one not yet CLOSED is waited for in WAIT_PAGE; past the document's end the
context is in DOC_DONE with a NO-LINE slot carrying END_DOC to hand over. -/
def Chip.TxAsked (p t : Chip) (c i n : Nat) : Prop :=
  let x := p.ren c
  let d := p.doc (p.callRec i).doc
  let becomes (y : RenderCtx) : Prop := t = { p with render := tset p.render c y }
  (∀ r, d.pages[n - 1]? = some r → (p.pageRec r).st = .closed → let y := p.pageRec r
    becomes { x with
      page := n, state := .render
      source := some ⟨r, y.width, y.res, y.lines, y.bitLength, y.chain, y.corrupt⟩
      decoder := Decoder.start y.width, vertical := Vertical.blank, lineOut := 0 })
  ∧ (∀ r, d.pages[n - 1]? = some r → (p.pageRec r).st ≠ .closed →
      becomes { x with page := n, state := .waitPage, source := none })
  ∧ (d.pages[n - 1]? = none → d.st = .opened → becomes { x with page := n, state := .waitPage, source := none })
  ∧ (d.pages[n - 1]? = none → d.st ≠ .opened → becomes { x with
      page := n, state := .docDone, source := none, outgoing := some ⟨false, false, true, false⟩ })

/-! ## Operations at the M-port -/

/-- A RECORD_WRITE that no row of the table serves: a status word, a notice or a log entry (log 11). -/
def PortOp.rowless : PortOp → Bool
  | .record (.word _) | .record (.notice _ _) | .record (.logEntry _ _) => true
  | _ => false

/-- The offset of a status word in the control area (11.3). -/
def StatusWord.place : StatusWord → Nat
  | .consumer => 0x1804 | .lost => 0x1810 | .freeBlocks => 0x1814 | .clock => 0x1818
  | .lineStates => 0x181C | .logNext => 0x1820

/-- The value of a status word (10 R189). -/
def Chip.wordShown (p : Chip) : StatusWord → Nat
  | .consumer => p.req.consumer | .lost => p.notices.lost | .freeBlocks => p.store.pool.length
  | .clock => p.charge.day * 16777216 + p.charge.second | .lineStates => p.lineStatesWord | .logNext => p.charge.logSeq

/-- A record of `n` bytes holds the fields (offset, size, value), little-endian, each saturated at the largest value its
size holds, and 0 in every byte of no field (11 R191). -/
def HoldsFields (bytes : List Byte) (n : Nat) (fields : List (Nat × Nat × Nat)) : Prop :=
  bytes.length = n ∧ (∀ f ∈ fields, fieldAt bytes f.1 f.2.1 = min f.2.2 (256 ^ f.2.1 - 1))
  ∧ ∀ i, i < n → (∀ f ∈ fields, i < f.1 ∨ f.1 + f.2.1 ≤ i) → bytes.getD i 0 = 0

/-! ## Postings -/

/-- `t` is `p` after a posting for the attempt on line `n` (09 R171, R173): the charge joins its desk's total, its billed
charge and its call's charge; a desk that is OPEN and at its limit is BLOCKED, and BUDGET_REACHED follows. -/
def Chip.Posted (p t : Chip) (n amount : Nat) : Prop :=
  let x := p.attempt n
  (x.desk = none → t = p)
  ∧ ∀ d, x.desk = some d →
    let a := p.account d
    let total := min 4294967295 (a.total + amount)
    let reached : Bool := decide (a.limit ≠ 0 ∧ a.limit ≤ total ∧ a.blocked = false)
    let q : Chip := { p with
      charge := { p.charge with
        accounts := tset p.charge.accounts d { a with total := total, blocked := a.blocked || reached }
        attempts := tset p.charge.attempts n { x with billed := min 4294967295 (x.billed + amount) } }
      calls := match x.call with
        | some i => { p.calls with records := tset p.calls.records i { p.callRec i with
            charge := min 4294967295 ((p.callRec i).charge + amount) } }
        | none => p.calls }
    (reached = true → q.Told t (.budgetReached d total a.limit)) ∧ (reached = false → t = q)

/-- The M-port with an operation of ingest context `c` joined to those of its requester: SCAN, or its line (03 R55). -/
def Chip.withIngestOp (p : Chip) (c : Nat) (op : EngineOp) : MPort :=
  if c = 0 then { p.mport with scanOps := p.mport.scanOps ++ [op] }
  else { p.mport with lineOps := tset p.mport.lineOps (c - 1) (tget p.mport.lineOps (c - 1) ++ [op]) }

/-- The M-port with an operation of render context `c` joined to those of its requester: PRINT, or its line (03 R55). -/
def Chip.withRenderOp (p : Chip) (c : Nat) (op : EngineOp) : MPort :=
  if c = 0 then { p.mport with printOps := p.mport.printOps ++ [op] }
  else { p.mport with lineOps := tset p.mport.lineOps (c - 1) (tget p.mport.lineOps (c - 1) ++ [op]) }

/-- The command is a request: the chapters 02 to 10 answer its record with a DONE. -/
def requestCommand : Instr → Bool
  | .apertureSet .. | .apertureClear .. | .masterSet .. | .shareSet .. | .routeSet .. | .storeSet .. | .delete ..
  | .reportDocuments .. | .reportPages .. | .reportAccounts .. | .reportCalls .. | .reportLines .. | .scanBegin ..
  | .ingestStop .. | .ingestSet .. | .printSetup .. | .print .. | .printCancel .. | .pageResult .. | .lineSet ..
  | .answer .. | .connectRx .. | .connectTx .. | .release .. | .call .. | .callCancel .. | .outgoingLimit .. | .seed ..
  | .setClock .. | .holiday .. | .tariffCommit .. | .accountSet .. | .accountClear .. | .logSet .. | .warmRestart ..
  | .unknownKind .. => true
  | _ => false

/-- A request whose fields alone are outside the ranges of its rule: its tag and kind code. Checks that rest on the
part's state are left out. -/
def fieldsRefused : Instr → Option (Half × Nat)
  | .apertureSet tag entry kind logSize .. =>
    if 11 < entry.toNat ∨ 4 < kind.toNat ∨ 12 < logSize.toNat then some (tag, 1) else none
  | .apertureClear tag entry => if 11 < entry.toNat then some (tag, 2) else none
  | .masterSet tag master ordering => if 15 < master.toNat ∨ 1 < ordering.toNat then some (tag, 3) else none
  | .shareSet tag setting => if 2 < setting.toNat then some (tag, 4) else none
  | .routeSet tag cls target => if 6 < cls.toNat ∨ 2 < target.toNat then some (tag, 5) else none
  | .storeSet tag base size reserve lowMark =>
    if base.toNat % 1048576 ≠ 0 ∨ size.toNat = 0 ∨ 32 < size.toNat ∨ 4294967296 < base.toNat + size.toNat * 1048576
      ∨ 4095 < reserve.toNat ∨ size.toNat * 1024 ≤ reserve.toNat ∨ 32767 < lowMark.toNat
      ∨ size.toNat * 1024 < lowMark.toNat then some (tag, 6) else none
  | .delete tag document => if 63 < document.toNat then some (tag, 7) else none
  | .reportDocuments tag kind address =>
    if kind.toNat ≠ 0 ∨ address.toNat % 4 ≠ 0 then some (tag, 8) else none
  | .reportPages tag _ address | .reportAccounts tag address | .reportCalls tag address | .reportLines tag address =>
    if address.toNat % 4 ≠ 0 then some (tag, 8) else none
  | .scanBegin tag desk resolution width =>
    if 63 < desk.toNat ∨ goodWidth width.toNat = false ∨ goodRes resolution.toNat = false then some (tag, 9) else none
  | .ingestStop tag context mode => if 4 < context.toNat ∨ 1 < mode.toNat then some (tag, 10) else none
  | .ingestSet tag context limit => if 4 < context.toNat ∨ limit.toNat = 0 then some (tag, 11) else none
  | .printSetup tag width resolution stall =>
    if goodWidth width.toNat = false ∨ goodRes resolution.toNat = false ∨ stall.toNat = 0 ∨ 60 < stall.toNat then
      some (tag, 12) else none
  | .print tag document first last _ =>
    if 63 < document.toNat ∨ first.toNat = 0 ∨ last.toNat ≠ 0 ∧ last.toNat < first.toNat then some (tag, 13) else none
  | .printCancel tag job => if 15 < job.toNat then some (tag, 14) else none
  | .lineSet tag fields => if lineSetGood fields = false then some (tag, 15) else none
  | .answer tag line => if 3 < line.toNat then some (tag, 16) else none
  | .connectRx tag line direction .. => if 3 < line.toNat ∨ direction.toNat ≠ 0 then some (tag, 17) else none
  | .connectTx tag line .. => if 3 < line.toNat then some (tag, 17) else none
  | .pageResult tag line result => if 3 < line.toNat ∨ 2 < result.toNat then some (tag, 18) else none
  | .release tag line reason =>
    if 3 < line.toNat ∨ reason.toNat < 6 ∨ 9 < reason.toNat then some (tag, 19) else none
  | .outgoingLimit tag limit => if 4 < limit.toNat then some (tag, 20) else none
  | .call tag fields => if callGood fields = false then some (tag, 21) else none
  | .callCancel tag record => if 31 < record.toNat then some (tag, 22) else none
  | .seed tag value => if 1023 < value.toNat then some (tag, 23) else none
  | .setClock tag second day => if 6 < day.toNat ∨ 86399 < second.toNat then some (tag, 24) else none
  | .holiday tag setting => if 1 < setting.toNat then some (tag, 25) else none
  | .tariffCommit tag address => if address.toNat % 4 ≠ 0 then some (tag, 26) else none
  | .accountSet tag desk _ => if 63 < desk.toNat then some (tag, 27) else none
  | .accountClear tag desk => if 63 < desk.toNat then some (tag, 28) else none
  | .logSet tag address count =>
    if count.toNat ≠ 0 ∧ (count.toNat < 16 ∨ 4096 < count.toNat ∨ address.toNat % 64 ≠ 0) then some (tag, 29) else none
  | _ => none

/-! ## Lines -/

/-- `p` with line `n` as given. -/
def Chip.lineIs (p : Chip) (n : Nat) (l : Line) : Chip := { p with lines := tset p.lines n l }

/-- `p` with line `n` as given, its state changed: the line states word goes out (07 R122, 10 R189). -/
def Chip.lineEnters (p : Chip) (n : Nat) (l : Line) : Chip :=
  { p with lines := tset p.lines n l, mport := { p.mport with records := withWord p.mport.records .lineStates } }

/-- A line whose HOOK takes a level: a change restarts the tone qualifiers and the settle timer (07 R121). -/
def Line.hooked (l : Line) (h : Bool) : Line :=
  if l.hook = h then l
  else { l with
    hook := h, settle := some l.cfg.settle, dtQ := ⟨false, 0⟩, btQ := ⟨false, 0⟩, atQ := ⟨false, 0⟩, mpQ := ⟨false, 0⟩
    loopLoss := 0 }

/-- A line without a call: qualifiers restarted, no direction. -/
def Line.quiet (l : Line) : Line :=
  { l with
    dir := .none, ringQ := ⟨false, 0⟩, dtQ := ⟨false, 0⟩, btQ := ⟨false, 0⟩, atQ := ⟨false, 0⟩, mpQ := ⟨false, 0⟩
    loopLoss := 0 }

/-- A line as its release leaves it: on hook, RELEASING with its cause, the tone off, the guard time running; an outgoing
line has given up its call record (07 R136). -/
def Line.letGo (l : Line) (cause : Cause) : Line :=
  { l with
    state := .releasing, cause := some cause, call := if l.dir = .outward then none else l.call, conn := .none
    dial := [], pos := 0, phase := .none, phaseTimer := none, stateTimer := some l.cfg.guard, ringEnd := none
    settle := none, train := false, hook := false, toneOn := false, digit := 0, ringQ := ⟨false, 0⟩, dtQ := ⟨false, 0⟩
    btQ := ⟨false, 0⟩, atQ := ⟨false, 0⟩, mpQ := ⟨false, 0⟩, loopLoss := 0 }

/-! ## Coded pages -/

/-- The stream of a page: what the coder places for the lines, taken one by one, and for its open SAME run at the end
(01 R7 to R9). -/
def pageStreamFrom (k : Coder) : List (List Bool) → List Bool
  | [] => if k.run = 0 then [] else sameCode k.run
  | line :: lines =>
    ((k.take line).2.flatMap fun code => code.bits)
      ++ pageStreamFrom { (k.take line).1 with ref := ((k.take line).2.getLast?.bind (·.ref)).getD k.ref } lines

/-- The stream of a page of width `w`. -/
def pageStream (w : Nat) (lines : List (List Bool)) : List Bool := pageStreamFrom (Coder.start w) lines

/-- The next `n` lines the decoder produces of a page whose blocks it all holds; it stops where it would need another
block. -/
def decodedLines (src : Source) : (n : Nat) → Decoder → List (List Bool)
  | 0, _ => []
  | n + 1, d =>
    match d.next src with
    | .line pels d _ => pels :: decodedLines src n d
    | .needBlock => []

/-- The vertical lines that the vertical stage gives for the lines of a page, taken one by one (06 R100). -/
def verticalLines (rs rt : Nat) (v : Vertical) : List (List Bool) → List (List Bool)
  | [] => []
  | line :: lines =>
    match v.take rs rt lines.isEmpty line with
    | (some x, w) => x :: (List.replicate w.repeats w.repeatLine ++ verticalLines rs rt { w with repeats := 0 } lines)
    | (none, w) => verticalLines rs rt w lines

/-! ## Memory -/

/-- The byte at `a` after words were written at consecutive word addresses from `base`: each enabled byte of a word is
written, every other byte keeps what `old` reads (03 R38). -/
def wordsOver (old : Nat → Byte) (base : Nat) (ws : List BusWord) (a : Nat) : Byte :=
  if base ≤ a ∧ a < base + 4 * ws.length then
    let w := ws.getD ((a - base) / 4) ⟨0, 0⟩
    if w.enables.getLsbD ((a - base) % 4) then w.data.extractLsb' (8 * ((a - base) % 4)) 8 else old a
  else old a

/-- The byte at `a` after bytes were written from `base` on. -/
def bytesOver (old : Nat → Byte) (base : Nat) (bytes : List Byte) (a : Nat) : Byte :=
  if base ≤ a ∧ a < base + bytes.length then bytes.getD (a - base) 0 else old a

/-- `t` is `s` after memory has served the RECORD_WRITE without a row of its own that holds the port: a status word with
the value it has now, a notice at its ring position, or a log entry (10 R186, R189, 09 R179). -/
def State.RowlessServed (s t : State) : Prop := ∃ (m : List Host.Cell) (base : Nat) (bytes : List Byte),
  t = { s with mem := m, chip := { s.chip with mport := { s.chip.mport with busy := none } } }
  ∧ (∀ a, memRead m a = bytesOver (memRead s.mem) base bytes a)
  ∧ ((∃ w, s.chip.mport.busy = some (.record (.word w)) ∧ base = s.chip.path.strap * 8192 + w.place
        ∧ bytes = leBytes 4 (s.chip.wordShown w))
    ∨ (∃ k n, s.chip.mport.busy = some (.record (.notice k n)) ∧ base = s.chip.path.strap * 8192 + 0x1000 + 16 * k
        ∧ bytes = n.bytes)
    ∨ s.chip.mport.busy = some (.record (.logEntry base bytes)))

end Sys2Proof.Machine
end

