-- ==== Sys2Proof/Certificates/Slice0/Obligations.lean ====
section
/-! DEFINITION. The statements for the provers. In a statement about a request `c` served at `s`, `s.chip.freePort` is the
part once the RECORD_READ that brought the record has freed the M-port. -/

open Sys2Proof Sys2Proof.Machine

/-! ## The step and the resets -/

/-- A step runs the command at the front of the queue on the state with the queue's rest (log 3). -/
def Obligations.StepRunsTheFrontCommand : Prop :=
  ∀ (c : Instr) (rest : List Instr) (s : State), s.pending = c :: rest → step s = exec c { s with pending := rest }

/-- On an empty queue time passes (log 3, DESIGN CHOICE): a RECORD_WRITE at the port that no row serves is served
first (log 11); else an event that is due is taken, of several any one (log 6); with none due a half-period of the
32,768 Hz input passes, and every sixty-fourth brings a line tick (00 5.3). A half-period counts down a break or make
(07 R129); a line tick samples each line's inputs (free levels, log 5), counts its qualifiers and its loop loss
outside disregard periods (07 R120, R121; log 41), and counts down its other timers (R122), the unit timers (09 R169)
and the stall timers (04 R74); the clock's tick count rises (09 R160). An event is due when its count stands at its
time or its timer at 0 (a count that LINE_SET's new time finds: log 39). -/
def Obligations.EmptyQueueLetsTimePass : Prop :=
  (∀ s : State, s.pending = [] →
    let writing : Prop := ∃ op, s.chip.mport.busy = some op ∧ op.rowless = true
    (writing → s.MemoryCanonical → ∃ t, step s = .next t ∧ s.RowlessServed t)
    ∧ (¬ writing → s.chip.due = [] → step s = .next { s with chip := s.chip.halfPeriod })
    ∧ (∀ e, ¬ writing → s.chip.due = [e] → step s = exec e s)
    ∧ (¬ writing → 2 ≤ s.chip.due.length → ∃ e ∈ s.chip.due,
        step s = exec e { s with chip := { s.chip with freeIndex := s.chip.freeIndex + 1 } }))
  ∧ (∀ p : Chip,
      let h := p.halfPeriod
      (p.subTick + 1 < 64 → h = { p with subTick := p.subTick + 1, lines := h.lines }
        ∧ ∀ n, n < 4 → h.line n = { p.line n with phaseTimer := match (p.line n).phase with
            | .breaking _ | .making _ => (p.line n).phaseTimer.map (· - 1)
            | _ => (p.line n).phaseTimer })
      ∧ (64 ≤ p.subTick + 1 → h = { p with
            subTick := 0, tickIndex := p.tickIndex + 1, lines := h.lines, render := h.render
            charge := { p.charge with tick := p.charge.tick + 1, attempts := h.charge.attempts } }
        ∧ (∀ n, n < 4 → h.attempt n = { p.attempt n with unitTimer := (p.attempt n).unitTimer.map (· - 1) })
        ∧ (∀ c, c < 5 → h.ren c = { p.ren c with ring := (p.ren c).ring.map fun r => { r with stall := match r.stall with
            | .running k => .running (k - 1)
            | timer => timer } })
        ∧ ∀ n, n < 4 →
            let l := p.line n
            let x := Config.lineInputs p.tickIndex n
            let disregarded : Bool := l.settle.isSome || l.train || l.state == .releasing
            let counted (time : Nat) (isRing input : Bool) (q : Qualifier) : Qualifier :=
              if input = q.present then ⟨q.present, 0⟩
              else if q.present = true ∧ isRing = false ∧ time ≤ q.count + 1 then ⟨false, 0⟩
              else ⟨q.present, min time (q.count + 1)⟩
            h.line n = { l with
              inputs := x
              phaseTimer := l.phaseTimer.map (· - 1), stateTimer := l.stateTimer.map (· - 1)
              settle := l.settle.map (· - 1), ringEnd := l.ringEnd.map (· - 1)
              ringQ := if l.state = .releasing then ⟨false, 0⟩ else counted l.cfg.ringQualify true x.ring l.ringQ
              dtQ := if disregarded then ⟨false, 0⟩ else counted 256 false x.dt l.dtQ
              btQ := if disregarded then ⟨false, 0⟩ else counted 256 false x.bt l.btQ
              atQ := if disregarded then ⟨false, 0⟩ else counted 256 false x.ans l.atQ
              mpQ := if disregarded then ⟨false, 0⟩ else counted l.cfg.meterQualify false x.mp l.mpQ
              loopLoss := if disregarded = true ∨ x.loop = true then 0 else min 410 (l.loopLoss + 1) }))
  ∧ (∀ (p : Chip) (n : Fin 4),
      let l := p.line n
      (.clockAdvance ∈ p.due ↔ 1024 ≤ p.charge.tick)
      ∧ (.ringBurst n ∈ p.due ↔ l.cfg.ringQualify ≤ l.ringQ.count ∧ l.ringQ.present = false)
      ∧ (.ringAbsent n ∈ p.due ↔ l.cfg.ringQualify ≤ l.ringQ.count ∧ l.ringQ.present = true)
      ∧ (.dialToneDetected n ∈ p.due ↔ 256 ≤ l.dtQ.count ∧ l.dtQ.present = false)
      ∧ (.busyToneDetected n ∈ p.due ↔ 256 ≤ l.btQ.count ∧ l.btQ.present = false)
      ∧ (.answerToneDetected n ∈ p.due ↔ 256 ≤ l.atQ.count ∧ l.atQ.present = false)
      ∧ (.meterPulse n ∈ p.due ↔ l.cfg.meterQualify ≤ l.mpQ.count ∧ l.mpQ.present = false)
      ∧ (.loopLoss n ∈ p.due ↔ 410 ≤ l.loopLoss ∧ l.settle = none ∧ l.train = false
          ∧ l.state ∈ [.awaitTone, .dialling, .awaitAnswer, .answered, .connected])
      ∧ (.settleTimerExpiry n l.inputs.loop ∈ p.due ↔ l.settle = some 0)
      ∧ (.ringEndTimerExpiry n ∈ p.due ↔ l.ringEnd = some 0)
      ∧ (.dialToneWaitExpiry n ∈ p.due ↔ l.stateTimer = some 0 ∧ l.state = .awaitTone)
      ∧ (.answerWaitExpiry n ∈ p.due ↔ l.stateTimer = some 0 ∧ l.state = .awaitAnswer)
      ∧ (.guardExpiry n ∈ p.due ↔ l.stateTimer = some 0 ∧ l.state = .releasing)
      ∧ (.pauseExpiry n ∈ p.due ↔ l.stateTimer = some 0 ∧ l.state = .dialling ∧ l.phase = .pause)
      ∧ (.toneOnExpiry n ∈ p.due ↔ l.phaseTimer = some 0 ∧ l.phase = .toneOn)
      ∧ (.toneOffExpiry n ∈ p.due ↔ l.phaseTimer = some 0 ∧ l.phase = .toneOff)
      ∧ (.pulseBreakEnd n ∈ p.due ↔ l.phaseTimer = some 0 ∧ ∃ k, l.phase = .breaking k)
      ∧ (.pulseMakeEnd n ∈ p.due ↔ l.phaseTimer = some 0 ∧ ∃ k, l.phase = .making k)
      ∧ (.interDigitGapExpiry n ∈ p.due ↔ l.phaseTimer = some 0 ∧ l.phase = .gap)
      ∧ (.unitTimerExpiry n ∈ p.due ↔ (p.attempt n).unitTimer = some 0)
      ∧ ∀ c : Fin 5, .stallTimerExpiry c ∈ p.due ↔ ∃ r, (p.ren c).ring = some r ∧ r.stall = .running 0)

/-- HARDWARE_RESET completes in every state (03 R57, 02 R19, 05 R95, 06, 07 R140, 08, 09, 10 R186, R189): the blocks
take their reset values, posted writes are lost, the seven status words go out in the table's order, and memory keeps
every byte but those that the operation holding the port was writing (03 R49), a drain, a SLOT_WRITE, a BLOCK_WRITE or
a RECORD_WRITE of any kind. That the commands waiting and the levels on the line inputs stay is the model's choice
(log 2). -/
def Obligations.HardwareResetSetsTheResetState : Prop :=
  ∀ (straps : BitVec 12) (s : State), ∃ t : State, exec (.hardwareReset straps) s = .next t
    ∧ t.pending = s.pending
    ∧ (∀ a, a ∉ s.chip.writingBytes → memRead t.mem a = memRead s.mem a)
    ∧ (∀ a, a ∈ s.chip.writingBytes ↔
        let control := s.chip.path.strap * 8192
        match s.chip.mport.busy with
        | some .drain => ∃ e rest, s.chip.path.posted = e :: rest ∧ e.addr ≤ a ∧ a < e.addr + 4 * e.words.length
            ∧ (e.words.getD ((a - e.addr) / 4) ⟨0, 0⟩).enables.getLsbD ((a - e.addr) % 4) = true
        | some (.engine (.slotWrite _ _ b tag pels _ _ _ _ _)) =>
            (∃ bits, pels = some bits ∧ b ≤ a ∧ a < b + bits.length / 8) ∨ tag ≤ a ∧ a < tag + 4
        | some (.engine (.blockWrite _ _ b _)) => b ≤ a ∧ a < b + 1024
        | some (.record (.word w)) => control + w.place ≤ a ∧ a < control + w.place + 4
        | some (.record (.notice k _)) => control + 0x1000 + 16 * k ≤ a ∧ a < control + 0x1000 + 16 * k + 16
        | some (.record (.noticeProducer _)) => control + 0x1808 ≤ a ∧ a < control + 0x1808 + 4
        | some (.record (.logEntry b bytes)) => b ≤ a ∧ a < b + bytes.length
        | some (.record (.reportRecord b bytes)) => ∃ i, i < bytes.length ∧
            (b + i < 2 ^ 32 ∧ a = b + i
              ∨ 2 ^ 32 ≤ b + i ∧ ∃ v, Config.pastPlace s.chip.freeIndex (b + i) = some v ∧ a = v.toNat)
        | _ => False)
    ∧ t.chip.path = ⟨straps.toNat, Vector.replicate 12 none, Vector.replicate 16 true, [], none, none⟩
    ∧ t.chip.mport = ⟨none, [.word .consumer, .noticeProducer 0, .word .lost, .word .freeBlocks, .word .clock,
        .word .lineStates, .word .logNext], Vector.replicate 4 [], [], [], .threeOne, .through, 0, 3⟩
    ∧ (∀ c, c < 5 → (t.chip.ing c).stateCode = 0 ∧ (t.chip.ing c).poorLimit = 8 ∧ (t.chip.ing c).ring = none
        ∧ (t.chip.ing c).pendingLost = 0 ∧ (t.chip.ing c).strays = 0
        ∧ (t.chip.ing c).phase = .idle ∧ (t.chip.ing c).doc = none ∧ (t.chip.ing c).page = none
        ∧ (t.chip.ing c).coder = none ∧ (t.chip.ing c).stop = none ∧ (t.chip.ing c).tasks = []
        ∧ (t.chip.ing c).lineTotal = 0 ∧ (t.chip.ing c).badRun = 0 ∧ (t.chip.ing c).blockWrite = false
        ∧ (t.chip.ing c).reading = false
        ∧ (t.chip.ren c).state = .idle ∧ (t.chip.ren c).ring = none)
    ∧ t.chip.print.stallSeconds = 10 ∧ t.chip.print.queue = [] ∧ t.chip.print.setup = none
    ∧ (∀ j, j < 16 → (t.chip.job j).st = .free)
    ∧ t.chip.store.configured = false ∧ t.chip.store.pool = [] ∧ t.chip.store.reserve = 0 ∧ t.chip.store.lowMark = 0
    ∧ (∀ r, r < 1024 → (t.chip.pageRec r).st = .free)
    ∧ (∀ d, d < 64 → (t.chip.doc d).st = .free ∧ (t.chip.doc d).holds = 0)
    ∧ (∀ n, n < 4 → t.chip.line n = { Line.reset with inputs := (s.chip.line n).inputs }
        ∧ (t.chip.line n).state = .idle ∧ (t.chip.line n).hook = false ∧ (t.chip.line n).toneOn = false
        ∧ (t.chip.line n).digit = 0)
    ∧ (∀ i, i < 32 → (t.chip.callRec i).st = .free)
    ∧ t.chip.calls.schedule = 0 ∧ t.chip.calls.acceptance = 0 ∧ t.chip.calls.lfsr = 1 ∧ t.chip.calls.limit = 3
    ∧ t.chip.charge.day = 0 ∧ t.chip.charge.second = 0 ∧ t.chip.charge.tick = 0 ∧ t.chip.charge.holiday = false
    ∧ t.chip.charge.tariff = Tariff.null ∧ t.chip.charge.load = none
    ∧ t.chip.charge.logSeq = 0 ∧ t.chip.charge.log = none
    ∧ (∀ n, n < 4 → (t.chip.attempt n).opened = false ∧ (t.chip.attempt n).unitTimer = none)
    ∧ (∀ d, d < 64 → t.chip.account d = ⟨0, 0, false, 0, 0, 0⟩)
    ∧ t.chip.req = ⟨0, 0, false, none, none⟩
    ∧ t.chip.notices.pn = 0 ∧ t.chip.notices.pd = 0 ∧ t.chip.notices.cn = 0 ∧ t.chip.notices.lost = 0
    ∧ t.chip.notices.routes = Vector.replicate 7 .int0
    ∧ t.chip.intAsserted .int0 = false ∧ t.chip.intAsserted .int1 = false

/-- WARM_RESTART keeps the configuration, and completes (10 R185; 03 R57, 02 R19, 08 R150, R153, 09, 10 R186): a
second one while one runs is refused BUSY; with every ingest context at rest or already stopping DONE comes at once
(that it waits for none stopped by a line's release: log 44); each line in use is released with cause RESTART, a
RELEASING line goes on, and a RINGING one returns to IDLE without a direction, where a later release's arbiter pass
may seize it (07 R141; the order: log 19). PRINT stops, each ACTIVE or FINISHING job ends with PRINT_DONE and RESTART,
its hold if it has one released, and is FREE, the other QUEUED jobs stay, and the head one is taken (06 R111). The
render rings of PRINT and of the lines CONNECTED TX are reset: READY slots EMPTY, WRITING ones void, position 0, timer
STOPPED (04 R73, 06 R117). -/
def Obligations.WarmRestartKeepsTheConfiguration : Prop :=
  (∀ (p : Chip) (j : Nat), j < 16 →
    let x := p.job j
    ∃ q : Chip, ({ p with print := { p.print with jobs := tset p.print.jobs j { x with restart := true } } } : Chip).Told q
        (.printDone j x.doc x.pagesOut x.cancelled x.short x.corrupt true)
      ∧ p.endJob j = if x.st = .active ∨ x.deferred = true then q.releaseHold x.doc else q)
  ∧ (∀ p : Chip, ∃ ended : List Nat, ended.Pairwise (· < ·)
      ∧ (∀ j, j ∈ ended ↔ j < 16 ∧ ((p.job j).st = .active ∨ (p.job j).st = .finishing))
      ∧ let q := ended.foldl Chip.endJob (p.stopRender 0)
        ∃ jobs : Vector Job 16, (∀ j, j < 16 → tget jobs j = if j ∈ ended then Job.free else q.job j)
          ∧ p.restartPrint = Chip.advance (Chip.printTake { q with print := { q.print with jobs := jobs } }) 0)
  ∧ ∀ (tag : Half) (s : State), s.served (.warmRestart tag) = true →
    ∃ p t : Chip, exec (.warmRestart tag) s = .next { s with chip := t } ∧ p.Ended t
      ∧ (s.chip.req.restart.isSome = true → s.chip.freePort.Told p (.done tag.toNat 30 .busy 0))
      ∧ (s.chip.req.restart = none →
        ((∀ c, c < 5 → (s.chip.ing c).phase = .idle ∨ (s.chip.ing c).stop.isSome = true) →
          ∃ q : Chip, q.Told p (.done tag.toNat 30 .ok 0))
        ∧ (∀ n, n < 4 → (s.chip.line n).state ∉ [.idle, .ringing, .releasing] →
            t.line n = { (s.chip.line n).letGo .restart with bursts := 0 })
        ∧ (∀ n, n < 4 → (s.chip.line n).state = .releasing → t.line n = { s.chip.line n with bursts := 0 })
        ∧ (∀ n, n < 4 → (s.chip.line n).state = .ringing →
          let idle : Line := { (s.chip.line n).quiet with state := .idle, bursts := 0, ringEnd := none }
          (t.line n = idle ∨ ∃ i dial, i < 32 ∧ t.line n = { idle.hooked true with
              call := some i, dir := .outward, dial := dial, pos := 0, state := .seizing })
          ∧ ((∀ m, m < 4 → (s.chip.line m).dir ≠ .outward) → t.line n = idle))
        ∧ ((∀ c, c < 5 → (s.chip.ing c).phase = .idle) →
          let inProgress (j : Nat) : Prop := (s.chip.job j).st = .active ∨ (s.chip.job j).st = .finishing
          let reset (x : RenderCtx) : RenderCtx := { RenderCtx.reset with
            reading := x.reading, readDead := x.reading
            ring := x.ring.map fun r => { r with
              slots := r.slots.map fun y => match y.st with
                | .empty => y
                | .writing => { y with void := true }
                | .ready => ⟨.empty, false, ⟨false, false, false, false⟩, 0⟩
              next := 0, stall := .stopped } }
          (∀ j, j < 16 → s.chip.print.queue.head? ≠ some j →
            (inProgress j → t.job j = Job.free) ∧ (¬ inProgress j → t.job j = s.chip.job j))
          ∧ t.print.queue = s.chip.print.queue.drop 1
          ∧ (s.chip.print.queue = [] → t.ren 0 = { reset (s.chip.ren 0) with target := (s.chip.ren 0).target })
          ∧ ∀ n, n < 4 → (s.chip.line n).state = .connected → (s.chip.line n).conn = .tx →
            t.ren (n + 1) = reset (s.chip.ren (n + 1))))
      ∧ t.path.strap = s.chip.path.strap ∧ t.path.apertures = s.chip.path.apertures
      ∧ t.path.ordered = s.chip.path.ordered ∧ t.path.posted = s.chip.path.posted
      ∧ t.mport.share = s.chip.mport.share ∧ t.mport.turn = s.chip.mport.turn
      ∧ t.mport.turnCount = s.chip.mport.turnCount ∧ t.mport.lastLine = s.chip.mport.lastLine
      ∧ (∀ n, n < 4 → (t.line n).cfg = (s.chip.line n).cfg)
      ∧ t.store.configured = s.chip.store.configured ∧ t.store.base = s.chip.store.base
      ∧ t.store.blocks = s.chip.store.blocks ∧ t.store.reserve = s.chip.store.reserve
      ∧ t.store.lowMark = s.chip.store.lowMark
      ∧ t.calls.limit = s.chip.calls.limit ∧ t.calls.schedule = s.chip.calls.schedule
      ∧ t.charge.day = s.chip.charge.day ∧ t.charge.second = s.chip.charge.second
      ∧ t.charge.holiday = s.chip.charge.holiday ∧ t.charge.tariff = s.chip.charge.tariff
      ∧ t.req.producer = s.chip.req.producer ∧ t.notices.cn = s.chip.notices.cn
      ∧ t.notices.routes = s.chip.notices.routes

/-! ## The S-port and the posting queue -/

/-- A malformed transaction of either direction is answered FAULT, with PROTECT_FAULT of cause FORM (03 R39, R42). Writes
to a part-owned word, to the configured page store and to a render ring are answered FAULT with their cause, and
change nothing else (03 R40 to R43). While a read is held the S-port takes no other transaction (03 R38; log 28: the
command then leaves the machine as it is). -/
def Obligations.RefusedTransactionsFault : Prop :=
  (∀ (t : Transaction) (s : State), s.chip.path.held = none →
     (t.addr.toNat % 4 ≠ 0 ∨ 64 < t.addr.toNat % 64 + 4 * t.words.length) →
     ∃ q : Chip, exec (.sportTransaction t) s = .next { s with chip := q }
       ∧ ({ s.chip with path := { s.chip.path with response := some .fault } } : Chip).Told q
           (.protectFault t.addr.toNat t.master .form))
  ∧ (∀ (t : Transaction) (s : State), s.chip.path.held = none → malformed t = false → t.dir = .write →
       let p := s.chip
       let a := t.addr.toNat
       let faulted : Chip := { p with path := { p.path with response := some .fault } }
       let inControl : Prop := p.path.strap * 8192 ≤ a ∧ a < p.path.strap * 8192 + 8192
       let inStore : Prop := p.store.configured = true ∧ p.store.base ≤ a ∧ a < p.store.base + p.store.blocks * 1024
       (∀ b w before after, inControl → wordsAt a t.words = before ++ (b, w) :: after →
           partOwned (b - p.path.strap * 8192) = true → w.enables ≠ 0 →
           (∀ x ∈ before, partOwned (x.1 - p.path.strap * 8192) = false ∨ x.2.enables = 0) →
           ∃ q : Chip, exec (.sportTransaction t) s = .next { s with chip := q }
             ∧ faulted.Told q (.protectFault b t.master .control))
       ∧ (¬ inControl → inStore →
           ∃ q : Chip, exec (.sportTransaction t) s = .next { s with chip := q }
             ∧ faulted.Told q (.protectFault a t.master .store))
       ∧ (∀ e ap, ¬ inControl → ¬ inStore → p.matchAperture a = some (e, ap) → ap.kind.renderCtx.isSome = true →
           (a - ap.base) / ap.slotSize < ap.slotCount →
           ∃ q : Chip, exec (.sportTransaction t) s = .next { s with chip := q }
             ∧ faulted.Told q (.protectFault a t.master .ring)))
  ∧ (∀ (t : Transaction) (s : State), s.chip.path.held.isSome = true → exec (.sportTransaction t) s = .next s)

/-- Plain traffic at the S-port. A plain write, or a write of host-owned words of the control area, becomes the newest
entry of the posting queue with its watch, or is answered RETRY when eight entries wait (03 R40, R47). A read that
passes as plain traffic, a read of an ingest-ring slot among them (R43), is held with its wait set: every posted entry
for an ordered master, the entries with a word address in common for another (R50, R51). -/
def Obligations.PlainTrafficIsPostedOrHeld : Prop :=
  (∀ (t : Transaction) (s : State), s.chip.path.held = none → malformed t = false → t.dir = .write →
    let p := s.chip
    let words := wordsAt t.addr.toNat t.words
    let touches (o : Nat) : Bool := words.any fun x => x.1 == p.path.strap * 8192 + o && x.2.enables != 0
    let watch : Watch :=
      if p.handling t.addr.toNat = .plain then .none
      else if touches 0x1800 then if touches 0x180C then .both else .producer
      else if touches 0x180C then .consumer else .none
    (p.handling t.addr.toNat = .plain ∨
      p.handling t.addr.toNat = .control ∧
        ∀ x ∈ words, partOwned (x.1 - p.path.strap * 8192) = false ∨ x.2.enables = 0) →
    exec (.sportTransaction t) s = .next { s with chip := { p with path :=
      if p.path.posted.length < 8 then
        { p.path with
          posted := p.path.posted ++ [⟨t.addr.toNat, t.words, t.master, watch⟩], response := some (.done []) }
      else { p.path with response := some .retry } } })
  ∧ (∀ (t : Transaction) (s : State), s.chip.path.held = none → malformed t = false → t.dir = .read →
    (s.chip.handling t.addr.toNat = .plain ∨ s.chip.handling t.addr.toNat = .control
      ∨ s.chip.handling t.addr.toNat = .store
      ∨ ∃ e c slot ap, s.chip.handling t.addr.toNat = .ingest e c slot ap) →
    ∃ waits : List Nat,
      exec (.sportTransaction t) s = .next { s with chip := { s.chip with path := { s.chip.path with
        held := some ⟨t.addr.toNat, t.words.length, t.master, none, waits,
          waits.isEmpty && !s.chip.path.posted.isEmpty⟩
        response := none } } }
      ∧ ∀ k, k ∈ waits ↔ ∃ e, s.chip.path.posted[k]? = some e ∧
          (tget s.chip.path.ordered t.master = true ∨
            e.addr < t.addr.toNat + 4 * t.words.length ∧ t.addr.toNat < e.addr + 4 * e.words.length))

/-- The ring logic's decisions at the S-port (03 R43, R47; 04 R63, R71): a write into an ingest slot under HOLD is
answered RETRY unless the slot is EMPTY with no completing write posted, every write when eight wait, and any other
write is posted with its slot; a read of a render slot is answered RETRY unless the slot is READY, and is then held
with its wait set (R50, R51). -/
def Obligations.RingSlotsHoldOffTraffic : Prop :=
  ∀ (t : Transaction) (s : State) (slot : Nat) (ap : Aperture), s.chip.path.held = none → malformed t = false →
    (∀ e c r, t.dir = .write → s.chip.handling t.addr.toNat = .ingest e c slot ap → (s.chip.ing c).ring = some r → c < 5 →
      (ap.overwrite = false ∧ ((r.slot slot).st ≠ .empty ∨ (r.slot slot).posted = true)
          ∨ 8 ≤ s.chip.path.posted.length →
        exec (.sportTransaction t) s =
          .next { s with chip := { s.chip with path := { s.chip.path with response := some .retry } } })
      ∧ (s.chip.path.posted.length < 8 →
        ap.overwrite = true ∨ (r.slot slot).st = .empty ∧ (r.slot slot).posted = false →
        ∃ q : Chip, exec (.sportTransaction t) s = .next { s with chip := q }
          ∧ q.path = { s.chip.path with
              posted := s.chip.path.posted ++ [⟨t.addr.toNat, t.words, t.master,
                .slot e c slot (coversTag false ap slot t.addr.toNat t.words)⟩]
              response := some (.done []) }
          ∧ (coversTag false ap slot t.addr.toNat t.words = false →
              q = { s.chip with path := q.path })
          ∧ (coversTag false ap slot t.addr.toNat t.words = true →
              q = { s.chip with path := q.path, ingest := tset s.chip.ingest c { s.chip.ing c with
                ring := some (r.setSlot slot { r.slot slot with posted := true }) } })))
    ∧ (∀ c r, t.dir = .read → s.chip.handling t.addr.toNat = .render c slot ap → (s.chip.ren c).ring = some r →
      ((r.slot slot).st ≠ .ready →
        exec (.sportTransaction t) s =
          .next { s with chip := { s.chip with path := { s.chip.path with response := some .retry } } })
      ∧ ((r.slot slot).st = .ready →
        ∃ waits : List Nat, exec (.sportTransaction t) s = .next { s with chip := { s.chip with path := { s.chip.path with
          held := some ⟨t.addr.toNat, t.words.length, t.master,
            some (c, slot, coversTag true ap slot t.addr.toNat t.words), waits,
            waits.isEmpty && !s.chip.path.posted.isEmpty⟩
          response := none } } }
        ∧ ∀ k, k ∈ waits ↔ ∃ e, s.chip.path.posted[k]? = some e ∧
          (tget s.chip.path.ordered t.master = true ∨
            e.addr < t.addr.toNat + 4 * t.words.length ∧ t.addr.toNat < e.addr + 4 * e.words.length)))

/-- A posted write acts at its drain: each enabled byte of its words is in memory and no other byte changed, the entry
has left the queue, and the port is free; a plain write does nothing else (03 R38, R47, R48). -/
def Obligations.DrainWritesTheEnabledBytes : Prop :=
  ∀ (s : State) (e : Posted) (rest : List Posted), s.MemoryCanonical → s.chip.mport.busy = some .drain →
    s.chip.path.posted = e :: rest →
    ∃ t : State, exec .postedWriteDrain s = .next t ∧ t.pending = s.pending
      ∧ (∀ a, memRead t.mem a = wordsOver (memRead s.mem) e.addr e.words a)
      ∧ t.chip.path.posted = rest ∧ t.chip.mport.busy = none
      ∧ (e.watch = .none → t.chip = { s.chip with
          mport := { s.chip.mport with busy := none }
          path := { s.chip.path with
            posted := rest
            held := s.chip.path.held.map fun r =>
              { r with waits := (r.waits.filter (0 < ·)).map (· - 1), behindDrain := false } } })

/-- The index words at their drain: the request unit takes the producer word (10 R181), the notice unit the consumer word
(R187), as ProducerTaken and ConsumerTaken say. Of a write that touches both, the request unit acts first: the model's
choice (log 40). -/
def Obligations.IndexWordsTakeEffectAtTheirDrain : Prop :=
  ∀ (s : State) (e : Posted) (rest : List Posted), s.chip.mport.busy = some .drain → s.chip.path.posted = e :: rest →
    let q := s.chip.freePort.dropOldest
    (∀ w, e.watch = .producer → s.chip.controlWord e.addr e.words 0x1800 = some w →
      ∃ t : State, exec .postedWriteDrain s = .next t ∧ t.pending = s.pending ∧ q.ProducerTaken t.chip w)
    ∧ (∀ w, e.watch = .consumer → s.chip.controlWord e.addr e.words 0x180C = some w →
      ∃ t : State, exec .postedWriteDrain s = .next t ∧ t.pending = s.pending ∧ q.ConsumerTaken t.chip w)
    ∧ (∀ w x, e.watch = .both → s.chip.controlWord e.addr e.words 0x1800 = some w →
      s.chip.controlWord e.addr e.words 0x180C = some x →
      ∃ (u : Chip) (t : State), exec .postedWriteDrain s = .next t ∧ t.pending = s.pending ∧ q.ProducerTaken u w
        ∧ u.ConsumerTaken t.chip x)

/-- The drain of a posted write into an ingest slot (04 R64; log 38): a completing write fills an EMPTY slot; over a
FILLED or unread CODING slot it clears the overrun mark, and over any slot that is not EMPTY one line is counted lost,
to the pending-lost count (R65) or, of an IDLE context, as a stray (R67); any other write sets the overrun mark of a
FILLED or unread CODING slot. The ring logic then serves its context. An IDLE one discards the FILLED slot at the
position: it is EMPTY with its marks cleared, the position and the stray count rise, and the next is looked at (R67);
one ready for a line issues the SLOT_READ of the FILLED slot at the position, which is CODING and unread (R66); else
nothing happens. -/
def Obligations.IngestSlotDrainActsOnTheRing : Prop :=
  (∀ (s : State) (e : Posted) (rest : List Posted) (entry c k : Nat) (completing : Bool) (r : IngestRing), c < 5 →
    s.chip.mport.busy = some .drain → s.chip.path.posted = e :: rest → e.watch = .slot entry c k completing →
    let q := s.chip.freePort.dropOldest
    let x := q.ing c
    x.ring = some r →
    let y := r.slot k
    let unread : Prop := y.st = .filled ∨ y.st = .coding ∧ y.readServed = false
    ∃ (y' : IngestSlot) (v : Chip) (t : State), exec .postedWriteDrain s = .next t ∧ t.pending = s.pending
      ∧ t.chip = v.serveRing c
      ∧ (completing = true → y.st = .empty → y' = { y with st := .filled, posted := false, overrun := false })
      ∧ (completing = true → unread → y' = { y with posted := false, overrun := false })
      ∧ (completing = true → y.st = .coding → y.readServed = true → y' = { y with posted := false })
      ∧ (completing = false → unread → y' = { y with overrun := true })
      ∧ (completing = false → ¬ unread → y' = y)
      ∧ (completing = false ∨ y.st = .empty → v = { q with
          ingest := tset q.ingest c { x with ring := some { r with slots := r.slots.set k y' } } })
      ∧ (completing = true → y.st ≠ .empty → x.phase ≠ .idle → v = { q with
          ingest := tset q.ingest c { x with
            pendingLost := min 255 (x.pendingLost + 1), ring := some { r with slots := r.slots.set k y' } } })
      ∧ (completing = true → y.st ≠ .empty → x.phase = .idle → v = { q with
          ingest := tset q.ingest c { x with
            strays := min 65535 (x.strays + 1), ring := some { r with slots := r.slots.set k y' } }
          mport := { q.mport with records :=
            if x.strays = 0 then withWord q.mport.records .lineStates else q.mport.records } }))
  ∧ (∀ (p : Chip) (c : Nat) (r : IngestRing), c < 5 → (p.ing c).ring = some r →
    let x := p.ing c
    let atRest : Prop := x.phase = .idle ∧ x.stop = none ∧ x.tasks = [] ∧ x.reading = false
    let ready : Prop := (x.phase = .ready ∨ x.phase = .page ∨ x.phase = .discard) ∧ x.stop = none ∧ x.tasks = []
      ∧ x.reading = false
    let a := r.base + r.next * r.slotSize
    (atRest → (r.slot r.next).st = .filled → p.serveRing c = Chip.serveRing { p with
        ingest := tset p.ingest c { x with
          strays := min 65535 (x.strays + 1)
          ring := some { r with
            slots := r.slots.set r.next ⟨.empty, false, false, false⟩, next := (r.next + 1) % r.slots.length } }
        mport := { p.mport with records :=
          if x.strays = 0 then withWord p.mport.records .lineStates else p.mport.records } } c)
    ∧ (ready → (r.slot r.next).st = .filled → p.serveRing c = { p with
        ingest := tset p.ingest c { x with
          reading := true
          ring := some { r with slots := r.slots.set r.next { r.slot r.next with st := .coding, readServed := false } } }
        mport := p.withIngestOp c (.slotRead c r.next a (a + r.slotSize - 4) x.width) })
    ∧ (¬ atRest ∧ ¬ ready ∨ (r.slot r.next).st ≠ .filled → p.serveRing c = p))

/-- A held read that memory serves is answered DONE with the words at its addresses, little-endian, and frees the S-port
and the M-port (03 R50, 00 5.2); a read of no render slot does nothing else. A completing read of a render slot as it is
served (04 R72, R74; 06 R109): a slot that is no longer READY is not consumed; a READY one is EMPTY, and the stall timer
runs anew at its full time while READY slots remain, or stops. An END_DOC slot of the print ring ends the lowest
FINISHING job with its sequence number: PRINT_DONE, a deferred hold released, the record FREE, and with no job ACTIVE or
FINISHING left the ring's READY slots are emptied and its timer stops. The context then goes on: its next SLOT_WRITE
follows if it waits on the slot (R70). -/
def Obligations.ServedReadReturnsMemoryAndConsumes : Prop :=
  (∀ (s : State) (r : HeldRead), s.chip.mport.busy = some .read → s.chip.path.held = some r →
    ∃ (q : Chip) (data : List Word), exec .throughReadServed s = .next { s with chip := q }
      ∧ data.length = r.words
      ∧ (∀ k i, k < r.words → i < 4 →
          (data.getD k 0).extractLsb' (8 * i) 8 = memRead s.mem (r.addr + 4 * k + i))
      ∧ (∀ x : Nat × Nat, r.slot = none ∨ r.slot = some (x.1, x.2, false) → q = { s.chip with
          path := { s.chip.path with held := none, response := some (.done data) }
          mport := { s.chip.mport with busy := none } })
      ∧ (∀ c k, r.slot = some (c, k, true) → q = Chip.consume { s.chip with
          path := { s.chip.path with held := none, response := some (.done data) }
          mport := { s.chip.mport with busy := none } } c k))
  ∧ (∀ (s : State) (h : HeldRead) (c k : Nat) (r : RenderRing), c < 5 → s.chip.mport.busy = some .read →
    s.chip.path.held = some h → h.slot = some (c, k, true) → (s.chip.ren c).ring = some r →
    let y := r.slot k
    let full := (if c = 0 then s.chip.print.stallSeconds else (s.chip.line (c - 1)).cfg.txStall) * 1024
    let slots := r.slots.set k ⟨.empty, false, ⟨false, false, false, false⟩, 0⟩
    ∃ (data : List Word) (t : Chip), exec .throughReadServed s = .next { s with chip := t }
      ∧ (let p : Chip := { s.chip with
          path := { s.chip.path with held := none, response := some (.done data) }
          mport := { s.chip.mport with busy := none } }
        let q : Chip := { p with render := tset p.render c { p.ren c with ring := some { r with
          slots := slots
          stall := if slots.any (fun x => x.st == .ready) = true then .running full else .stopped } } }
        let ends (j : Nat) : Prop := (p.job j).st = .finishing ∧ (p.job j).endSequence = y.sequence
        (y.st ≠ .ready → t = p)
        ∧ (y.st = .ready → c ≠ 0 ∨ y.markers.endDoc = false ∨ (∀ j, j < 16 → ¬ ends j) → t = q.advance c)
        ∧ (∀ j, y.st = .ready → c = 0 → y.markers.endDoc = true → j < 16 → ends j → (∀ i, i < j → ¬ ends i) →
          let x := p.job j
          ∃ u v w : Chip, q.Told u (.printDone j x.doc x.pagesOut x.cancelled x.short x.corrupt x.restart)
            ∧ v = (if x.deferred = true then u.releaseHold x.doc else u)
            ∧ w = { v with print := { v.print with jobs := tset v.print.jobs j Job.free } }
            ∧ ((∃ i, i < 16 ∧ ((w.job i).st = .active ∨ (w.job i).st = .finishing)) → t = w.advance 0)
            ∧ ((∀ i, i < 16 → (w.job i).st ≠ .active ∧ (w.job i).st ≠ .finishing) → t = Chip.advance { w with
                render := tset w.render 0 { w.ren 0 with ring := (w.ren 0).ring.map fun g => { g with
                  slots := g.slots.map fun x =>
                    if x.st = .ready then ⟨.empty, false, ⟨false, false, false, false⟩, 0⟩ else x
                  stall := .stopped } } } 0))))

/-! ## The memory arbiter -/

/-- One grant while both classes wait (03 R53): it goes to the class whose turn it is, whose count rises, and at the
turn length the turn passes with a count of 0. A grant while one class waits goes to it and leaves the turn state; a
port that is held makes none. The operation granted takes the port, an ENGINE one leaving its requester's queue. A
status word's, a notice's or a log entry's RECORD_WRITE, which no row of the table serves, is served when the next
ARBITER_GRANT comes, before that grant is made: the model's choice (log 11). -/
def Obligations.GrantsFollowTheTurn : Prop :=
  (∀ (s : State) (op : PortOp), s.chip.mport.busy = some op →
    (op.rowless = false → exec .arbiterGrant s = .next s)
    ∧ (op.rowless = true → s.MemoryCanonical → ∃ u, s.RowlessServed u ∧ exec .arbiterGrant s = exec .arbiterGrant u))
  ∧ (∀ s : State, s.chip.mport.busy = none →
    let p := s.chip
    let granted (op : PortOp) (m : MPort) : Prop :=
      exec .arbiterGrant s = .next { s with chip := { p with mport := { m with busy := some op } } }
    (p.throughWaiting = none → p.engineGrant = none → exec .arbiterGrant s = .next s)
    ∧ (∀ op, p.throughWaiting = some op → p.engineGrant = none → granted op p.mport)
    ∧ (∀ op m, p.throughWaiting = none → p.engineGrant = some (op, m) → granted op m)
    ∧ (∀ through engine m k, p.throughWaiting = some through → p.engineGrant = some (engine, m) →
      p.mport.turn = .through → (k = if p.mport.share = .threeOne then 3 else 1) →
      granted through { p.mport with
        turn := if p.mport.turnCount + 1 = k then .engine else .through
        turnCount := if p.mport.turnCount + 1 = k then 0 else p.mport.turnCount + 1 })
    ∧ (∀ through engine m k, p.throughWaiting = some through → p.engineGrant = some (engine, m) →
      p.mport.turn = .engine → (k = if p.mport.share = .oneThree then 3 else 1) →
      granted engine { m with
        turn := if p.mport.turnCount + 1 = k then .through else .engine
        turnCount := if p.mport.turnCount + 1 = k then 0 else p.mport.turnCount + 1 })
    ∧ (∀ op, p.throughWaiting = some op → op = .drain ∨ op = .read)
    ∧ (∀ op m, p.engineGrant = some (op, m) → m.turn = p.mport.turn ∧ m.turnCount = p.mport.turnCount
        ∧ m.share = p.mport.share ∧ ((∃ r, op = .record r) ∨ ∃ e, op = .engine e)))

/-- Within the ENGINE class RECORD comes first, then the lines round robin from the one after the line last granted, then
SCAN, then PRINT; each requester's operations go in issue order (03 R55). In the THROUGH class the request that began
waiting first is granted first (03 R50, R54): a read whose wait set has drained goes ahead of the drain unless that
drain waited before it; with a wait set left, the drain goes. -/
def Obligations.WaitingOperationsKeepTheirOrder : Prop :=
  (∀ p : Chip,
     (∀ op rest, p.mport.records = op :: rest →
       p.engineGrant = some (.record op, { p.mport with records := rest }))
     ∧ (∀ k op rest, p.mport.records = [] → 1 ≤ k → k ≤ 4 →
         tget p.mport.lineOps ((p.mport.lastLine + k) % 4) = op :: rest →
         (∀ j, 1 ≤ j → j < k → tget p.mport.lineOps ((p.mport.lastLine + j) % 4) = []) →
         p.engineGrant = some (.engine op, { p.mport with
           lineOps := tset p.mport.lineOps ((p.mport.lastLine + k) % 4) rest
           lastLine := (p.mport.lastLine + k) % 4 }))
     ∧ (∀ op rest, p.mport.records = [] → (∀ n, n < 4 → tget p.mport.lineOps n = []) → p.mport.scanOps = op :: rest →
         p.engineGrant = some (.engine op, { p.mport with scanOps := rest }))
     ∧ (∀ op rest, p.mport.records = [] → (∀ n, n < 4 → tget p.mport.lineOps n = []) → p.mport.scanOps = [] →
         p.mport.printOps = op :: rest → p.engineGrant = some (.engine op, { p.mport with printOps := rest })))
  ∧ (∀ p : Chip,
       (p.path.held = none → p.path.posted = [] → p.throughWaiting = none)
       ∧ (∀ e rest, p.path.held = none → p.path.posted = e :: rest → p.throughWaiting = some .drain)
       ∧ (∀ r e rest, p.path.held = some r → r.waits ≠ [] → p.path.posted = e :: rest → p.throughWaiting = some .drain)
       ∧ (∀ r, p.path.held = some r → r.waits = [] → (p.path.posted = [] ∨ r.behindDrain = false) →
           p.throughWaiting = some .read)
       ∧ (∀ r e rest, p.path.held = some r → r.waits = [] → p.path.posted = e :: rest → r.behindDrain = true →
           p.throughWaiting = some .drain))

/-- A RECORD_WRITE that no row serves and that holds the port is served before the next grant, or on an empty queue:
the model's choice (log 11). Its bytes are then in memory, no other byte changed and the port free: a status word,
little-endian, at its place with the value it has then (10 R189, 11.3), a notice's 16 bytes at its ring position (10
R186, 11.6), a log entry at its address (09 R179). A notice's record holds its kind, its class and its fields, 0
elsewhere (11 R191). The notice producer word's write completes: the word is in memory, Pd takes the count it carried,
and the port is free (10 R186). INTn is asserted just while a position among the delivered, unconsumed counts holds a
notice of a class routed to n; with every delivered notice consumed both outputs are clear (R188). -/
def Obligations.StatusWordsAndInterruptsFollowTheState : Prop :=
  (∀ (s : State) (base : Nat) (bytes : List Byte), s.MemoryCanonical →
     (∃ w, s.chip.mport.busy = some (.record (.word w)) ∧ base = s.chip.path.strap * 8192 + (match w with
           | .consumer => 0x1804 | .lost => 0x1810 | .freeBlocks => 0x1814 | .clock => 0x1818
           | .lineStates => 0x181C | .logNext => 0x1820)
         ∧ bytes = leBytes 4 (match w with
           | .consumer => s.chip.req.consumer | .lost => s.chip.notices.lost
           | .freeBlocks => s.chip.store.pool.length
           | .clock => s.chip.charge.day * 16777216 + s.chip.charge.second
           | .lineStates => s.chip.lineStatesWord | .logNext => s.chip.charge.logSeq))
       ∨ (∃ k n, s.chip.mport.busy = some (.record (.notice k n)) ∧ base = s.chip.path.strap * 8192 + 0x1000 + 16 * k
         ∧ bytes = n.bytes)
       ∨ s.chip.mport.busy = some (.record (.logEntry base bytes)) →
     ∃ m : List Host.Cell,
       (let u : State := { s with mem := m, chip := { s.chip with mport := { s.chip.mport with busy := none } } }
        (s.pending = [] → step s = .next u)
        ∧ exec .arbiterGrant s = exec .arbiterGrant u)
       ∧ ∀ a, memRead m a = bytesOver (memRead s.mem) base bytes a)
  ∧ (∀ n : Notice, HoldsFields n.bytes 16 ((0, 1, n.fields.1) :: (1, 1, n.cls.code) :: n.fields.2))
  ∧ (∀ (s : State) (v : Nat), s.MemoryCanonical → s.chip.mport.busy = some (.record (.noticeProducer v)) →
       ∃ m : List Host.Cell, exec .noticeProducerWriteComplete s = .next { s with mem := m, chip := { s.chip with
           mport := { s.chip.mport with busy := none }, notices := { s.chip.notices with pd := v } } }
         ∧ ∀ a, memRead m a = bytesOver (memRead s.mem) (s.chip.path.strap * 8192 + 0x1808) (leBytes 4 v) a)
  ∧ (∀ (p : Chip) (t : Target),
     (p.intAsserted t = true ↔
       (p.notices.pd + 65536 - p.notices.cn) % 65536 ≤ (p.notices.pn + 65536 - p.notices.cn) % 65536 ∧
       ∃ i, i < (p.notices.pd + 65536 - p.notices.cn) % 65536 ∧
         tget p.notices.routes (tget p.notices.classes ((p.notices.cn + i) % 128)).code = t)
     ∧ (p.notices.pd = p.notices.cn → p.intAsserted t = false))

/-! ## Requests at large -/

/-- A record whose kind is none of those listed is answered BAD_KIND with value 0 and has no other effect (10 R182). A
request whose fields alone are out of range is answered BAD_FIELD and has no effect beyond its DONE (the ranges of 02
R17, R35, 03 R44, R46, R51, R56, 05 R77, R83, R92, 06 R104, R106, R110, R114, 07 R133, R135, R139, 08 R144, R150,
R154, R157, 09 R161, R162, R164, R175, R176, R179, 10 R184, R188, as fieldsRefused writes them out; those of LINE_SET
and CALL stand in LineRequestsActOnTheLine and CallFillsALowestRecord). A request command whose record is not the one
that memory has just served leaves the machine as it is (log 9). -/
def Obligations.RefusedRequestsHaveNoEffect : Prop :=
  (∀ (tag kind : Half) (s : State), s.served (.unknownKind tag kind) = true →
     ∃ t : Chip, exec (.unknownKind tag kind) s = .next { s with chip := t }
       ∧ s.chip.freePort.AnsweredWith t (.done tag.toNat kind.toNat .badKind 0))
  ∧ (∀ (c : Instr) (s : State), requestCommand c = true → s.served c = false → exec c s = .next s)
  ∧ (∀ (c : Instr) (tag : Half) (kind : Nat) (s : State), fieldsRefused c = some (tag, kind) → s.served c = true →
     ∃ t : Chip, exec c s = .next { s with chip := t }
       ∧ s.chip.freePort.AnsweredWith t (.done tag.toNat kind .badField 0))

/-! ## Requests of the memory path and the notice unit -/

/-- The settings. SHARE_SET (03 R56): the setting is taken and the turn set to THROUGH with a count of 0. MASTER_SET
(03 R51): the master's ordering flag is set and nothing else of the part changes. ROUTE_SET (10 R188): the class takes
the target, at once, for the notices already in the ring too. OUTGOING_LIMIT (08 R150): the limit takes the value,
DONE carries it, and a limit above the old one then considers the arbiter (the order: log 20). SET_CLOCK (09 R161):
the clock takes day and second, the tick count 0, and the clock word goes out. HOLIDAY (09 R162): the override is set
or cleared, and the day type in force follows. LOG_SET (09 R179): the log region is set with its position at entry 0,
or the log is off at a count of 0; DONE's value is the log sequence counter; a count outside 16..4096, an address off
64 bytes, a region past 2^32 or one over the control area or a configured store is refused BAD_FIELD. -/
def Obligations.SettingsAreTaken : Prop :=
  (∀ (tag : Half) (setting : Byte) (s : State), s.served (.shareSet tag setting) = true →
     ∃ t : Chip, exec (.shareSet tag setting) s = .next { s with chip := t } ∧
       if setting.toNat ≤ 2 then
         ({ s.chip.freePort with mport := { s.chip.freePort.mport with
           share := if setting.toNat = 0 then .threeOne else if setting.toNat = 1 then .oneOne else .oneThree
           turn := .through, turnCount := 0 } } : Chip).AnsweredWith t (.done tag.toNat 4 .ok 0)
       else s.chip.freePort.AnsweredWith t (.done tag.toNat 4 .badField 0))
  ∧ (∀ (tag : Half) (master ordering : Byte) (s : State), s.served (.masterSet tag master ordering) = true →
     master.toNat ≤ 15 → ordering.toNat ≤ 1 →
     ∃ t : Chip, exec (.masterSet tag master ordering) s = .next { s with chip := t }
       ∧ ({ s.chip.freePort with path := { s.chip.path with
           ordered := tset s.chip.path.ordered master.toNat (decide (ordering.toNat = 0)) } } : Chip).AnsweredWith t
           (.done tag.toNat 3 .ok 0)
       ∧ ∀ m, m < 16 → tget t.path.ordered m =
           if m = master.toNat then decide (ordering.toNat = 0) else tget s.chip.path.ordered m)
  ∧ (∀ (tag : Half) (cls target : Byte) (s : State), s.served (.routeSet tag cls target) = true →
       cls.toNat ≤ 6 → target.toNat ≤ 2 →
       ∃ t : Chip, exec (.routeSet tag cls target) s = .next { s with chip := t }
         ∧ ({ s.chip.freePort with notices := { s.chip.notices with routes := (tset s.chip.notices.routes cls.toNat
             (if target.toNat = 0 then .none else if target.toNat = 1 then .int0 else .int1)) } } : Chip).AnsweredWith t
             (.done tag.toNat 5 .ok 0)
         ∧ ∀ c : NoticeClass, t.route c =
             if c.code = cls.toNat then (if target.toNat = 0 then .none else if target.toNat = 1 then .int0 else .int1)
             else s.chip.route c)
  ∧ (∀ (tag : Half) (limit : Byte) (s : State), s.served (.outgoingLimit tag limit) = true →
     ∃ t : Chip, exec (.outgoingLimit tag limit) s = .next { s with chip := t } ∧
       if 4 < limit.toNat then s.chip.freePort.AnsweredWith t (.done tag.toNat 20 .badField 0)
       else ∃ q : Chip,
         ({ s.chip.freePort with calls := { s.chip.calls with limit := limit.toNat } } : Chip).Told q
           (.done tag.toNat 20 .ok limit.toNat)
         ∧ (if s.chip.calls.limit < limit.toNat then q.arbiterPass else q).Ended t)
  ∧ (∀ (tag : Half) (second : Word) (day : Byte) (s : State), s.served (.setClock tag second day) = true →
     day.toNat ≤ 6 → second.toNat ≤ 86399 →
     ∃ t : Chip, exec (.setClock tag second day) s = .next { s with chip := t }
       ∧ ({ s.chip.freePort with
           charge := { s.chip.charge with day := day.toNat, second := second.toNat, tick := 0 }
           mport := { s.chip.freePort.mport with records := withWord s.chip.mport.records .clock } } : Chip).AnsweredWith t
           (.done tag.toNat 24 .ok 0))
  ∧ (∀ (tag : Half) (setting : Byte) (s : State), s.served (.holiday tag setting) = true → setting.toNat ≤ 1 →
       ∃ t : Chip, exec (.holiday tag setting) s = .next { s with chip := t }
         ∧ ({ s.chip.freePort with charge := { s.chip.charge with holiday := decide (setting.toNat = 1) } } :
             Chip).AnsweredWith t (.done tag.toNat 25 .ok 0)
         ∧ t.charge.dayType = if setting.toNat = 1 then 2 else s.chip.charge.tariff.dayMap.getD s.chip.charge.day 0)
  ∧ (∀ (tag : Half) (address : Word) (count : Half) (s : State), s.served (.logSet tag address count) = true →
       let p := s.chip.freePort
       (count.toNat = 0 ∨ 16 ≤ count.toNat ∧ count.toNat ≤ 4096 ∧ address.toNat % 64 = 0
         ∧ address.toNat + count.toNat * 64 ≤ 2 ^ 32 ∧ p.protectedOverlap address.toNat (count.toNat * 64) = false) →
       ∃ t : Chip, exec (.logSet tag address count) s = .next { s with chip := t }
         ∧ ({ p with charge := { p.charge with
             log := if count.toNat = 0 then none else some ⟨address.toNat, count.toNat, 0⟩ } } : Chip).AnsweredWith t
             (.done tag.toNat 29 .ok p.charge.logSeq))
  ∧ (∀ (tag : Half) (address : Word) (count : Half) (s : State), s.served (.logSet tag address count) = true →
       let p := s.chip.freePort
       let a := address.toNat
       let bytes := count.toNat * 64
       let control := p.path.strap * 8192
       count.toNat ≠ 0 →
       (count.toNat < 16 ∨ 4096 < count.toNat ∨ a % 64 ≠ 0 ∨ 2 ^ 32 < a + bytes
         ∨ (a < control + 8192 ∧ control < a + bytes)
         ∨ (p.store.configured = true ∧ a < p.store.base + p.store.blocks * 1024 ∧ p.store.base < a + bytes)) →
       ∃ t : Chip, exec (.logSet tag address count) s = .next { s with chip := t }
         ∧ p.AnsweredWith t (.done tag.toNat 29 .badField 0))

/-- APERTURE_CLEAR (03 R46): an entry with an active ring is refused STATE; otherwise the entry is disabled and nothing
else changes but by the ring it bound: an ingest context so bound has no ring, and the entry's posted writes are plain
(that the completing ones are is R46's, that the others are too is the model's: log 18); a render context so bound has
no ring, its SLOT_WRITEs that wait or hold the port touch no ring when they complete, and a held read of its slots
consumes nothing (log 18). -/
def Obligations.ApertureClearUnbinds : Prop :=
  ∀ (tag : Half) (entry : Byte) (s : State), s.served (.apertureClear tag entry) = true → entry.toNat ≤ 11 →
    let p := s.chip.freePort
    let e := entry.toNat
    let disabled : Vector (Option Aperture) 12 := tset p.path.apertures e none
    ∃ q t : Chip, exec (.apertureClear tag entry) s = .next { s with chip := t }
      ∧ (p.entryActive e = true → p.AnsweredWith t (.done tag.toNat 2 .state 0))
      ∧ (p.entryActive e = false → q.AnsweredWith t (.done tag.toNat 2 .ok 0)
        ∧ q.aperture e = none
        ∧ (p.aperture e = none → q = { p with path := { p.path with apertures := disabled } })
        ∧ (∀ x, p.aperture e = some x → x.kind = .through → q = { p with path := { p.path with apertures := disabled } })
        ∧ (∀ x c, p.aperture e = some x → x.kind.ingestCtx = some c → c < 5 → q = { p with
            ingest := tset p.ingest c { p.ing c with ring := none }
            path := { p.path with
              apertures := disabled
              posted := p.path.posted.map fun w => match w.watch with
                | .slot entry _ _ _ => if entry = e then { w with watch := .none } else w
                | _ => w } })
        ∧ (∀ x c, p.aperture e = some x → x.kind.ingestCtx = none → x.kind.renderCtx = some c → c < 5 →
          let freed (op : EngineOp) : EngineOp := match op with
            | .slotWrite b slot a ta pels m sequence pageEnd final orphan =>
              .slotWrite b slot a ta pels m sequence pageEnd final (orphan || b == c)
            | op => op
          q = { p with
            render := tset p.render c { p.ren c with ring := none }
            mport := { p.mport with
              busy := p.mport.busy.map fun o => match o with
                | .engine op => .engine (freed op)
                | o => o
              lineOps := p.mport.lineOps.map fun ops => ops.map freed
              scanOps := p.mport.scanOps.map freed, printOps := p.mport.printOps.map freed }
            path := { p.path with
              apertures := disabled
              held := p.path.held.map fun h =>
                if (h.slot.map (·.1)) = some c then { h with slot := none } else h } }))

/-- APERTURE_SET (03 R44, R45): the ranges of its fields and the kinds stand first, and an unknown kind or a field out
of range is refused BAD_FIELD; of fields that pass, with an active ring in the entry or on the context it is refused
STATE, with the context bound through another entry BUSY; otherwise the entry's old ring is unbound, the entry is
written and enabled, and a ring's context is bound with every slot EMPTY, its marks clear, its position at slot 0 and
its stall timer STOPPED. -/
def Obligations.ApertureSetWritesAndBinds : Prop :=
  (∀ (p : Chip) (k : ApKind) (entry logSize line base slotSize slotCount policy : Nat),
    let size := 4096 * 2 ^ logSize
    p.apertureFields entry line policy (newAperture k logSize base slotSize slotCount policy) = true ↔
      entry ≤ 11 ∧ logSize ≤ 12 ∧ base % size = 0
      ∧ (k ≠ .through → (slotSize = 128 ∨ slotSize = 256 ∨ slotSize = 512) ∧ 2 ≤ slotCount ∧ slotCount ≤ 64
          ∧ slotSize * slotCount ≤ size)
      ∧ (∀ n, k = .rxRing n ∨ k = .txRing n → line ≤ 3)
      ∧ (k = .scanRing ∨ (∃ n, k = .rxRing n) → policy ≤ 1)
      ∧ (p.path.strap * 8192 + 8192 ≤ base ∨ base + size ≤ p.path.strap * 8192))
  ∧ (∀ kind line : Nat, apertureKind kind line =
      if kind = 0 then some .through else if kind = 1 then some .scanRing else if kind = 2 then some (.rxRing line)
      else if kind = 3 then some .printRing else if kind = 4 then some (.txRing line) else none)
  ∧ (∀ (tag : Half) (entry kind logSize line : Byte) (base : Word) (slotSize : Half) (slotCount policy : Byte) (s : State),
    s.served (.apertureSet tag entry kind logSize line base slotSize slotCount policy) = true →
    let p := s.chip.freePort
    (∀ k, apertureKind kind.toNat line.toNat = some k → p.apertureFields entry.toNat line.toNat policy.toNat
      (newAperture k logSize.toNat base.toNat slotSize.toNat slotCount.toNat policy.toNat) = false) →
    ∃ t : Chip, exec (.apertureSet tag entry kind logSize line base slotSize slotCount policy) s = .next { s with chip := t }
      ∧ p.AnsweredWith t (.done tag.toNat 1 .badField 0))
  ∧ (∀ (tag : Half) (entry kind logSize line : Byte) (base : Word) (slotSize : Half) (slotCount policy : Byte) (s : State)
    (k : ApKind), s.served (.apertureSet tag entry kind logSize line base slotSize slotCount policy) = true →
    let p := s.chip.freePort
    let x := newAperture k logSize.toNat base.toNat slotSize.toNat slotCount.toNat policy.toNat
    apertureKind kind.toNat line.toNat = some k → p.apertureFields entry.toNat line.toNat policy.toNat x = true →
    let active : Bool := p.entryActive entry.toNat || p.kindActive k
    let elsewhere : Prop := ∃ e, p.boundEntry k = some e ∧ e ≠ entry.toNat
    let u := p.unbind entry.toNat
    ∃ q t : Chip,
      exec (.apertureSet tag entry kind logSize line base slotSize slotCount policy) s = .next { s with chip := t }
      ∧ (active = true → p.AnsweredWith t (.done tag.toNat 1 .state 0))
      ∧ (active = false → elsewhere → p.AnsweredWith t (.done tag.toNat 1 .busy 0))
      ∧ (active = false → ¬ elsewhere → q.AnsweredWith t (.done tag.toNat 1 .ok 0)
        ∧ q = { u with path := q.path, ingest := q.ingest, render := q.render }
        ∧ q.path = { u.path with apertures := tset u.path.apertures entry.toNat (some x) }
        ∧ (∀ c, q.ing c = if k.ingestCtx = some c ∧ c < 5 then { u.ing c with ring := some ⟨
              entry.toNat, base.toNat, slotSize.toNat, decide (policy.toNat = 1),
              List.replicate slotCount.toNat ⟨.empty, false, false, false⟩, 0⟩ } else u.ing c)
        ∧ (∀ c, q.ren c = if k.renderCtx = some c ∧ c < 5 then { u.ren c with ring := some ⟨
              entry.toNat, base.toNat, slotSize.toNat,
              List.replicate slotCount.toNat ⟨.empty, false, ⟨false, false, false, false⟩, 0⟩, 0, 0, false, .stopped⟩ }
            else u.ren c)))

/-! ## Requests of the charge unit and the call scheduler -/

/-- TARIFF_COMMIT (09 R164, R192): accepted, its first read of 64 bytes is issued and no DONE is sent yet; with a load
in progress it is refused BUSY. The reads of a tariff load (09 R164, R165): before the last the next read is issued;
at the last a valid image replaces the tariff in one step with DONE OK and the number of its prefixes, an invalid one
is refused BAD_FIELD and the tariff stays. A byte past the last address is free (log 13). What an image spells (R192,
11.7), and what a valid one is (R165), stand in full: its digits two to a byte, the earlier in bits 4..7. -/
def Obligations.TariffLoadReadsAndCommits : Prop :=
  (∀ (tag : Half) (address : Word) (s : State), s.served (.tariffCommit tag address) = true → address.toNat % 4 = 0 →
     let p := s.chip.freePort
     ∃ t : Chip, exec (.tariffCommit tag address) s = .next { s with chip := t }
       ∧ (p.charge.load.isSome = true → p.AnsweredWith t (.done tag.toNat 26 .busy 0))
       ∧ (p.charge.load = none → Chip.Ended { p with
           charge := { p.charge with load := some ⟨tag.toNat, address.toNat, []⟩ }
           mport := { p.mport with records := p.mport.records ++ [.tariffRead address.toNat 64] } } t))
  ∧ (∀ (s : State) (a n : Nat) (l : Load), s.chip.mport.busy = some (.record (.tariffRead a n)) →
       s.chip.charge.load = some l →
       let p := s.chip.freePort
       let p := if 2 ^ 32 < a + n then { p with freeIndex := p.freeIndex + 1 } else p
       ∃ (got : List Byte) (t : Chip), exec .tariffReadComplete s = .next { s with chip := t } ∧ got.length = n
         ∧ (∀ i, i < n → a + i < 2 ^ 32 → got.getD i 0 = memRead s.mem (a + i))
         ∧ (let bytes := l.bytes ++ got
         (bytes.length < 1016 → t = { p with
             charge := { p.charge with load := some { l with bytes := bytes } }
             mport := { p.mport with records := p.mport.records ++
               [.tariffRead (l.address + bytes.length) (min 64 (1016 - bytes.length))] } })
         ∧ (1016 ≤ bytes.length → imageValid bytes = true →
             Chip.Told { p with charge := { p.charge with load := none, tariff := imageTariff bytes } } t
               (.done l.tag 26 .ok (imageTariff bytes).prefixes.length))
         ∧ (1016 ≤ bytes.length → imageValid bytes = false →
             Chip.Told { p with charge := { p.charge with load := none } } t (.done l.tag 26 .badField 0))))
  ∧ (∀ m : List Byte,
       let bandAt (d j : Nat) := 16 + 24 * d + 4 * j
       let digits (i : Nat) := (unpackNibbles ((m.drop (90 + 8 * i)).take 6)).take (fieldAt m (88 + 8 * i) 1)
       imageTariff m = {
         dayMap := (List.range 7).map fun d => fieldAt m d 1
         bands := (List.range 3).map fun d => (List.range (min 6 (fieldAt m (8 + d) 1))).map fun j =>
           ⟨fieldAt m (bandAt d j) 2, fieldAt m (bandAt d j + 2) 1⟩
         prefixes := (List.range (min 48 (fieldAt m 11 1))).map fun i => ⟨digits i, fieldAt m (88 + 8 * i + 1) 1⟩
         defaultZone := fieldAt m 12 1
         setup := (List.range 16).map fun z => fieldAt m (472 + 2 * z) 2
         rates := (List.range 128).map fun k => ⟨fieldAt m (504 + 4 * k) 2, fieldAt m (504 + 4 * k + 2) 2⟩ }
       ∧ (imageValid m = true ↔
         (∀ d, d < 7 → fieldAt m d 1 ≤ 2)
         ∧ (∀ d, d < 3 → 1 ≤ fieldAt m (8 + d) 1 ∧ fieldAt m (8 + d) 1 ≤ 6 ∧ fieldAt m (bandAt d 0) 2 = 0
           ∧ (∀ j, j + 1 < fieldAt m (8 + d) 1 → fieldAt m (bandAt d j) 2 < fieldAt m (bandAt d (j + 1)) 2)
           ∧ ∀ j, j < fieldAt m (8 + d) 1 → fieldAt m (bandAt d j) 2 ≤ 1439 ∧ fieldAt m (bandAt d j + 2) 1 ≤ 7)
         ∧ fieldAt m 11 1 ≤ 48
         ∧ (∀ i, i < fieldAt m 11 1 → 1 ≤ fieldAt m (88 + 8 * i) 1 ∧ fieldAt m (88 + 8 * i) 1 ≤ 12
           ∧ fieldAt m (88 + 8 * i + 1) 1 ≤ 15 ∧ ∀ x ∈ digits i, x ≤ 9)
         ∧ (∀ i j, i < j → j < fieldAt m 11 1 → digits i ≠ digits j)
         ∧ fieldAt m 12 1 ≤ 15
         ∧ ∀ k, k < 128 → 1 ≤ fieldAt m (504 + 4 * k) 2 ∧ fieldAt m (504 + 4 * k) 2 ≤ 3600))

/-- ACCOUNT_SET (09 R175): the limit is taken and the state evaluated afresh, with neither the total nor a count
changed; a desk that changes from BLOCKED to OPEN considers the arbiter; DONE's value is the state after.
ACCOUNT_CLEAR (09 R176): total and counts return to 0, the limit stays and the desk is OPEN; a desk that was BLOCKED
considers the arbiter; DONE's value is the total before. A posting (R171, R173) adds its charge to the desk's total,
the attempt's billed charge and the call's charge, saturating; a desk that is OPEN at its limit is BLOCKED, and
BUDGET_REACHED follows with the total and the limit. -/
def Obligations.AccountRequestsKeepTheLedger : Prop :=
  (∀ (tag : Half) (desk : Byte) (limit : Word) (s : State), s.served (.accountSet tag desk limit) = true →
     let p := s.chip.freePort
     let a := p.account desk.toNat
     let blocked : Bool := decide (limit.toNat ≠ 0 ∧ limit.toNat ≤ a.total)
     let q : Chip := { p with charge := { p.charge with
       accounts := tset p.charge.accounts desk.toNat { a with limit := limit.toNat, blocked := blocked } } }
     ∃ t : Chip, exec (.accountSet tag desk limit) s = .next { s with chip := t } ∧
       if 63 < desk.toNat then p.AnsweredWith t (.done tag.toNat 27 .badField 0)
       else (if a.blocked = true ∧ blocked = false then q.arbiterPass else q).AnsweredWith t
         (.done tag.toNat 27 .ok blocked.toNat))
  ∧ (∀ (tag : Half) (desk : Byte) (s : State), s.served (.accountClear tag desk) = true → desk.toNat ≤ 63 →
       let p := s.chip.freePort
       let a := p.account desk.toNat
       let q : Chip := { p with charge := { p.charge with
         accounts := tset p.charge.accounts desk.toNat ⟨0, a.limit, false, 0, 0, 0⟩ } }
       ∃ t : Chip, exec (.accountClear tag desk) s = .next { s with chip := t }
         ∧ (if a.blocked = true then q.arbiterPass else q).AnsweredWith t (.done tag.toNat 28 .ok a.total))
  ∧ (∀ (p : Chip) (n amount : Nat), p.Posted (p.post n amount) n amount)

/-- SEED (08 R154): the LFSR takes the value, 0 being taken as 1, and no ready time changes; above 1023 it is refused;
the next retry advances the LFSR from the new state. -/
def Obligations.SeedSetsTheLfsr : Prop :=
  ∀ (tag : Half) (value : Half) (s : State), s.served (.seed tag value) = true →
    ∃ t : Chip, exec (.seed tag value) s = .next { s with chip := t } ∧
      if 1023 < value.toNat then s.chip.freePort.AnsweredWith t (.done tag.toNat 23 .badField 0)
      else
        let v := if value.toNat = 0 then 1 else value.toNat
        ({ s.chip.freePort with calls := { s.chip.calls with lfsr := v } } : Chip).AnsweredWith t
          (.done tag.toNat 23 .ok v)
        ∧ (∀ i, (t.callRec i).ready = (s.chip.callRec i).ready)
        ∧ ∀ i, (t.retryCall i).calls.lfsr = lfsrNext v

/-! ## Completions of the engines -/

/-- A SLOT_READ served (04 R65, R66, 05 R79, 11.4): the slot is read served, the context takes the pending-lost count
whole and, by its state and the tag's four markers, has the page open, the lost lines, the slot's line (the pels
memory holds, or a replacement for a bad one) and the markers to act on, in this order, before anything that waited;
it goes on with them at once. -/
def Obligations.SlotReadStartsTheCodingStep : Prop :=
  ∀ (s : State) (c slot a ta w : Nat) (r : IngestRing), c < 5 →
    s.chip.mport.busy = some (.engine (.slotRead c slot a ta w)) → (s.chip.ing c).ring = some r →
    let x := s.chip.ing c
    let tag (i : Nat) : Bool := (memRead s.mem ta).getLsbD i
    let bad : Bool := tag 1 || (r.slot slot).overrun
    ∃ pels : List Bool, exec .slotReadComplete s = .next { s with chip := (Chip.runIngest { s.chip.freePort with
        ingest := tset s.chip.ingest c { x with
          reading := false, pendingLost := 0
          ring := some (r.setSlot slot { r.slot slot with readServed := true })
          tasks := (if x.phase = .ready ∧ tag 0 = true then [.openPage] else []) ++ [.lost x.pendingLost]
            ++ (if tag 0 = true then [.line (if bad then none else some pels)] else [])
            ++ [.marks (tag 2) (tag 3), .endStep] ++ x.tasks } } c) }
      ∧ pels.length = 8 * (w / 8)
      ∧ ∀ i, i < pels.length → pels.getD i false = (memRead s.mem (a + i / 8)).getLsbD (7 - i % 8)

/-- The tasks that runIngest carries out one by one, then the ring logic (05 R79; after a stop's DONE: log 42; 4096
tasks at most in one step: log 32). The page open (R80, 02 R25, R27): 255 pages, no FREE record, no free block or the
receive reserve refuse it in this order with STORE_FULL, the document is INCOMPLETE and the context DISCARD; else the
lowest FREE record opens with the lowest free block, the free-blocks word going out before STORE_LOW (that order: log
37), joins the document's list, and the context is in PAGE with a fresh coder. The lost lines are handed in one by one,
then the slot's line (R81); in a state other than PAGE each is thrown away as a stray (R87). The markers act by the
context's state (R88), a close coming after the end of the coding step, which empties the slot and moves the position on
(04 R66). -/
def Obligations.TasksOpenPagesAndActOnMarkers : Prop :=
  (∀ (p : Chip) (c : Nat), p.runIngest c = (Chip.runTasks c 4096 p).serveRing c
    ∧ ∀ k, Chip.runTasks c (k + 1) p = match p.runTask c with
      | none => p
      | some q => Chip.runTasks c k q)
  ∧ (∀ (p : Chip) (c d : Nat) (rest : List Task), c < 5 → d < 64 → (p.ing c).tasks = .openPage :: rest →
    (p.ing c).doc = some d →
    let x := p.ing c
    let y := p.doc d
    let n := y.pages.length + 1
    let q : Chip := { p with ingest := tset p.ingest c { x with tasks := rest } }
    let refused (cause : StoreCause) (t : Chip) : Prop := ∃ u, q.Told u (.storeFull c d n cause) ∧ t = { u with
      store := { u.store with docs := tset u.store.docs d { y with incomplete := true } }
      ingest := tset u.ingest c { x with phase := .discard, tasks := rest } }
    let noRecord : Prop := ∀ r, r < 1024 → (p.pageRec r).st ≠ .free
    let reserved : Prop := y.origin = 0 ∧ p.store.pool.length ≤ p.store.reserve
    ∃ t : Chip, p.runTask c = some t
      ∧ (255 ≤ y.pages.length → refused .pages t)
      ∧ (y.pages.length < 255 → noRecord → refused .records t)
      ∧ (y.pages.length < 255 → ¬ noRecord → p.store.pool = [] → refused .blocks t)
      ∧ (y.pages.length < 255 → ¬ noRecord → p.store.pool ≠ [] → reserved → refused .reserve t)
      ∧ (∀ r b more, y.pages.length < 255 → r < 1024 → (p.pageRec r).st = .free →
        (∀ i, i < r → (p.pageRec i).st ≠ .free) → p.store.pool = b :: more → ¬ reserved →
        ∃ u : Chip,
          (let v : Chip := { q with
            store := { q.store with pool := more }
            mport := { q.mport with records := withWord q.mport.records .freeBlocks } }
           (more.length ≠ p.store.lowMark → u = v)
            ∧ (more.length = p.store.lowMark → v.Told u (.storeLow more.length p.store.lowMark)))
          ∧ t = { u with
            store := { u.store with
              pages := tset u.store.pages r { PageRecord.free with
                st := .opened, doc := d, number := n, width := x.width, res := x.res, chain := [b] }
              docs := tset u.store.docs d { y with pages := y.pages ++ [r] } }
            ingest := tset u.ingest c { x with
              phase := .page, page := some r, coder := some (Coder.start x.width), lineTotal := 0, badRun := 0
              tasks := rest } }))
  ∧ (∀ (p : Chip) (c k : Nat) (pels : Option (List Bool)) (rest : List Task), c < 5 →
    let x := p.ing c
    (x.tasks = .lost 0 :: rest → p.runTask c = some { p with ingest := tset p.ingest c { x with tasks := rest } })
    ∧ (x.tasks = .lost (k + 1) :: rest → p.runTask c = some (p.giveLine c none (.lost k :: rest)))
    ∧ (x.tasks = .line pels :: rest → p.runTask c = some (p.giveLine c pels rest))
    ∧ (x.phase ≠ .page → p.giveLine c pels rest = { p with
        ingest := tset p.ingest c { x with strays := min 65535 (x.strays + 1), tasks := rest }
        mport := { p.mport with records :=
          if x.strays = 0 then withWord p.mport.records .lineStates else p.mport.records } }))
  ∧ (∀ (p : Chip) (c : Nat) (endPage endDoc : Bool) (more : List Task), c < 5 →
    let x := p.ing c
    x.tasks = .marks endPage endDoc :: .endStep :: more →
    let becomes (y : IngestCtx) : Prop := p.runTask c = some { p with ingest := tset p.ingest c y }
    let close (after : IngestPhase) : Prop := becomes { x with
      phase := .closing, afterClose := some after
      tasks := [.endStep, .emitRun, .lastWrite, .pageClosed, .afterClose] ++ more }
    let goesOn : Prop := becomes { x with tasks := .endStep :: more }
    let closesDoc : Prop := becomes { x with tasks := .docClose false :: .endStep :: more }
    (x.phase = .page → (endDoc = true → close .idle) ∧ (endDoc = false → endPage = true → close .ready)
      ∧ (endDoc = false → endPage = false → goesOn))
    ∧ (x.phase = .closing → (endDoc = true → close .idle) ∧ (endDoc = false → endPage = true → close .ready)
      ∧ (endDoc = false → endPage = false → close .discard))
    ∧ (x.phase = .discard → (endDoc = true → closesDoc)
      ∧ (endDoc = false → endPage = true → becomes { x with phase := .ready, tasks := .endStep :: more })
      ∧ (endDoc = false → endPage = false → goesOn))
    ∧ (x.phase = .ready → (endDoc = true → closesDoc) ∧ (endDoc = false → goesOn)))
  ∧ (∀ (p : Chip) (c : Nat) (r : IngestRing) (rest : List Task), c < 5 → (p.ing c).tasks = .endStep :: rest →
    (p.ing c).ring = some r → p.runTask c = some { p with ingest := tset p.ingest c { p.ing c with
      tasks := rest
      ring := some { r with
        slots := r.slots.set r.next ⟨.empty, false, (r.slot r.next).posted, false⟩
        next := (r.next + 1) % r.slots.length } } })

/-- A line that comes up in PAGE (05 R81, R82, R86): below the line limit a replacement is a copy of the reference
line, the damaged count and the bad run rise and the page is POOR when the run reaches the limit (log 26), a good line
ends the run, and either way the line total rises and the coder takes the line; at 16383 lines the line is not handed
in, the page is TRUNCATED and closes. -/
def Obligations.LineLimitTruncatesThePage : Prop :=
  ∀ (p : Chip) (c r : Nat) (k : Coder) (pels : Option (List Bool)) (rest : List Task), c < 5 → r < 1024 →
    (p.ing c).phase = .page → (p.ing c).page = some r → (p.ing c).coder = some k →
    let x := p.ing c
    let t := p.giveLine c pels rest
    (16383 ≤ x.lineTotal → t.pageRec r = { p.pageRec r with truncated := true } ∧ (t.ing c).phase = .closing
        ∧ (t.ing c).strays = min 65535 (x.strays + 1) ∧ (t.ing c).coder = some k ∧ (t.ing c).lineTotal = x.lineTotal)
    ∧ (x.lineTotal < 16383 → pels = none →
        t.pageRec r = { p.pageRec r with
          damaged := min 65535 ((p.pageRec r).damaged + 1)
          poor := (p.pageRec r).poor || decide (min 255 (x.badRun + 1) = x.poorLimit) }
        ∧ t.ing c = { x with
          lineTotal := x.lineTotal + 1, badRun := min 255 (x.badRun + 1), coder := some (k.take k.ref).1
          tasks := .place (k.take k.ref).2 :: rest })
    ∧ (∀ line, x.lineTotal < 16383 → pels = some line → t.pageRec r = p.pageRec r
        ∧ t.ing c = { x with
          lineTotal := x.lineTotal + 1, badRun := 0, coder := some (k.take line).1
          tasks := .place (k.take line).2 :: rest })

/-- How the codes of a line are placed (01 R10, R11; 05 R84, R85): one after the other, each bit by bit into the block
buffer of 8192 bits; a code whose last bit stands is placed, and with it the bit length, the lines and the reference
line. With a bit to place and the buffer full the context waits while a block write of its page is in flight; then the
next block is asked for. Granted, it joins the chain, the free-blocks word going out before STORE_LOW (that order: log
37), the buffer goes out to the block before it, and placing goes on in an empty buffer; refused, the page is TRUNCATED
and closes, the code's bits leave the buffer, and the line total counts the lines placed. -/
def Obligations.CodesFillTheBlocksOfThePage : Prop :=
  ∀ (p : Chip) (c : Nat) (k : Coder) (code : LineCode) (codes : List LineCode) (rest : List Task), c < 5 →
    (p.ing c).coder = some k →
    let x := p.ing c
    let becomes (y : IngestCtx) : Prop := p.runTask c = some { p with ingest := tset p.ingest c y }
    (x.tasks = .place [] :: rest → becomes { x with tasks := rest })
    ∧ (x.tasks = .place (code :: codes) :: rest →
        becomes { x with tasks := .placing k.buffer.length code.bits (code :: codes) :: rest })
    ∧ (∀ before, x.tasks = .placing before [] (code :: codes) :: rest → becomes { x with
        coder := some { k with
          bitLength := k.bitLength + code.bits.length, placed := k.placed + code.lines, ref := code.ref.getD k.ref }
        tasks := .place codes :: rest })
    ∧ (∀ before b bits, x.tasks = .placing before (b :: bits) (code :: codes) :: rest →
      (k.buffer.length < 8192 → becomes { x with
        coder := some { k with buffer := k.buffer ++ (b :: bits).take (8192 - k.buffer.length) }
        tasks := .placing before ((b :: bits).drop (8192 - k.buffer.length)) (code :: codes) :: rest })
      ∧ (k.buffer.length = 8192 → x.blockWrite = true → p.runTask c = none)
      ∧ (∀ r d, k.buffer.length = 8192 → x.blockWrite = false → x.page = some r → r < 1024 → x.doc = some d →
        let n := (p.pageRec r).number
        let reserved : Prop := (p.doc d).origin = 0 ∧ p.store.pool.length ≤ p.store.reserve
        let refused (cause : StoreCause) (t : Chip) : Prop := ∃ u, p.Told u (.storeFull c d n cause) ∧ t = { u with
          store := { u.store with pages := tset u.store.pages r { p.pageRec r with truncated := true } }
          ingest := tset u.ingest c { x with
            coder := some { k with buffer := k.buffer.take before, run := 0 }, lineTotal := k.placed, phase := .closing
            tasks := rest } }
        ∃ t : Chip, p.runTask c = some t
          ∧ (p.store.pool = [] → refused .blocks t)
          ∧ (p.store.pool ≠ [] → reserved → refused .reserve t)
          ∧ (∀ block more, p.store.pool = block :: more → ¬ reserved → ∃ u : Chip,
            (let v : Chip := { p with
              store := { p.store with pool := more }
              mport := { p.mport with records := withWord p.mport.records .freeBlocks } }
             (more.length ≠ p.store.lowMark → u = v)
              ∧ (more.length = p.store.lowMark → v.Told u (.storeLow more.length p.store.lowMark)))
            ∧ t = { u with
              mport := u.withIngestOp c
                (.blockWrite c r (p.store.base + (p.pageRec r).chain.getLastD 0 * 1024) k.buffer)
              store := { u.store with pages := tset u.store.pages r { p.pageRec r with
                chain := (p.pageRec r).chain ++ [block] } }
              ingest := tset u.ingest c { x with
                blockWrite := true, coder := some { k with buffer := [] }
                tasks := .placing 0 (b :: bits) (code :: codes) :: rest } })))

/-- How pages, documents and stops end. A page close (05 R89, R91): the open SAME run goes out; the block buffer, filled
up with 0 bits, is written once no block write is in flight; when it is in memory the page is CLOSED, its document's
waiting render contexts are signalled (what they do: WorkFetchesItsPage), and PAGE_STORED follows. A document close
(R90): COMPLETE, INCOMPLETE if by a stop, the signal, a received document counted to its desk, DOC_CLOSED, and the
context is IDLE, its line total and bad run 0 (those two: log 25). A stop (R92, R93; 10 R185): once the step's read is
served (log 15) it acts on the state it finds, in PAGE closing the page TRUNCATED or freeing it with its blocks once its
write has ended, then closing the document (INCOMPLETE from CLOSING too: log 16); its DONE, if it came from a request,
and a warm restart that waited for it end it. -/
def Obligations.PagesDocumentsAndStopsEnd : Prop :=
  (∀ (p : Chip) (c r : Nat) (k : Coder) (rest : List Task), c < 5 → r < 1024 → (p.ing c).page = some r →
    (p.ing c).coder = some k →
    let x := p.ing c
    let becomes (y : IngestCtx) : Prop := p.runTask c = some { p with ingest := tset p.ingest c y }
    (x.tasks = .emitRun :: rest → k.run = 0 → becomes { x with tasks := rest })
    ∧ (x.tasks = .emitRun :: rest → 0 < k.run → becomes { x with
        coder := some { k with run := 0 }, tasks := .place [⟨sameCode k.run, k.run, none⟩] :: rest })
    ∧ (x.tasks = .lastWrite :: rest ∨ x.tasks = .pageClosed :: rest → x.blockWrite = true → p.runTask c = none)
    ∧ (x.tasks = .lastWrite :: rest → x.blockWrite = false → ∃ bits : List Bool, bits.length = 8192
      ∧ (∀ i, i < 8192 → bits.getD i false = k.buffer.getD i false)
      ∧ p.runTask c = some { p with
        mport := p.withIngestOp c (.blockWrite c r (p.store.base + (p.pageRec r).chain.getLastD 0 * 1024) bits)
        ingest := tset p.ingest c { x with blockWrite := true, tasks := rest } })
    ∧ (x.tasks = .pageClosed :: rest → x.blockWrite = false →
      let q : Chip := { p with
        store := { p.store with pages := tset p.store.pages r { p.pageRec r with
          st := .closed, lines := k.placed, bitLength := k.bitLength } }
        ingest := tset p.ingest c { x with coder := none, page := none, tasks := rest } }
      let u := q.signal (p.pageRec r).doc
      let z := u.pageRec r
      ((∀ i, i < 5 → (p.ren i).state ≠ .waitPage) → u = q)
      ∧ ∃ t : Chip, p.runTask c = some t
        ∧ u.Told t (.pageStored c z.doc z.number z.truncated z.poor z.lines ((z.bitLength + 7) / 8) z.damaged)))
  ∧ (∀ (p : Chip) (c : Nat) (rest : List Task), c < 5 → (p.ing c).tasks = .afterClose :: rest →
    let x := p.ing c
    let becomes (y : IngestCtx) : Prop := p.runTask c = some { p with ingest := tset p.ingest c y }
    (x.stop.isSome = true → becomes { x with afterClose := none, tasks := rest })
    ∧ (x.stop = none → x.afterClose = some .idle → becomes { x with
        afterClose := none, tasks := .docClose false :: rest })
    ∧ (∀ ph, x.stop = none → x.afterClose = some ph → ph ≠ .idle → becomes { x with
        afterClose := none, phase := ph, tasks := rest }))
  ∧ (∀ (p : Chip) (c d : Nat) (stopped : Bool) (rest : List Task), c < 5 → d < 64 →
    (p.ing c).tasks = .docClose stopped :: rest → (p.ing c).doc = some d →
    let q : Chip := { p with store := { p.store with docs := tset p.store.docs d { p.doc d with
      st := .complete, incomplete := (p.doc d).incomplete || stopped } } }
    let u := q.signal d
    let z := u.doc d
    let v : Chip := if z.origin = 0 then u else { u with charge := { u.charge with
      accounts := tset u.charge.accounts z.desk { u.account z.desk with
        received := min 65535 ((u.account z.desk).received + 1) } } }
    ((∀ i, i < 5 → (p.ren i).state ≠ .waitPage) → u = q)
    ∧ ∃ w : Chip, v.Told w (.docClosed c d z.desk z.pages.length z.incomplete)
      ∧ p.runTask c = some { w with ingest := tset w.ingest c { w.ing c with
        phase := .idle, doc := none, page := none, coder := none, afterClose := none, pendingLost := 0, lineTotal := 0
        badRun := 0, tasks := rest } })
  ∧ (∀ (p : Chip) (c : Nat) (s : Stop) (rest : List Task), c < 5 → (p.ing c).stop = some s →
    (p.ing c).tasks = .stopAct :: rest →
    let x := p.ing c
    let becomes (y : IngestCtx) : Prop := p.runTask c = some { p with ingest := tset p.ingest c y }
    (x.reading = true → p.runTask c = none)
    ∧ (x.reading = false → x.phase = .idle → becomes { x with tasks := .stopDone :: rest })
    ∧ (x.reading = false → x.phase ≠ .idle → x.phase ≠ .page →
        becomes { x with tasks := .docClose true :: .stopDone :: rest })
    ∧ (x.reading = false → x.phase = .page → s.keep = false → becomes { x with
        phase := .closing, coder := none, tasks := .discardPage :: .docClose true :: .stopDone :: rest })
    ∧ (∀ r, x.reading = false → x.phase = .page → s.keep = true → x.page = some r → p.runTask c = some { p with
        store := { p.store with pages := tset p.store.pages r { p.pageRec r with truncated := true } }
        ingest := tset p.ingest c { x with
          phase := .closing
          tasks := [.emitRun, .lastWrite, .pageClosed, .docClose true, .stopDone] ++ rest } }))
  ∧ (∀ (p : Chip) (c r : Nat) (rest : List Task), c < 5 → r < 1024 → (p.pageRec r).doc < 64 →
    (p.ing c).tasks = .discardPage :: rest → (p.ing c).page = some r →
    let x := p.ing c
    let y := p.pageRec r
    (x.blockWrite = true → p.runTask c = none)
    ∧ (x.blockWrite = false → ∃ t : Chip, p.runTask c = some t ∧ t.pageRec r = PageRecord.free
      ∧ t.doc y.doc = { p.doc y.doc with pages := (p.doc y.doc).pages.filter (· != r) }
      ∧ t.store.pool.Perm (p.store.pool ++ y.chain) ∧ t.ing c = { x with page := none, tasks := rest }
      ∧ t.notices = p.notices ∧ t.render = p.render ∧ t.lines = p.lines ∧ t.charge = p.charge))
  ∧ (∀ (p : Chip) (c : Nat) (s : Stop) (rest : List Task), c < 5 → (p.ing c).stop = some s →
    (p.ing c).tasks = .stopDone :: rest →
    let q : Chip := { p with ingest := tset p.ingest c { p.ing c with stop := none, tasks := rest } }
    ∃ u t : Chip, p.runTask c = some t
      ∧ (∀ tag, s.source = .request tag → q.Told u (.done tag 10 .ok s.doc))
      ∧ (s.source = .noRequest → u = q)
      ∧ (p.req.restart = none → t = u)
      ∧ (∀ g, p.req.restart = some g → c ∉ g.awaited → t = u)
      ∧ (∀ g, p.req.restart = some g → c ∈ g.awaited → (∃ a ∈ g.awaited, a ≠ c) → t = { u with req := { u.req with
          restart := some { g with awaited := g.awaited.filter (· != c) } } })
      ∧ (∀ g, p.req.restart = some g → c ∈ g.awaited → (∀ a ∈ g.awaited, a = c) →
          Chip.Told { u with req := { u.req with restart := none } } t (.done g.tag 30 .ok 0)))

/-- The blocks of the page store cross the M-port whole, bit 7 of each byte first (01 R10): a BLOCK_WRITE leaves its 1
KiB in memory and every other byte as it was, and its context goes on (05 R84); a BLOCK_READ gives the decoder the
8192 bits that memory holds, or nothing if the decode has been given up, a freeing that waited for it is taken, and
the context goes on (06 R98, 02 R36). -/
def Obligations.BlocksCrossThePortWhole : Prop :=
  (∀ (s : State) (c r a : Nat) (bits : List Bool), c < 5 → s.MemoryCanonical →
    s.chip.mport.busy = some (.engine (.blockWrite c r a bits)) →
    ∃ m : List Host.Cell, exec .blockWriteComplete s = .next { s with mem := m, chip := Chip.runIngest { s.chip.freePort with
        ingest := tset s.chip.ingest c { s.chip.ing c with blockWrite := false } } c }
      ∧ (∀ i, i < 8192 → (memRead m (a + i / 8)).getLsbD (7 - i % 8) = bits.getD i false)
      ∧ ∀ x, x < a ∨ a + 1024 ≤ x → memRead m x = memRead s.mem x)
  ∧ (∀ (s : State) (c r a : Nat), c < 5 → s.chip.mport.busy = some (.engine (.blockRead c r a)) →
    let x := s.chip.ren c
    ∃ bits : List Bool, bits.length = 8192
      ∧ (∀ i, i < 8192 → bits.getD i false = (memRead s.mem (a + i / 8)).getLsbD (7 - i % 8))
      ∧ exec .blockReadComplete s = .next { s with chip := ((Chip.tryFree { s.chip.freePort with
          render := tset s.chip.render c (if x.readDead = true then { x with reading := false, readDead := false }
            else { x with
              reading := false
              decoder := { x.decoder with held := x.decoder.held ++ bits, fetched := x.decoder.fetched + 1 } }) }
          (s.chip.pageRec r).doc).advance c) })

/-- A SLOT_WRITE served (04 R61, R70, R73, R74): its pel words, if it has pels, and its tag word are in memory and no
other byte changed; one whose ring has been unbound touches no ring (the model's: log 18); a voided slot is EMPTY;
another is READY, and a stopped stall timer starts; the context then goes on. A page's end slot counts a page output
(06 R107), or brings PAGE_WAIT and PAGE_SENT (R113). The final slot makes the print job FINISHING with its sequence
number, its hold released, or deferred if it is the last of a DOOMED document, and the next job is taken (R108); of a
transmit context it brings DOC_SENT with the accepted pages and those still owed (R115). -/
def Obligations.SlotWriteFillsTheSlot : Prop :=
  ∀ (s : State) (c slot a ta : Nat) (pels : Option (List Bool)) (k : Markers) (sequence : Nat)
    (pageEnd final orphan : Bool), c < 5 → s.MemoryCanonical →
    s.chip.mport.busy = some (.engine (.slotWrite c slot a ta pels k sequence pageEnd final orphan)) →
    let p := s.chip.freePort
    let x := s.chip.ren c
    let under (y : Nat) : Byte := match pels with
      | some bits => bytesOver (memRead s.mem) a (bitsToBytes (bits.length / 8) bits) y
      | none => memRead s.mem y
    let full := (if c = 0 then s.chip.print.stallSeconds else (s.chip.line (c - 1)).cfg.txStall) * 1024
    ∃ (m : List Host.Cell) (t : Chip), exec .slotWriteComplete s = .next { s with mem := m, chip := t }
      ∧ (∀ y, memRead m y = bytesOver under ta (leBytes 4 (k.line.toNat + 4 * k.endPage.toNat + 8 * k.endDoc.toNat
          + 16 * k.cut.toNat + 65536 * sequence)) y)
      ∧ (orphan = true → t = p)
      ∧ (∀ r, orphan = false → x.ring = some r → (r.slot slot).void = true →
          t = Chip.advance { p with render := tset p.render c { x with ring := some { r with
            slots := r.slots.set slot ⟨.empty, false, ⟨false, false, false, false⟩, 0⟩, inFlight := false } } } c)
      ∧ (∀ r, orphan = false → x.ring = some r → (r.slot slot).void = false →
          let q : Chip := { p with render := tset p.render c { x with ring := some { r with
            slots := r.slots.set slot { r.slot slot with st := .ready }, inFlight := false
            stall := match r.stall with
              | .stopped => .running full
              | timer => timer } } }
          (pageEnd = false → final = false → t = q.advance c)
          ∧ (∀ j, c = 0 → pageEnd = true → final = false → x.job = some j → t = Chip.advance { q with print := { q.print with
              jobs := tset q.print.jobs j { q.job j with pagesOut := (q.job j).pagesOut + 1 } } } 0)
          ∧ (∀ i, 1 ≤ c → pageEnd = true → final = false → x.call = some i → ∃ u,
              ({ q with render := tset q.render c { q.ren c with position := x.page, state := .pageWait } } : Chip).Told u
                (.pageSent (c - 1) i x.page x.lineOut) ∧ t = u.advance c)
          ∧ (∀ j, c = 0 → j < 16 → final = true → x.job = some j →
            let y := { q.job j with pagesOut := (q.job j).pagesOut + if pageEnd = true then 1 else 0 }
            let deferred : Bool := decide ((q.doc y.doc).st = .doomed ∧ (q.doc y.doc).holds = 1)
            let v : Chip := { q with print := { q.print with jobs := tset q.print.jobs j { y with
              st := .finishing, endSequence := sequence, deferred := deferred } } }
            let w := if deferred = true then v else v.releaseHold y.doc
            let z := w.ren 0
            t = (Chip.printTake { w with render := tset w.render 0 { RenderCtx.reset with
              target := z.target, reading := z.reading, readDead := z.reading, ring := z.ring } }).advance 0)
          ∧ (∀ i, 1 ≤ c → pageEnd = false → final = true → x.call = some i →
            let k := p.callRec i
            let owed := (List.range' 1 (p.doc k.doc).pages.length).filter fun n =>
              decide (k.first ≤ n ∧ (k.last = 0 ∨ n ≤ k.last) ∧ n ∉ k.accepted)
            ∃ u, q.Told u (.docSent (c - 1) i k.accepted.length owed.length) ∧ t = u.advance c))

/-- How a render context comes by its pages (06 R97). A transmit context takes the lowest page above its position that
is in the call's range and not accepted; with none, or when the document has ended before it, it is in DOC_DONE with
one NO-LINE slot carrying END_DOC to hand over (R113, R115). An IDLE PRINT context takes the head job, ACTIVE, from
its first page and copy 1, the sequence counter at 0 unless a job is FINISHING (R107). A CLOSED page is copied and its
decode and conversion start in RENDER, a CORRUPT page marking the print job; a page not yet CLOSED is waited for in
WAIT_PAGE; past the document's end PRINT marks the job SHORT where its range asks for more, and the copy ends: the
next begins, or the job ends on a NO-LINE slot carrying END_DOC (R107, R108), either END_DOC slot handed at once (log
45). At the store controller's signal of a document (02 R30, 06 R116) a context in WAIT_PAGE on it asks again for the
page it waits for and goes on; one on another document, or in another state, is left; that PRINT asks first, then
LINE0 to LINE3, is the model's choice (log 33). -/
def Obligations.WorkFetchesItsPage : Prop :=
  (∀ (p : Chip) (c i : Nat), 1 ≤ c → c < 5 → (p.ren c).call = some i →
    let x := p.ren c
    let k := p.callRec i
    let wanted (n : Nat) : Prop := x.position < n ∧ n ≤ 255 ∧ k.first ≤ n ∧ (k.last = 0 ∨ n ≤ k.last) ∧ n ∉ k.accepted
    let becomes (y : RenderCtx) : Prop := p.txSelect c = { p with render := tset p.render c y }
    ((∀ n, ¬ wanted n) → becomes { x with
      state := .docDone, source := none, outgoing := some ⟨false, false, true, false⟩ })
    ∧ ∀ n, wanted n → (∀ m, m < n → ¬ wanted m) → p.TxAsked (p.txSelect c) c i n)
  ∧ (∀ (p : Chip) (d : Nat), ∃ ask : Chip → Nat → Chip, p.signal d = [0, 1, 2, 3, 4].foldl ask p
    ∧ ∀ (q : Chip) (c : Nat), c < 5 →
      let x := q.ren c
      (x.state ≠ .waitPage → ask q c = q)
      ∧ (∀ j, c = 0 → x.state = .waitPage → x.job = some j →
          ask q c = if (q.job j).doc = d then Chip.advance (Chip.printFetch 2 q) 0 else q)
      ∧ (∀ i, 1 ≤ c → x.state = .waitPage → x.call = some i →
          ((q.callRec i).doc ≠ d → ask q c = q)
          ∧ ((q.callRec i).doc = d → ∃ u : Chip, q.TxAsked u c i x.page ∧ ask q c = u.advance c)))
  ∧ (∀ (p : Chip), p.print.queue = [] → p.printTake = p)
  ∧ (∀ (p : Chip) (j : Nat) (rest : List Nat), j < 16 → p.print.queue = j :: rest →
    let finishing : Bool := (List.range 16).any fun k => (p.job k).st == .finishing
    let x := p.ren 0
    p.printTake = Chip.printFetch 2 { p with
      print := { p.print with queue := rest, jobs := tset p.print.jobs j { p.job j with st := .active } }
      render := tset p.render 0 { x with
        job := some j, copyNo := 1, page := (p.job j).first
        ring := x.ring.map fun r => { r with sequence := if finishing then r.sequence else 0 } } })
  ∧ (∀ (p : Chip) (j fuel : Nat), j < 16 → (p.ren 0).job = some j →
    let x := p.ren 0
    let job := p.job j
    let d := p.doc job.doc
    let n := x.page
    let becomes (y : RenderCtx) : Prop := Chip.printFetch (fuel + 1) p = { p with render := tset p.render 0 y }
    (∀ r, d.pages[n - 1]? = some r → (p.pageRec r).st = .closed →
      let y := p.pageRec r
      Chip.printFetch (fuel + 1) p = { p with
        print := if y.corrupt = true then { p.print with jobs := tset p.print.jobs j { job with corrupt := true } } else p.print
        render := tset p.render 0 { x with
          state := .render
          source := some ⟨r, y.width, y.res, y.lines, y.bitLength, y.chain, y.corrupt⟩
          decoder := Decoder.start y.width, vertical := Vertical.blank, lineOut := 0 } })
    ∧ (∀ r, d.pages[n - 1]? = some r → (p.pageRec r).st ≠ .closed → becomes { x with state := .waitPage, source := none })
    ∧ (d.pages[n - 1]? = none → d.st = .opened → becomes { x with state := .waitPage, source := none })
    ∧ (d.pages[n - 1]? = none → d.st ≠ .opened →
      let q : Chip := if job.last ≠ 0 ∧ n ≤ job.last then { p with print := { p.print with
        jobs := tset p.print.jobs j { job with short := true } } } else p
      (n ≠ job.first → x.copyNo < job.copies → Chip.printFetch (fuel + 1) p = Chip.printFetch fuel { q with
        render := tset q.render 0 { x with copyNo := x.copyNo + 1, page := job.first } })
      ∧ (n = job.first ∨ job.copies ≤ x.copyNo → Chip.printFetch (fuel + 1) p = { q with
        render := tset q.render 0 { x with
          state := .ending, source := none, outgoing := some ⟨false, false, true, false⟩ } })))

/-- How a render context hands slots to its ring (06 R99, R103; 04 R70): one when the ring has an EMPTY slot at the
next-write position and no SLOT_WRITE in flight (how far the stages run ahead: log 17). A NO-LINE slot to hand over
goes first; then, in RENDER, the page's slots: one NO-LINE slot with END_PAGE for a page without lines (handed when
the ring can take it: log 45), else a slot for each output line, fitted to the target's width, the last with END_PAGE.
At PRINT's end slot R108 decides whether it carries END_DOC, and PRINT is ENDING or moves on (R107). A vertical line
is the repeat still owed, or comes of the lines the decoder produces of the blocks it holds: one without its next
block reads it (R98), and corruption marks the job and the page, PAGE_CORRUPT following if the page was not marked (01
R14; the lines: PageDecodesToItsLines). -/
def Obligations.PageLinesGoToTheRing : Prop :=
  (∀ (p : Chip) (c : Nat), c < 5 →
    let x := p.ren c
    let able (r : RenderRing) : Prop := r.inFlight = false ∧ (r.slot r.next).st = .empty
    let issued (q : Chip) (r : RenderRing) (pels : Option (List Bool)) (m : Markers) (final : Bool) (y : RenderCtx) : Chip :=
      let a := r.base + r.next * r.slotSize
      { q with
        mport := q.withRenderOp c
          (.slotWrite c r.next a (a + r.slotSize - 4) pels m r.sequence (m.endPage && x.outgoing.isNone) final false)
        render := tset q.render c { y with ring := some { r with
          slots := r.slots.set r.next ⟨.writing, false, m, r.sequence⟩, next := (r.next + 1) % r.slots.length
          sequence := (r.sequence + 1) % 65536, inFlight := true } } }
    (x.ring = none → p.advance c = p)
    ∧ ∀ r, x.ring = some r →
      (¬ able r → p.advance c = p)
      ∧ (∀ m, able r → x.outgoing = some m → p.advance c = issued p r none m true { x with outgoing := none })
      ∧ (able r → x.outgoing = none → x.state ≠ .render ∨ x.source = none → p.advance c = p)
      ∧ (∀ src wt rt, able r → x.outgoing = none → x.state = .render → x.source = some src → x.target = some (wt, rt) →
        let hands (q : Chip) (pels : Option (List Bool)) (last : Bool) : Prop :=
          let y := { q.ren c with lineOut := (q.ren c).lineOut + 1 }
          (last = false → p.advance c = issued q r pels ⟨pels.isSome, false, false, false⟩ false y)
          ∧ (last = true → 1 ≤ c →
              p.advance c = issued q r pels ⟨pels.isSome, true, false, false⟩ false { y with source := none })
          ∧ (∀ j, last = true → c = 0 → y.job = some j → j < 16 →
              let job := q.job j
              let d := q.doc job.doc
              let atLast : Prop := job.last ≠ 0 ∧ y.page = job.last
              let final : Prop := job.copies ≤ y.copyNo
                ∧ (atLast ∨ d.pages.length ≤ y.page ∧ (d.st = .complete ∨ d.st = .doomed))
              let u := issued q r pels ⟨pels.isSome, true, true, false⟩ true { y with state := .ending, source := none }
              (final → ¬ atLast → job.last ≠ 0 → y.page < job.last → p.advance c = { u with print := { u.print with
                jobs := tset u.print.jobs j { job with short := true } } })
              ∧ (final → atLast ∨ job.last = 0 ∨ job.last ≤ y.page → p.advance c = u)
              ∧ (¬ final → atLast → p.advance c = Chip.printFetch 2
                  (issued q r pels ⟨pels.isSome, true, false, false⟩ false { y with
                    source := none, copyNo := y.copyNo + 1, page := job.first }))
              ∧ (¬ final → ¬ atLast → p.advance c = Chip.printFetch 2
                  (issued q r pels ⟨pels.isSome, true, false, false⟩ false { y with
                    source := none, page := y.page + 1 })))
        (src.lines = 0 → hands p none true)
        ∧ (∀ q, 0 < src.lines → Chip.pullLine c src rt 4 p = (none, q) → p.advance c = q)
        ∧ (∀ line q, 0 < src.lines → Chip.pullLine c src rt 4 p = (some line, q) →
            hands q (some (fitWidth wt line)) (decide ((q.ren c).lineOut + 1 =
              if src.res ≤ rt then src.lines * (rt / src.res)
              else (src.lines + src.res / rt - 1) / (src.res / rt))))))
  ∧ (∀ (p : Chip) (c rt fuel : Nat) (src : Source), c < 5 → src.record < 1024 →
    let x := p.ren c
    let pulled := Chip.pullLine c src rt (fuel + 1) p
    (0 < x.vertical.repeats → pulled = (some x.vertical.repeatLine, { p with render := tset p.render c { x with
      vertical := { x.vertical with repeats := x.vertical.repeats - 1 } } }))
    ∧ (x.vertical.repeats = 0 → x.decoder.next src = .needBlock → x.reading = true → pulled = (none, p))
    ∧ (x.vertical.repeats = 0 → x.decoder.next src = .needBlock → x.reading = false → pulled = (none, { p with
        mport := p.withRenderOp c
          (.blockRead c src.record (p.store.base + src.chain.getD x.decoder.fetched 0 * 1024))
        render := tset p.render c { x with reading := true } }))
    ∧ (∀ pels d met, x.vertical.repeats = 0 → x.decoder.next src = .line pels d met →
      let y := p.pageRec src.record
      let decoded : Chip := { p with render := tset p.render c { x with decoder := d } }
      ∃ q : Chip, (met = false → q = decoded)
        ∧ (met = true → ∃ u : Chip, (1 ≤ c ∨ x.job = none → u = decoded)
          ∧ (∀ j, c = 0 → x.job = some j → u = { decoded with print := { p.print with
              jobs := tset p.print.jobs j { p.job j with corrupt := true } } })
          ∧ (y.corrupt = true → q = u)
          ∧ (y.corrupt = false → Chip.Told { u with store := { u.store with
              pages := tset u.store.pages src.record { y with corrupt := true } } } q
              (.pageCorrupt y.doc y.number d.produced)))
        ∧ (src.res ≤ rt → pulled = (some pels, { q with render := tset q.render c { x with
            decoder := d, vertical := { x.vertical with repeatLine := pels, repeats := rt / src.res - 1 } } }))
        ∧ (rt < src.res →
          let group := if x.vertical.count = 0 then pels else List.zipWith (· || ·) x.vertical.group pels
          (x.vertical.count + 1 = src.res / rt ∨ d.produced = src.lines → pulled = (some group, { q with
            render := tset q.render c { x with decoder := d, vertical := Vertical.blank } }))
          ∧ (x.vertical.count + 1 ≠ src.res / rt → d.produced ≠ src.lines → pulled = Chip.pullLine c src rt fuel { q with
            render := tset q.render c { x with
              decoder := d, vertical := { x.vertical with group := group, count := x.vertical.count + 1 } } }))))

/-! ## Reports -/

/-- REPORT (02 R37, 08 R158, 09 R177, 10 R184): an address that is not word-aligned, or from which the largest report
of the kind would overlap the control area or the store, is refused BAD_FIELD, a second report while one runs BUSY, a
PAGES report of a document out of range BAD_FIELD and of a FREE one NOT_FOUND; otherwise the report begins, no DONE is
sent yet, and its first record, if it has one, is on its way to the address. A report's RECORD_WRITE completes (10
R184): its bytes are in memory and no other byte changed; the next record is taken as the objects then stand and its
write issued behind the last, or DONE carries the number written. Where a byte past the last address goes is free (log
13). The records (02 R37, 08 R158, 09 R177, 11.9): DOCUMENTS and CALLS take the lowest number on that is not FREE,
PAGES the document's list in order until it is freed, ACCOUNTS all 64 desks, LINES the four lines and then SCAN, each
record as 11.9 lays it out, 0 elsewhere. -/
def Obligations.ReportsGoRecordByRecord : Prop :=
  (∀ (tag : Half) (d : Byte) (address : Word) (c : Instr) (kind : ReportKind) (doc largest : Nat) (s : State),
     (c, kind, doc, largest) ∈ [(.reportDocuments tag 0 address, .documents, 0, 1024),
       (.reportPages tag d address, .pages, d.toNat, 8160), (.reportAccounts tag address, .accounts, 0, 2048),
       (.reportCalls tag address, .calls, 0, 1024), (.reportLines tag address, .lines, 0, 80)] →
     s.served c = true →
     let p := s.chip.freePort
     let overlapping : Bool := p.protectedOverlap address.toNat largest
     let noDoc : Prop := kind = .pages ∧ (63 < doc ∨ (p.doc doc).st = .free)
     ∃ t : Chip, exec c s = .next { s with chip := t }
       ∧ (address.toNat % 4 ≠ 0 ∨ overlapping = true → p.AnsweredWith t (.done tag.toNat 8 .badField 0))
       ∧ (address.toNat % 4 = 0 → overlapping = false →
         (p.req.report.isSome = true → p.AnsweredWith t (.done tag.toNat 8 .busy 0))
         ∧ (p.req.report = none → noDoc →
             p.AnsweredWith t (.done tag.toNat 8 (if 63 < doc then .badField else .notFound) 0))
         ∧ (p.req.report = none → ¬ noDoc →
           let r : Report := ⟨tag.toNat, kind, doc, address.toNat, 0, 0, false⟩
           (∀ bytes next, p.nextRecord r = some (bytes, next) → Chip.Ended { p with
               req := { p.req with report := some { r with written := 1, next := next } }
               mport := { p.mport with records := p.mport.records ++ [.reportRecord address.toNat bytes] } } t)
           ∧ (p.nextRecord r = none → p.AnsweredWith t (.done tag.toNat 8 .ok 0)))))
  ∧ (∀ (s : State) (a : Nat) (bytes : List Byte) (r : Report), s.MemoryCanonical →
       s.chip.mport.busy = some (.record (.reportRecord a bytes)) → s.chip.req.report = some r →
       let p := s.chip.freePort
       let size := match r.kind with
         | .documents | .lines => 16
         | _ => 32
       let p := if 2 ^ 32 < a + bytes.length then { p with freeIndex := p.freeIndex + 1 } else p
       ∃ (m : List Host.Cell) (t : Chip),
           exec .reportRecordWriteComplete s = .next { s with mem := m, chip := t }
           ∧ (a + bytes.length ≤ 2 ^ 32 → ∀ x, memRead m x = bytesOver (memRead s.mem) a bytes x)
           ∧ (∀ more next, s.chip.nextRecord r = some (more, next) → t = { p with
               req := { p.req with report := some { r with written := r.written + 1, next := next } }
               mport := { p.mport with records := p.mport.records ++ [.reportRecord (r.address + r.written * size) more] } })
           ∧ (s.chip.nextRecord r = none →
               Chip.Told { p with req := { p.req with report := none } } t (.done r.tag 8 .ok r.written)))
  ∧ (∀ (p : Chip) (r : Report),
     let takes (next size : Nat) (fields : List (Nat × Nat × Nat)) : Prop :=
       ∃ bytes, p.nextRecord r = some (bytes, next) ∧ HoldsFields bytes size fields
     (∀ d, r.kind = .documents → r.next ≤ d → d < 64 → (p.doc d).st ≠ .free →
       (∀ e, r.next ≤ e → e < d → (p.doc e).st = .free) →
       let x := p.doc d
       takes (d + 1) 16 [(0, 1, d), (1, 1, match x.st with | .free => 0 | .opened => 1 | .complete => 2 | .doomed => 3),
         (2, 1, x.origin), (3, 1, x.desk), (4, 1, x.pages.length), (5, 1, if x.incomplete then 1 else 0), (6, 1, x.holds),
         (8, 4, x.createdDay * 16777216 + x.createdSecond)])
     ∧ (r.kind = .documents → (∀ d, r.next ≤ d → d < 64 → (p.doc d).st = .free) → p.nextRecord r = none)
     ∧ (∀ k, r.kind = .pages → r.ended = false → (p.doc r.doc).pages[r.next]? = some k →
       let x := p.pageRec k
       takes (r.next + 1) 32 [(0, 1, x.number), (1, 1, match x.st with | .free => 0 | .opened => 1 | .closed => 2),
         (2, 1, x.res), (3, 1, (if x.truncated then 1 else 0) + (if x.poor then 2 else 0) + (if x.corrupt then 4 else 0)),
         (4, 2, x.width), (6, 2, x.lines), (8, 4, x.bitLength), (12, 4, (x.bitLength + 7) / 8), (16, 2, x.chain.length),
         (18, 2, x.damaged)])
     ∧ (r.kind = .pages → r.ended = true ∨ (p.doc r.doc).pages.length ≤ r.next → p.nextRecord r = none)
     ∧ (r.kind = .accounts → r.next < 64 →
       let x := p.account r.next
       takes (r.next + 1) 32 [(0, 1, r.next), (1, 1, if x.blocked then 1 else 0), (4, 4, x.limit), (8, 4, x.total),
         (12, 2, x.answered), (14, 2, x.sent), (16, 2, x.received)])
     ∧ (r.kind = .accounts → 64 ≤ r.next → p.nextRecord r = none)
     ∧ (∀ i, r.kind = .calls → r.next ≤ i → i < 32 → (p.callRec i).st ≠ .free →
       (∀ e, r.next ≤ e → e < i → (p.callRec e).st = .free) →
       let x := p.callRec i
       takes (i + 1) 32 [(0, 1, i), (1, 1, match x.st with | .free => 0 | .waiting => 1 | .active => 2),
         (2, 1, match x.line with | some n => n | none => 255), (3, 1, x.desk), (4, 1, x.doc), (5, 1, x.first),
         (6, 1, x.last), (7, 1, if x.flash then 1 else 0), (8, 1, x.made), (9, 1, x.allowed), (10, 1, x.answeredAttempt),
         (11, 1, x.accepted.length), (12, 4, x.charge), (16, 4, x.sequence),
         (20, 4, if x.st = .waiting then x.ready - p.calls.schedule else 0)])
     ∧ (r.kind = .calls → (∀ i, r.next ≤ i → i < 32 → (p.callRec i).st = .free) → p.nextRecord r = none)
     ∧ (r.kind = .lines → r.next < 4 →
       let l := p.line r.next
       let x := p.ing (r.next + 1)
       takes (r.next + 1) 16 [(0, 1, r.next), (1, 1, l.state.code), (2, 1, l.dir.code),
         (3, 1, match l.call with | some i => i | none => 255), (4, 1, match l.conn with | .none => 0 | .rx => 1 | .tx => 2),
         (5, 1, l.bursts), (6, 1, l.dead), (7, 1, x.stateCode), (8, 1, (p.ren (r.next + 1)).state.transmitCode),
         (9, 1, x.pendingLost), (10, 2, x.strays), (12, 2, l.skipped)])
     ∧ (r.kind = .lines → r.next = 4 →
       takes 5 16 [(0, 1, 4), (7, 1, (p.ing 0).stateCode), (9, 1, (p.ing 0).pendingLost), (10, 2, (p.ing 0).strays)])
     ∧ (r.kind = .lines → 5 ≤ r.next → p.nextRecord r = none))

/-! ## Clock and timers -/

/-- CLOCK_ADVANCE (09 R160, 08 R143, R146): the clock shows the next second, day and holiday override following at
midnight, and its word goes out; the schedule count rises, and if a WAITING record's ready time has just been reached
the arbiter is considered; then each answered attempt's duration rises. (A count that would pass 32 bits: log 23.) -/
def Obligations.ClockAdvancesOneSecond : Prop :=
  ∀ s : State, s.chip.calls.schedule + 1 < 2 ^ 32 →
    let p := s.chip
    let midnight : Bool := decide (86399 ≤ p.charge.second)
    let q : Chip := { p with
      charge := { p.charge with
        tick := 0, second := if midnight then 0 else p.charge.second + 1
        day := if midnight then (p.charge.day + 1) % 7 else p.charge.day
        holiday := if midnight then false else p.charge.holiday }
      calls := { p.calls with schedule := p.calls.schedule + 1 } }
    let reached : Prop := ∃ i, i < 32 ∧ (p.callRec i).st = .waiting ∧ (p.callRec i).ready = p.calls.schedule + 1
    ∃ t : Chip, exec .clockAdvance s = .next { s with chip := t }
      ∧ .word .clock ∈ t.mport.records
      ∧ (∀ u, reached ∧ u = q.arbiterPass ∨ ¬ reached ∧ u = q →
          (∀ n, n < 4 → (u.attempt n).duration + 1 < 2 ^ 32) →
          t = { u with
            mport := { u.mport with records := withWord u.mport.records .clock }
            charge := { u.charge with attempts := u.charge.attempts.map fun a =>
              if a.opened = true ∧ a.answered = true then { a with duration := a.duration + 1 } else a } })

/-- A stall timer that expires becomes EXPIRED, and CONSUMER_STALL names the context and how many slots are READY (04
R74); one that does not run leaves the machine as it is (log 8). UNIT_TIMER_EXPIRY (09 R169, R170, R171): the unit
count rises, the unit charge of the rate in force now joins the tariff charge, the unit timer takes the rate's unit
length, and without meter pulses the charge is posted to the desk, which is BLOCKED at its limit with BUDGET_REACHED
(R173; a posting: Posted). -/
def Obligations.StallAndUnitTimersExpire : Prop :=
  (∀ (c : Fin 5) (s : State),
     (∀ r k, (s.chip.ren c).ring = some r → r.stall = .running k →
       ∃ t : Chip, exec (.stallTimerExpiry c) s = .next { s with chip := t }
         ∧ ({ s.chip with render := tset s.chip.render c { s.chip.ren c with
             ring := some { r with stall := .expired } } } : Chip).Told t
             (.consumerStall c (r.slots.filter fun x => x.st == .ready).length))
     ∧ ((∀ r, (s.chip.ren c).ring = some r → ∀ k, r.stall ≠ .running k) → exec (.stallTimerExpiry c) s = .next s))
  ∧ (∀ (n : Fin 4) (s : State),
       let p := s.chip
       let a := p.attempt n
       let bands := p.charge.tariff.bands.getD (if p.charge.holiday then 2 else p.charge.tariff.dayMap.getD p.charge.day 0) []
       let rate := p.charge.tariff.rates.getD (8 * a.zone.getD 0 + classAt bands (p.charge.second / 60)) ⟨0, 0⟩
       let top := 4294967295
       (a.opened = true → a.answered = true → a.unitTimer.isSome = true →
         ∃ t : Chip, exec (.unitTimerExpiry n) s = .next { s with chip := t }
           ∧ t.attempt n = { a with
             units := min 65535 (a.units + 1), unitTimer := some (rate.seconds * 1024)
             tariffCharge := min top (a.tariffCharge + rate.charge)
             billed := if a.meterPulses = false ∧ a.desk.isSome = true then min top (a.billed + rate.charge) else a.billed }
           ∧ (∀ d, a.meterPulses = false → a.desk = some d → d < 64 →
               (t.account d).total = min top ((p.account d).total + rate.charge)
               ∧ (t.account d).limit = (p.account d).limit
               ∧ (t.account d).blocked = ((p.account d).blocked
                   || decide ((p.account d).limit ≠ 0 ∧ (p.account d).limit ≤ (t.account d).total)))
           ∧ (a.meterPulses = true ∨ a.desk = none → t.charge.accounts = p.charge.accounts ∧ t.calls = p.calls)
           ∧ t.lines = p.lines ∧ t.store = p.store ∧ t.path = p.path ∧ t.req = p.req ∧ t.ingest = p.ingest
           ∧ t.render = p.render ∧ t.print = p.print
           ∧ (∀ d, a.meterPulses = false → a.desk = some d → d < 64 → ∃ u : Chip,
               ({ p with charge := { p.charge with attempts := tset p.charge.attempts n { a with
                   units := min 65535 (a.units + 1), tariffCharge := min top (a.tariffCharge + rate.charge) } } } :
                 Chip).Posted u n rate.charge
               ∧ t = { u with charge := { u.charge with attempts := tset u.charge.attempts n { u.attempt n with
                   unitTimer := some (rate.seconds * 1024) } } }))
       ∧ (¬ (a.opened = true ∧ a.answered = true ∧ a.unitTimer.isSome = true) → exec (.unitTimerExpiry n) s = .next s))

/-! ## Lines: ringing, seizure, dialling -/

/-- RING_BURST, RING_ABSENT and RING_END_TIMER_EXPIRY (07 R120, R123): the first burst on an IDLE line makes it
RINGING inward and sends RING, a later burst counts and stops the ring-end timer, the end of a burst starts it at 8192
ticks, and its expiry returns the line to IDLE with RING_STOPPED. A RELEASING line disregards RING (07 R121). -/
def Obligations.RingingFollowsTheDetector : Prop :=
  ∀ (n : Fin 4) (s : State),
    let p := s.chip
    let l := p.line n
    let k := min 255 (l.bursts + 1)
    (l.state = .idle → ∃ t : Chip, exec (.ringBurst n) s = .next { s with chip := t }
      ∧ (p.lineEnters n { l with ringQ := ⟨true, 0⟩, dir := .inward, bursts := 1, state := .ringing }).Told t (.ring n 1))
    ∧ (l.state = .ringing → ∃ t : Chip, exec (.ringBurst n) s = .next { s with chip := t }
      ∧ (p.lineIs n { l with ringQ := ⟨true, 0⟩, bursts := k, ringEnd := none }).Told t (.ring n k))
    ∧ (l.state ≠ .idle → l.state ≠ .ringing → l.state ≠ .releasing →
        exec (.ringBurst n) s = .next { s with chip := p.lineIs n { l with ringQ := ⟨true, 0⟩ } })
    ∧ (l.state ≠ .releasing → exec (.ringAbsent n) s = .next { s with chip := p.lineIs n { l with
        ringQ := ⟨false, 0⟩, ringEnd := if l.state = .ringing then some 8192 else l.ringEnd } })
    ∧ (l.state = .releasing → exec (.ringBurst n) s = .next s ∧ exec (.ringAbsent n) s = .next s)
    ∧ (l.state = .ringing → l.ringEnd.isSome = true → ∃ t : Chip,
        exec (.ringEndTimerExpiry n) s = .next { s with chip := t }
        ∧ (p.lineEnters n { l.quiet with state := .idle, ringEnd := none, bursts := 0 }).Told t (.ringStopped n l.bursts))
    ∧ (l.state ≠ .ringing ∨ l.ringEnd = none → exec (.ringEndTimerExpiry n) s = .next s)

/-- SETTLE_TIMER_EXPIRY (07 R121, R124, R125): ANSWERING becomes ANSWERED with its attempt open and answered, and
ANSWERED is sent; the LOOP sampled is the command's level (log 30); with no settle timer running the command does
nothing (log 7). SEIZING without LOOP counts the line dead, sends LINE_FAULT and releases it LINE_DEAD; with LOOP it
dials, or waits for dial tone unless it dials blind, a leading WAIT being passed over; elsewhere a pulse train's last
settle ends the train (log 21). DIAL_TONE_DETECTED (07 R120, R126): in AWAIT_TONE the wait ends and the line dials on
from its position; in another state DT alone becomes PRESENT; in a disregard period (settle, a pulse train, the guard;
that the train is one for DT: log 41) it is disregarded. -/
def Obligations.SettleAndDialToneMoveTheLine : Prop :=
  (∀ (n : Fin 4) (loop : Bool) (s : State),
     let p := s.chip
     let l := p.line n
     let l1 : Line := { l with settle := none, inputs := { l.inputs with loop := loop } }
     let dead := min 255 (l.dead + 1)
     (l.settle = none → exec (.settleTimerExpiry n loop) s = .next s)
     ∧ (l.settle.isSome = true →
       (l.state = .answering → ∃ t : Chip, exec (.settleTimerExpiry n loop) s = .next { s with chip := t }
         ∧ ({ p.lineEnters n { l1 with state := .answered, bursts := 0 } with
             charge := { p.charge with attempts := tset p.charge.attempts n { Attempt.closed with
               opened := true, answered := true, answerDay := p.charge.day, answerSecond := p.charge.second
               meterPulses := l.cfg.meterPulses, meterValue := l.cfg.meterValue } } } : Chip).Told t
             (.answered n .inward none))
       ∧ (l.state = .seizing → loop = false → ∃ q : Chip, (p.lineIs n { l1 with dead := dead }).Told q (.lineFault n dead)
         ∧ exec (.settleTimerExpiry n loop) s = .next { s with chip := q.release n .lineDead })
       ∧ (l.state = .seizing → loop = true → l.cfg.blind = true → l.dial.head? ≠ some 13 →
         exec (.settleTimerExpiry n loop) s = .next { s with
           chip := Chip.dialNext n 41 (p.lineEnters n { l1 with dead := 0, state := .dialling }) })
       ∧ (l.state = .seizing → loop = true → l.cfg.blind = false ∨ l.dial.head? = some 13 →
         exec (.settleTimerExpiry n loop) s = .next { s with chip := p.lineEnters n { l1 with
           dead := 0, pos := if l.dial.head? = some 13 then 1 else l.pos, state := .awaitTone, dtQ := ⟨false, 0⟩
           phase := .none, phaseTimer := none, stateTimer := some (l.cfg.toneWait * 1024) } })
       ∧ (l.state ≠ .answering → l.state ≠ .seizing →
         exec (.settleTimerExpiry n loop) s = .next { s with chip := p.lineIs n { l1 with
           train := match l.state, l.phase with
             | .dialling, .breaking _ => l.train
             | .dialling, .making (_ + 1) => l.train
             | _, _ => false } })))
  ∧ (∀ (n : Fin 4) (s : State),
       let p := s.chip
       let l := p.line n
       let disregarded : Prop := l.settle.isSome = true ∨ l.train = true ∨ l.state = .releasing
       (disregarded → exec (.dialToneDetected n) s = .next s)
       ∧ (¬ disregarded → l.state = .awaitTone → exec (.dialToneDetected n) s = .next { s with
           chip := Chip.dialNext n 41 (p.lineEnters n { l with dtQ := ⟨true, 0⟩, stateTimer := none, state := .dialling }) })
       ∧ (¬ disregarded → l.state ≠ .awaitTone →
           exec (.dialToneDetected n) s = .next { s with chip := p.lineIs n { l with dtQ := ⟨true, 0⟩ } }))

/-- What the dialler does with the symbol at its position (07 R118, R126 to R130, R132): none left, it awaits the answer;
PAUSE starts the pause timer; WAIT awaits dial tone past it; by tone any other symbol goes out as its DIGIT code; by
pulse a digit begins the first of its breaks, and * or # is passed over and counted. The phases of a symbol (07 R127
to R130): tone on is followed by tone off, a break by its make, a make by the next break or, at the last, by the
inter-digit gap; at the end of tone off, gap and pause the symbol is done and the dialler takes the next. An expiry
outside its phase leaves the machine as it is (log 7). -/
def Obligations.DiallerSendsItsSymbols : Prop :=
  (∀ (p : Chip) (n fuel : Nat), n < 4 →
     let l := p.line n
     (l.dial[l.pos]? = none → Chip.dialNext n (fuel + 1) p = p.lineEnters n { l with
         atQ := ⟨false, 0⟩, btQ := ⟨false, 0⟩, phase := .none, phaseTimer := none
         stateTimer := some (l.cfg.answerWait * 1024), state := .awaitAnswer })
     ∧ (l.dial[l.pos]? = some 12 → Chip.dialNext n (fuel + 1) p = p.lineIs n { l with
         phase := .pause, phaseTimer := none, stateTimer := some (l.cfg.pause * 1024) })
     ∧ (l.dial[l.pos]? = some 13 → Chip.dialNext n (fuel + 1) p = p.lineEnters n { l with
         pos := l.pos + 1, dtQ := ⟨false, 0⟩, phase := .none, phaseTimer := none
         stateTimer := some (l.cfg.toneWait * 1024), state := .awaitTone })
     ∧ (∀ x, l.dial[l.pos]? = some x → x ≤ 11 → l.cfg.pulse = false → Chip.dialNext n (fuel + 1) p = p.lineIs n { l with
         phase := .toneOn, phaseTimer := some l.cfg.toneOn, toneOn := true
         digit := if x = 0 then 10 else if x < 10 then x else x + 1 })
     ∧ (∀ x, l.dial[l.pos]? = some x → x ≤ 9 → l.cfg.pulse = true → Chip.dialNext n (fuel + 1) p = p.lineIs n
         { l.hooked false with
           phase := .breaking ((if x = 0 then 10 else x) - 1), train := true, dtQ := ⟨false, 0⟩, btQ := ⟨false, 0⟩
           atQ := ⟨false, 0⟩, mpQ := ⟨false, 0⟩, loopLoss := 0
           phaseTimer := some (l.cfg.prescale * (2 * l.cfg.breakCount + 1)) })
     ∧ (∀ x, l.dial[l.pos]? = some x → x = 10 ∨ x = 11 → l.cfg.pulse = true →
         Chip.dialNext n (fuel + 1) p = Chip.dialNext n fuel (p.lineIs n { l with
           pos := l.pos + 1, skipped := min 65535 (l.skipped + 1) })))
  ∧ (∀ (n : Fin 4) (s : State),
       let p := s.chip
       let l := p.line n
       let unit := l.cfg.prescale
       let done := Chip.dialNext n 41 (p.lineIs n { l with
         phase := .none, phaseTimer := none, stateTimer := none, toneOn := false, digit := 0, pos := l.pos + 1 })
       (exec (.toneOnExpiry n) s = .next { s with chip := if l.phase = .toneOn then p.lineIs n { l with
           phase := .toneOff, phaseTimer := some l.cfg.toneOff, toneOn := false, digit := 0 } else p })
       ∧ (exec (.toneOffExpiry n) s = .next { s with chip := if l.phase = .toneOff then done else p })
       ∧ (exec (.interDigitGapExpiry n) s = .next { s with chip := if l.phase = .gap then done else p })
       ∧ (exec (.pauseExpiry n) s = .next { s with chip := if l.phase = .pause then done else p })
       ∧ (∀ k, l.phase = .breaking k → exec (.pulseBreakEnd n) s = .next { s with chip := p.lineIs n { l.hooked true with
           phase := .making k, phaseTimer := some (unit * (2 * (l.cfg.period - l.cfg.breakCount) + 1)) } })
       ∧ (∀ k, l.phase = .making (k + 1) → exec (.pulseMakeEnd n) s = .next { s with chip := p.lineIs n { l.hooked false with
           phase := .breaking k, train := true, dtQ := ⟨false, 0⟩, btQ := ⟨false, 0⟩, atQ := ⟨false, 0⟩
           mpQ := ⟨false, 0⟩, loopLoss := 0, phaseTimer := some (unit * (2 * l.cfg.breakCount + 1)) } })
       ∧ (l.phase = .making 0 → exec (.pulseMakeEnd n) s = .next { s with chip := p.lineIs n { l with
           phase := .gap, phaseTimer := some l.cfg.gap } })
       ∧ ((∀ k, l.phase ≠ .breaking k) → exec (.pulseBreakEnd n) s = .next s)
       ∧ ((∀ k, l.phase ≠ .making k) → exec (.pulseMakeEnd n) s = .next s))

/-! ## Lines: answer, supervision, release -/

/-- ANSWER_TONE_DETECTED (07 R132, 08 R142, 09 R168, R169): in AWAIT_ANSWER the line is ANSWERED, its call record notes
the attempt, the charge unit takes the answer, the zone, the setup charge and a first unit, each posted in meter mode
NONE and neither in mode PULSES (R171, R173), the desk's answered attempts rise, and ANSWERED is sent; elsewhere AT
alone becomes PRESENT; in a disregard period (settle, a pulse train, the guard; that the train is one for AT: log 41) it
is disregarded. The zone (R166) is that of the longest prefix that begins the number part, the default zone where none
does. -/
def Obligations.AnswerToneAnswersTheCall : Prop :=
  (∀ (f : Tariff) (number : List Nat),
    let matching (x : ZonePrefix) : Prop := x ∈ f.prefixes ∧ ∃ rest, number = x.digits ++ rest
    ((∀ x, ¬ matching x) → f.zoneOf number = f.defaultZone)
    ∧ ((∃ x, matching x) → ∃ x, matching x ∧ f.zoneOf number = x.zone
        ∧ ∀ y, matching y → y.digits.length ≤ x.digits.length))
  ∧ ∀ (n : Fin 4) (s : State),
    let p := s.chip
    let l := p.line n
    let disregarded : Prop := l.settle.isSome = true ∨ l.train = true ∨ l.state = .releasing
    let q := p.lineEnters n { l with atQ := ⟨true, 0⟩, stateTimer := none, state := .answered }
    (disregarded → exec (.answerToneDetected n) s = .next s)
    ∧ (¬ disregarded → l.state ≠ .awaitAnswer →
        exec (.answerToneDetected n) s = .next { s with chip := p.lineIs n { l with atQ := ⟨true, 0⟩ } })
    ∧ (∀ i, ¬ disregarded → l.state = .awaitAnswer → l.call = some i → i < 32 → (p.attempt n).call = some i →
        let c := p.callRec i
        let zone := p.charge.tariff.zoneOf ((c.dest.drop c.access).filter fun x => decide (x < 12))
        let setup := p.charge.tariff.setup.getD zone 0
        let rate := p.charge.rate zone
        let a := p.attempt n
        let top := 4294967295
        let withAttempt (x : Chip) (y : Attempt) : Chip :=
          { x with charge := { x.charge with attempts := tset x.charge.attempts n y } }
        let marked : Chip := { q with calls := { q.calls with
          records := tset q.calls.records i { c with answeredAttempt := c.made } } }
        let first := withAttempt marked { a with
          answered := true, answerDay := p.charge.day, answerSecond := p.charge.second, duration := 0, zone := some zone
          tariffCharge := min top (a.tariffCharge + setup) }
        ∃ u v t : Chip, exec (.answerToneDetected n) s = .next { s with chip := t }
          ∧ (a.meterPulses = false → first.Posted u n setup) ∧ (a.meterPulses = true → u = first)
          ∧ (let second := withAttempt u { u.attempt n with
               units := min 65535 (a.units + 1), tariffCharge := min top (min top (a.tariffCharge + setup) + rate.charge) }
             (a.meterPulses = false → second.Posted v n rate.charge) ∧ (a.meterPulses = true → v = second))
          ∧ (let timed := withAttempt v { v.attempt n with unitTimer := some (rate.seconds * 1024) }
             let counted : Chip := match a.desk with
               | some d => { timed with charge := { timed.charge with
                   accounts := tset timed.charge.accounts d { timed.account d with
                     answered := min 65535 ((timed.account d).answered + 1) } } }
               | none => timed
             counted.Told t (.answered n .outward (some i))))

/-- METER_PULSE (07 R134, 09 R170, R171, R173): on a line whose call is metered the pulse is counted and, in meter mode
PULSES, its value posted in full (Posted); on any other line MP alone becomes PRESENT; in a disregard period (settle, a
pulse train, the guard: log 41) it is disregarded. -/
def Obligations.MeterPulseIsCountedAndBilled : Prop :=
  ∀ (n : Fin 4) (s : State),
    let p := s.chip
    let l := p.line n
    let a := p.attempt n
    let disregarded : Prop := l.settle.isSome = true ∨ l.train = true ∨ l.state = .releasing
    let metered : Prop := l.state = .awaitTone ∨ l.state = .dialling ∨ l.state = .awaitAnswer
      ∨ (l.state = .answered ∨ l.state = .connected) ∧ l.dir = .outward
    let q := p.lineIs n { l with mpQ := ⟨true, 0⟩ }
    (disregarded → exec (.meterPulse n) s = .next s)
    ∧ (¬ disregarded → ¬ metered → exec (.meterPulse n) s = .next { s with chip := q })
    ∧ (¬ disregarded → metered → ∃ t : Chip, exec (.meterPulse n) s = .next { s with chip := t }
        ∧ (let counted : Chip := { q with charge := { q.charge with
             attempts := tset q.charge.attempts n { a with pulses := min 65535 (a.pulses + 1) } } }
           (a.meterPulses = true → counted.Posted t n a.meterValue) ∧ (a.meterPulses = false → t = counted)))

/-- The releases of a line with the causes LINE_DEAD, NO_TONE, BUSY, NO_ANSWER and LINE_LOST (07 R125, R126, R131, R132,
R136): each leaves the line on hook, RELEASING, its tone off, its timers stopped, its dial string emptied (log 36) and
the guard time running; an outgoing line has given up its record; no other line that is not IDLE changes; a read that
waits at the S-port no longer consumes a slot of the line's transmit ring if the line was CONNECTED TX (04 R72). A dead
seizure is counted. BUSY_TONE_DETECTED outside AWAIT_ANSWER makes BT alone PRESENT, LOOP_LOSS in a state that does not
act on it leaves the count at 410 (R120, R131), either does nothing in a disregard period (settle, a pulse train, the
guard: R121; that the train is one for BT too: log 41), and a wait that does not run does not expire (log 7). RELEASE
(07 R135, R136): a reason that is none of the four or a line out of range is refused BAD_FIELD, a line without a call to
release STATE; otherwise the line is released with the reason as its cause, and DONE follows. GUARD_EXPIRY (07 R137, 08
R146): a RELEASING line returns to IDLE with no direction and no cause, RELEASED carries the direction and cause of the
call that ended, and the arbiter is considered (one that does not run: log 7). -/
def Obligations.ReleasesLetTheLineGo : Prop :=
  (∀ (n : Fin 4) (c : Instr) (cause : Cause) (s : State),
     let l := s.chip.line n
     (c = .dialToneWaitExpiry n ∧ l.state = .awaitTone ∧ l.stateTimer.isSome = true ∧ cause = .noTone
       ∨ c = .busyToneDetected n ∧ l.state = .awaitAnswer ∧ l.settle = none ∧ l.train = false ∧ cause = .busy
       ∨ c = .answerWaitExpiry n ∧ l.state = .awaitAnswer ∧ l.stateTimer.isSome = true ∧ cause = .noAnswer
       ∨ c = .loopLoss n ∧ l.settle = none ∧ l.train = false ∧ cause = .lineLost
           ∧ l.state ∈ [.awaitTone, .dialling, .awaitAnswer, .answered, .connected]) →
     ∃ t : Chip, exec c s = .next { s with chip := t } ∧ t.line n = l.letGo cause
       ∧ (∀ m : Fin 4, m ≠ n → (s.chip.line m).state ≠ .idle → t.line m = s.chip.line m)
       ∧ t.path = { s.chip.path with held := s.chip.path.held.map fun h =>
           if l.state = .connected ∧ l.conn = .tx ∧ h.slot.map (·.1) = some (n.val + 1) then { h with slot := none } else h }
       ∧ t.charge.tariff = s.chip.charge.tariff ∧ t.calls.limit = s.chip.calls.limit)
  ∧ (∀ (n : Fin 4) (s : State), (s.chip.line n).state = .seizing → (s.chip.line n).settle.isSome = true →
     let l := s.chip.line n
     ∃ t : Chip, exec (.settleTimerExpiry n false) s = .next { s with chip := t }
       ∧ t.line n = Line.letGo { l with
           inputs := { l.inputs with loop := false }, dead := min 255 (l.dead + 1) } .lineDead
       ∧ (∀ m : Fin 4, m ≠ n → (s.chip.line m).state ≠ .idle → t.line m = s.chip.line m)
       ∧ t.path = s.chip.path ∧ t.charge.tariff = s.chip.charge.tariff ∧ t.calls.limit = s.chip.calls.limit)
  ∧ (∀ (n : Fin 4) (s : State),
     let l := s.chip.line n
     let disregarded : Prop := l.settle.isSome = true ∨ l.train = true ∨ l.state = .releasing
     (disregarded → exec (.busyToneDetected n) s = .next s ∧ exec (.loopLoss n) s = .next s)
     ∧ (¬ disregarded → l.state ≠ .awaitAnswer →
         exec (.busyToneDetected n) s = .next { s with chip := s.chip.lineIs n { l with btQ := ⟨true, 0⟩ } })
     ∧ (¬ disregarded → l.state ∉ [.awaitTone, .dialling, .awaitAnswer, .answered, .connected] →
         exec (.loopLoss n) s = .next { s with chip := s.chip.lineIs n { l with loopLoss := 410 } })
     ∧ (l.state ≠ .awaitTone ∨ l.stateTimer = none → exec (.dialToneWaitExpiry n) s = .next s)
     ∧ (l.state ≠ .awaitAnswer ∨ l.stateTimer = none → exec (.answerWaitExpiry n) s = .next s))
  ∧ (∀ (tag : Half) (line reason : Byte) (s : State), s.served (.release tag line reason) = true →
       let p := s.chip.freePort
       let n := line.toNat
       let l := p.line n
       let releasable : Prop := l.state ∈ [.seizing, .awaitTone, .dialling, .awaitAnswer, .answered, .connected]
       ∃ t : Chip, exec (.release tag line reason) s = .next { s with chip := t }
         ∧ (3 < n ∨ reason.toNat < 6 ∨ 9 < reason.toNat → p.AnsweredWith t (.done tag.toNat 19 .badField 0))
         ∧ (n ≤ 3 → 6 ≤ reason.toNat → reason.toNat ≤ 9 →
           (¬ releasable → p.AnsweredWith t (.done tag.toNat 19 .state 0))
           ∧ (releasable → ∃ cause u, cause.code = reason.toNat ∧ u = p.release n cause
               ∧ u.AnsweredWith t (.done tag.toNat 19 .ok 0) ∧ t.line n = l.letGo cause)))
  ∧ (∀ (n : Fin 4) (s : State),
     let l := s.chip.line n
     (∀ cause, l.state = .releasing → l.cause = some cause → l.stateTimer.isSome = true →
       ∃ q : Chip, (s.chip.lineEnters n { l.quiet with cause := none, stateTimer := none, state := .idle }).Told q
           (.released n l.dir cause)
         ∧ exec (.guardExpiry n) s = .next { s with chip := q.arbiterPass })
     ∧ (l.state ≠ .releasing ∨ l.cause = none ∨ l.stateTimer = none → exec (.guardExpiry n) s = .next s))

/-- The charge unit at the end of an attempt (09 R172, R178, R179). The unit timer stops; in meter mode PULSES an
answered outgoing attempt without pulses has its tariff charge posted as a lump; an incoming attempt's pages are those
of its receive document, 0 without one or if that has been freed (log 27). The log sequence counter rises and its word
goes out; with a log set the entry of 64 bytes goes to the log's position, which moves on and wraps; ATTEMPT_ENDED
carries the entry's sequence number, the charge billed and the duration; and the record closes. The entry holds every
field of 11.8: sequence, direction, call record, line, desk, zone, cause, answer and its time, duration, units,
pulses, charges, pages and the number part, two symbols to a byte. A line without an open attempt changes nothing. -/
def Obligations.EndedAttemptIsLogged : Prop :=
  ∀ (p : Chip) (n : Nat) (cause : Cause), n < 4 →
    let a := p.attempt n
    (a.opened = false → p.closeAttempt n cause = p)
    ∧ (a.opened = true →
      let lump : Prop := a.meterPulses = true ∧ a.outward = true ∧ a.answered = true ∧ a.pulses = 0
      let stopped : Chip := { p with charge := { p.charge with
        attempts := tset p.charge.attempts n { a with unitTimer := none } } }
      let number : List Nat := match a.call with
        | some i => ((p.callRec i).dest.drop (p.callRec i).access).filter fun x => decide (x < 12)
        | none => []
      let pages : Nat := if a.outward = true then a.pages else match a.rxDoc with
        | some d => if a.rxGone = true then 0 else (p.doc d).pages.length
        | none => 0
      ∃ (q u : Chip) (bytes : List Byte),
        (lump → stopped.Posted q n a.tariffCharge) ∧ (¬ lump → q = stopped)
        ∧ (let v : Chip := { q with
             charge := { q.charge with
               logSeq := (p.charge.logSeq + 1) % 2 ^ 32
               log := p.charge.log.map fun g => { g with position := (g.position + 1) % g.count }
               attempts := tset q.charge.attempts n { q.attempt n with pages := pages } }
             mport := { q.mport with records := withWord q.mport.records .logNext ++ match p.charge.log with
               | some g => [.logEntry (g.address + g.position * 64) bytes]
               | none => [] } }
           v.Told u (.attemptEnded n cause p.charge.logSeq (q.attempt n).billed a.duration a.call))
        ∧ p.closeAttempt n cause = { u with charge := { u.charge with
            attempts := tset u.charge.attempts n Attempt.closed } }
        ∧ HoldsFields bytes 64 [(0, 4, p.charge.logSeq), (4, 1, if a.outward = true then 2 else 1),
            (5, 1, match a.call with | some i => i | none => 255), (6, 1, n),
            (7, 1, match a.desk with | some d => d | none => 255), (8, 1, match a.zone with | some z => z | none => 255),
            (9, 1, cause.code), (10, 1, number.length), (11, 1, if a.answered = true then 1 else 0),
            (12, 4, if a.answered = true then a.answerDay * 16777216 + a.answerSecond else 0), (16, 4, a.duration),
            (20, 2, a.units), (22, 2, a.pulses), (24, 4, a.tariffCharge), (28, 4, (q.attempt n).billed), (32, 2, pages),
            (36, 20, fieldAt bytes 36 20)]
        ∧ (number.length ≤ 40 → ∀ k, k < 40 →
            (let b := (bytes.getD (36 + k / 2) 0).toNat
             if k % 2 = 0 then b / 16 else b % 16) = number.getD k 0))

/-- The end of an attempt in the call queue (08 R151 to R153, R155): the attempt succeeded if the document has ended and
each page of its list in the call's range is accepted; its outcome is OK then, else PARTIAL for the cause NORMAL, else
the cause. If the outcome is neither OK nor CANCELLED and attempts are left the record waits again, ready after its
interval and a jitter of the redial LFSR, advanced once (past 32 bits the count is free: log 23); otherwise the call
ends: CALL_ENDED, its hold released, its record FREE. The arbiter is then considered (R146). A release (07 R136): the
line is RELEASING on hook, its dial string emptied (log 36), and the line states word goes out. If it was CONNECTED TX
its transmit context stops: its work, call and target are given up, a block read in flight is to be discarded (06 R117),
its ring is reset, READY slots EMPTY, WRITING ones void, position 0, timer STOPPED (04 R73), and a read that waits
consumes no slot of it (R72). A receive context that is not IDLE and not already STOPPING stops with KEEP and no
request: the stop is recorded behind its tasks and carried out as far as it can be (05 R92, R94). The charge unit closes
the attempt record, an outgoing line gives up its record and hands its attempt's end on with its cause, and the guard
time starts. -/
def Obligations.AttemptEndRetriesOrEnds : Prop :=
  (∀ (p : Chip) (i : Nat) (cause : Cause), i < 32 →
    let c := p.callRec i
    let d := p.doc c.doc
    let inRange (n : Nat) : Prop := c.first ≤ n ∧ (c.last = 0 ∨ n ≤ c.last)
    let success : Prop := (d.st = .complete ∨ d.st = .doomed)
      ∧ ∀ n, 1 ≤ n → n ≤ d.pages.length → inRange n → n ∈ c.accepted
    let lfsr := 2 * p.calls.lfsr % 1024 + (p.calls.lfsr / 512 % 2 + p.calls.lfsr / 64 % 2) % 2
    let ready := p.calls.schedule + (c.retry + lfsr % (c.retry / 4 + 1))
    ∃ (outcome : Cause) (u : Chip), p.attemptEnd i cause = u.arbiterPass
      ∧ (success → outcome = .ok)
      ∧ (¬ success → cause = .normal → outcome = .partialSent)
      ∧ (¬ success → cause ≠ .normal → outcome = cause)
      ∧ (outcome ≠ .ok → outcome ≠ .cancelled → c.made < c.allowed →
          (ready < 2 ^ 32 → u = { p with calls := { p.calls with
            lfsr := lfsr
            records := tset p.calls.records i { c with st := .waiting, line := none, ready := ready } } })
          ∧ (2 ^ 32 ≤ ready → ∃ free, u = { p with
            freeIndex := p.freeIndex + 1
            calls := { p.calls with
              lfsr := lfsr
              records := tset p.calls.records i { c with st := .waiting, line := none, ready := free } } }))
      ∧ (outcome = .ok ∨ outcome = .cancelled ∨ c.allowed ≤ c.made → ∃ q v : Chip,
          p.Told q (.callEnded i outcome c.made c.accepted.length c.doc c.desk) ∧ v = q.releaseHold c.doc
          ∧ u = { v with calls := { v.calls with records := tset v.calls.records i CallRecord.free } }))
  ∧ (∀ (p : Chip) (n : Nat) (cause : Cause), n < 4 →
    let l := p.line n
    let released : Line := { l.letGo cause with call := l.call, stateTimer := none }
    let entered := p.lineEnters n released
    let x := p.ren (n + 1)
    let k := p.ing (n + 1)
    let transmits : Prop := l.state = .connected ∧ l.conn = .tx
    let receives : Prop := k.phase ≠ .idle ∧ k.stop = none
    ∃ u r q t : Chip, q = r.closeAttempt n cause
      ∧ (¬ transmits → u = entered)
      ∧ (transmits → u = { entered with
          path := { p.path with held := p.path.held.map fun h =>
            if (h.slot.map (·.1)) = some (n + 1) then { h with slot := none } else h }
          render := tset p.render (n + 1) { RenderCtx.reset with
            reading := x.reading, readDead := x.reading
            ring := x.ring.map fun g => { g with
              slots := g.slots.map fun y => match y.st with
                | .empty => y
                | .writing => { y with void := true }
                | .ready => ⟨.empty, false, ⟨false, false, false, false⟩, 0⟩
              next := 0, stall := .stopped } } })
      ∧ (¬ receives → r = u)
      ∧ (receives → r = Chip.runIngest { u with ingest := tset p.ingest (n + 1) { k with
          stop := some ⟨true, .noRequest, k.doc.getD 0⟩, tasks := k.tasks ++ [.stopAct] } } (n + 1))
      ∧ r.lines = tset p.lines n released ∧ r.calls = p.calls
      ∧ r.attempt n = { p.attempt n with rxGone := (r.attempt n).rxGone }
      ∧ (∀ i, l.dir = .outward → l.call = some i → i < 32 →
          q.callRec i = { p.callRec i with charge := (q.callRec i).charge }
          ∧ t = Chip.attemptEnd (q.lineIs n { q.line n with call := none }) i cause)
      ∧ (l.dir ≠ .outward ∨ l.call = none → t = q)
      ∧ p.release n cause = t.lineIs n { t.line n with stateTimer := some (t.line n).cfg.guard })

/-- STORE_SET (02 R17, R18): a region over the control area is refused BAD_FIELD, one while a document record is in
use STATE; otherwise the store is configured with every block free, the free-blocks word going out if the count
changed (log 35), and DONE carries the number of blocks. DELETE (02 R35, R36): a FREE document is NOT_FOUND, an OPEN
one refused STATE with its hold count; a COMPLETE one is DOOMED, and freed at once if it has neither holds nor block
reads; a DOOMED one is left so; the hold count is the value. -/
def Obligations.StoreSetAndDeleteActOnTheStore : Prop :=
  (∀ (tag : Half) (base : Word) (size : Byte) (reserve lowMark : Half) (s : State),
     s.served (.storeSet tag base size reserve lowMark) = true →
     fieldsRefused (.storeSet tag base size reserve lowMark) = none →
     let p := s.chip.freePort
     let n := size.toNat * 1024
     let overControl : Prop := base.toNat < p.path.strap * 8192 + 8192 ∧ p.path.strap * 8192 < base.toNat + n * 1024
     let inUse : Prop := ∃ d, d < 64 ∧ (p.doc d).st ≠ .free
     ∃ t : Chip, exec (.storeSet tag base size reserve lowMark) s = .next { s with chip := t }
       ∧ (overControl → p.AnsweredWith t (.done tag.toNat 6 .badField 0))
       ∧ (¬ overControl → inUse → p.AnsweredWith t (.done tag.toNat 6 .state 0))
       ∧ (¬ overControl → ¬ inUse → ({ p with
           store := { p.store with
             configured := true, base := base.toNat, blocks := n, reserve := reserve.toNat, lowMark := lowMark.toNat
             pool := List.range n }
           mport := { p.mport with records :=
             if p.store.pool.length = n then p.mport.records else withWord p.mport.records .freeBlocks } } :
               Chip).AnsweredWith t (.done tag.toNat 6 .ok n)))
  ∧ (∀ (tag : Half) (document : Byte) (s : State), s.served (.delete tag document) = true → document.toNat ≤ 63 →
     let p := s.chip.freePort
     let d := document.toNat
     let x := p.doc d
     let doomed : Chip := { p with store := { p.store with docs := tset p.store.docs d { x with st := .doomed } } }
     let reading : Prop := ∃ op ∈ p.engineOps, ∃ c r a, op = .blockRead c r a ∧ r ∈ x.pages
     ∃ t : Chip, exec (.delete tag document) s = .next { s with chip := t }
       ∧ (x.st = .free → p.AnsweredWith t (.done tag.toNat 7 .notFound 0))
       ∧ (x.st = .opened → p.AnsweredWith t (.done tag.toNat 7 .state x.holds))
       ∧ (x.st = .doomed → p.AnsweredWith t (.done tag.toNat 7 .ok x.holds))
       ∧ (x.st = .complete → 0 < x.holds ∨ reading → doomed.AnsweredWith t (.done tag.toNat 7 .ok x.holds))
       ∧ (x.st = .complete → x.holds = 0 → ¬ reading → (doomed.freeDoc d).AnsweredWith t (.done tag.toNat 7 .ok 0)
           ∧ t.doc d = DocRecord.free))

/-- The free pool (02 R20 to R22, R24, R25, R29, R36): an allocation takes the lowest free block, STORE_LOW following
the free-blocks word when the mark is reached (that the word is first: log 37), and is refused with its cause when none
is free or a SCAN document would go into the receive reserve; a document freed gives back every block of its pages,
whose records are FREE, and the pool stays in order; DOC_FREED then carries the pages and blocks freed (R36); an attempt
that received the document has it no longer (log 27), and a PAGES report of it ends (log 31). A hold released lowers the
count, and the last one of a DOOMED document without block reads frees it (R34, R36). -/
def Obligations.PoolGivesLowestAndTakesBack : Prop :=
  (∀ (p : Chip) (c d page : Nat),
    (p.store.pool = [] → ∃ t, p.allocate c d page = (none, t) ∧ p.Told t (.storeFull c d page .blocks))
    ∧ (p.store.pool ≠ [] → (p.doc d).origin = 0 → p.store.pool.length ≤ p.store.reserve →
        ∃ t, p.allocate c d page = (none, t) ∧ p.Told t (.storeFull c d page .reserve))
    ∧ (∀ b rest, p.store.pool = b :: rest → (p.doc d).origin ≠ 0 ∨ p.store.reserve < p.store.pool.length →
        let q : Chip := { p with
          store := { p.store with pool := rest }
          mport := { p.mport with records := withWord p.mport.records .freeBlocks } }
        ∃ t, p.allocate c d page = (some b, t)
          ∧ (rest.length ≠ p.store.lowMark → t = q)
          ∧ (rest.length = p.store.lowMark → q.Told t (.storeLow rest.length p.store.lowMark))))
  ∧ (∀ (p : Chip) (d : Nat), d < 64 → (p.doc d).pages.Nodup → (∀ r ∈ (p.doc d).pages, r < 1024) →
      p.store.pool.Pairwise (· ≤ ·) →
      let t := p.freeDoc d
      t.doc d = DocRecord.free ∧ (∀ r ∈ (p.doc d).pages, t.pageRec r = PageRecord.free)
      ∧ (∀ r, r ∉ (p.doc d).pages → t.pageRec r = p.pageRec r)
      ∧ t.store.pool.Perm (p.store.pool ++ (p.doc d).pages.flatMap fun r => (p.pageRec r).chain)
      ∧ t.store.pool.Pairwise (· ≤ ·)
      ∧ (let marked : Chip := { p with
           store := t.store
           req := { p.req with
             report := p.req.report.map fun g => if g.kind = .pages ∧ g.doc = d then { g with ended := true } else g }
           charge := { p.charge with
             attempts := p.charge.attempts.map fun a => if a.rxDoc = some d then { a with rxGone := true } else a }
           mport := { p.mport with records :=
             if (p.doc d).pages = [] then p.mport.records else withWord p.mport.records .freeBlocks } }
         (∀ r ∈ (p.doc d).pages, (p.pageRec r).chain ≠ []) →
         marked.Told t (.docFreed d (p.doc d).pages.length
           ((p.doc d).pages.map fun r => (p.pageRec r).chain.length).sum)))
  ∧ (∀ (p : Chip) (d : Nat), d < 64 →
      let x := p.doc d
      let q : Chip := { p with store := { p.store with docs := tset p.store.docs d { x with holds := x.holds - 1 } } }
      (x.st = .doomed → x.holds ≤ 1 → p.docReads d = false → p.releaseHold d = q.freeDoc d)
      ∧ (x.st ≠ .doomed ∨ 1 < x.holds ∨ p.docReads d = true → p.releaseHold d = q))

/-- SCAN_BEGIN and CONNECT RX (05 R77, R78, 07 R133): with the line ANSWERED inward for CONNECT RX, the context IDLE,
its ring wide enough, a store configured and a document record FREE, the lowest such record opens with the desk and the
clock, the context is READY on it, DONE carries its number, and the ring logic serves the context. In this order CONNECT
RX of a line not ANSWERED inward is refused STATE, and either request with a desk, width or resolution out of range
BAD_FIELD, of a context not IDLE BUSY, without a bound ring STATE, with a ring too narrow BAD_FIELD, without a store
STATE, and with no document record FREE NO_ROOM. INGEST_STOP and INGEST_SET (05 R83, R92): a stop of a context that is
IDLE is refused STATE, of one already stopping BUSY, and is otherwise recorded with its mode, tag and document and
carried out as far as it can be; a poor-run limit is taken in every state of its context, which is changed in nothing
else. -/
def Obligations.IngestRequestsOpenStopAndLimit : Prop :=
  (∀ (tag : Half) (desk res : Byte) (width : Half) (c d : Nat) (r : IngestRing) (i : Instr) (s : State),
    let p := s.chip.freePort
    let x := p.ing c
    let n := c - 1
    (c = 0 ∧ i = .scanBegin tag desk res width
      ∨ 1 ≤ c ∧ c ≤ 4 ∧ i = .connectRx tag (BitVec.ofNat 8 n) 0 width res desk ∧ (p.line n).state = .answered
        ∧ (p.line n).dir = .inward) →
    s.served i = true → desk.toNat ≤ 63 → goodWidth width.toNat = true → goodRes res.toNat = true →
    x.phase = .idle → x.stop = none → x.ring = some r → width.toNat / 8 + 4 ≤ r.slotSize → p.store.configured = true →
    d < 64 → (p.doc d).st = .free → (∀ e, e < d → (p.doc e).st ≠ .free) →
    let opened : Chip := { p with
      store := { p.store with docs := tset p.store.docs d { DocRecord.free with
        st := .opened, origin := c, desk := desk.toNat, createdDay := p.charge.day, createdSecond := p.charge.second } }
      ingest := tset p.ingest c { x with
        phase := .ready, doc := some d, width := width.toNat, res := res.toNat, lineTotal := 0, badRun := 0 } }
    let on : Chip :=
      if c = 0 then opened
      else { opened.lineEnters n { p.line n with conn := .rx, state := .connected } with
        charge := { p.charge with attempts := tset p.charge.attempts n { p.attempt n with
          desk := some desk.toNat, rxDoc := some d, rxGone := false } } }
    ∃ q t : Chip, exec i s = .next { s with chip := t }
      ∧ on.Told q (.done tag.toNat (if c = 0 then 9 else 17) .ok d) ∧ (q.serveRing c).Ended t)
  ∧ (∀ (tag : Half) (desk res : Byte) (width : Half) (c : Nat) (i : Instr) (s : State),
    let p := s.chip.freePort
    let x := p.ing c
    let l := p.line (c - 1)
    (c = 0 ∧ i = .scanBegin tag desk res width
      ∨ 1 ≤ c ∧ c ≤ 4 ∧ i = .connectRx tag (BitVec.ofNat 8 (c - 1)) 0 width res desk) →
    s.served i = true →
    let lineOk : Prop := c = 0 ∨ l.state = .answered ∧ l.dir = .inward
    let inRange : Prop := desk.toNat ≤ 63 ∧ width.toNat % 32 = 0 ∧ 512 ≤ width.toNat ∧ width.toNat ≤ 2432
      ∧ (res.toNat = 1 ∨ res.toNat = 2 ∨ res.toNat = 4)
    let idle : Prop := x.phase = .idle ∧ x.stop = none
    let refused (result : Result) : Prop := ∃ t : Chip, exec i s = .next { s with chip := t }
      ∧ p.AnsweredWith t (.done tag.toNat (if c = 0 then 9 else 17) result 0)
    (¬ lineOk → refused .state)
    ∧ (lineOk → ¬ inRange → refused .badField)
    ∧ (lineOk → inRange → ¬ idle → refused .busy)
    ∧ (lineOk → inRange → idle → x.ring = none → refused .state)
    ∧ (∀ r, lineOk → inRange → idle → x.ring = some r →
      (r.slotSize < width.toNat / 8 + 4 → refused .badField)
      ∧ (width.toNat / 8 + 4 ≤ r.slotSize →
        (p.store.configured = false → refused .state)
        ∧ (p.store.configured = true → (∀ e, e < 64 → (p.doc e).st ≠ .free) → refused .noRoom))))
  ∧ (∀ (tag : Half) (context x : Byte) (s : State), context.toNat ≤ 4 →
    let p := s.chip.freePort
    let c := context.toNat
    let k := p.ing c
    (s.served (.ingestStop tag context x) = true → x.toNat ≤ 1 →
      ∃ t : Chip, exec (.ingestStop tag context x) s = .next { s with chip := t }
        ∧ (k.stop = none → k.phase = .idle → p.AnsweredWith t (.done tag.toNat 10 .state 0))
        ∧ (k.stop.isSome = true → p.AnsweredWith t (.done tag.toNat 10 .busy 0))
        ∧ (k.stop = none → k.phase ≠ .idle → Chip.Ended (Chip.runIngest { p with ingest := tset p.ingest c { k with
            stop := some ⟨decide (x.toNat = 0), .request tag.toNat, k.doc.getD 0⟩
            tasks := k.tasks ++ [.stopAct] } } c) t))
    ∧ (s.served (.ingestSet tag context x) = true → x.toNat ≠ 0 →
      ∃ t : Chip, exec (.ingestSet tag context x) s = .next { s with chip := t }
        ∧ ({ p with ingest := tset p.ingest c { k with poorLimit := x.toNat } } : Chip).AnsweredWith t
            (.done tag.toNat 11 .ok 0)))

/-! ## Requests of the print queue and the transmit contexts -/

/-- PRINT_SETUP and PRINT (06 R104, R106, 04 R75): with PRINT idle, no job in use and the ring wide enough the setup
is taken; a job for a document that is not gone takes the lowest FREE record and the tail of the queue, its copies
brought into 1..99, and a hold on the document, DONE carries its number, and an IDLE PRINT context then takes the head
job. PRINT_SETUP while PRINT is not IDLE or a job is in use is refused STATE, without a ring STATE, with a ring too
narrow BAD_FIELD; PRINT without a setup, without a ring or with one too narrow STATE, of a document FREE or DOOMED
GONE, with no job record FREE NO_ROOM. -/
def Obligations.PrintTakesSetupAndJob : Prop :=
  (∀ (tag : Half) (r : RenderRing) (s : State),
    let p := s.chip.freePort
    (p.ren 0).ring = some r →
    (∀ (width : Half) (res stall : Byte), s.served (.printSetup tag width res stall) = true →
      fieldsRefused (.printSetup tag width res stall) = none → (p.ren 0).state = .idle →
      (∀ j, j < 16 → (p.job j).st = .free) → width.toNat / 8 + 4 ≤ r.slotSize →
      ∃ t : Chip, exec (.printSetup tag width res stall) s = .next { s with chip := t }
        ∧ ({ p with
            print := { p.print with setup := some (width.toNat, res.toNat), stallSeconds := stall.toNat }
            render := tset p.render 0 { p.ren 0 with target := some (width.toNat, res.toNat) } } : Chip).AnsweredWith t
            (.done tag.toNat 12 .ok 0))
    ∧ (∀ (document first last copies : Byte) (w res j : Nat), s.served (.print tag document first last copies) = true →
      fieldsRefused (.print tag document first last copies) = none → p.print.setup = some (w, res) →
      w / 8 + 4 ≤ r.slotSize → (p.doc document.toNat).st = .opened ∨ (p.doc document.toNat).st = .complete →
      j < 16 → (p.job j).st = .free → (∀ k, k < j → (p.job k).st ≠ .free) →
      ∃ q t : Chip, exec (.print tag document first last copies) s = .next { s with chip := t }
        ∧ ({ p with
            print := { p.print with
              jobs := tset p.print.jobs j { Job.free with
                st := .queued, doc := document.toNat, first := first.toNat, last := last.toNat
                copies := max 1 (min 99 copies.toNat) }
              queue := p.print.queue ++ [j] }
            store := { p.store with docs := tset p.store.docs document.toNat { p.doc document.toNat with
              holds := (p.doc document.toNat).holds + 1 } } } : Chip).Told q (.done tag.toNat 13 .ok j)
        ∧ (if (p.ren 0).state = .idle then q.printTake.advance 0 else q).Ended t))
  ∧ (∀ (tag width : Half) (res stall : Byte) (s : State), s.served (.printSetup tag width res stall) = true →
    fieldsRefused (.printSetup tag width res stall) = none →
    let p := s.chip.freePort
    let atRest : Prop := (p.ren 0).state = .idle ∧ ∀ j, j < 16 → (p.job j).st = .free
    ∃ t : Chip, exec (.printSetup tag width res stall) s = .next { s with chip := t }
      ∧ (¬ atRest → p.AnsweredWith t (.done tag.toNat 12 .state 0))
      ∧ (atRest → (p.ren 0).ring = none → p.AnsweredWith t (.done tag.toNat 12 .state 0))
      ∧ (∀ r, atRest → (p.ren 0).ring = some r → r.slotSize < width.toNat / 8 + 4 →
          p.AnsweredWith t (.done tag.toNat 12 .badField 0)))
  ∧ (∀ (tag : Half) (document first last copies : Byte) (s : State),
    s.served (.print tag document first last copies) = true →
    fieldsRefused (.print tag document first last copies) = none →
    let p := s.chip.freePort
    let ready : Prop := ∃ w res r, p.print.setup = some (w, res) ∧ (p.ren 0).ring = some r ∧ w / 8 + 4 ≤ r.slotSize
    let gone : Prop := (p.doc document.toNat).st = .free ∨ (p.doc document.toNat).st = .doomed
    ∃ t : Chip, exec (.print tag document first last copies) s = .next { s with chip := t }
      ∧ (¬ ready → p.AnsweredWith t (.done tag.toNat 13 .state 0))
      ∧ (ready → gone → p.AnsweredWith t (.done tag.toNat 13 .gone 0))
      ∧ (ready → ¬ gone → (∀ j, j < 16 → (p.job j).st ≠ .free) → p.AnsweredWith t (.done tag.toNat 13 .noRoom 0)))

/-- PRINT_CANCEL (06 R110): a FREE job is NOT_FOUND; a QUEUED one leaves the queue, PRINT_DONE says CANCELLED, its
hold is released and its record FREE; an ACTIVE one not yet ending gives up what it decodes and ends on one NO-LINE
slot with END_PAGE, END_DOC and CUT; one that ends, its final slot handed (when: log 45), or is FINISHING is refused
STATE. -/
def Obligations.PrintCancelEndsTheJob : Prop :=
  ∀ (tag : Half) (job : Byte) (s : State), s.served (.printCancel tag job) = true → job.toNat ≤ 15 →
    let p := s.chip.freePort
    let x := p.job job.toNat
    let y := p.ren 0
    ∃ t : Chip, exec (.printCancel tag job) s = .next { s with chip := t }
      ∧ (x.st = .free → p.AnsweredWith t (.done tag.toNat 14 .notFound 0))
      ∧ (x.st = .finishing ∨ x.st = .active ∧ y.state = .ending → p.AnsweredWith t (.done tag.toNat 14 .state 0))
      ∧ (x.st = .queued → ∃ q u : Chip,
          ({ p with print := { p.print with
              queue := p.print.queue.filter fun k => k != job.toNat
              jobs := tset p.print.jobs job.toNat { x with cancelled := true } } } : Chip).Told q
            (.printDone job.toNat x.doc x.pagesOut true x.short x.corrupt x.restart)
          ∧ u = q.releaseHold x.doc
          ∧ ({ u with print := { u.print with jobs := tset u.print.jobs job.toNat Job.free } } : Chip).AnsweredWith t
              (.done tag.toNat 14 .ok 0))
      ∧ (x.st = .active → y.state ≠ .ending → (Chip.advance { p with
          print := { p.print with jobs := tset p.print.jobs job.toNat { x with cancelled := true } }
          render := tset p.render 0 { y with
            state := .ending, source := none, decoder := Decoder.blank, vertical := Vertical.blank
            readDead := y.reading, outgoing := some ⟨false, true, true, true⟩ } } 0).AnsweredWith t
            (.done tag.toNat 14 .ok 0))

/-- CONNECT TX (06 R112, 07 R133): on a line ANSWERED outward with a wide enough ring the line is CONNECTED to transmit,
its context takes the call record and the target, the sequence counter starts at 0 and the first page is selected; DONE
carries the page, or 0 in DOC_DONE. Otherwise the line and the context stay as they are. -/
def Obligations.ConnectTxStartsTransmission : Prop :=
  ∀ (tag : Half) (line : Byte) (width : Half) (res : Byte) (s : State),
    s.served (.connectTx tag line width res) = true → line.toNat ≤ 3 →
    let p := s.chip.freePort
    let n := line.toNat
    let l := p.line n
    let x := p.ren (n + 1)
    let outward : Prop := l.state = .answered ∧ l.dir = .outward ∧ l.call.isSome = true
    let inRange : Bool := goodWidth width.toNat && goodRes res.toNat
    ∃ t : Chip, exec (.connectTx tag line width res) s = .next { s with chip := t }
      ∧ (¬ outward → p.AnsweredWith t (.done tag.toNat 17 .state 0))
      ∧ (outward → inRange = false → p.AnsweredWith t (.done tag.toNat 17 .badField 0))
      ∧ (outward → inRange = true → x.ring = none → p.AnsweredWith t (.done tag.toNat 17 .state 0))
      ∧ (∀ r, outward → inRange = true → x.ring = some r → r.slotSize < width.toNat / 8 + 4 →
          p.AnsweredWith t (.done tag.toNat 17 .badField 0))
      ∧ (∀ r i, outward → inRange = true → x.ring = some r → width.toNat / 8 + 4 ≤ r.slotSize → l.call = some i →
          let q := Chip.advance (Chip.txSelect { p.lineEnters n { l with conn := .tx, state := .connected } with
            render := tset p.render (n + 1) { x with
              target := some (width.toNat, res.toNat), call := some i, position := (p.callRec i).first - 1
              ring := some { r with sequence := 0 } } } (n + 1)) (n + 1)
          q.AnsweredWith t (.done tag.toNat 17 .ok
            (if (q.ren (n + 1)).state = .docDone then 0 else (q.ren (n + 1)).page)))

/-- PAGE_RESULT (06 R114, 09 R174): outside PAGE_WAIT it is refused STATE; ACCEPTED puts the page in the call's
accepted set and counts a page sent, of the desk and of the attempt (09 R174); RESEND moves the position back and
counts, a fourth being taken as REJECTED, which leaves the page out; the context then selects its next page, and DONE
carries the result as taken. -/
def Obligations.PageResultActsOnThePage : Prop :=
  ∀ (tag : Half) (line result : Byte) (s : State), s.served (.pageResult tag line result) = true → line.toNat ≤ 3 →
    result.toNat ≤ 2 →
    let p := s.chip.freePort
    let n := line.toNat
    let x := p.ren (n + 1)
    let page := x.position
    ∃ t : Chip, exec (.pageResult tag line result) s = .next { s with chip := t }
      ∧ (x.state ≠ .pageWait ∨ x.call = none → p.AnsweredWith t (.done tag.toNat 18 .state 0))
      ∧ (∀ i, x.state = .pageWait → x.call = some i →
          let c := p.callRec i
          let taken := if result.toNat = 1 ∧ 3 ≤ c.resends.count page then 2 else result.toNat
          let after : Chip :=
            if taken = 0 then { p with
              calls := { p.calls with records := tset p.calls.records i { c with
                accepted := if page ∈ c.accepted then c.accepted else c.accepted ++ [page] } }
              charge := { p.charge with
                accounts := match (p.attempt n).desk with
                  | some d => tset p.charge.accounts d { p.account d with sent := min 65535 ((p.account d).sent + 1) }
                  | none => p.charge.accounts
                attempts := tset p.charge.attempts n { p.attempt n with pages := (p.attempt n).pages + 1 } } }
            else if taken = 1 then { p with
              calls := { p.calls with records := tset p.calls.records i { c with resends := c.resends ++ [page] } }
              render := tset p.render (n + 1) { x with position := page - 1 } }
            else p
          ((after.txSelect (n + 1)).advance (n + 1)).AnsweredWith t (.done tag.toNat 18 .ok taken))

/-! ## Requests of the lines and the call scheduler -/

/-- LINE_SET and ANSWER (07 R124, R139, 08 R146; log 20): the ranges of LINE_SET's fields stand first; an IDLE line
takes its whole configuration (the count of its MP qualifier judged by the new time: log 39), and one that now allows
outgoing calls considers the arbiter; a RINGING line goes off hook and is ANSWERING; in any other state each is
refused STATE. -/
def Obligations.LineRequestsActOnTheLine : Prop :=
  (∀ f : LineSetFields, lineSetGood f = true ↔
    f.line.toNat ≤ 3 ∧ f.method.toNat ≤ 1 ∧ f.prescale.toNat ∈ [1, 4, 16, 64] ∧ f.breakCount.toNat ≤ f.period.toNat
    ∧ 256 ≤ f.gap.toNat ∧ f.gap.toNat ≤ 4095 ∧ 32 ≤ f.toneOn.toNat ∧ f.toneOn.toNat ≤ 1023
    ∧ 32 ≤ f.toneOff.toNat ∧ f.toneOff.toNat ≤ 1023 ∧ 1 ≤ f.pause.toNat ∧ f.pause.toNat ≤ 15
    ∧ 1 ≤ f.toneWait.toNat ∧ f.toneWait.toNat ≤ 30 ∧ 10 ≤ f.answerWait.toNat ∧ f.answerWait.toNat ≤ 120
    ∧ f.settle.toNat ∈ [32, 64, 128] ∧ 64 ≤ f.ringQualify.toNat ∧ f.ringQualify.toNat ≤ 1023
    ∧ 4 ≤ f.meterQualify.toNat ∧ 256 ≤ f.guard.toNat ∧ f.guard.toNat ≤ 8191 ∧ 1 ≤ f.txStall.toNat
    ∧ f.txStall.toNat ≤ 60)
  ∧ (∀ (tag : Half) (f : LineSetFields) (s : State), s.served (.lineSet tag f) = true → lineSetGood f = true →
    let p := s.chip.freePort
    let l := p.line f.line.toNat
    ∃ q t : Chip, exec (.lineSet tag f) s = .next { s with chip := t }
      ∧ (l.state ≠ .idle → p.AnsweredWith t (.done tag.toNat 15 .state 0))
      ∧ (l.state = .idle → (p.lineIs f.line.toNat { l with
          mpQ := if l.mpQ.present = true ∧ f.meterQualify.toNat ≤ l.mpQ.count then ⟨false, 0⟩ else l.mpQ
          cfg := {
            pulse := decide (f.method.toNat = 1), prescale := f.prescale.toNat, period := f.period.toNat
            breakCount := f.breakCount.toNat, gap := f.gap.toNat, toneOn := f.toneOn.toNat, toneOff := f.toneOff.toNat
            pause := f.pause.toNat, toneWait := f.toneWait.toNat, answerWait := f.answerWait.toNat
            settle := f.settle.toNat, ringQualify := f.ringQualify.toNat, meterQualify := f.meterQualify.toNat
            guard := f.guard.toNat, blind := f.flags.getLsbD 0, outgoing := f.flags.getLsbD 1
            meterPulses := f.flags.getLsbD 2, meterValue := f.meterValue.toNat, txStall := f.txStall.toNat } }).Told q
              (.done tag.toNat 15 .ok 0)
          ∧ (if l.cfg.outgoing = false ∧ f.flags.getLsbD 1 = true then q.arbiterPass else q).Ended t))
  ∧ (∀ (tag : Half) (line : Byte) (s : State), s.served (.answer tag line) = true → line.toNat ≤ 3 →
    let p := s.chip.freePort
    let l := p.line line.toNat
    ∃ t : Chip, exec (.answer tag line) s = .next { s with chip := t }
      ∧ (l.state ≠ .ringing → p.AnsweredWith t (.done tag.toNat 16 .state 0))
      ∧ (l.state = .ringing → (p.lineEnters line.toNat { l.hooked true with ringEnd := none, state := .answering }).AnsweredWith
          t (.done tag.toNat 16 .ok 0)))

/-- CALL (08 R144, R145): the ranges of its fields stand first; then, with a record FREE and the document not gone, a
NORMAL call of a BLOCKED desk is refused BUDGET; an accepted call fills the lowest FREE record with its fields,
attempts brought into 1..15 and the retry delay into 10..3600, its acceptance number and its ready time, takes a hold,
DONE carries the record, and the arbiter is considered. (A ready time past 32 bits: log 23.) -/
def Obligations.CallFillsALowestRecord : Prop :=
  (∀ f : CallFields, callGood f = true ↔
    1 ≤ f.count.toNat ∧ f.count.toNat ≤ 40 ∧ (∀ x ∈ f.dest.take f.count.toNat, x.toNat ≤ 13)
    ∧ f.access.toNat ≤ 8 ∧ f.access.toNat ≤ f.count.toNat ∧ f.desk.toNat ≤ 63 ∧ f.document.toNat ≤ 63
    ∧ f.first.toNat ≠ 0 ∧ (f.last.toNat = 0 ∨ f.first.toNat ≤ f.last.toNat) ∧ f.priority.toNat ≤ 1
    ∧ (∃ n, n < 4 ∧ f.lineMask.getLsbD n = true)
    ∧ (f.flags.getLsbD 0 = true → f.nbDay.toNat ≤ 6 ∧ f.nbSecond.toNat ≤ 86399))
  ∧ (∀ (tag : Half) (f : CallFields) (s : State), s.served (.call tag f) = true → callGood f = true →
    let p := s.chip.freePort
    let d := f.document.toNat
    let now := p.charge.day * 86400 + p.charge.second
    let delay := if f.flags.getLsbD 0 = true
      then (f.nbDay.toNat * 86400 + f.nbSecond.toNat + 604800 - now) % 604800 else 0
    let gone : Prop := (p.doc d).st = .free ∨ (p.doc d).st = .doomed
    let overBudget : Prop := f.priority.toNat = 0 ∧ (p.account f.desk.toNat).blocked = true
    ∃ t : Chip, exec (.call tag f) s = .next { s with chip := t }
      ∧ ((∀ i, i < 32 → (p.callRec i).st ≠ .free) → p.AnsweredWith t (.done tag.toNat 21 .noRoom 0))
      ∧ (∀ i, i < 32 → (p.callRec i).st = .free → (∀ j, j < i → (p.callRec j).st ≠ .free) →
        (gone → p.AnsweredWith t (.done tag.toNat 21 .gone 0))
        ∧ (¬ gone → overBudget → p.AnsweredWith t (.done tag.toNat 21 .budget 0))
        ∧ (¬ gone → ¬ overBudget → p.calls.schedule + delay < 2 ^ 32 → ∃ q : Chip,
          ({ p with
            calls := { p.calls with
              acceptance := (p.calls.acceptance + 1) % 2 ^ 32
              records := tset p.calls.records i { CallRecord.free with
                st := .waiting, dest := (f.dest.map BitVec.toNat).take f.count.toNat, access := f.access.toNat
                desk := f.desk.toNat, doc := d, first := f.first.toNat, last := f.last.toNat
                flash := decide (f.priority.toNat = 1), allowed := max 1 (min 15 f.attempts.toNat)
                retry := max 10 (min 3600 f.retry.toNat)
                mask := [0, 1, 2, 3].filter fun n => f.lineMask.getLsbD n
                sequence := p.calls.acceptance, ready := p.calls.schedule + delay } }
            store := { p.store with docs := tset p.store.docs d { p.doc d with holds := (p.doc d).holds + 1 } } } :
              Chip).Told q (.done tag.toNat 21 .ok i)
          ∧ q.arbiterPass.Ended t)))

/-- CALL_CANCEL (08 R155, R157): a FREE record is NOT_FOUND; a WAITING one ends CANCELLED, its hold released and its
record FREE; an ACTIVE one has its line released CANCELLED, its dial string emptied with it (log 36); DONE follows with
the attempts made. -/
def Obligations.CallCancelEndsTheCall : Prop :=
  ∀ (tag : Half) (record : Byte) (s : State), s.served (.callCancel tag record) = true → record.toNat ≤ 31 →
    let p := s.chip.freePort
    let i := record.toNat
    let c := p.callRec i
    ∃ t : Chip, exec (.callCancel tag record) s = .next { s with chip := t }
      ∧ (c.st = .free → p.AnsweredWith t (.done tag.toNat 22 .notFound 0))
      ∧ (c.st = .waiting → ∃ q u : Chip, p.Told q (.callEnded i .cancelled c.made c.accepted.length c.doc c.desk)
          ∧ u = q.releaseHold c.doc
          ∧ ({ u with calls := { u.calls with records := tset u.calls.records i CallRecord.free } } : Chip).AnsweredWith t
              (.done tag.toNat 22 .ok c.made))
      ∧ (∀ n, c.st = .active → c.line = some n → n < 4 →
          (p.release n .cancelled).AnsweredWith t (.done tag.toNat 22 .ok c.made)
          ∧ t.line n = (p.line n).letGo .cancelled)

/-- An arbiter pass (08 R147 to R149, 07 R125): it takes each eligible record once, FLASH before NORMAL, then by ready
time, then by queue sequence (records equal in all three: log 43). A record whose document has ended with every page
in its range accepted ends OK without a seizure. Of another, a NORMAL record is passed over while the lines assigned
to calls reach the limit; a record that is not is assigned to the lowest IDLE line of its mask that allows outgoing
calls: it is ACTIVE on the line, its attempts rise, its resend counts and charge return to 0, the line takes its
record and destination, goes off hook and is SEIZING, and the attempt record opens; without such a line it is passed
over. -/
def Obligations.ArbiterPassKeepsItsOrder : Prop :=
  (∀ p : Chip, ∃ order : List Nat, p.arbiterPass = order.foldl Chip.passRecord p ∧ order.Nodup
    ∧ (∀ i, i ∈ order ↔ i < 32 ∧ (p.callRec i).st = .waiting ∧ (p.callRec i).ready ≤ p.calls.schedule
        ∧ ((p.callRec i).flash = true ∨ (p.account (p.callRec i).desk).blocked = false))
    ∧ order.Pairwise fun i j =>
        let a := p.callRec i
        let b := p.callRec j
        a.flash = true ∧ b.flash = false
          ∨ a.flash = b.flash ∧ (a.ready < b.ready ∨ a.ready = b.ready ∧ a.sequence ≤ b.sequence))
  ∧ (∀ (p : Chip) (i : Nat), i < 32 →
    let c := p.callRec i
    let d := p.doc c.doc
    let allSent : Prop := (d.st = .complete ∨ d.st = .doomed)
      ∧ ∀ n, 1 ≤ n → n ≤ d.pages.length → c.first ≤ n → (c.last = 0 ∨ n ≤ c.last) → n ∈ c.accepted
    let assigned : Nat := ((List.range 4).filter fun n =>
      let l := p.line n
      decide (l.state ∈ [.seizing, .awaitTone, .dialling, .awaitAnswer]
        ∨ l.state ∈ [.answered, .connected] ∧ l.dir = .outward)).length
    let usable (n : Nat) : Prop := n < 4 ∧ (p.line n).state = .idle ∧ (p.line n).cfg.outgoing = true ∧ n ∈ c.mask
    (allSent → ∃ q v : Chip, p.Told q (.callEnded i .ok c.made c.accepted.length c.doc c.desk) ∧ v = q.releaseHold c.doc
      ∧ p.passRecord i = { v with calls := { v.calls with records := tset v.calls.records i CallRecord.free } })
    ∧ (¬ allSent → c.flash = false → p.calls.limit ≤ assigned → p.passRecord i = p)
    ∧ (¬ allSent → c.flash = true ∨ assigned < p.calls.limit →
      ((∀ n, ¬ usable n) → p.passRecord i = p)
      ∧ ∀ n, usable n → (∀ m, m < n → ¬ usable m) →
        let l := p.line n
        p.passRecord i = { p with
          calls := { p.calls with records := tset p.calls.records i { c with
            st := .active, line := some n, made := c.made + 1, resends := [], charge := 0 } }
          lines := tset p.lines n { l.hooked true with
            call := some i, dir := .outward, dial := c.dest, pos := 0, state := .seizing }
          mport := { p.mport with records := withWord p.mport.records .lineStates }
          charge := { p.charge with attempts := tset p.charge.attempts n { Attempt.closed with
            opened := true, outward := true, call := some i, desk := some c.desk
            meterPulses := l.cfg.meterPulses, meterValue := l.cfg.meterValue } } }))

/-! ## Coding and conversion -/

/-- Every line code reads back (01 R3 to R6, R8, R12): whatever the reference line, the code of a line of the page's
width is read as that line, which becomes the reference line, and no bit of what follows is taken; the SAME code of n
lines is read as the reference line, n - 1 more to come. -/
def Obligations.LineCodesReadBack : Prop :=
  (∀ (w left : Nat) (ref line rest : List Bool), 0 < w → ref.length = w → line.length = w →
    readCode w ref left (lineCode ref line ++ rest) = .line line rest 0 true)
  ∧ (∀ (w n left : Nat) (ref rest : List Bool), 1 ≤ n → n ≤ 64 → n ≤ left →
    readCode w ref left (sameCode n ++ rest) = .line ref rest (n - 1) false)

/-- A page decodes to what was coded (01 R7 to R9, R12): the lines of a page, taken by the coder one by one with its
open SAME run emitted at the end, give a stream from which the decoder produces the same lines in the same order. A
corrupt page (R13, R14): in a RUNS code a run that passes the width, a zero count that must pass it, or a later run of
0, in a DELTA code no reference transition, four 1 bits, or a transition outside the line or not above the last, and a
SAME code of more lines than are left, are corruption, and so is the stream's end in any code. The current line then
stands as its accepted runs or transitions left it, white from the end of the last run or from the last transition on,
white for SAME or at a tag; every later line is white; and whatever its bits a page gives just its stored number of
lines. -/
def Obligations.PageDecodesToItsLines : Prop :=
  (∀ (w : Nat) (lines : List (List Bool)), 0 < w → (∀ x ∈ lines, x.length = w) →
    decodedLines ⟨0, w, 1, lines.length, (pageStream w lines).length, [], false⟩ lines.length
      { Decoder.start w with held := pageStream w lines } = lines)
  ∧ (∀ (w left : Nat) (ref : List Bool), 0 < w → ref.length = w →
    (∀ runs : List Nat, runs.sum < w → (∀ r ∈ runs.tail, 0 < r) →
      let k := if runs.length % 2 = 0 then 3 else 1
      let pels := layRuns false runs ++ List.replicate (w - runs.sum) false
      let read (next : List Bool) : CodeRead := readCode w ref left ([true, false] ++ runCodes false runs ++ next)
      (∀ v rest, w < runs.sum + v → read (runCode k v ++ rest) = .bad pels)
      ∧ (∀ z rest, w + 2 ^ k < runs.sum + 2 ^ (z + k) → read (List.replicate z false ++ rest) = .bad pels)
      ∧ (∀ rest, runs ≠ [] → read (runCode k 0 ++ rest) = .bad pels)
      ∧ (∀ v part, runs.sum + v ≤ w → part <+: runCode k v → part ≠ runCode k v → read part = .short pels))
    ∧ (∀ (before accepted rs : List Nat) (r : Nat) (codes : List Bool), transitions ref = before ++ r :: rs →
      offsetCodes before accepted = some codes → accepted.Pairwise (· < ·) → (∀ t ∈ accepted, t < w) →
      ∃ pels : List Bool, pels.length = w
        ∧ (∀ x, x < w → pels.getD x false = match accepted.getLast? with
            | some q => decide (x < q) && (lineOf w accepted).getD x false
            | none => false)
        ∧ (let read (next : List Bool) : CodeRead := readCode w ref left ([true, true] ++ codes ++ next)
          (∀ rest, read ([true, true, true, true] ++ rest) = .bad pels)
          ∧ (∀ (d : Int) (code rest : List Bool), offsetCode d = some code →
              ((r : Int) + d < 0 ∨ (w : Int) ≤ r + d ∨ ∃ q, accepted.getLast? = some q ∧ (r : Int) + d ≤ q) →
              read (code ++ rest) = .bad pels)
          ∧ (∀ (d : Int) (code part : List Bool), offsetCode d = some code → part <+: code → part ≠ code →
              read part = .short pels)))
    ∧ (∀ rest, transitions ref = [] → readCode w ref left ([true, true] ++ rest) = .bad (whiteLine w))
    ∧ (∀ n rest, 1 ≤ n → n ≤ 64 → left < n → readCode w ref left (sameCode n ++ rest) = .bad (whiteLine w))
    ∧ (∀ part, part.length < 6 → readCode w ref left ([false, true] ++ part) = .short (whiteLine w))
    ∧ (∀ part, part.length < 2 → readCode w ref left part = .short (whiteLine w)))
  ∧ (∀ (src : Source) (d : Decoder),
    let read := readCode src.width d.ref (src.lines - d.produced) (d.held.take (src.bitLength - d.pos))
    (∀ pels, d.corrupt = false → d.again = 0 →
      read = .bad pels ∨ read = .short pels ∧ src.bitLength ≤ d.pos + d.held.length →
      d.next src = .line pels { d with produced := d.produced + 1, corrupt := true } true)
    ∧ (∀ n, d.corrupt = true → decodedLines src n d = List.replicate n (whiteLine src.width)))
  ∧ (∀ (w n : Nat) (bits : List Bool),
    (decodedLines ⟨0, w, 1, n, bits.length, [], false⟩ n { Decoder.start w with held := bits }).length = n)

/-- Conversion. The vertical stage (06 R100): at equal resolutions the lines of a page pass as they are; going up each
is repeated as often as the ratio says; going down each group of as many lines as the ratio says, the last perhaps
smaller, becomes one line, black where a line of the group is. The width stage (R101, R102): a line no wider than the
target is centred in white; a wider one is reduced so that an output pel is black just if a pel of its source range
is, and every source pel lies in one range, so no black pel is lost. -/
def Obligations.ConversionKeepsBlackPels : Prop :=
  (∀ (rs rt w : Nat) (lines : List (List Bool)), rs ∈ [1, 2, 4] → rt ∈ [1, 2, 4] → (∀ x ∈ lines, x.length = w) →
    let out := verticalLines rs rt Vertical.blank lines
    (rs = rt → out = lines)
    ∧ (rs < rt → out = lines.flatMap fun x => List.replicate (rt / rs) x)
    ∧ (rt < rs →
      let g := rs / rt
      out.length = (lines.length + g - 1) / g
      ∧ ∀ k x, k < out.length → x < w → ((out.getD k []).getD x false = true ↔
          ∃ i, k * g ≤ i ∧ i < (k + 1) * g ∧ i < lines.length ∧ (lines.getD i []).getD x false = true)))
  ∧ (∀ (wt : Nat) (line : List Bool), 0 < wt →
    (fitWidth wt line).length = wt
    ∧ (line.length ≤ wt → ∀ x, x < wt → (fitWidth wt line).getD x false =
        if (wt - line.length) / 2 ≤ x ∧ x < (wt - line.length) / 2 + line.length
        then line.getD (x - (wt - line.length) / 2) false else false)
    ∧ (wt < line.length →
      (∀ x, x < wt → ((fitWidth wt line).getD x false = true ↔
        ∃ i, x * line.length / wt ≤ i ∧ i ≤ (x + 1) * line.length / wt - 1 ∧ line.getD i false = true))
      ∧ ∀ i, i < line.length → line.getD i false = true →
        ∃ x, x < wt ∧ x * line.length / wt ≤ i ∧ i < (x + 1) * line.length / wt ∧ (fitWidth wt line).getD x false = true))

/-! ## Invariants of every step -/

/-- After reset, memory is in canonical form, the notice ring and the posting queue are within their bounds, the LFSR is
in its range, every DIGIT follows its TONE_ON, and the laws of the call queue and of the page store hold; that nothing
is listed in memory, each byte reading 0, is the model's choice (logs 1 and 2). -/
def Obligations.ResetMeetsTheInvariants : Prop :=
  State.reset.MemoryCanonical ∧ State.reset.chip.NoticesBounded ∧ State.reset.chip.PostingBounded
  ∧ State.reset.chip.LfsrInRange ∧ State.reset.chip.DigitsFollowTones
  ∧ State.reset.chip.CallsOnLines ∧ State.reset.chip.AttemptsAllowed ∧ State.reset.chip.StoreWhole
  ∧ State.reset.chip.HoldsCounted

/-- Every step keeps page memory in its canonical form. -/
def Obligations.EveryStepKeepsMemoryCanonical : Prop :=
  ∀ s t : State, s.MemoryCanonical → step s = .next t → t.MemoryCanonical

/-- Every step keeps the part's bounds: 128 unconsumed notices at most (10 R186), eight posted writes at most (03
R47), the redial LFSR in 1..1023 (08 R153), and a nonzero DIGIT just while TONE_ON is asserted (07 R118). -/
def Obligations.EveryStepKeepsThePartsBounds : Prop :=
  ∀ s t : State, step s = .next t →
    (s.chip.NoticesBounded → t.chip.NoticesBounded) ∧ (s.chip.PostingBounded → t.chip.PostingBounded)
    ∧ (s.chip.LfsrInRange → t.chip.LfsrInRange) ∧ (s.chip.DigitsFollowTones → t.chip.DigitsFollowTones)

/-- Every step keeps the laws of the call queue: each line is assigned to at most one call record, each ACTIVE record to
just one line and no WAITING one to any (08 R149, R151), a line with a record being outgoing and in one of the states
of a call (07 R136); and attempts made never exceed attempts allowed, those of a WAITING record being below them (R152). -/
def Obligations.EveryStepKeepsTheCallQueueLaws : Prop :=
  ∀ s t : State, step s = .next t →
    (s.chip.CallsOnLines → t.chip.CallsOnLines) ∧ (s.chip.AttemptsAllowed → t.chip.AttemptsAllowed)

/-- Every step keeps the laws of the page store: each block of the store is either in the free pool or in the chain of
just one page record (02 R20), as StoreWhole says with what it rests on; and while the call queue keeps its own law
each document's hold count is the number of print jobs and call records that hold it (02 R34), a FINISHING job holding
its document where R108 of 06 defers the release, as HoldsCounted says with what it rests on. -/
def Obligations.EveryStepKeepsTheStoreLaws : Prop :=
  ∀ s t : State, step s = .next t →
    (s.chip.StoreWhole → t.chip.StoreWhole) ∧ (s.chip.CallsOnLines → s.chip.HoldsCounted → t.chip.HoldsCounted)
end

