-- ==== Sys2Proof/Laws/State.lean ====
section
/-! SUPPORT. What an update of one entry or one field leaves alone: one lemma per field per update, each true by rfl; and
what reading an entry gives after an update. -/

namespace Sys2Proof.Machine

variable (p : Chip)

@[simp] theorem Chip.onLine_path (n : Nat) (f : Line → Line) : (p.onLine n f).path = p.path := rfl
@[simp] theorem Chip.onLine_mport (n : Nat) (f : Line → Line) : (p.onLine n f).mport = p.mport := rfl
@[simp] theorem Chip.onLine_ingest (n : Nat) (f : Line → Line) : (p.onLine n f).ingest = p.ingest := rfl
@[simp] theorem Chip.onLine_render (n : Nat) (f : Line → Line) : (p.onLine n f).render = p.render := rfl
@[simp] theorem Chip.onLine_print (n : Nat) (f : Line → Line) : (p.onLine n f).print = p.print := rfl
@[simp] theorem Chip.onLine_store (n : Nat) (f : Line → Line) : (p.onLine n f).store = p.store := rfl
@[simp] theorem Chip.onLine_calls (n : Nat) (f : Line → Line) : (p.onLine n f).calls = p.calls := rfl
@[simp] theorem Chip.onLine_charge (n : Nat) (f : Line → Line) : (p.onLine n f).charge = p.charge := rfl
@[simp] theorem Chip.onLine_req (n : Nat) (f : Line → Line) : (p.onLine n f).req = p.req := rfl
@[simp] theorem Chip.onLine_notices (n : Nat) (f : Line → Line) : (p.onLine n f).notices = p.notices := rfl
@[simp] theorem Chip.onLine_subTick (n : Nat) (f : Line → Line) : (p.onLine n f).subTick = p.subTick := rfl
@[simp] theorem Chip.onLine_tickIndex (n : Nat) (f : Line → Line) : (p.onLine n f).tickIndex = p.tickIndex := rfl
@[simp] theorem Chip.onLine_freeIndex (n : Nat) (f : Line → Line) : (p.onLine n f).freeIndex = p.freeIndex := rfl

@[simp] theorem Chip.onIng_path (c : Nat) (f : IngestCtx → IngestCtx) : (p.onIng c f).path = p.path := rfl
@[simp] theorem Chip.onIng_mport (c : Nat) (f : IngestCtx → IngestCtx) : (p.onIng c f).mport = p.mport := rfl
@[simp] theorem Chip.onIng_render (c : Nat) (f : IngestCtx → IngestCtx) : (p.onIng c f).render = p.render := rfl
@[simp] theorem Chip.onIng_print (c : Nat) (f : IngestCtx → IngestCtx) : (p.onIng c f).print = p.print := rfl
@[simp] theorem Chip.onIng_store (c : Nat) (f : IngestCtx → IngestCtx) : (p.onIng c f).store = p.store := rfl
@[simp] theorem Chip.onIng_lines (c : Nat) (f : IngestCtx → IngestCtx) : (p.onIng c f).lines = p.lines := rfl
@[simp] theorem Chip.onIng_calls (c : Nat) (f : IngestCtx → IngestCtx) : (p.onIng c f).calls = p.calls := rfl
@[simp] theorem Chip.onIng_charge (c : Nat) (f : IngestCtx → IngestCtx) : (p.onIng c f).charge = p.charge := rfl
@[simp] theorem Chip.onIng_req (c : Nat) (f : IngestCtx → IngestCtx) : (p.onIng c f).req = p.req := rfl
@[simp] theorem Chip.onIng_notices (c : Nat) (f : IngestCtx → IngestCtx) : (p.onIng c f).notices = p.notices := rfl
@[simp] theorem Chip.onIng_subTick (c : Nat) (f : IngestCtx → IngestCtx) : (p.onIng c f).subTick = p.subTick := rfl
@[simp] theorem Chip.onIng_tickIndex (c : Nat) (f : IngestCtx → IngestCtx) : (p.onIng c f).tickIndex = p.tickIndex := rfl
@[simp] theorem Chip.onIng_freeIndex (c : Nat) (f : IngestCtx → IngestCtx) : (p.onIng c f).freeIndex = p.freeIndex := rfl

@[simp] theorem Chip.onRen_path (c : Nat) (f : RenderCtx → RenderCtx) : (p.onRen c f).path = p.path := rfl
@[simp] theorem Chip.onRen_mport (c : Nat) (f : RenderCtx → RenderCtx) : (p.onRen c f).mport = p.mport := rfl
@[simp] theorem Chip.onRen_ingest (c : Nat) (f : RenderCtx → RenderCtx) : (p.onRen c f).ingest = p.ingest := rfl
@[simp] theorem Chip.onRen_print (c : Nat) (f : RenderCtx → RenderCtx) : (p.onRen c f).print = p.print := rfl
@[simp] theorem Chip.onRen_store (c : Nat) (f : RenderCtx → RenderCtx) : (p.onRen c f).store = p.store := rfl
@[simp] theorem Chip.onRen_lines (c : Nat) (f : RenderCtx → RenderCtx) : (p.onRen c f).lines = p.lines := rfl
@[simp] theorem Chip.onRen_calls (c : Nat) (f : RenderCtx → RenderCtx) : (p.onRen c f).calls = p.calls := rfl
@[simp] theorem Chip.onRen_charge (c : Nat) (f : RenderCtx → RenderCtx) : (p.onRen c f).charge = p.charge := rfl
@[simp] theorem Chip.onRen_req (c : Nat) (f : RenderCtx → RenderCtx) : (p.onRen c f).req = p.req := rfl
@[simp] theorem Chip.onRen_notices (c : Nat) (f : RenderCtx → RenderCtx) : (p.onRen c f).notices = p.notices := rfl
@[simp] theorem Chip.onRen_subTick (c : Nat) (f : RenderCtx → RenderCtx) : (p.onRen c f).subTick = p.subTick := rfl
@[simp] theorem Chip.onRen_tickIndex (c : Nat) (f : RenderCtx → RenderCtx) : (p.onRen c f).tickIndex = p.tickIndex := rfl
@[simp] theorem Chip.onRen_freeIndex (c : Nat) (f : RenderCtx → RenderCtx) : (p.onRen c f).freeIndex = p.freeIndex := rfl

@[simp] theorem Chip.onDoc_path (d : Nat) (f : DocRecord → DocRecord) : (p.onDoc d f).path = p.path := rfl
@[simp] theorem Chip.onDoc_mport (d : Nat) (f : DocRecord → DocRecord) : (p.onDoc d f).mport = p.mport := rfl
@[simp] theorem Chip.onDoc_ingest (d : Nat) (f : DocRecord → DocRecord) : (p.onDoc d f).ingest = p.ingest := rfl
@[simp] theorem Chip.onDoc_render (d : Nat) (f : DocRecord → DocRecord) : (p.onDoc d f).render = p.render := rfl
@[simp] theorem Chip.onDoc_print (d : Nat) (f : DocRecord → DocRecord) : (p.onDoc d f).print = p.print := rfl
@[simp] theorem Chip.onDoc_lines (d : Nat) (f : DocRecord → DocRecord) : (p.onDoc d f).lines = p.lines := rfl
@[simp] theorem Chip.onDoc_calls (d : Nat) (f : DocRecord → DocRecord) : (p.onDoc d f).calls = p.calls := rfl
@[simp] theorem Chip.onDoc_charge (d : Nat) (f : DocRecord → DocRecord) : (p.onDoc d f).charge = p.charge := rfl
@[simp] theorem Chip.onDoc_req (d : Nat) (f : DocRecord → DocRecord) : (p.onDoc d f).req = p.req := rfl
@[simp] theorem Chip.onDoc_notices (d : Nat) (f : DocRecord → DocRecord) : (p.onDoc d f).notices = p.notices := rfl
@[simp] theorem Chip.onDoc_subTick (d : Nat) (f : DocRecord → DocRecord) : (p.onDoc d f).subTick = p.subTick := rfl
@[simp] theorem Chip.onDoc_tickIndex (d : Nat) (f : DocRecord → DocRecord) : (p.onDoc d f).tickIndex = p.tickIndex := rfl
@[simp] theorem Chip.onDoc_freeIndex (d : Nat) (f : DocRecord → DocRecord) : (p.onDoc d f).freeIndex = p.freeIndex := rfl

@[simp] theorem Chip.onPage_path (r : Nat) (f : PageRecord → PageRecord) : (p.onPage r f).path = p.path := rfl
@[simp] theorem Chip.onPage_mport (r : Nat) (f : PageRecord → PageRecord) : (p.onPage r f).mport = p.mport := rfl
@[simp] theorem Chip.onPage_ingest (r : Nat) (f : PageRecord → PageRecord) : (p.onPage r f).ingest = p.ingest := rfl
@[simp] theorem Chip.onPage_render (r : Nat) (f : PageRecord → PageRecord) : (p.onPage r f).render = p.render := rfl
@[simp] theorem Chip.onPage_print (r : Nat) (f : PageRecord → PageRecord) : (p.onPage r f).print = p.print := rfl
@[simp] theorem Chip.onPage_lines (r : Nat) (f : PageRecord → PageRecord) : (p.onPage r f).lines = p.lines := rfl
@[simp] theorem Chip.onPage_calls (r : Nat) (f : PageRecord → PageRecord) : (p.onPage r f).calls = p.calls := rfl
@[simp] theorem Chip.onPage_charge (r : Nat) (f : PageRecord → PageRecord) : (p.onPage r f).charge = p.charge := rfl
@[simp] theorem Chip.onPage_req (r : Nat) (f : PageRecord → PageRecord) : (p.onPage r f).req = p.req := rfl
@[simp] theorem Chip.onPage_notices (r : Nat) (f : PageRecord → PageRecord) : (p.onPage r f).notices = p.notices := rfl
@[simp] theorem Chip.onPage_subTick (r : Nat) (f : PageRecord → PageRecord) : (p.onPage r f).subTick = p.subTick := rfl
@[simp] theorem Chip.onPage_tickIndex (r : Nat) (f : PageRecord → PageRecord) : (p.onPage r f).tickIndex = p.tickIndex := rfl
@[simp] theorem Chip.onPage_freeIndex (r : Nat) (f : PageRecord → PageRecord) : (p.onPage r f).freeIndex = p.freeIndex := rfl

@[simp] theorem Chip.onJob_path (j : Nat) (f : Job → Job) : (p.onJob j f).path = p.path := rfl
@[simp] theorem Chip.onJob_mport (j : Nat) (f : Job → Job) : (p.onJob j f).mport = p.mport := rfl
@[simp] theorem Chip.onJob_ingest (j : Nat) (f : Job → Job) : (p.onJob j f).ingest = p.ingest := rfl
@[simp] theorem Chip.onJob_render (j : Nat) (f : Job → Job) : (p.onJob j f).render = p.render := rfl
@[simp] theorem Chip.onJob_store (j : Nat) (f : Job → Job) : (p.onJob j f).store = p.store := rfl
@[simp] theorem Chip.onJob_lines (j : Nat) (f : Job → Job) : (p.onJob j f).lines = p.lines := rfl
@[simp] theorem Chip.onJob_calls (j : Nat) (f : Job → Job) : (p.onJob j f).calls = p.calls := rfl
@[simp] theorem Chip.onJob_charge (j : Nat) (f : Job → Job) : (p.onJob j f).charge = p.charge := rfl
@[simp] theorem Chip.onJob_req (j : Nat) (f : Job → Job) : (p.onJob j f).req = p.req := rfl
@[simp] theorem Chip.onJob_notices (j : Nat) (f : Job → Job) : (p.onJob j f).notices = p.notices := rfl
@[simp] theorem Chip.onJob_subTick (j : Nat) (f : Job → Job) : (p.onJob j f).subTick = p.subTick := rfl
@[simp] theorem Chip.onJob_tickIndex (j : Nat) (f : Job → Job) : (p.onJob j f).tickIndex = p.tickIndex := rfl
@[simp] theorem Chip.onJob_freeIndex (j : Nat) (f : Job → Job) : (p.onJob j f).freeIndex = p.freeIndex := rfl

@[simp] theorem Chip.onCall_path (i : Nat) (f : CallRecord → CallRecord) : (p.onCall i f).path = p.path := rfl
@[simp] theorem Chip.onCall_mport (i : Nat) (f : CallRecord → CallRecord) : (p.onCall i f).mport = p.mport := rfl
@[simp] theorem Chip.onCall_ingest (i : Nat) (f : CallRecord → CallRecord) : (p.onCall i f).ingest = p.ingest := rfl
@[simp] theorem Chip.onCall_render (i : Nat) (f : CallRecord → CallRecord) : (p.onCall i f).render = p.render := rfl
@[simp] theorem Chip.onCall_print (i : Nat) (f : CallRecord → CallRecord) : (p.onCall i f).print = p.print := rfl
@[simp] theorem Chip.onCall_store (i : Nat) (f : CallRecord → CallRecord) : (p.onCall i f).store = p.store := rfl
@[simp] theorem Chip.onCall_lines (i : Nat) (f : CallRecord → CallRecord) : (p.onCall i f).lines = p.lines := rfl
@[simp] theorem Chip.onCall_charge (i : Nat) (f : CallRecord → CallRecord) : (p.onCall i f).charge = p.charge := rfl
@[simp] theorem Chip.onCall_req (i : Nat) (f : CallRecord → CallRecord) : (p.onCall i f).req = p.req := rfl
@[simp] theorem Chip.onCall_notices (i : Nat) (f : CallRecord → CallRecord) : (p.onCall i f).notices = p.notices := rfl
@[simp] theorem Chip.onCall_subTick (i : Nat) (f : CallRecord → CallRecord) : (p.onCall i f).subTick = p.subTick := rfl
@[simp] theorem Chip.onCall_tickIndex (i : Nat) (f : CallRecord → CallRecord) : (p.onCall i f).tickIndex = p.tickIndex := rfl
@[simp] theorem Chip.onCall_freeIndex (i : Nat) (f : CallRecord → CallRecord) : (p.onCall i f).freeIndex = p.freeIndex := rfl

@[simp] theorem Chip.onAttempt_path (n : Nat) (f : Attempt → Attempt) : (p.onAttempt n f).path = p.path := rfl
@[simp] theorem Chip.onAttempt_mport (n : Nat) (f : Attempt → Attempt) : (p.onAttempt n f).mport = p.mport := rfl
@[simp] theorem Chip.onAttempt_ingest (n : Nat) (f : Attempt → Attempt) : (p.onAttempt n f).ingest = p.ingest := rfl
@[simp] theorem Chip.onAttempt_render (n : Nat) (f : Attempt → Attempt) : (p.onAttempt n f).render = p.render := rfl
@[simp] theorem Chip.onAttempt_print (n : Nat) (f : Attempt → Attempt) : (p.onAttempt n f).print = p.print := rfl
@[simp] theorem Chip.onAttempt_store (n : Nat) (f : Attempt → Attempt) : (p.onAttempt n f).store = p.store := rfl
@[simp] theorem Chip.onAttempt_lines (n : Nat) (f : Attempt → Attempt) : (p.onAttempt n f).lines = p.lines := rfl
@[simp] theorem Chip.onAttempt_calls (n : Nat) (f : Attempt → Attempt) : (p.onAttempt n f).calls = p.calls := rfl
@[simp] theorem Chip.onAttempt_req (n : Nat) (f : Attempt → Attempt) : (p.onAttempt n f).req = p.req := rfl
@[simp] theorem Chip.onAttempt_notices (n : Nat) (f : Attempt → Attempt) : (p.onAttempt n f).notices = p.notices := rfl
@[simp] theorem Chip.onAttempt_subTick (n : Nat) (f : Attempt → Attempt) : (p.onAttempt n f).subTick = p.subTick := rfl
@[simp] theorem Chip.onAttempt_tickIndex (n : Nat) (f : Attempt → Attempt) : (p.onAttempt n f).tickIndex = p.tickIndex := rfl
@[simp] theorem Chip.onAttempt_freeIndex (n : Nat) (f : Attempt → Attempt) : (p.onAttempt n f).freeIndex = p.freeIndex := rfl

@[simp] theorem Chip.onAccount_path (d : Nat) (f : Account → Account) : (p.onAccount d f).path = p.path := rfl
@[simp] theorem Chip.onAccount_mport (d : Nat) (f : Account → Account) : (p.onAccount d f).mport = p.mport := rfl
@[simp] theorem Chip.onAccount_ingest (d : Nat) (f : Account → Account) : (p.onAccount d f).ingest = p.ingest := rfl
@[simp] theorem Chip.onAccount_render (d : Nat) (f : Account → Account) : (p.onAccount d f).render = p.render := rfl
@[simp] theorem Chip.onAccount_print (d : Nat) (f : Account → Account) : (p.onAccount d f).print = p.print := rfl
@[simp] theorem Chip.onAccount_store (d : Nat) (f : Account → Account) : (p.onAccount d f).store = p.store := rfl
@[simp] theorem Chip.onAccount_lines (d : Nat) (f : Account → Account) : (p.onAccount d f).lines = p.lines := rfl
@[simp] theorem Chip.onAccount_calls (d : Nat) (f : Account → Account) : (p.onAccount d f).calls = p.calls := rfl
@[simp] theorem Chip.onAccount_req (d : Nat) (f : Account → Account) : (p.onAccount d f).req = p.req := rfl
@[simp] theorem Chip.onAccount_notices (d : Nat) (f : Account → Account) : (p.onAccount d f).notices = p.notices := rfl
@[simp] theorem Chip.onAccount_subTick (d : Nat) (f : Account → Account) : (p.onAccount d f).subTick = p.subTick := rfl
@[simp] theorem Chip.onAccount_tickIndex (d : Nat) (f : Account → Account) : (p.onAccount d f).tickIndex = p.tickIndex := rfl
@[simp] theorem Chip.onAccount_freeIndex (d : Nat) (f : Account → Account) : (p.onAccount d f).freeIndex = p.freeIndex := rfl

@[simp] theorem Chip.setAperture_mport (e : Nat) (a : Option Aperture) : (p.setAperture e a).mport = p.mport := rfl
@[simp] theorem Chip.setAperture_ingest (e : Nat) (a : Option Aperture) : (p.setAperture e a).ingest = p.ingest := rfl
@[simp] theorem Chip.setAperture_render (e : Nat) (a : Option Aperture) : (p.setAperture e a).render = p.render := rfl
@[simp] theorem Chip.setAperture_print (e : Nat) (a : Option Aperture) : (p.setAperture e a).print = p.print := rfl
@[simp] theorem Chip.setAperture_store (e : Nat) (a : Option Aperture) : (p.setAperture e a).store = p.store := rfl
@[simp] theorem Chip.setAperture_lines (e : Nat) (a : Option Aperture) : (p.setAperture e a).lines = p.lines := rfl
@[simp] theorem Chip.setAperture_calls (e : Nat) (a : Option Aperture) : (p.setAperture e a).calls = p.calls := rfl
@[simp] theorem Chip.setAperture_charge (e : Nat) (a : Option Aperture) : (p.setAperture e a).charge = p.charge := rfl
@[simp] theorem Chip.setAperture_req (e : Nat) (a : Option Aperture) : (p.setAperture e a).req = p.req := rfl
@[simp] theorem Chip.setAperture_notices (e : Nat) (a : Option Aperture) : (p.setAperture e a).notices = p.notices := rfl
@[simp] theorem Chip.setAperture_subTick (e : Nat) (a : Option Aperture) : (p.setAperture e a).subTick = p.subTick := rfl
@[simp] theorem Chip.setAperture_tickIndex (e : Nat) (a : Option Aperture) : (p.setAperture e a).tickIndex = p.tickIndex := rfl
@[simp] theorem Chip.setAperture_freeIndex (e : Nat) (a : Option Aperture) : (p.setAperture e a).freeIndex = p.freeIndex := rfl

@[simp] theorem Chip.issueRecord_path (op : RecordOp) : (p.issueRecord op).path = p.path := rfl
@[simp] theorem Chip.issueRecord_ingest (op : RecordOp) : (p.issueRecord op).ingest = p.ingest := rfl
@[simp] theorem Chip.issueRecord_render (op : RecordOp) : (p.issueRecord op).render = p.render := rfl
@[simp] theorem Chip.issueRecord_print (op : RecordOp) : (p.issueRecord op).print = p.print := rfl
@[simp] theorem Chip.issueRecord_store (op : RecordOp) : (p.issueRecord op).store = p.store := rfl
@[simp] theorem Chip.issueRecord_lines (op : RecordOp) : (p.issueRecord op).lines = p.lines := rfl
@[simp] theorem Chip.issueRecord_calls (op : RecordOp) : (p.issueRecord op).calls = p.calls := rfl
@[simp] theorem Chip.issueRecord_charge (op : RecordOp) : (p.issueRecord op).charge = p.charge := rfl
@[simp] theorem Chip.issueRecord_req (op : RecordOp) : (p.issueRecord op).req = p.req := rfl
@[simp] theorem Chip.issueRecord_notices (op : RecordOp) : (p.issueRecord op).notices = p.notices := rfl
@[simp] theorem Chip.issueRecord_subTick (op : RecordOp) : (p.issueRecord op).subTick = p.subTick := rfl
@[simp] theorem Chip.issueRecord_tickIndex (op : RecordOp) : (p.issueRecord op).tickIndex = p.tickIndex := rfl
@[simp] theorem Chip.issueRecord_freeIndex (op : RecordOp) : (p.issueRecord op).freeIndex = p.freeIndex := rfl

@[simp] theorem Chip.issueLine_path (n : Nat) (op : EngineOp) : (p.issueLine n op).path = p.path := rfl
@[simp] theorem Chip.issueLine_ingest (n : Nat) (op : EngineOp) : (p.issueLine n op).ingest = p.ingest := rfl
@[simp] theorem Chip.issueLine_render (n : Nat) (op : EngineOp) : (p.issueLine n op).render = p.render := rfl
@[simp] theorem Chip.issueLine_print (n : Nat) (op : EngineOp) : (p.issueLine n op).print = p.print := rfl
@[simp] theorem Chip.issueLine_store (n : Nat) (op : EngineOp) : (p.issueLine n op).store = p.store := rfl
@[simp] theorem Chip.issueLine_lines (n : Nat) (op : EngineOp) : (p.issueLine n op).lines = p.lines := rfl
@[simp] theorem Chip.issueLine_calls (n : Nat) (op : EngineOp) : (p.issueLine n op).calls = p.calls := rfl
@[simp] theorem Chip.issueLine_charge (n : Nat) (op : EngineOp) : (p.issueLine n op).charge = p.charge := rfl
@[simp] theorem Chip.issueLine_req (n : Nat) (op : EngineOp) : (p.issueLine n op).req = p.req := rfl
@[simp] theorem Chip.issueLine_notices (n : Nat) (op : EngineOp) : (p.issueLine n op).notices = p.notices := rfl
@[simp] theorem Chip.issueLine_subTick (n : Nat) (op : EngineOp) : (p.issueLine n op).subTick = p.subTick := rfl
@[simp] theorem Chip.issueLine_tickIndex (n : Nat) (op : EngineOp) : (p.issueLine n op).tickIndex = p.tickIndex := rfl
@[simp] theorem Chip.issueLine_freeIndex (n : Nat) (op : EngineOp) : (p.issueLine n op).freeIndex = p.freeIndex := rfl

@[simp] theorem Chip.freePort_path : (p.freePort).path = p.path := rfl
@[simp] theorem Chip.freePort_ingest : (p.freePort).ingest = p.ingest := rfl
@[simp] theorem Chip.freePort_render : (p.freePort).render = p.render := rfl
@[simp] theorem Chip.freePort_print : (p.freePort).print = p.print := rfl
@[simp] theorem Chip.freePort_store : (p.freePort).store = p.store := rfl
@[simp] theorem Chip.freePort_lines : (p.freePort).lines = p.lines := rfl
@[simp] theorem Chip.freePort_calls : (p.freePort).calls = p.calls := rfl
@[simp] theorem Chip.freePort_charge : (p.freePort).charge = p.charge := rfl
@[simp] theorem Chip.freePort_req : (p.freePort).req = p.req := rfl
@[simp] theorem Chip.freePort_notices : (p.freePort).notices = p.notices := rfl
@[simp] theorem Chip.freePort_subTick : (p.freePort).subTick = p.subTick := rfl
@[simp] theorem Chip.freePort_tickIndex : (p.freePort).tickIndex = p.tickIndex := rfl
@[simp] theorem Chip.freePort_freeIndex : (p.freePort).freeIndex = p.freeIndex := rfl

@[simp] theorem Chip.mapEngine_path (f : EngineOp → EngineOp) : (p.mapEngine f).path = p.path := rfl
@[simp] theorem Chip.mapEngine_ingest (f : EngineOp → EngineOp) : (p.mapEngine f).ingest = p.ingest := rfl
@[simp] theorem Chip.mapEngine_render (f : EngineOp → EngineOp) : (p.mapEngine f).render = p.render := rfl
@[simp] theorem Chip.mapEngine_print (f : EngineOp → EngineOp) : (p.mapEngine f).print = p.print := rfl
@[simp] theorem Chip.mapEngine_store (f : EngineOp → EngineOp) : (p.mapEngine f).store = p.store := rfl
@[simp] theorem Chip.mapEngine_lines (f : EngineOp → EngineOp) : (p.mapEngine f).lines = p.lines := rfl
@[simp] theorem Chip.mapEngine_calls (f : EngineOp → EngineOp) : (p.mapEngine f).calls = p.calls := rfl
@[simp] theorem Chip.mapEngine_charge (f : EngineOp → EngineOp) : (p.mapEngine f).charge = p.charge := rfl
@[simp] theorem Chip.mapEngine_req (f : EngineOp → EngineOp) : (p.mapEngine f).req = p.req := rfl
@[simp] theorem Chip.mapEngine_notices (f : EngineOp → EngineOp) : (p.mapEngine f).notices = p.notices := rfl
@[simp] theorem Chip.mapEngine_subTick (f : EngineOp → EngineOp) : (p.mapEngine f).subTick = p.subTick := rfl
@[simp] theorem Chip.mapEngine_tickIndex (f : EngineOp → EngineOp) : (p.mapEngine f).tickIndex = p.tickIndex := rfl
@[simp] theorem Chip.mapEngine_freeIndex (f : EngineOp → EngineOp) : (p.mapEngine f).freeIndex = p.freeIndex := rfl

@[simp] theorem Chip.respond_mport (r : Response) : (p.respond r).mport = p.mport := rfl
@[simp] theorem Chip.respond_ingest (r : Response) : (p.respond r).ingest = p.ingest := rfl
@[simp] theorem Chip.respond_render (r : Response) : (p.respond r).render = p.render := rfl
@[simp] theorem Chip.respond_print (r : Response) : (p.respond r).print = p.print := rfl
@[simp] theorem Chip.respond_store (r : Response) : (p.respond r).store = p.store := rfl
@[simp] theorem Chip.respond_lines (r : Response) : (p.respond r).lines = p.lines := rfl
@[simp] theorem Chip.respond_calls (r : Response) : (p.respond r).calls = p.calls := rfl
@[simp] theorem Chip.respond_charge (r : Response) : (p.respond r).charge = p.charge := rfl
@[simp] theorem Chip.respond_req (r : Response) : (p.respond r).req = p.req := rfl
@[simp] theorem Chip.respond_notices (r : Response) : (p.respond r).notices = p.notices := rfl
@[simp] theorem Chip.respond_subTick (r : Response) : (p.respond r).subTick = p.subTick := rfl
@[simp] theorem Chip.respond_tickIndex (r : Response) : (p.respond r).tickIndex = p.tickIndex := rfl
@[simp] theorem Chip.respond_freeIndex (r : Response) : (p.respond r).freeIndex = p.freeIndex := rfl

@[simp] theorem Chip.dropOldest_mport : (p.dropOldest).mport = p.mport := rfl
@[simp] theorem Chip.dropOldest_ingest : (p.dropOldest).ingest = p.ingest := rfl
@[simp] theorem Chip.dropOldest_render : (p.dropOldest).render = p.render := rfl
@[simp] theorem Chip.dropOldest_print : (p.dropOldest).print = p.print := rfl
@[simp] theorem Chip.dropOldest_store : (p.dropOldest).store = p.store := rfl
@[simp] theorem Chip.dropOldest_lines : (p.dropOldest).lines = p.lines := rfl
@[simp] theorem Chip.dropOldest_calls : (p.dropOldest).calls = p.calls := rfl
@[simp] theorem Chip.dropOldest_charge : (p.dropOldest).charge = p.charge := rfl
@[simp] theorem Chip.dropOldest_req : (p.dropOldest).req = p.req := rfl
@[simp] theorem Chip.dropOldest_notices : (p.dropOldest).notices = p.notices := rfl
@[simp] theorem Chip.dropOldest_subTick : (p.dropOldest).subTick = p.subTick := rfl
@[simp] theorem Chip.dropOldest_tickIndex : (p.dropOldest).tickIndex = p.tickIndex := rfl
@[simp] theorem Chip.dropOldest_freeIndex : (p.dropOldest).freeIndex = p.freeIndex := rfl

@[simp] theorem Chip.unbindHeld_mport (c : Nat) : (p.unbindHeld c).mport = p.mport := rfl
@[simp] theorem Chip.unbindHeld_ingest (c : Nat) : (p.unbindHeld c).ingest = p.ingest := rfl
@[simp] theorem Chip.unbindHeld_render (c : Nat) : (p.unbindHeld c).render = p.render := rfl
@[simp] theorem Chip.unbindHeld_print (c : Nat) : (p.unbindHeld c).print = p.print := rfl
@[simp] theorem Chip.unbindHeld_store (c : Nat) : (p.unbindHeld c).store = p.store := rfl
@[simp] theorem Chip.unbindHeld_lines (c : Nat) : (p.unbindHeld c).lines = p.lines := rfl
@[simp] theorem Chip.unbindHeld_calls (c : Nat) : (p.unbindHeld c).calls = p.calls := rfl
@[simp] theorem Chip.unbindHeld_charge (c : Nat) : (p.unbindHeld c).charge = p.charge := rfl
@[simp] theorem Chip.unbindHeld_req (c : Nat) : (p.unbindHeld c).req = p.req := rfl
@[simp] theorem Chip.unbindHeld_notices (c : Nat) : (p.unbindHeld c).notices = p.notices := rfl
@[simp] theorem Chip.unbindHeld_subTick (c : Nat) : (p.unbindHeld c).subTick = p.subTick := rfl
@[simp] theorem Chip.unbindHeld_tickIndex (c : Nat) : (p.unbindHeld c).tickIndex = p.tickIndex := rfl
@[simp] theorem Chip.unbindHeld_freeIndex (c : Nat) : (p.unbindHeld c).freeIndex = p.freeIndex := rfl

/-! ## Conditional updates -/

@[simp] theorem Chip.pastTaken_path (a n : Nat) : (p.pastTaken a n).path = p.path := by unfold Chip.pastTaken; split <;> rfl
@[simp] theorem Chip.pastTaken_mport (a n : Nat) : (p.pastTaken a n).mport = p.mport := by unfold Chip.pastTaken; split <;> rfl
@[simp] theorem Chip.pastTaken_ingest (a n : Nat) : (p.pastTaken a n).ingest = p.ingest := by unfold Chip.pastTaken; split <;> rfl
@[simp] theorem Chip.pastTaken_render (a n : Nat) : (p.pastTaken a n).render = p.render := by unfold Chip.pastTaken; split <;> rfl
@[simp] theorem Chip.pastTaken_print (a n : Nat) : (p.pastTaken a n).print = p.print := by unfold Chip.pastTaken; split <;> rfl
@[simp] theorem Chip.pastTaken_store (a n : Nat) : (p.pastTaken a n).store = p.store := by unfold Chip.pastTaken; split <;> rfl
@[simp] theorem Chip.pastTaken_lines (a n : Nat) : (p.pastTaken a n).lines = p.lines := by unfold Chip.pastTaken; split <;> rfl
@[simp] theorem Chip.pastTaken_calls (a n : Nat) : (p.pastTaken a n).calls = p.calls := by unfold Chip.pastTaken; split <;> rfl
@[simp] theorem Chip.pastTaken_charge (a n : Nat) : (p.pastTaken a n).charge = p.charge := by unfold Chip.pastTaken; split <;> rfl
@[simp] theorem Chip.pastTaken_req (a n : Nat) : (p.pastTaken a n).req = p.req := by unfold Chip.pastTaken; split <;> rfl
@[simp] theorem Chip.pastTaken_notices (a n : Nat) : (p.pastTaken a n).notices = p.notices := by unfold Chip.pastTaken; split <;> rfl
@[simp] theorem Chip.pastTaken_subTick (a n : Nat) : (p.pastTaken a n).subTick = p.subTick := by unfold Chip.pastTaken; split <;> rfl
@[simp] theorem Chip.pastTaken_tickIndex (a n : Nat) : (p.pastTaken a n).tickIndex = p.tickIndex := by unfold Chip.pastTaken; split <;> rfl

@[simp] theorem Chip.issueWord_path (w : StatusWord) : (p.issueWord w).path = p.path := by unfold Chip.issueWord; split <;> rfl
@[simp] theorem Chip.issueWord_ingest (w : StatusWord) : (p.issueWord w).ingest = p.ingest := by unfold Chip.issueWord; split <;> rfl
@[simp] theorem Chip.issueWord_render (w : StatusWord) : (p.issueWord w).render = p.render := by unfold Chip.issueWord; split <;> rfl
@[simp] theorem Chip.issueWord_print (w : StatusWord) : (p.issueWord w).print = p.print := by unfold Chip.issueWord; split <;> rfl
@[simp] theorem Chip.issueWord_store (w : StatusWord) : (p.issueWord w).store = p.store := by unfold Chip.issueWord; split <;> rfl
@[simp] theorem Chip.issueWord_lines (w : StatusWord) : (p.issueWord w).lines = p.lines := by unfold Chip.issueWord; split <;> rfl
@[simp] theorem Chip.issueWord_calls (w : StatusWord) : (p.issueWord w).calls = p.calls := by unfold Chip.issueWord; split <;> rfl
@[simp] theorem Chip.issueWord_charge (w : StatusWord) : (p.issueWord w).charge = p.charge := by unfold Chip.issueWord; split <;> rfl
@[simp] theorem Chip.issueWord_req (w : StatusWord) : (p.issueWord w).req = p.req := by unfold Chip.issueWord; split <;> rfl
@[simp] theorem Chip.issueWord_notices (w : StatusWord) : (p.issueWord w).notices = p.notices := by unfold Chip.issueWord; split <;> rfl
@[simp] theorem Chip.issueWord_subTick (w : StatusWord) : (p.issueWord w).subTick = p.subTick := by unfold Chip.issueWord; split <;> rfl
@[simp] theorem Chip.issueWord_tickIndex (w : StatusWord) : (p.issueWord w).tickIndex = p.tickIndex := by unfold Chip.issueWord; split <;> rfl
@[simp] theorem Chip.issueWord_freeIndex (w : StatusWord) : (p.issueWord w).freeIndex = p.freeIndex := by unfold Chip.issueWord; split <;> rfl

@[simp] theorem Chip.setPool_path (pool : List Nat) : (p.setPool pool).path = p.path := by unfold Chip.setPool; dsimp only; split <;> simp
@[simp] theorem Chip.setPool_ingest (pool : List Nat) : (p.setPool pool).ingest = p.ingest := by unfold Chip.setPool; dsimp only; split <;> simp
@[simp] theorem Chip.setPool_render (pool : List Nat) : (p.setPool pool).render = p.render := by unfold Chip.setPool; dsimp only; split <;> simp
@[simp] theorem Chip.setPool_print (pool : List Nat) : (p.setPool pool).print = p.print := by unfold Chip.setPool; dsimp only; split <;> simp
@[simp] theorem Chip.setPool_lines (pool : List Nat) : (p.setPool pool).lines = p.lines := by unfold Chip.setPool; dsimp only; split <;> simp
@[simp] theorem Chip.setPool_calls (pool : List Nat) : (p.setPool pool).calls = p.calls := by unfold Chip.setPool; dsimp only; split <;> simp
@[simp] theorem Chip.setPool_charge (pool : List Nat) : (p.setPool pool).charge = p.charge := by unfold Chip.setPool; dsimp only; split <;> simp
@[simp] theorem Chip.setPool_req (pool : List Nat) : (p.setPool pool).req = p.req := by unfold Chip.setPool; dsimp only; split <;> simp
@[simp] theorem Chip.setPool_notices (pool : List Nat) : (p.setPool pool).notices = p.notices := by unfold Chip.setPool; dsimp only; split <;> simp
@[simp] theorem Chip.setPool_subTick (pool : List Nat) : (p.setPool pool).subTick = p.subTick := by unfold Chip.setPool; dsimp only; split <;> simp
@[simp] theorem Chip.setPool_tickIndex (pool : List Nat) : (p.setPool pool).tickIndex = p.tickIndex := by unfold Chip.setPool; dsimp only; split <;> simp
@[simp] theorem Chip.setPool_freeIndex (pool : List Nat) : (p.setPool pool).freeIndex = p.freeIndex := by unfold Chip.setPool; dsimp only; split <;> simp

@[simp] theorem Chip.issueIngest_path (c : Nat) (op : EngineOp) : (p.issueIngest c op).path = p.path := by unfold Chip.issueIngest; split <;> simp
@[simp] theorem Chip.issueIngest_ingest (c : Nat) (op : EngineOp) : (p.issueIngest c op).ingest = p.ingest := by unfold Chip.issueIngest; split <;> simp
@[simp] theorem Chip.issueIngest_render (c : Nat) (op : EngineOp) : (p.issueIngest c op).render = p.render := by unfold Chip.issueIngest; split <;> simp
@[simp] theorem Chip.issueIngest_print (c : Nat) (op : EngineOp) : (p.issueIngest c op).print = p.print := by unfold Chip.issueIngest; split <;> simp
@[simp] theorem Chip.issueIngest_store (c : Nat) (op : EngineOp) : (p.issueIngest c op).store = p.store := by unfold Chip.issueIngest; split <;> simp
@[simp] theorem Chip.issueIngest_lines (c : Nat) (op : EngineOp) : (p.issueIngest c op).lines = p.lines := by unfold Chip.issueIngest; split <;> simp
@[simp] theorem Chip.issueIngest_calls (c : Nat) (op : EngineOp) : (p.issueIngest c op).calls = p.calls := by unfold Chip.issueIngest; split <;> simp
@[simp] theorem Chip.issueIngest_charge (c : Nat) (op : EngineOp) : (p.issueIngest c op).charge = p.charge := by unfold Chip.issueIngest; split <;> simp
@[simp] theorem Chip.issueIngest_req (c : Nat) (op : EngineOp) : (p.issueIngest c op).req = p.req := by unfold Chip.issueIngest; split <;> simp
@[simp] theorem Chip.issueIngest_notices (c : Nat) (op : EngineOp) : (p.issueIngest c op).notices = p.notices := by unfold Chip.issueIngest; split <;> simp
@[simp] theorem Chip.issueIngest_subTick (c : Nat) (op : EngineOp) : (p.issueIngest c op).subTick = p.subTick := by unfold Chip.issueIngest; split <;> simp
@[simp] theorem Chip.issueIngest_tickIndex (c : Nat) (op : EngineOp) : (p.issueIngest c op).tickIndex = p.tickIndex := by unfold Chip.issueIngest; split <;> simp
@[simp] theorem Chip.issueIngest_freeIndex (c : Nat) (op : EngineOp) : (p.issueIngest c op).freeIndex = p.freeIndex := by unfold Chip.issueIngest; split <;> simp

@[simp] theorem Chip.issueRender_path (c : Nat) (op : EngineOp) : (p.issueRender c op).path = p.path := by unfold Chip.issueRender; split <;> simp
@[simp] theorem Chip.issueRender_ingest (c : Nat) (op : EngineOp) : (p.issueRender c op).ingest = p.ingest := by unfold Chip.issueRender; split <;> simp
@[simp] theorem Chip.issueRender_render (c : Nat) (op : EngineOp) : (p.issueRender c op).render = p.render := by unfold Chip.issueRender; split <;> simp
@[simp] theorem Chip.issueRender_print (c : Nat) (op : EngineOp) : (p.issueRender c op).print = p.print := by unfold Chip.issueRender; split <;> simp
@[simp] theorem Chip.issueRender_store (c : Nat) (op : EngineOp) : (p.issueRender c op).store = p.store := by unfold Chip.issueRender; split <;> simp
@[simp] theorem Chip.issueRender_lines (c : Nat) (op : EngineOp) : (p.issueRender c op).lines = p.lines := by unfold Chip.issueRender; split <;> simp
@[simp] theorem Chip.issueRender_calls (c : Nat) (op : EngineOp) : (p.issueRender c op).calls = p.calls := by unfold Chip.issueRender; split <;> simp
@[simp] theorem Chip.issueRender_charge (c : Nat) (op : EngineOp) : (p.issueRender c op).charge = p.charge := by unfold Chip.issueRender; split <;> simp
@[simp] theorem Chip.issueRender_req (c : Nat) (op : EngineOp) : (p.issueRender c op).req = p.req := by unfold Chip.issueRender; split <;> simp
@[simp] theorem Chip.issueRender_notices (c : Nat) (op : EngineOp) : (p.issueRender c op).notices = p.notices := by unfold Chip.issueRender; split <;> simp
@[simp] theorem Chip.issueRender_subTick (c : Nat) (op : EngineOp) : (p.issueRender c op).subTick = p.subTick := by unfold Chip.issueRender; split <;> simp
@[simp] theorem Chip.issueRender_tickIndex (c : Nat) (op : EngineOp) : (p.issueRender c op).tickIndex = p.tickIndex := by unfold Chip.issueRender; split <;> simp
@[simp] theorem Chip.issueRender_freeIndex (c : Nat) (op : EngineOp) : (p.issueRender c op).freeIndex = p.freeIndex := by unfold Chip.issueRender; split <;> simp

@[simp] theorem Chip.send_path (n : Notice) : (p.send n).path = p.path := by unfold Chip.send; split <;> simp [Chip.placeNotice, Chip.dropNotice]
@[simp] theorem Chip.send_ingest (n : Notice) : (p.send n).ingest = p.ingest := by unfold Chip.send; split <;> simp [Chip.placeNotice, Chip.dropNotice]
@[simp] theorem Chip.send_render (n : Notice) : (p.send n).render = p.render := by unfold Chip.send; split <;> simp [Chip.placeNotice, Chip.dropNotice]
@[simp] theorem Chip.send_print (n : Notice) : (p.send n).print = p.print := by unfold Chip.send; split <;> simp [Chip.placeNotice, Chip.dropNotice]
@[simp] theorem Chip.send_store (n : Notice) : (p.send n).store = p.store := by unfold Chip.send; split <;> simp [Chip.placeNotice, Chip.dropNotice]
@[simp] theorem Chip.send_lines (n : Notice) : (p.send n).lines = p.lines := by unfold Chip.send; split <;> simp [Chip.placeNotice, Chip.dropNotice]
@[simp] theorem Chip.send_calls (n : Notice) : (p.send n).calls = p.calls := by unfold Chip.send; split <;> simp [Chip.placeNotice, Chip.dropNotice]
@[simp] theorem Chip.send_charge (n : Notice) : (p.send n).charge = p.charge := by unfold Chip.send; split <;> simp [Chip.placeNotice, Chip.dropNotice]
@[simp] theorem Chip.send_req (n : Notice) : (p.send n).req = p.req := by unfold Chip.send; split <;> simp [Chip.placeNotice, Chip.dropNotice]
@[simp] theorem Chip.send_subTick (n : Notice) : (p.send n).subTick = p.subTick := by unfold Chip.send; split <;> simp [Chip.placeNotice, Chip.dropNotice]
@[simp] theorem Chip.send_tickIndex (n : Notice) : (p.send n).tickIndex = p.tickIndex := by unfold Chip.send; split <;> simp [Chip.placeNotice, Chip.dropNotice]
@[simp] theorem Chip.send_freeIndex (n : Notice) : (p.send n).freeIndex = p.freeIndex := by unfold Chip.send; split <;> simp [Chip.placeNotice, Chip.dropNotice]

@[simp] theorem Chip.addStrays_path (c k : Nat) : (p.addStrays c k).path = p.path := by unfold Chip.addStrays; dsimp only; split <;> simp
@[simp] theorem Chip.addStrays_render (c k : Nat) : (p.addStrays c k).render = p.render := by unfold Chip.addStrays; dsimp only; split <;> simp
@[simp] theorem Chip.addStrays_print (c k : Nat) : (p.addStrays c k).print = p.print := by unfold Chip.addStrays; dsimp only; split <;> simp
@[simp] theorem Chip.addStrays_store (c k : Nat) : (p.addStrays c k).store = p.store := by unfold Chip.addStrays; dsimp only; split <;> simp
@[simp] theorem Chip.addStrays_lines (c k : Nat) : (p.addStrays c k).lines = p.lines := by unfold Chip.addStrays; dsimp only; split <;> simp
@[simp] theorem Chip.addStrays_calls (c k : Nat) : (p.addStrays c k).calls = p.calls := by unfold Chip.addStrays; dsimp only; split <;> simp
@[simp] theorem Chip.addStrays_charge (c k : Nat) : (p.addStrays c k).charge = p.charge := by unfold Chip.addStrays; dsimp only; split <;> simp
@[simp] theorem Chip.addStrays_req (c k : Nat) : (p.addStrays c k).req = p.req := by unfold Chip.addStrays; dsimp only; split <;> simp
@[simp] theorem Chip.addStrays_notices (c k : Nat) : (p.addStrays c k).notices = p.notices := by unfold Chip.addStrays; dsimp only; split <;> simp
@[simp] theorem Chip.addStrays_subTick (c k : Nat) : (p.addStrays c k).subTick = p.subTick := by unfold Chip.addStrays; dsimp only; split <;> simp
@[simp] theorem Chip.addStrays_tickIndex (c k : Nat) : (p.addStrays c k).tickIndex = p.tickIndex := by unfold Chip.addStrays; dsimp only; split <;> simp
@[simp] theorem Chip.addStrays_freeIndex (c k : Nat) : (p.addStrays c k).freeIndex = p.freeIndex := by unfold Chip.addStrays; dsimp only; split <;> simp

/-! ## Reading an entry after an update -/

/-- Reading a table after one entry was replaced. -/
theorem tget_tset {α : Type} {n : Nat} [Inhabited α] (t : Vector α n) (i j : Nat) (x : α) :
    tget (tset t i x) j = if i = j ∧ i < n then x else tget t j := by
  unfold tget tset
  rw [Vector.getElem?_setIfInBounds]
  by_cases h : i = j
  · subst h
    by_cases hn : i < n <;> simp [hn]
  · simp [h]

/-- Reading the entry that was replaced. -/
theorem tget_tset_self {α : Type} {n : Nat} [Inhabited α] (t : Vector α n) {i : Nat} (h : i < n) (x : α) :
    tget (tset t i x) i = x := by simp [tget_tset, h]

/-- Past the last entry the default is read. -/
theorem tget_ge {α : Type} {n : Nat} [Inhabited α] (t : Vector α n) {i : Nat} (h : n ≤ i) : tget t i = default := by
  unfold tget; simp [h]

/-- Reading another entry than the one replaced. -/
theorem tget_tset_ne {α : Type} {n : Nat} [Inhabited α] (t : Vector α n) {i j : Nat} (h : i ≠ j) (x : α) :
    tget (tset t i x) j = tget t j := by simp [tget_tset, h]

/-- Of two replacements of one entry the later stands. -/
@[simp] theorem tset_tset {α : Type} {n : Nat} (t : Vector α n) (i : Nat) (x y : α) :
    tset (tset t i x) i y = tset t i y := by
  unfold tset
  ext j hj
  simp only [Vector.getElem_setIfInBounds]
  split <;> rfl

/-- Putting back the entry that stands there changes nothing. -/
@[simp] theorem tset_tget {α : Type} {n : Nat} [Inhabited α] (t : Vector α n) (i : Nat) :
    tset t i (tget t i) = t := by
  unfold tset tget
  ext j hj
  simp [Vector.getElem_setIfInBounds]
  intro h
  subst h
  simp [hj]

theorem Chip.line_onLine (i j : Nat) (f : Line → Line) :
    (p.onLine i f).line j = if i = j ∧ i < 4 then f (p.line i) else p.line j := tget_tset _ _ _ _

@[simp] theorem Chip.line_onLine_self {i : Nat} (h : i < 4) (f : Line → Line) :
    (p.onLine i f).line i = f (p.line i) := tget_tset_self _ h _

theorem Chip.ing_onIng (i j : Nat) (f : IngestCtx → IngestCtx) :
    (p.onIng i f).ing j = if i = j ∧ i < 5 then f (p.ing i) else p.ing j := tget_tset _ _ _ _

@[simp] theorem Chip.ing_onIng_self {i : Nat} (h : i < 5) (f : IngestCtx → IngestCtx) :
    (p.onIng i f).ing i = f (p.ing i) := tget_tset_self _ h _

theorem Chip.ren_onRen (i j : Nat) (f : RenderCtx → RenderCtx) :
    (p.onRen i f).ren j = if i = j ∧ i < 5 then f (p.ren i) else p.ren j := tget_tset _ _ _ _

@[simp] theorem Chip.ren_onRen_self {i : Nat} (h : i < 5) (f : RenderCtx → RenderCtx) :
    (p.onRen i f).ren i = f (p.ren i) := tget_tset_self _ h _

theorem Chip.doc_onDoc (i j : Nat) (f : DocRecord → DocRecord) :
    (p.onDoc i f).doc j = if i = j ∧ i < 64 then f (p.doc i) else p.doc j := tget_tset _ _ _ _

@[simp] theorem Chip.doc_onDoc_self {i : Nat} (h : i < 64) (f : DocRecord → DocRecord) :
    (p.onDoc i f).doc i = f (p.doc i) := tget_tset_self _ h _

theorem Chip.pageRec_onPage (i j : Nat) (f : PageRecord → PageRecord) :
    (p.onPage i f).pageRec j = if i = j ∧ i < 1024 then f (p.pageRec i) else p.pageRec j := tget_tset _ _ _ _

@[simp] theorem Chip.pageRec_onPage_self {i : Nat} (h : i < 1024) (f : PageRecord → PageRecord) :
    (p.onPage i f).pageRec i = f (p.pageRec i) := tget_tset_self _ h _

theorem Chip.job_onJob (i j : Nat) (f : Job → Job) :
    (p.onJob i f).job j = if i = j ∧ i < 16 then f (p.job i) else p.job j := tget_tset _ _ _ _

@[simp] theorem Chip.job_onJob_self {i : Nat} (h : i < 16) (f : Job → Job) :
    (p.onJob i f).job i = f (p.job i) := tget_tset_self _ h _

theorem Chip.callRec_onCall (i j : Nat) (f : CallRecord → CallRecord) :
    (p.onCall i f).callRec j = if i = j ∧ i < 32 then f (p.callRec i) else p.callRec j := tget_tset _ _ _ _

@[simp] theorem Chip.callRec_onCall_self {i : Nat} (h : i < 32) (f : CallRecord → CallRecord) :
    (p.onCall i f).callRec i = f (p.callRec i) := tget_tset_self _ h _

theorem Chip.attempt_onAttempt (i j : Nat) (f : Attempt → Attempt) :
    (p.onAttempt i f).attempt j = if i = j ∧ i < 4 then f (p.attempt i) else p.attempt j := tget_tset _ _ _ _

@[simp] theorem Chip.attempt_onAttempt_self {i : Nat} (h : i < 4) (f : Attempt → Attempt) :
    (p.onAttempt i f).attempt i = f (p.attempt i) := tget_tset_self _ h _

theorem Chip.account_onAccount (i j : Nat) (f : Account → Account) :
    (p.onAccount i f).account j = if i = j ∧ i < 64 then f (p.account i) else p.account j := tget_tset _ _ _ _

@[simp] theorem Chip.account_onAccount_self {i : Nat} (h : i < 64) (f : Account → Account) :
    (p.onAccount i f).account i = f (p.account i) := tget_tset_self _ h _

end Sys2Proof.Machine
end

