-- ==== Sys2Proof/Laws/Kept.lean ====
section
/-! SUPPORT. What each block can do at all: a property of the part that the primitive updates keep is kept by every
operation built from them. `Base` holds the primitives of the store controller and the notices and the attempt records' updates, `Inner` adds those of
the two engines, `Sched` those of the line arbiter, `Outer` is all that the line channel and the charge unit do. A
property that speaks of other fields alone (configuration, path, tariff, clock, routing) is kept by all of them. -/

namespace Sys2Proof.Machine

/-- Kept by the store controller's updates and by sending a notice. -/
structure Base (P : Chip → Prop) : Prop where
  record : ∀ {p}, P p → ∀ op, P (p.issueRecord op)
  notice : ∀ {p}, P p → ∀ n, P (p.send n)
  pool : ∀ {p}, P p → ∀ x, P { p with store := { p.store with pool := x } }
  pages : ∀ {p}, P p → ∀ x, P { p with store := { p.store with pages := x } }
  docs : ∀ {p}, P p → ∀ x, P { p with store := { p.store with docs := x } }
  report : ∀ {p}, P p → ∀ x, P { p with req := { p.req with report := x } }
  attempts : ∀ {p}, P p → ∀ x, P { p with charge := { p.charge with attempts := x } }

/-- Kept by the updates of the ingest and render engines too. -/
structure Inner (P : Chip → Prop) : Prop extends Base P where
  ingest : ∀ {p}, P p → ∀ x, P { p with ingest := x }
  render : ∀ {p}, P p → ∀ x, P { p with render := x }
  jobs : ∀ {p}, P p → ∀ x, P { p with print := { p.print with jobs := x } }
  queue : ∀ {p}, P p → ∀ x, P { p with print := { p.print with queue := x } }
  accounts : ∀ {p}, P p → ∀ x, P { p with charge := { p.charge with accounts := x } }
  restart : ∀ {p}, P p → ∀ x, P { p with req := { p.req with restart := x } }
  lineOps : ∀ {p}, P p → ∀ x, P { p with mport := { p.mport with lineOps := x } }
  scanOps : ∀ {p}, P p → ∀ x, P { p with mport := { p.mport with scanOps := x } }
  printOps : ∀ {p}, P p → ∀ x, P { p with mport := { p.mport with printOps := x } }

/-- What every update of a line below LINE_SET keeps: its configuration, and DIGIT nonzero just while TONE_ON. -/
def LineStep (f : Line → Line) : Prop :=
  ∀ l, (f l).cfg = l.cfg ∧ ((l.digit ≠ 0 ↔ l.toneOn = true) → ((f l).digit ≠ 0 ↔ (f l).toneOn = true))

/-- Kept by the arbiter's updates: the store's, a line's and the call records'. -/
structure Sched (P : Chip → Prop) : Prop extends Base P where
  line : ∀ {p}, P p → ∀ n f, LineStep f → P (p.onLine n f)
  records : ∀ {p}, P p → ∀ x, P { p with calls := { p.calls with records := x } }

/-- Kept by the charge unit's updates in the course of an attempt. -/
structure Charging (P : Chip → Prop) : Prop extends Base P where
  accounts : ∀ {p}, P p → ∀ x, P { p with charge := { p.charge with accounts := x } }
  records : ∀ {p}, P p → ∀ x, P { p with calls := { p.calls with records := x } }
  log : ∀ {p}, P p → ∀ x, P { p with charge := { p.charge with log := x } }
  logSeq : ∀ {p}, P p → ∀ x, P { p with charge := { p.charge with logSeq := x } }

/-- Kept by everything that a line event and a restart do. -/
structure Outer (P : Chip → Prop) : Prop extends Inner P, Sched P, Charging P where
  held : ∀ {p}, P p → ∀ x, P { p with path := { p.path with held := x } }
  lfsr : ∀ {p}, P p → P { p with calls := { p.calls with lfsr := lfsrNext p.calls.lfsr } }
  free : ∀ {p}, P p → ∀ x, P { p with freeIndex := x }

/-- Kept by an advance of the clock too. -/
structure Ticks (P : Chip → Prop) : Prop extends Outer P where
  charge : ∀ {p}, P p → ∀ x, P { p with charge := x }
  schedule : ∀ {p}, P p → ∀ x, P { p with calls := { p.calls with schedule := x } }

variable {P : Chip → Prop} {p : Chip}

/-- Kept by both branches, kept by the choice. -/
theorem ite_kept (P : Chip → Prop) {c : Prop} [Decidable c] {a b : Chip} (ha : P a) (hb : P b) : P (if c then a else b) := by
  split <;> assumption

/-- A fold keeps what each of its steps keeps. -/
theorem foldl_kept (P : Chip → Prop) {α : Type} (f : Chip → α → Chip) (hf : ∀ p a, P p → P (f p a)) (l : List α) (hp : P p) :
    P (l.foldl f p) := by
  induction l generalizing p with
  | nil => exact hp
  | cons a l ih => exact ih (hf p a hp)

/-! ## The store controller -/

namespace Base

theorem word (h : Base P) (hp : P p) (w : StatusWord) : P (p.issueWord w) := by
  unfold Chip.issueWord; split
  · exact hp
  · exact h.record hp _

theorem done (h : Base P) (hp : P p) (tag : Half) (k : Nat) (r : Result) (v : Nat) : P (p.done tag k r v) := h.notice hp _
theorem onDoc (h : Base P) (hp : P p) (d : Nat) (f : DocRecord → DocRecord) : P (p.onDoc d f) := h.docs hp _
theorem onPage (h : Base P) (hp : P p) (r : Nat) (f : PageRecord → PageRecord) : P (p.onPage r f) := h.pages hp _

theorem setPool (h : Base P) (hp : P p) (x : List Nat) : P (p.setPool x) := by
  unfold Chip.setPool; dsimp only; split
  · exact h.pool hp _
  · exact h.word (h.pool hp _) _

theorem allocate (h : Base P) (hp : P p) (c d n : Nat) : P (p.allocate c d n).2 := by
  unfold Chip.allocate; split
  · exact h.notice hp _
  · split
    · exact h.notice hp _
    · dsimp only; split
      · exact h.notice (h.setPool hp _) _
      · exact h.setPool hp _

theorem refuseOpen (h : Base P) (hp : P p) (d : Nat) : P (p.refuseOpen d) := h.docs hp _

theorem openPage (h : Base P) (hp : P p) (c d w r : Nat) : P (p.openPage c d w r).2 := by
  unfold Chip.openPage; extract_lets n; split
  · exact h.refuseOpen (h.notice hp _) _
  · split
    · exact h.refuseOpen (h.notice hp _) _
    · have ha := h.allocate hp c d n
      split
      · next heq => rw [heq] at ha; exact h.refuseOpen ha _
      · next heq => rw [heq] at ha; dsimp only at ha ⊢; exact h.onDoc (h.onPage ha _ _) _ _

theorem freePage (h : Base P) (hp : P p) (r : Nat) : P (p.freePage r) := by
  unfold Chip.freePage; exact h.onPage (h.onDoc (h.setPool hp _) _ _) _ _

theorem openDoc (h : Base P) (hp : P p) {o k d : Nat} {q : Chip} (hq : p.openDoc o k = .ok (d, q)) : P q := by
  unfold Chip.openDoc at hq
  split at hq
  · simp at hq
  · split at hq
    · simp at hq
    · simp only [Except.ok.injEq, Prod.mk.injEq] at hq
      exact hq.2 ▸ h.onDoc hp _ _

theorem freeDoc (h : Base P) (hp : P p) (d : Nat) : P (p.freeDoc d) := by
  have h1 : P ((p.doc d).pages.reverse.foldl Chip.freePage p) := foldl_kept P _ (fun _ r hp => h.freePage hp r) _ hp
  unfold Chip.freeDoc; extract_lets +onlyGivenNames pages blocks q1 q2 _ q3
  have h3 : P q3 := h.report (h.onDoc h1 _ _) _
  exact h.notice (h.attempts h3 _) _

theorem tryFree (h : Base P) (hp : P p) (d : Nat) : P (p.tryFree d) := by
  unfold Chip.tryFree; split
  · exact h.freeDoc hp _
  · exact hp

theorem releaseHold (h : Base P) (hp : P p) (d : Nat) : P (p.releaseHold d) := h.tryFree (h.onDoc hp _ _) _

end Base

/-! ## The engines -/

namespace Inner

theorem onIng (h : Inner P) (hp : P p) (c : Nat) (f : IngestCtx → IngestCtx) : P (p.onIng c f) := h.ingest hp _
theorem onRen (h : Inner P) (hp : P p) (c : Nat) (f : RenderCtx → RenderCtx) : P (p.onRen c f) := h.render hp _
theorem onJob (h : Inner P) (hp : P p) (j : Nat) (f : Job → Job) : P (p.onJob j f) := h.jobs hp _
theorem onAccount (h : Inner P) (hp : P p) (d : Nat) (f : Account → Account) : P (p.onAccount d f) := h.accounts hp _

theorem issueIngest (h : Inner P) (hp : P p) (c : Nat) (op : EngineOp) : P (p.issueIngest c op) := by
  unfold Chip.issueIngest; split
  · exact h.scanOps hp _
  · exact h.lineOps hp _

theorem issueRender (h : Inner P) (hp : P p) (c : Nat) (op : EngineOp) : P (p.issueRender c op) := by
  unfold Chip.issueRender; split
  · exact h.printOps hp _
  · exact h.lineOps hp _

theorem addStrays (h : Inner P) (hp : P p) (c k : Nat) : P (p.addStrays c k) := by
  unfold Chip.addStrays; dsimp only; split
  · exact h.word (h.onIng hp _ _) _
  · exact h.onIng hp _ _

/-! ### Rendering -/

theorem issueSlot (h : Inner P) (hp : P p) (c : Nat) (x : Option (List Bool)) (m : Markers) (a b : Bool) :
    P (p.issueSlot c x m a b) := by
  unfold Chip.issueSlot; split
  · exact hp
  · exact h.onRen (h.issueRender hp _ _) _ _

theorem markJobCorrupt (h : Inner P) (hp : P p) (c : Nat) : P (p.markJobCorrupt c) := by
  unfold Chip.markJobCorrupt; split
  · exact h.onJob hp _ _
  · exact hp

theorem startPage (h : Inner P) (hp : P p) (c r : Nat) : P (p.startPage c r) := by
  unfold Chip.startPage; dsimp only; split
  · exact h.markJobCorrupt (h.onRen hp _ _) _
  · exact h.onRen hp _ _

theorem needBlock (h : Inner P) (hp : P p) (c : Nat) (s : Source) : P (p.needBlock c s) := by
  unfold Chip.needBlock; split
  · exact hp
  · exact h.onRen (h.issueRender hp _ _) _ _

theorem metCorruption (h : Inner P) (hp : P p) (c : Nat) (s : Source) (n : Nat) : P (p.metCorruption c s n) := by
  unfold Chip.metCorruption; dsimp only; split
  · exact h.markJobCorrupt hp _
  · exact h.notice (h.onPage (h.markJobCorrupt hp _) _ _) _

theorem pullLine (h : Inner P) (c : Nat) (s : Source) (rt k : Nat) (hp : P p) : P (Chip.pullLine c s rt k p).2 := by
  induction k generalizing p with
  | zero => exact hp
  | succ k ih =>
    unfold Chip.pullLine; extract_lets x; split
    · dsimp only; exact h.onRen hp _ _
    · split
      · exact h.needBlock hp _ _
      · next pels d met _ =>
        extract_lets q1 q2
        have hq : P q2 := ite_kept P (h.metCorruption (h.onRen hp _ _) _ _ _) (h.onRen hp _ _)
        clear_value q2
        split
        · dsimp only; exact h.onRen hq _ _
        · exact ih (h.onRen hq _ _)

theorem printFetch (h : Inner P) (k : Nat) (hp : P p) : P (Chip.printFetch k p) := by
  induction k generalizing p with
  | zero => exact hp
  | succ k ih =>
    unfold Chip.printFetch; split
    · exact hp
    · extract_lets +onlyGivenNames job n; split
      · exact h.startPage hp _ _
      · exact h.onRen hp _ _
      · generalize hq : (ite (job.last ≠ 0 ∧ n ≤ job.last) _ _ : Chip) = q
        have hq : P q := hq ▸ ite_kept P (h.onJob hp _ _) hp
        exact ite_kept P (ih (h.onRen hq _ _)) (h.onRen hq _ _)

theorem printTake (h : Inner P) (hp : P p) : P p.printTake := by
  unfold Chip.printTake; split
  · exact hp
  · extract_lets +onlyGivenNames fin _ q1 q2 q3
    have h2 : P q2 := h.onJob (h.queue hp _) _ _
    have h3 : P q3 := ite_kept P h2 (h.onRen h2 _ _)
    clear_value q3
    exact h.printFetch _ (h.onRen h3 _ _)

theorem printHanded (h : Inner P) (hp : P p) (a b : Bool) : P (p.printHanded a b) := by
  unfold Chip.printHanded; split
  · exact hp
  · extract_lets q job
    have hq : P q := ite_kept P (h.onJob hp _ _) hp
    clear_value q
    split
    · exact h.onRen hq _ _
    · exact h.printFetch _ (h.onRen hq _ _)

theorem printFinished (h : Inner P) (hp : P p) (n : Nat) : P (p.printFinished n) := by
  unfold Chip.printFinished; split
  · exact hp
  · extract_lets d defer q1 q2
    have h1 : P q1 := h.onJob hp _ _
    have h2 : P q2 := ite_kept P h1 (h.releaseHold h1 _)
    exact h.printTake (h.onRen h2 _ _)

theorem sendPrintDone (h : Inner P) (hp : P p) (j : Nat) : P (p.sendPrintDone j) := h.notice hp _

theorem printConsumed (h : Inner P) (hp : P p) (n : Nat) : P (p.printConsumed n) := by
  unfold Chip.printConsumed; split
  · exact hp
  · extract_lets +onlyGivenNames q1 q2
    have h1 : P q1 := h.sendPrintDone hp _
    have h2 : P q2 := ite_kept P (h.releaseHold h1 _) h1
    clear_value q2
    exact ite_kept P (h.onJob h2 _ _) (h.onRen (h.onJob h2 _ _) _ _)

theorem txFetch (h : Inner P) (hp : P p) (c i n : Nat) : P (p.txFetch c i n) := by
  unfold Chip.txFetch; dsimp only; split
  · exact h.startPage (h.onRen hp _ _) _ _
  · exact h.onRen (h.onRen hp _ _) _ _
  · exact h.onRen (h.onRen hp _ _) _ _

theorem txSelect (h : Inner P) (hp : P p) (c : Nat) : P (p.txSelect c) := by
  unfold Chip.txSelect; split
  · exact hp
  · split
    · exact h.onRen hp _ _
    · exact h.txFetch hp _ _ _

theorem txWritten (h : Inner P) (hp : P p) (c : Nat) : P (p.txWritten c) := by
  unfold Chip.txWritten; split
  · exact hp
  · exact h.notice (h.onRen hp _ _) _

theorem txFinished (h : Inner P) (hp : P p) (c : Nat) : P (p.txFinished c) := by
  unfold Chip.txFinished; split
  · exact hp
  · exact h.notice hp _

theorem handSlot (h : Inner P) (hp : P p) (c : Nat) (x : Option (List Bool)) (e : Bool) : P (p.handSlot c x e) := by
  unfold Chip.handSlot; split
  extract_lets q1 q2
  have h2 : P q2 := h.onRen (h.issueSlot hp _ _ _ _ _) _ _
  clear_value q2
  exact ite_kept P h2 (ite_kept P (h.printHanded h2 _ _) (h.onRen h2 _ _))

theorem produce (h : Inner P) (hp : P p) (c : Nat) (s : Source) : P (p.produce c s) := by
  unfold Chip.produce; split
  · exact h.handSlot hp _ _ _
  · split
    · exact hp
    · next wt rt _ =>
      have hl := h.pullLine c s rt 4 hp
      split
      · next heq => rw [heq] at hl; exact hl
      · next heq => rw [heq] at hl; exact h.handSlot hl _ _ _

theorem advance (h : Inner P) (hp : P p) (c : Nat) : P (p.advance c) := by
  unfold Chip.advance; dsimp only; split
  · exact hp
  · split
    · exact h.onRen (h.issueSlot hp _ _ _ _ _) _ _
    · split
      · exact h.produce hp _ _
      · exact hp

theorem signalOne (h : Inner P) (hp : P p) (d c : Nat) : P (Chip.signalOne d p c) := by
  unfold Chip.signalOne; split
  · split
    · exact h.advance (h.printFetch _ hp) _
    · split
      · exact hp
      · exact h.advance (h.txFetch hp _ _ _) _
  · exact hp

theorem signal (h : Inner P) (hp : P p) (d : Nat) : P (p.signal d) := by
  unfold Chip.signal; exact foldl_kept P _ (fun _ c hp => h.signalOne hp d c) _ hp

theorem slotWritten (h : Inner P) (hp : P p) (c k n : Nat) (a b : Bool) : P (p.slotWritten c k n a b) := by
  unfold Chip.slotWritten; extract_lets +onlyGivenNames void q1 q2
  have h1 : P q1 := h.onRen hp _ _
  have h2 : P q2 := by
    unfold q2; split
    · exact h.onJob h1 _ _
    · exact h1
  clear_value q2 q1 void
  have h3 : P (if a = true then q1.txWritten c else q1) := ite_kept P (h.txWritten h1 _) h1
  exact h.advance (ite_kept P h1 (ite_kept P (ite_kept P (h.printFinished h2 _) h2) (ite_kept P (h.txFinished h3 _) h3))) _

theorem consume (h : Inner P) (hp : P p) (c k : Nat) : P (p.consume c k) := by
  unfold Chip.consume; split
  · exact hp
  · extract_lets +onlyGivenNames s q1 q2
    have h1 : P q1 := h.onRen hp _ _
    have h2 : P q2 := ite_kept P (h.printConsumed h1 _) h1
    clear_value q2
    exact ite_kept P hp (h.advance h2 _)

theorem blockRead (h : Inner P) (hp : P p) (c r : Nat) (bits : List Bool) : P (p.blockRead c r bits) := by
  unfold Chip.blockRead; exact h.advance (h.tryFree (h.onRen hp _ _) _) _

/-- A stop touches the read that waits at the S-port too (04 R72). -/
theorem stopRender (h : Inner P) {c : Nat} (hp : P (p.unbindHeld c)) : P (p.stopRender c) := h.onRen hp _ _

theorem cutJob (h : Inner P) (hp : P p) (j : Nat) : P (p.cutJob j) := by
  unfold Chip.cutJob; exact h.advance (h.onRen (h.onJob hp _ _) _ _) _

/-! ### Ingest -/

theorem discardStrays (h : Inner P) (c k : Nat) (hp : P p) : P (Chip.discardStrays c k p) := by
  induction k generalizing p with
  | zero => exact hp
  | succ k ih =>
    unfold Chip.discardStrays; split
    · exact hp
    · split
      · exact ih (h.addStrays (h.onIng hp _ _) _ _)
      · exact hp

theorem takeSlot (h : Inner P) (hp : P p) (c : Nat) : P (p.takeSlot c) := by
  unfold Chip.takeSlot; split
  · exact hp
  · split
    · exact hp
    · exact h.onIng (h.issueIngest hp _ _) _ _

theorem serveRing (h : Inner P) (hp : P p) (c : Nat) : P (p.serveRing c) := by
  unfold Chip.serveRing; split
  · split
    · exact h.discardStrays _ _ hp
    · exact hp
  · split
    · exact h.takeSlot hp _
    · exact hp

theorem countLost (h : Inner P) (hp : P p) (c : Nat) : P (p.countLost c) := by
  unfold Chip.countLost; split
  · exact h.addStrays hp _ _
  · exact h.onIng hp _ _

theorem drainSlot (h : Inner P) (hp : P p) (c k : Nat) (b : Bool) : P (p.drainSlot c k b) := by
  unfold Chip.drainSlot; split
  · exact hp
  · extract_lets lost q1 q2
    have h1 : P q1 := h.onIng hp _ _
    exact h.serveRing (ite_kept P (h.countLost h1 _) h1) _

theorem onOpenPage (h : Inner P) (hp : P p) (c : Nat) (f : PageRecord → PageRecord) : P (p.onOpenPage c f) := by
  unfold Chip.onOpenPage; split
  · exact h.onPage hp _ _
  · exact hp

theorem taskOpenPage (h : Inner P) (hp : P p) (c : Nat) : P (p.taskOpenPage c) := by
  unfold Chip.taskOpenPage; dsimp only; split
  · exact hp
  · next d _ =>
    have ho := h.openPage hp c d (p.ing c).width (p.ing c).res
    split <;> next heq => rw [heq] at ho; exact h.onIng ho _ _

theorem countReplacement (h : Inner P) (hp : P p) (c : Nat) : P (p.countReplacement c) := by
  unfold Chip.countReplacement; dsimp only; split
  · exact h.onOpenPage (h.onIng (h.onOpenPage hp _ _) _ _) _ _
  · exact h.onIng (h.onOpenPage hp _ _) _ _

theorem giveLine (h : Inner P) (hp : P p) (c : Nat) (x : Option (List Bool)) (ts : List Task) : P (p.giveLine c x ts) := by
  unfold Chip.giveLine; extract_lets +onlyGivenNames y
  split
  · exact h.onIng (h.addStrays hp _ _) _ _
  split
  · exact h.onIng (h.addStrays (h.onIng (h.onOpenPage hp _ _) _ _) _ _) _ _
  · extract_lets +onlyGivenNames q
    have hq : P q := by
      unfold q; split
      · exact h.countReplacement hp _
      · exact h.onIng hp _ _
    clear_value q
    exact h.onIng hq _ _

theorem dropCode (h : Inner P) (hp : P p) (c b : Nat) (ts : List Task) : P (p.dropCode c b ts) := by
  unfold Chip.dropCode; exact h.onIng (h.onOpenPage hp _ _) _ _

theorem writeBlock (h : Inner P) (hp : P p) (c : Nat) : P (p.writeBlock c) := by
  unfold Chip.writeBlock; dsimp only; split
  · exact hp
  · exact h.onIng (h.issueIngest hp _ _) _ _

theorem nextBlock (h : Inner P) (hp : P p) (c b : Nat) (bits : List Bool) (cs : List LineCode) (ts : List Task) :
    P (p.nextBlock c b bits cs ts) := by
  unfold Chip.nextBlock; split
  · exact h.onIng hp _ _
  · next r _ =>
    have ha := h.allocate hp c ((p.ing c).doc.getD 0) (p.pageRec r).number
    split
    · next heq => rw [heq] at ha; exact h.dropCode ha _ _ _
    · next heq => rw [heq] at ha; exact h.onIng (h.onPage (h.writeBlock ha _) _ _) _ _

theorem taskPlacing (h : Inner P) (hp : P p) {c b : Nat} {bits : List Bool} {cs : List LineCode} {ts : List Task}
    {q : Chip} (hq : p.taskPlacing c b bits cs ts = some q) : P q := by
  unfold Chip.taskPlacing at hq; dsimp only at hq
  split at hq
  · split at hq <;> simp only [Option.some.injEq] at hq <;> subst hq
    · exact h.onIng hp _ _
    · exact h.onIng hp _ _
  · split at hq
    · simp only [Option.some.injEq] at hq; subst hq; exact h.onIng hp _ _
    · split at hq
      · simp at hq
      · simp only [Option.some.injEq] at hq; subst hq; exact h.nextBlock hp _ _ _ _ _

theorem taskMarks (h : Inner P) (hp : P p) (c : Nat) (a b : Bool) (ts : List Task) : P (p.taskMarks c a b ts) := by
  unfold Chip.taskMarks; dsimp only
  split <;> repeat' (first | split | exact h.onIng hp _ _)

theorem taskEmitRun (h : Inner P) (hp : P p) (c : Nat) (ts : List Task) : P (p.taskEmitRun c ts) := by
  unfold Chip.taskEmitRun; dsimp only; split <;> exact h.onIng hp _ _

theorem taskPageClosed (h : Inner P) (hp : P p) (c : Nat) (ts : List Task) : P (p.taskPageClosed c ts) := by
  unfold Chip.taskPageClosed; extract_lets +onlyGivenNames x; split
  · exact h.onIng hp _ _
  · extract_lets +onlyGivenNames coder q1 q2 q3
    have h1 : P q1 := h.onPage hp _ _
    have h3 : P q3 := h.signal (h.onIng h1 _ _) _
    clear_value q3
    exact h.notice h3 _

theorem taskAfterClose (h : Inner P) (hp : P p) (c : Nat) (ts : List Task) : P (p.taskAfterClose c ts) := by
  unfold Chip.taskAfterClose; dsimp only; split
  · exact h.onIng hp _ _
  · split
    · exact h.onIng (h.onIng hp _ _) _ _
    · exact h.onIng (h.onIng hp _ _) _ _
    · exact h.onIng hp _ _

theorem taskStopAct (h : Inner P) (hp : P p) (c : Nat) (ts : List Task) : P (p.taskStopAct c ts) := by
  have hk : ∀ b : Bool, P (if b = true then
      ((p.onOpenPage c fun r => { r with truncated := true }).onIng c fun x => { x with
        phase := .closing, tasks := closeTasks ++ [.docClose true, .stopDone] ++ ts })
      else p.onIng c fun x => { x with
        phase := .closing, coder := none, tasks := [.discardPage, .docClose true, .stopDone] ++ ts }) := by
    intro b; split
    · exact h.onIng (h.onOpenPage hp _ _) _ _
    · exact h.onIng hp _ _
  unfold Chip.taskStopAct; dsimp only; split
  · exact h.onIng hp _ _
  · exact hk _
  · exact h.onIng hp _ _

theorem taskDiscardPage (h : Inner P) (hp : P p) (c : Nat) (ts : List Task) : P (p.taskDiscardPage c ts) := by
  unfold Chip.taskDiscardPage; split
  · exact h.onIng hp _ _
  · exact h.onIng (h.freePage hp _) _ _

theorem countReceived (h : Inner P) (hp : P p) (d : Nat) : P (p.countReceived d) := by
  unfold Chip.countReceived; split
  · exact hp
  · exact h.onAccount hp _ _

theorem closeDoc (h : Inner P) (hp : P p) (c d : Nat) (b : Bool) : P (p.closeDoc c d b) := by
  unfold Chip.closeDoc; extract_lets +onlyGivenNames q1 q2
  have h1 : P q1 := h.onDoc hp _ _
  have h2 : P q2 := h.countReceived (h.signal h1 _) _
  clear_value q2
  exact h.notice h2 _

theorem taskDocClose (h : Inner P) (hp : P p) (c : Nat) (b : Bool) (ts : List Task) : P (p.taskDocClose c b ts) := by
  unfold Chip.taskDocClose; refine h.onIng ?_ _ _; split
  · exact hp
  · exact h.closeDoc hp _ _ _

theorem restartReached (h : Inner P) (hp : P p) (c : Nat) : P (p.restartReached c) := by
  unfold Chip.restartReached; split
  · exact hp
  · split
    · dsimp only; split
      · exact h.notice (h.restart hp _) _
      · exact h.restart hp _
    · exact hp

theorem taskStopDone (h : Inner P) (hp : P p) (c : Nat) (ts : List Task) : P (p.taskStopDone c ts) := by
  unfold Chip.taskStopDone; dsimp only
  refine h.restartReached ?_ _
  split
  · exact h.notice (h.onIng hp _ _) _
  · exact h.onIng hp _ _

theorem runTask (h : Inner P) (hp : P p) {c : Nat} {q : Chip} (hq : p.runTask c = some q) : P q := by
  unfold Chip.runTask at hq; dsimp only at hq
  split at hq
  case h_1 => cases hq
  case h_2 => cases hq; exact h.taskOpenPage (h.onIng hp _ _) _
  case h_3 => cases hq; exact h.onIng hp _ _
  case h_4 => cases hq; exact h.giveLine hp _ _ _
  case h_5 => cases hq; exact h.giveLine hp _ _ _
  case h_6 => cases hq; exact h.onIng hp _ _
  case h_7 => cases hq; exact h.onIng hp _ _
  case h_8 => exact h.taskPlacing hp hq
  case h_9 => cases hq; exact h.taskMarks hp _ _ _ _
  case h_10 => cases hq; exact h.onIng (h.onIng hp _ _) _ _
  case h_11 => cases hq; exact h.taskEmitRun hp _ _
  case h_12 => split at hq <;> cases hq; exact h.writeBlock (h.onIng hp _ _) _
  case h_13 => split at hq <;> cases hq; exact h.taskPageClosed hp _ _
  case h_14 => cases hq; exact h.taskAfterClose hp _ _
  case h_15 => split at hq <;> cases hq; exact h.taskStopAct hp _ _
  case h_16 => split at hq <;> cases hq; exact h.taskDiscardPage hp _ _
  case h_17 => cases hq; exact h.taskDocClose hp _ _ _
  case h_18 => cases hq; exact h.taskStopDone hp _ _

theorem runTasks (h : Inner P) (c k : Nat) (hp : P p) : P (Chip.runTasks c k p) := by
  induction k generalizing p with
  | zero => exact hp
  | succ k ih =>
    unfold Chip.runTasks; split
    · exact hp
    · next heq => exact ih (h.runTask hp heq)

theorem runIngest (h : Inner P) (hp : P p) (c : Nat) : P (p.runIngest c) := h.serveRing (h.runTasks _ _ hp) _

theorem slotRead (h : Inner P) (hp : P p) (c k : Nat) (x : List Bool) (w : Nat) : P (p.slotRead c k x w) := by
  unfold Chip.slotRead; exact h.runIngest (h.onIng (h.onIng hp _ _) _ _) _

theorem blockWritten (h : Inner P) (hp : P p) (c : Nat) : P (p.blockWritten c) := h.runIngest (h.onIng hp _ _) _

theorem stopIngest (h : Inner P) (hp : P p) (c : Nat) (k : Bool) (s : StopSource) : P (p.stopIngest c k s) :=
  h.runIngest (h.onIng hp _ _) _

theorem stopIngestIfActive (h : Inner P) (hp : P p) (c : Nat) : P (p.stopIngestIfActive c) := by
  unfold Chip.stopIngestIfActive; split
  · exact h.stopIngest hp _ _ _
  · exact hp

end Inner

end Sys2Proof.Machine
end

