-- ==== Sys2Proof/Laws/Acts.lean ====
section
/-! SUPPORT. What the arbiter, the line channel and the charge unit can do at all, over the closures of Laws/Kept.lean. -/

namespace Sys2Proof.Machine

variable {P : Chip → Prop} {p : Chip}

/-! ## Updates of a line -/

namespace LineStep

theorem held : LineStep Line.held := fun _ => ⟨rfl, id⟩
theorem restartAll : LineStep Line.restartAll := fun _ => ⟨rfl, id⟩

theorem setHook (b : Bool) : LineStep (Line.setHook b) := by
  intro l; unfold Line.setHook; split
  · exact ⟨rfl, id⟩
  · exact ⟨rfl, id⟩

theorem comp {f g : Line → Line} (hf : LineStep f) (hg : LineStep g) : LineStep fun l => f (g l) := fun l =>
  ⟨(hf _).1.trans (hg l).1, fun h => (hf _).2 ((hg l).2 h)⟩

/-- Every digit code is nonzero. -/
theorem digitCode_ne_zero (k : Nat) : digitCode k ≠ 0 := by
  unfold digitCode; split
  · decide
  · split <;> omega

theorem startTone (k : Nat) : LineStep (Line.startTone k) := fun _ =>
  ⟨rfl, fun _ => ⟨fun _ => rfl, fun _ => digitCode_ne_zero k⟩⟩

theorem startBreak (k : Nat) : LineStep (Line.startBreak k) := fun l =>
  ⟨(setHook false l).1, (setHook false l).2⟩

theorem startMake (k : Nat) : LineStep (Line.startMake k) := fun l =>
  ⟨(setHook true l).1, (setHook true l).2⟩

/-- An update that leaves the tone off. -/
theorem silent {f : Line → Line} (hc : ∀ l, (f l).cfg = l.cfg) (hd : ∀ l, (f l).digit = 0)
    (ht : ∀ l, (f l).toneOn = false) : LineStep f := fun l =>
  ⟨hc l, fun _ => by rw [hd, ht]; decide⟩

theorem released (c : Cause) : LineStep (Line.released c) := silent (fun _ => rfl) (fun _ => rfl) (fun _ => rfl)

theorem trainSettled : LineStep Line.trainSettled := by
  intro l; unfold Line.trainSettled; split <;> exact ⟨rfl, id⟩

end LineStep

/-! ## The arbiter and the dialler -/

namespace Sched

theorem onCall (h : Sched P) (hp : P p) (i : Nat) (f : CallRecord → CallRecord) : P (p.onCall i f) := h.records hp _
theorem onAttempt (h : Sched P) (hp : P p) (n : Nat) (f : Attempt → Attempt) : P (p.onAttempt n f) := h.attempts hp _

/-- An update of a line that leaves its configuration, DIGIT and TONE_ON. -/
theorem edit (h : Sched P) (hp : P p) (n : Nat) (f : Line → Line)
    (hf : LineStep f := by exact fun _ => ⟨rfl, id⟩) : P (p.onLine n f) := h.line hp n f hf

theorem setLineState (h : Sched P) (hp : P p) (n : Nat) (st : LineState) : P (p.setLineState n st) :=
  h.word (h.edit hp _ _) _

theorem openOutward (h : Sched P) (hp : P p) (n i : Nat) : P (p.openOutward n i) := h.onAttempt hp _ _

theorem seize (h : Sched P) (hp : P p) (n i : Nat) : P (p.seize n i) := by
  have hl : LineStep fun l => { l.setHook true with
      call := some i, dir := .outward, dial := (p.callRec i).dest, pos := 0 } := fun l =>
    ⟨(LineStep.setHook true l).1, (LineStep.setHook true l).2⟩
  unfold Chip.seize; exact h.openOutward (h.setLineState (h.line hp _ _ hl) _ _) _ _

theorem endCall (h : Sched P) (hp : P p) (i : Nat) (c : Cause) : P (p.endCall i c) := by
  unfold Chip.endCall; exact h.onCall (h.releaseHold (h.notice hp _) _) _ _

theorem assign (h : Sched P) (hp : P p) (i n : Nat) : P (p.assign i n) := h.seize (h.onCall hp _ _) _ _

theorem passRecord (h : Sched P) (hp : P p) (i : Nat) : P (p.passRecord i) := by
  unfold Chip.passRecord; split
  · exact h.endCall hp _ _
  · split
    · exact hp
    · split
      · exact h.assign hp _ _
      · exact hp

theorem arbiterPass (h : Sched P) (hp : P p) : P p.arbiterPass :=
  foldl_kept P Chip.passRecord (fun _ i hp => h.passRecord hp i) _ hp

end Sched

namespace Charging

/-! ## Charges -/

theorem onAttempt (h : Charging P) (hp : P p) (n : Nat) (f : Attempt → Attempt) : P (p.onAttempt n f) := h.attempts hp _
theorem onAccount (h : Charging P) (hp : P p) (n : Nat) (f : Account → Account) : P (p.onAccount n f) := h.accounts hp _

theorem testBudget (h : Charging P) (hp : P p) (d : Nat) : P (p.testBudget d) := by
  unfold Chip.testBudget; extract_lets a
  exact ite_kept P (h.notice (h.onAccount hp _ _) _) hp

theorem post (h : Charging P) (hp : P p) (n k : Nat) : P (p.post n k) := by
  unfold Chip.post; split
  · exact hp
  · extract_lets q1 q2 q3
    have h2 : P q2 := h.onAttempt (h.onAccount hp _ _) _ _
    have h3 : P q3 := by
      unfold q3; split
      · exact h.records h2 _
      · exact h2
    exact h.testBudget h3 _

theorem tariffCharge (h : Charging P) (hp : P p) (n k : Nat) : P (p.tariffCharge n k) := by
  unfold Chip.tariffCharge; extract_lets q
  have hq : P q := h.onAttempt hp _ _
  exact ite_kept P hq (h.post hq _ _)

theorem unitStart (h : Charging P) (hp : P p) (n : Nat) : P (p.unitStart n) := by
  unfold Chip.unitStart
  exact h.onAttempt (h.tariffCharge (h.onAttempt hp _ _) _ _) _ _

theorem answerOutward (h : Charging P) (hp : P p) (n : Nat) : P (p.answerOutward n) := by
  unfold Chip.answerOutward; extract_lets a number zone q1 q2 q3
  have h3 : P q3 := h.unitStart (h.tariffCharge (h.onAttempt hp _ _) _ _) _
  split
  · exact h.onAccount h3 _ _
  · exact h3

theorem meterPulse (h : Charging P) (hp : P p) (n : Nat) : P (p.meterPulse n) := by
  unfold Chip.meterPulse; extract_lets q
  have hq : P q := h.onAttempt hp _ _
  exact ite_kept P (h.post hq _ _) hq

theorem countPageSent (h : Charging P) (hp : P p) (n : Nat) : P (p.countPageSent n) := by
  unfold Chip.countPageSent; extract_lets q
  have hq : P q := by
    unfold q; split
    · exact h.onAccount hp _ _
    · exact hp
  exact h.onAttempt hq _ _

theorem writeLog (h : Charging P) (hp : P p) (e : List Byte) : P (p.writeLog e) := by
  unfold Chip.writeLog; split
  · exact hp
  · exact h.log (h.record hp _) _

theorem nextLogSeq (h : Charging P) (hp : P p) : P p.nextLogSeq := h.word (h.logSeq hp _) _

theorem closePages (h : Charging P) (hp : P p) (n : Nat) : P (p.closePages n) := by
  unfold Chip.closePages; exact ite_kept P hp (h.onAttempt hp _ _)

theorem closeAttempt (h : Charging P) (hp : P p) (n : Nat) (c : Cause) : P (p.closeAttempt n c) := by
  unfold Chip.closeAttempt
  refine ite_kept P hp ?_
  extract_lets q1 a q2 q3 e sq q4 a' q5
  have h2 : P q2 := ite_kept P (h.post (h.onAttempt hp _ _) _ _) (h.onAttempt hp _ _)
  have h4 : P q4 := h.writeLog (h.nextLogSeq (h.closePages h2 _)) _
  exact h.onAttempt (h.notice h4 _) _ _

end Charging

namespace Outer

theorem add32 (h : Outer P) (hp : P p) (x k : Nat) : P (p.add32 x k).2 := by
  unfold Chip.add32; split
  · exact hp
  · exact h.free hp _

/-! ## Dialling -/

theorem enterAwaitTone (h : Outer P) (hp : P p) (n : Nat) : P (p.enterAwaitTone n) :=
  h.setLineState (h.edit hp _ _) _ _

theorem enterAwaitAnswer (h : Outer P) (hp : P p) (n : Nat) : P (p.enterAwaitAnswer n) :=
  h.setLineState (h.edit hp _ _) _ _

theorem dialNext (h : Outer P) (n k : Nat) (hp : P p) : P (Chip.dialNext n k p) := by
  induction k generalizing p with
  | zero => exact hp
  | succ k ih =>
    unfold Chip.dialNext; extract_lets l; split
    · exact h.enterAwaitAnswer hp _
    · split
      · exact h.edit hp _ _
      · split
        · exact h.enterAwaitTone (h.edit hp _ _) _
        · split
          · exact h.line hp _ _ (LineStep.startTone _)
          · split
            · exact h.line hp _ _ (LineStep.startBreak _)
            · exact ih (h.edit hp _ _)

theorem enterDialling (h : Outer P) (hp : P p) (n : Nat) : P (p.enterDialling n) :=
  h.dialNext _ _ (h.setLineState hp _ _)

theorem symbolDone (h : Outer P) (hp : P p) (n : Nat) : P (p.symbolDone n) :=
  h.dialNext _ _ (h.line hp _ _ (LineStep.silent (fun _ => rfl) (fun _ => rfl) (fun _ => rfl)))

/-! ## The end of an attempt, and the release of a line -/

theorem retryCall (h : Outer P) (hp : P p) (i : Nat) : P (p.retryCall i) := by
  unfold Chip.retryCall; extract_lets +onlyGivenNames lfsr c _ q
  have hq : P q := h.lfsr hp
  exact h.records (h.add32 hq _ _) _

theorem attemptEnd (h : Outer P) (hp : P p) (i : Nat) (c : Cause) : P (p.attemptEnd i c) := by
  unfold Chip.attemptEnd; extract_lets o k q
  have hq : P q := ite_kept P (h.retryCall hp _) (h.endCall hp _ _)
  exact h.arbiterPass hq

theorem stopContexts (h : Outer P) (hp : P p) (n : Nat) (l : Line) : P (p.stopContexts n l) := by
  unfold Chip.stopContexts
  exact h.stopIngestIfActive (ite_kept P (h.stopRender (h.held hp _)) hp) _

theorem giveUpCall (h : Outer P) (hp : P p) (n : Nat) (c : Cause) : P (p.giveUpCall n c) := by
  unfold Chip.giveUpCall; split
  · exact h.attemptEnd (h.edit hp _ _) _ _
  · exact hp

theorem release (h : Outer P) (hp : P p) (n : Nat) (c : Cause) : P (p.release n c) := by
  unfold Chip.release; extract_lets l q1 q2
  have h1 : P q1 := h.word (h.line hp _ _ (LineStep.released c)) _
  have h2 : P q2 := h.giveUpCall (h.closeAttempt (h.stopContexts h1 _ _) _ _) _ _
  exact h.edit h2 _ _

/-! ## The events -/

theorem ringBurst (h : Outer P) (hp : P p) (n : Nat) : P (p.ringBurst n) := by
  unfold Chip.ringBurst; extract_lets +onlyGivenNames l q
  have hq : P q := h.edit hp _ _
  refine ite_kept P hp ?_
  split
  · exact h.notice (h.setLineState (h.edit hq _ _) _ _) _
  · exact h.notice (h.edit hq _ _) _
  · exact hq

theorem ringAbsent (h : Outer P) (hp : P p) (n : Nat) : P (p.ringAbsent n) :=
  ite_kept P hp (h.edit hp _ _)

theorem ringingToIdle (h : Outer P) (hp : P p) (n : Nat) : P (p.ringingToIdle n) :=
  h.setLineState (h.edit hp _ _) _ _

theorem ringEnded (h : Outer P) (hp : P p) (n : Nat) : P (p.ringEnded n) := by
  unfold Chip.ringEnded
  exact ite_kept P (h.edit (h.notice (h.setLineState (h.edit hp _ _) _ _) _) _ _) hp

theorem inwardAnswered (h : Outer P) (hp : P p) (n : Nat) : P (p.inwardAnswered n) := by
  unfold Chip.inwardAnswered
  exact h.edit (h.notice (h.onAttempt (h.setLineState hp _ _) _ _) _) _ _

theorem judgeLoop (h : Outer P) (hp : P p) (n : Nat) (b : Bool) : P (p.judgeLoop n b) := by
  unfold Chip.judgeLoop; split
  · exact h.release (h.notice (h.edit hp _ _) _) _ _
  · extract_lets l q w
    have hq : P q := h.edit hp _ _
    exact ite_kept P (h.enterDialling hq _) (h.enterAwaitTone (ite_kept P (h.edit hq _ _) hq) _)

theorem settled (h : Outer P) (hp : P p) (n : Nat) (b : Bool) : P (p.settled n b) := by
  unfold Chip.settled
  refine ite_kept P hp ?_
  generalize hq : p.onLine n _ = q
  have hq : P q := hq ▸ h.edit hp _ _
  dsimp only; split
  · exact h.inwardAnswered hq _
  · exact h.judgeLoop hq _ _
  · exact h.line hq _ _ LineStep.trainSettled

theorem dialTone (h : Outer P) (hp : P p) (n : Nat) : P (p.dialTone n) := by
  unfold Chip.dialTone; extract_lets +onlyGivenNames l q
  have hq : P q := h.edit hp _ _
  exact ite_kept P hp (ite_kept P (h.enterDialling (h.edit hq _ _) _) hq)

theorem toneWaitExpired (h : Outer P) (hp : P p) (n : Nat) : P (p.toneWaitExpired n) := ite_kept P (h.release hp _ _) hp

theorem toneOnExpired (h : Outer P) (hp : P p) (n : Nat) : P (p.toneOnExpired n) :=
  ite_kept P (h.line hp _ _ (LineStep.silent (fun _ => rfl) (fun _ => rfl) (fun _ => rfl))) hp

theorem toneOffExpired (h : Outer P) (hp : P p) (n : Nat) : P (p.toneOffExpired n) := ite_kept P (h.symbolDone hp _) hp

theorem breakEnded (h : Outer P) (hp : P p) (n : Nat) : P (p.breakEnded n) := by
  unfold Chip.breakEnded; split
  · exact h.line hp _ _ (LineStep.startMake _)
  · exact hp

theorem makeEnded (h : Outer P) (hp : P p) (n : Nat) : P (p.makeEnded n) := by
  unfold Chip.makeEnded; split
  · exact h.line hp _ _ (LineStep.startBreak _)
  · exact h.edit hp _ _
  · exact hp

theorem gapExpired (h : Outer P) (hp : P p) (n : Nat) : P (p.gapExpired n) := ite_kept P (h.symbolDone hp _) hp
theorem pauseExpired (h : Outer P) (hp : P p) (n : Nat) : P (p.pauseExpired n) := ite_kept P (h.symbolDone hp _) hp

theorem markAnswered (h : Outer P) (hp : P p) (n : Nat) : P (p.markAnswered n) := by
  unfold Chip.markAnswered; split
  · exact h.records hp _
  · exact hp

theorem answerTone (h : Outer P) (hp : P p) (n : Nat) : P (p.answerTone n) := by
  unfold Chip.answerTone; extract_lets +onlyGivenNames l q
  have hq : P q := h.edit hp _ _
  refine ite_kept P hp (ite_kept P ?_ hq)
  exact h.notice (h.answerOutward (h.markAnswered (h.setLineState (h.edit hq _ _) _ _) _) _) _

theorem busyTone (h : Outer P) (hp : P p) (n : Nat) : P (p.busyTone n) := by
  unfold Chip.busyTone; extract_lets +onlyGivenNames l q
  have hq : P q := h.edit hp _ _
  exact ite_kept P hp (ite_kept P (h.release hq _ _) hq)

theorem answerWaitExpired (h : Outer P) (hp : P p) (n : Nat) : P (p.answerWaitExpired n) :=
  ite_kept P (h.release hp _ _) hp

theorem loopLost (h : Outer P) (hp : P p) (n : Nat) : P (p.loopLost n) := by
  unfold Chip.loopLost; extract_lets +onlyGivenNames l q
  have hq : P q := h.edit hp _ _
  exact ite_kept P hp (ite_kept P (h.release hq _ _) hq)

theorem meterPulsed (h : Outer P) (hp : P p) (n : Nat) : P (p.meterPulsed n) := by
  unfold Chip.meterPulsed; extract_lets +onlyGivenNames l q
  have hq : P q := h.edit hp _ _
  exact ite_kept P hp (ite_kept P (h.meterPulse hq _) hq)

theorem guardExpired (h : Outer P) (hp : P p) (n : Nat) : P (p.guardExpired n) := by
  unfold Chip.guardExpired; extract_lets l; split
  · exact h.arbiterPass (h.notice (h.setLineState (h.edit hp _ _) _ _) _)
  · exact hp

theorem stallExpired (h : Outer P) (hp : P p) (c : Nat) : P (p.stallExpired c) := by
  unfold Chip.stallExpired; split
  · split
    · exact h.notice (h.onRen hp _ _) _
    · exact hp
  · exact hp

theorem advanceDuration (h : Outer P) (hp : P p) (n : Nat) : P (p.advanceDuration n) := by
  unfold Chip.advanceDuration; extract_lets a
  exact ite_kept P (h.onAttempt (h.add32 hp _ _) _ _) hp

theorem unitExpired (h : Outer P) (hp : P p) (n : Nat) : P (p.unitExpired n) := by
  unfold Chip.unitExpired; extract_lets a
  exact ite_kept P (h.unitStart hp _) hp

/-! ## Warm restart -/

theorem endJob (h : Outer P) (hp : P p) (j : Nat) : P (p.endJob j) := by
  have h1 : P ((p.onJob j fun x => { x with restart := true }).sendPrintDone j) := h.sendPrintDone (h.onJob hp _ _) _
  unfold Chip.endJob; exact ite_kept P (h.releaseHold h1 _) h1

theorem restartPrint (h : Outer P) (hp : P p) : P p.restartPrint := by
  unfold Chip.restartPrint; extract_lets jobs q1 q2
  have h1 : P q1 := foldl_kept P _ (fun _ j hp => h.endJob hp j) _ (h.stopRender (h.held hp _))
  have h2 : P q2 := foldl_kept P _ (fun _ j hp => h.onJob hp j _) _ h1
  exact h.advance (h.printTake h2) _

theorem restartLine (h : Outer P) (b : Chip) (hp : P p) (n : Nat) : P (Chip.restartLine b p n) := by
  unfold Chip.restartLine; extract_lets q
  have hq : P q := by
    unfold q; split
    · exact hp
    · exact hp
    · exact h.ringingToIdle hp _
    · exact h.release hp _ _
  exact h.edit hq _ _

theorem restartBlocks (h : Outer P) (hp : P p) : P p.restartBlocks := by
  unfold Chip.restartBlocks; extract_lets q1 q2
  have h1 : P q1 := foldl_kept P _ (fun _ c hp => h.stopIngestIfActive hp c) _ hp
  exact foldl_kept P _ (fun _ n hp => h.restartLine _ hp n) _ (h.restartPrint h1)

end Outer

/-! ## The clock -/

namespace Ticks

theorem advanceSchedule (h : Ticks P) (hp : P p) : P p.advanceSchedule := by
  have h1 := h.schedule (h.add32 hp p.calls.schedule 1) (p.add32 p.calls.schedule 1).1
  unfold Chip.advanceSchedule
  exact ite_kept P (h.arbiterPass h1) h1

theorem advanceClock (h : Ticks P) (hp : P p) : P p.advanceClock := by
  unfold Chip.advanceClock
  exact h.word (foldl_kept P _ (fun _ n hp => h.advanceDuration hp n) _ (h.advanceSchedule (h.charge hp _))) _

end Ticks

end Sys2Proof.Machine
end

