-- ==== Sys2Proof/Laws/Requests.lean ====
section
/-! SUPPORT. What a command, and a step, can do to the part at all: `Every` adds to the closures of Laws/Kept.lean the
updates that requests, the memory path, the passing of time and a hardware reset make. A property with these closures
holds after every step that answers a next state (`exec_kept`, `step_kept`). -/

namespace Sys2Proof.Machine

@[simp] theorem Line.configured_cfg (c : LineConfig) (l : Line) : (Line.configured c l).cfg = c := rfl
@[simp] theorem Line.configured_state (c : LineConfig) (l : Line) : (Line.configured c l).state = l.state := rfl

/-- A qualifier judged by a time stands, or is restarted where it is PRESENT with its count at or above that time. -/
theorem Qualifier.judged_cases (time : Nat) (q : Qualifier) :
    q.judged time = q ∧ ¬ (q.present = true ∧ time ≤ q.count)
      ∨ q.judged time = .restarted ∧ q.present = true ∧ time ≤ q.count := by
  unfold Qualifier.judged; split
  · next h => exact .inr ⟨rfl, h⟩
  · next h => exact .inl ⟨rfl, h⟩

/-- Kept by everything that any command or the passing of time does. -/
structure Every (P : Chip → Prop) : Prop extends Ticks P where
  mport : ∀ {p}, P p → ∀ x, P { p with mport := x }
  print : ∀ {p}, P p → ∀ x, P { p with print := x }
  store : ∀ {p}, P p → ∀ x, P { p with store := x }
  req : ∀ {p}, P p → ∀ x, P { p with req := x }
  limit : ∀ {p}, P p → ∀ x, P { p with calls := { p.calls with limit := x } }
  acceptance : ∀ {p}, P p → ∀ x, P { p with calls := { p.calls with acceptance := x } }
  seeded : ∀ {p}, P p → ∀ x, 1 ≤ x → x ≤ 1023 → P { p with calls := { p.calls with lfsr := x } }
  cfg : ∀ {p}, P p → ∀ n x, P (p.onLine n (Line.configured x))
  apertures : ∀ {p}, P p → ∀ x, P { p with path := { p.path with apertures := x } }
  ordered : ∀ {p}, P p → ∀ x, P { p with path := { p.path with ordered := x } }
  sport : ∀ {p}, P p → ∀ x y, P { p with path := { p.path with held := x, response := y } }
  postedMap : ∀ {p}, P p → ∀ f, P { p with path := { p.path with posted := p.path.posted.map f } }
  postedDrop : ∀ {p}, P p → P { p with path := { p.path with posted := p.path.posted.drop 1 } }
  post : ∀ {p}, P p → p.path.posted.length < Config.postingDepth →
    ∀ e x, P { p with path := { p.path with posted := p.path.posted ++ [e], response := x } }
  routes : ∀ {p}, P p → ∀ x, P { p with notices := { p.notices with routes := x } }
  delivered : ∀ {p}, P p → ∀ x, P { p with notices := { p.notices with pd := x } }
  lost : ∀ {p}, P p → ∀ x, P { p with notices := { p.notices with lost := x } }
  consumed : ∀ {p}, P p → ∀ x, countDist p.notices.pn x ≤ Config.noticeRing →
    P { p with notices := { p.notices with cn := x } }
  place : ∀ {p}, P p → p.unconsumed < Config.noticeRing → ∀ n, P (p.placeNotice n)
  subTick : ∀ {p}, P p → ∀ x, P { p with subTick := x }
  tickIndex : ∀ {p}, P p → ∀ x, P { p with tickIndex := x }
  half : ∀ {p}, P p → P { p with lines := p.lines.map Line.half }
  tick : ∀ {p}, P p → ∀ f : Nat → LineInputs, P { p with lines := p.lines.mapIdx fun n l => l.tick (f n) }
  restarted : ∀ {p}, P p → ∀ k, P (p.restarted k)

variable {P : Chip → Prop} {p : Chip}

namespace Every

/-! ## The memory path -/

theorem respond (h : Every P) (hp : P p) (r : Response) : P (p.respond r) := h.sport hp _ _
theorem freePort (h : Every P) (hp : P p) : P p.freePort := h.mport hp _
theorem mapEngine (h : Every P) (hp : P p) (f : EngineOp → EngineOp) : P (p.mapEngine f) := h.mport hp _

theorem pastTaken (h : Every P) (hp : P p) (a n : Nat) : P (p.pastTaken a n) := ite_kept P (h.free hp _) hp

theorem dropOldest (h : Every P) (hp : P p) : P p.dropOldest := h.sport (h.postedDrop hp) _ _

theorem faultAt (h : Every P) (hp : P p) (a : Nat) (m : Fin 16) (c : FaultCause) : P (p.faultAt a m c) :=
  h.notice (h.respond hp _) _

theorem postWrite (h : Every P) (hp : P p) (t : Transaction) (w : Watch) : P (p.postWrite t w) := by
  unfold Chip.postWrite; split
  · next hl => exact h.post hp hl _ _
  · exact h.respond hp _

theorem holdRead (h : Every P) (hp : P p) (t : Transaction) (s : Option (Nat × Nat × Bool)) : P (p.holdRead t s) := by
  unfold Chip.holdRead; extract_lets w
  exact h.sport hp _ _

theorem ingestWrite (h : Every P) (hp : P p) (t : Transaction) (e c s : Nat) (ap : Aperture) :
    P (p.ingestWrite t e c s ap) := by
  unfold Chip.ingestWrite; extract_lets +onlyGivenNames x completing
  refine ite_kept P (h.respond hp _) ?_
  extract_lets q
  have hq : P q := h.postWrite hp _ _
  exact ite_kept P (h.onIng hq _ _) hq

theorem renderRead (h : Every P) (hp : P p) (t : Transaction) (c s : Nat) (ap : Aperture) :
    P (p.renderRead t c s ap) := by
  unfold Chip.renderRead; extract_lets ready
  exact ite_kept P (h.holdRead hp _ _) (h.respond hp _)

theorem controlWrite (h : Every P) (hp : P p) (t : Transaction) : P (p.controlWrite t) := by
  unfold Chip.controlWrite; split
  · exact h.faultAt hp _ _ _
  · exact h.postWrite hp _ _

theorem transaction (h : Every P) (hp : P p) (t : Transaction) : P (p.transaction t) := by
  unfold Chip.transaction; extract_lets a
  refine ite_kept P hp (ite_kept P (h.faultAt hp _ _ _) ?_)
  split
  · exact h.controlWrite hp _
  · exact h.faultAt hp _ _ _
  · exact h.ingestWrite hp _ _ _ _ _
  · exact h.faultAt hp _ _ _
  · exact h.postWrite hp _ _
  · exact h.renderRead hp _ _ _ _
  · exact h.holdRead hp _ _

theorem takeRequest (h : Every P) (hp : P p) : P p.takeRequest := by
  unfold Chip.takeRequest; exact ite_kept P (h.record (h.req hp _) _) hp

theorem producerWritten (h : Every P) (hp : P p) (w : BusWord) : P (p.producerWritten w) := by
  unfold Chip.producerWritten; extract_lets +onlyGivenNames v
  exact ite_kept P (h.takeRequest (h.req hp _)) (h.notice hp _)

theorem placeLost (h : Every P) (hp : P p) : P p.placeLost := by
  unfold Chip.placeLost; split
  · next hc => exact h.word (h.place (h.lost hp 0) hc.2 _) _
  · exact hp

theorem consumerWritten (h : Every P) (hp : P p) (w : BusWord) : P (p.consumerWritten w) := by
  unfold Chip.consumerWritten; extract_lets +onlyGivenNames v; split
  · next hc => exact h.placeLost (h.consumed hp _ hc)
  · exact h.notice hp _

theorem watchWord (_h : Every P) {f : Chip → BusWord → Chip} (hf : ∀ {p}, P p → ∀ w, P (f p w)) (hp : P p) (e : Posted)
    (o : Nat) : P (p.watchWord e o f) := by
  unfold Chip.watchWord; split
  · exact hf hp _
  · exact hp

theorem drained (h : Every P) (hp : P p) (e : Posted) : P (p.drained e) := by
  unfold Chip.drained; split
  · exact hp
  · exact h.watchWord h.producerWritten hp _ _
  · exact h.watchWord h.consumerWritten hp _ _
  · exact h.watchWord h.consumerWritten (h.watchWord h.producerWritten hp _ _) _ _
  · exact h.drainSlot hp _ _ _

theorem answerRead (h : Every P) (hp : P p) (r : HeldRead) (d : List Word) : P (p.answerRead r d) := by
  unfold Chip.answerRead; extract_lets +onlyGivenNames _ _ q
  have hq : P q := h.sport (h.freePort hp) _ _
  split
  · exact h.consume hq _ _
  · exact hq

theorem grant (h : Every P) (hp : P p) : P p.grant := by
  unfold Chip.grant
  refine ite_kept P hp ?_
  split
  · exact hp
  · exact h.mport hp _
  · exact h.mport hp _
  · split
    · exact h.mport hp _
    · exact h.mport hp _

/-! ## Requests -/

theorem nextRequest (h : Every P) (hp : P p) : P p.nextRequest := h.takeRequest (h.word (h.req hp _) _)

theorem dispatch (h : Every P) (hp : P p) {act : Chip → Chip} (ha : ∀ {p}, P p → P (act p)) : P (p.dispatch act) :=
  h.nextRequest (ha (h.freePort hp))

theorem unbind (h : Every P) (hp : P p) (e : Nat) : P (p.unbind e) := by
  unfold Chip.unbind; split
  · exact hp
  · split
    · exact h.postedMap (h.onIng hp _ _) _
    · exact h.sport (h.mapEngine (h.onRen hp _ _) _) _ _
    · exact hp

theorem bind (h : Every P) (hp : P p) (e : Nat) (x : Aperture) : P (p.bind e x) := by
  unfold Chip.bind; split
  · exact h.onIng hp _ _
  · exact h.onRen hp _ _
  · exact hp

theorem setAperture (h : Every P) (hp : P p) (e : Nat) (x : Option Aperture) : P (p.setAperture e x) := h.apertures hp _

theorem apertureSet (h : Every P) (hp : P p) (tag : Half) (e k ls l b ss sc po : Nat) :
    P (p.apertureSet tag e k ls l b ss sc po) := by
  unfold Chip.apertureSet; split
  · exact h.done hp _ _ _ _
  · exact ite_kept P (h.done hp _ _ _ _) (ite_kept P (h.done hp _ _ _ _) (ite_kept P (h.done hp _ _ _ _)
      (h.done (h.bind (h.setAperture (h.unbind hp _) _ _) _ _) _ _ _ _)))

theorem apertureClear (h : Every P) (hp : P p) (tag : Half) (e : Nat) : P (p.apertureClear tag e) := by
  unfold Chip.apertureClear
  exact ite_kept P (h.done hp _ _ _ _) (ite_kept P (h.done hp _ _ _ _)
    (h.done (h.setAperture (h.unbind hp _) _ _) _ _ _ _))

theorem masterSet (h : Every P) (hp : P p) (tag : Half) (m o : Nat) : P (p.masterSet tag m o) := by
  unfold Chip.masterSet; exact ite_kept P (h.done hp _ _ _ _) (h.done (h.ordered hp _) _ _ _ _)

theorem shareSet (h : Every P) (hp : P p) (tag : Half) (x : Nat) : P (p.shareSet tag x) := by
  unfold Chip.shareSet; split
  · exact h.done hp _ _ _ _
  · exact h.done (h.mport hp _) _ _ _ _

theorem routeSet (h : Every P) (hp : P p) (tag : Half) (c x : Nat) : P (p.routeSet tag c x) := by
  unfold Chip.routeSet; split
  · exact h.done hp _ _ _ _
  · exact ite_kept P (h.done hp _ _ _ _) (h.done (h.routes hp _) _ _ _ _)

theorem reportNext (h : Every P) (hp : P p) : P p.reportNext := by
  unfold Chip.reportNext; split
  · exact hp
  · split
    · exact h.req (h.record hp _) _
    · exact h.notice (h.req hp _) _

theorem beginReport (h : Every P) (hp : P p) (tag : Half) (k : ReportKind) (d a : Nat) : P (p.beginReport tag k d a) := by
  unfold Chip.beginReport; split
  · exact h.done hp _ _ _ _
  · exact h.reportNext (h.req hp _)

theorem storeSet (h : Every P) (hp : P p) (tag : Half) (b s r l : Nat) : P (p.storeSet tag b s r l) := by
  unfold Chip.storeSet; split
  · exact h.done hp _ _ _ _
  · exact h.done (h.store (h.setPool hp _) _) _ _ _ _

theorem delete (h : Every P) (hp : P p) (tag : Half) (d : Nat) : P (p.delete tag d) := by
  unfold Chip.delete
  refine ite_kept P (h.done hp _ _ _ _) ?_
  split
  · exact h.done hp _ _ _ _
  · exact h.done hp _ _ _ _
  · exact h.done (h.tryFree (h.onDoc hp _ _) _) _ _ _ _
  · exact h.done hp _ _ _ _

theorem openIngest (h : Every P) (hp : P p) {c k w r d : Nat} {q : Chip} (hq : p.openIngest c k w r = .ok (d, q)) : P q := by
  unfold Chip.openIngest at hq
  split at hq
  · cases hq
  · split at hq
    · cases hq
    · split at hq
      · cases hq
      · split at hq
        · cases hq
        · exact h.openDoc hp hq

theorem scanBegin (h : Every P) (hp : P p) (tag : Half) (k r w : Nat) : P (p.scanBegin tag k r w) := by
  unfold Chip.scanBegin; split
  · exact h.done hp _ _ _ _
  · next heq => exact h.serveRing (h.done (h.onIng (h.openIngest hp heq) _ _) _ _ _ _) _

theorem ingestStop (h : Every P) (hp : P p) (tag : Half) (c m : Nat) : P (p.ingestStop tag c m) := by
  unfold Chip.ingestStop
  exact ite_kept P (h.done hp _ _ _ _) (ite_kept P (h.done hp _ _ _ _) (ite_kept P (h.done hp _ _ _ _)
    (h.stopIngest hp _ _ _)))

theorem ingestSet (h : Every P) (hp : P p) (tag : Half) (c l : Nat) : P (p.ingestSet tag c l) := by
  unfold Chip.ingestSet; exact ite_kept P (h.done hp _ _ _ _) (h.done (h.onIng hp _ _) _ _ _ _)

theorem printSetup (h : Every P) (hp : P p) (tag : Half) (w r s : Nat) : P (p.printSetup tag w r s) := by
  unfold Chip.printSetup; split
  · exact h.done hp _ _ _ _
  · exact h.done (h.onRen (h.print hp _) _ _) _ _ _ _

theorem printWake (h : Every P) (hp : P p) : P p.printWake := by
  unfold Chip.printWake; exact ite_kept P (h.advance (h.printTake hp) _) hp

theorem printJob (h : Every P) (hp : P p) (tag : Half) (d f l c : Nat) : P (p.printJob tag d f l c) := by
  unfold Chip.printJob; split
  · exact h.done hp _ _ _ _
  · exact h.printWake (h.done (h.onDoc (h.print (h.onJob hp _ _) _) _ _) _ _ _ _)

theorem cancelQueued (h : Every P) (hp : P p) (tag : Half) (j : Nat) : P (p.cancelQueued tag j) := by
  unfold Chip.cancelQueued; extract_lets +onlyGivenNames _ q1 q2
  have h1 : P q1 := h.print hp _
  have h2 : P q2 := h.sendPrintDone (h.onJob h1 _ _) _
  exact h.done (h.onJob (h.releaseHold h2 _) _ _) _ _ _ _

theorem printCancel (h : Every P) (hp : P p) (tag : Half) (j : Nat) : P (p.printCancel tag j) := by
  unfold Chip.printCancel
  refine ite_kept P (h.done hp _ _ _ _) ?_
  split
  · exact h.done hp _ _ _ _
  · exact h.cancelQueued hp _ _
  · exact ite_kept P (h.done hp _ _ _ _) (h.done (h.cutJob hp _) _ _ _ _)
  · exact h.done hp _ _ _ _

theorem takeResult (h : Every P) (hp : P p) (n i k r : Nat) : P (p.takeResult n i k r) := by
  unfold Chip.takeResult; split
  · exact h.countPageSent (h.records hp _) _
  · exact h.onRen (h.records hp _) _ _
  · exact hp

theorem pageResult (h : Every P) (hp : P p) (tag : Half) (n r : Nat) : P (p.pageResult tag n r) := by
  unfold Chip.pageResult
  refine ite_kept P (h.done hp _ _ _ _) ?_
  extract_lets x; split
  · exact h.done (h.advance (h.txSelect (h.takeResult hp _ _ _ _) _) _) _ _ _ _
  · exact h.done hp _ _ _ _

theorem startTransmit (h : Every P) (hp : P p) (n i w r : Nat) : P (p.startTransmit n i w r) := by
  unfold Chip.startTransmit; extract_lets +onlyGivenNames q1
  have h1 : P q1 := h.setLineState (h.edit hp _ _) _ _
  exact h.advance (h.txSelect (h.onRen h1 _ _) _) _

theorem connectTx (h : Every P) (hp : P p) (tag : Half) (n w r : Nat) : P (p.connectTx tag n w r) := by
  unfold Chip.connectTx; split
  · exact h.done hp _ _ _ _
  · exact h.done (h.startTransmit hp _ _ _ _) _ _ _ _

theorem lineSet (h : Every P) (hp : P p) (tag : Half) (f : LineSetFields) : P (p.lineSet tag f) := by
  unfold Chip.lineSet; extract_lets +onlyGivenNames n
  refine ite_kept P (h.done hp _ _ _ _) (ite_kept P (h.done hp _ _ _ _) ?_)
  extract_lets +onlyGivenNames was q
  have hq : P q := h.done (h.cfg hp _ _) _ _ _ _
  exact ite_kept P (h.arbiterPass hq) hq

theorem answer (h : Every P) (hp : P p) (tag : Half) (n : Nat) : P (p.answer tag n) := by
  have hl : LineStep fun l => { l with ringEnd := none }.setHook true := fun l =>
    ⟨(LineStep.setHook true { l with ringEnd := none }).1, (LineStep.setHook true { l with ringEnd := none }).2⟩
  unfold Chip.answer
  exact ite_kept P (h.done hp _ _ _ _) (ite_kept P (h.done hp _ _ _ _)
    (h.done (h.setLineState (h.line hp _ _ hl) _ _) _ _ _ _))

theorem connectRx (h : Every P) (hp : P p) (tag : Half) (n d k w r : Nat) : P (p.connectRx tag n d k w r) := by
  unfold Chip.connectRx; split
  · exact h.done hp _ _ _ _
  · next q heq =>
    have hq : P q := by
      unfold Chip.connectRxCheck at heq
      split at heq
      · cases heq
      · split at heq
        · cases heq
        · exact h.openIngest hp heq
    extract_lets +onlyGivenNames q1
    have h1 : P q1 := h.onAttempt (h.onIng hq _ _) _ _
    exact h.serveRing (h.done (h.setLineState (h.edit h1 _ _) _ _) _ _ _ _) _

theorem releaseRequest (h : Every P) (hp : P p) (tag : Half) (n r : Nat) : P (p.releaseRequest tag n r) := by
  unfold Chip.releaseRequest; split
  · exact h.done hp _ _ _ _
  · exact ite_kept P (h.done hp _ _ _ _) (ite_kept P (h.done (h.release hp _ _) _ _ _ _) (h.done hp _ _ _ _))

theorem placeCall (h : Every P) (hp : P p) (tag : Half) (f : CallFields) : P (p.placeCall tag f) := by
  unfold Chip.placeCall; split
  · exact h.done hp _ _ _ _
  · have h1 := h.add32 hp p.calls.schedule (p.callDelay f)
    exact h.arbiterPass (h.done (h.onDoc (h.records (h.acceptance h1 _) _) _ _) _ _ _ _)

theorem callCancel (h : Every P) (hp : P p) (tag : Half) (i : Nat) : P (p.callCancel tag i) := by
  unfold Chip.callCancel
  refine ite_kept P (h.done hp _ _ _ _) (ite_kept P (h.done hp _ _ _ _) (h.done ?_ _ _ _ _))
  unfold Chip.cancelCall; split
  · exact h.release hp _ _
  · exact h.endCall hp _ _

theorem outgoingLimit (h : Every P) (hp : P p) (tag : Half) (l : Nat) : P (p.outgoingLimit tag l) := by
  have h1 := h.done (h.limit hp l) tag 20 .ok l
  unfold Chip.outgoingLimit
  exact ite_kept P (h.done hp _ _ _ _) (ite_kept P (h.arbiterPass h1) h1)

theorem seed (h : Every P) (hp : P p) (tag : Half) (v : Nat) : P (p.seed tag v) := by
  unfold Chip.seed; split
  · exact h.done hp _ _ _ _
  · extract_lets +onlyGivenNames w
    refine h.done (h.seeded hp w ?_ ?_) _ _ _ _
    · unfold w; split <;> omega
    · unfold w; split <;> omega

theorem setClock (h : Every P) (hp : P p) (tag : Half) (s d : Nat) : P (p.setClock tag s d) := by
  unfold Chip.setClock; exact ite_kept P (h.done hp _ _ _ _) (h.done (h.word (h.charge hp _) _) _ _ _ _)

theorem setHoliday (h : Every P) (hp : P p) (tag : Half) (x : Nat) : P (p.setHoliday tag x) := by
  unfold Chip.setHoliday; exact ite_kept P (h.done hp _ _ _ _) (h.done (h.charge hp _) _ _ _ _)

theorem tariffCommit (h : Every P) (hp : P p) (tag : Half) (a : Nat) : P (p.tariffCommit tag a) := by
  unfold Chip.tariffCommit
  exact ite_kept P (h.done hp _ _ _ _) (ite_kept P (h.done hp _ _ _ _) (h.record (h.charge hp _) _))

theorem endLoad (h : Every P) (hp : P p) (l : Load) : P (p.endLoad l) := by
  unfold Chip.endLoad
  exact ite_kept P (h.notice (h.charge (h.charge hp _) _) _) (h.notice (h.charge hp _) _)

theorem tariffRead (h : Every P) (hp : P p) (x : List Byte) : P (p.tariffRead x) := by
  unfold Chip.tariffRead; split
  · exact hp
  · exact ite_kept P (h.record (h.charge hp _) _) (h.endLoad hp _)

theorem deskChanged (h : Every P) (hp : P p) (b : Bool) (d : Nat) : P (p.deskChanged b d) := by
  unfold Chip.deskChanged; exact ite_kept P (h.arbiterPass hp) hp

theorem accountSet (h : Every P) (hp : P p) (tag : Half) (d l : Nat) : P (p.accountSet tag d l) := by
  unfold Chip.accountSet
  exact ite_kept P (h.done hp _ _ _ _) (h.done (h.deskChanged (h.charge hp _) _ _) _ _ _ _)

theorem accountClear (h : Every P) (hp : P p) (tag : Half) (d : Nat) : P (p.accountClear tag d) := by
  unfold Chip.accountClear
  exact ite_kept P (h.done hp _ _ _ _) (h.done (h.deskChanged (h.charge hp _) _ _) _ _ _ _)

theorem logSet (h : Every P) (hp : P p) (tag : Half) (a c : Nat) : P (p.logSet tag a c) := by
  unfold Chip.logSet; exact ite_kept P (h.done hp _ _ _ _) (h.done (h.charge hp _) _ _ _ _)

theorem warmRestart (h : Every P) (hp : P p) (tag : Half) : P (p.warmRestart tag) := by
  have h1 := h.restartBlocks hp
  unfold Chip.warmRestart
  exact ite_kept P (h.done hp _ _ _ _) (ite_kept P (h.done h1 _ _ _ _) (h.req h1 _))

/-! ## Time -/

theorem lineTick (h : Every P) (hp : P p) : P p.lineTick :=
  h.tickIndex (h.render (h.charge (h.tick hp fun n => Config.lineInputs p.tickIndex n) _) _) _

theorem halfPeriod (h : Every P) (hp : P p) : P p.halfPeriod := by
  have h1 := h.half hp
  unfold Chip.halfPeriod; exact ite_kept P (h.subTick h1 _) (h.lineTick (h.subTick h1 _))

theorem nextDue (h : Every P) (hp : P p) {e : Instr} {q : Chip} (hq : p.nextDue = some (e, q)) : P q := by
  unfold Chip.nextDue at hq; split at hq <;> cases hq
  · exact hp
  · exact h.free hp _

end Every

/-! ## Every command, every step -/

theorem event_kept {f : Chip → Chip} {s t : State} (hf : P (f s.chip)) (ht : event f s = .next t) : P t.chip := by
  cases ht; exact hf

theorem request_kept (h : Every P) {c : Instr} {act : Chip → Chip} {s t : State} (hs : P s.chip)
    (ha : ∀ {p}, P p → P (act p)) (ht : request c act s = .next t) : P t.chip := by
  unfold request at ht; split at ht <;> cases ht
  · exact h.dispatch hs ha
  · exact hs

/-- The service of a RECORD_WRITE without a row of its own keeps the property. -/
theorem Every.serveRowless (h : Every P) {s : State} (hs : P s.chip) : P s.serveRowless.chip := by
  unfold State.serveRowless; split
  · exact h.freePort hs
  · exact hs

/-- A property with the closures of `Every` holds after every command that answers a next state. -/
theorem exec_kept (h : Every P) {c : Instr} {s t : State} (hs : P s.chip) (ht : exec c s = .next t) : P t.chip := by
  cases c <;> simp only [exec] at ht
  case hardwareReset => cases ht; exact h.restarted hs _
  case sportTransaction => exact event_kept (h.transaction hs _) ht
  case arbiterGrant =>
    cases ht; exact h.grant (h.serveRowless hs)
  case postedWriteDrain =>
    unfold execPostedWriteDrain at ht; split at ht <;> cases ht
    · exact h.drained (h.dropOldest (h.freePort hs)) _
    · exact hs
  case throughReadServed =>
    unfold execThroughReadServed at ht; split at ht <;> cases ht
    · exact h.answerRead hs _ _
    · exact hs
  case slotReadComplete =>
    unfold execSlotReadComplete at ht; split at ht <;> cases ht
    · exact h.slotRead (h.freePort hs) _ _ _ _
    · exact hs
  case blockWriteComplete =>
    unfold execBlockWriteComplete at ht; split at ht <;> cases ht
    · exact h.blockWritten (h.freePort hs) _
    · exact hs
  case blockReadComplete =>
    unfold execBlockReadComplete at ht; split at ht <;> cases ht
    · exact h.blockRead (h.freePort hs) _ _ _
    · exact hs
  case slotWriteComplete =>
    unfold execSlotWriteComplete at ht; split at ht <;> cases ht
    · exact ite_kept P (h.freePort hs) (h.slotWritten (h.freePort hs) _ _ _ _ _)
    · exact hs
  case tariffReadComplete =>
    unfold execTariffReadComplete at ht; split at ht <;> cases ht
    · exact h.tariffRead (h.pastTaken (h.freePort hs) _ _) _
    · exact hs
  case noticeProducerWriteComplete =>
    unfold execNoticeProducerWriteComplete at ht; split at ht <;> cases ht
    · exact h.delivered (h.freePort hs) _
    · exact hs
  case reportRecordWriteComplete =>
    unfold execReportRecordWriteComplete at ht; split at ht <;> cases ht
    · exact h.reportNext (h.pastTaken (h.freePort hs) _ _)
    · exact hs
  case stallTimerExpiry => exact event_kept (h.stallExpired hs _) ht
  case clockAdvance => exact event_kept (h.advanceClock hs) ht
  case unitTimerExpiry => exact event_kept (h.unitExpired hs _) ht
  case ringBurst => exact event_kept (h.ringBurst hs _) ht
  case ringAbsent => exact event_kept (h.ringAbsent hs _) ht
  case ringEndTimerExpiry => exact event_kept (h.ringEnded hs _) ht
  case settleTimerExpiry => exact event_kept (h.settled hs _ _) ht
  case dialToneDetected => exact event_kept (h.dialTone hs _) ht
  case dialToneWaitExpiry => exact event_kept (h.toneWaitExpired hs _) ht
  case toneOnExpiry => exact event_kept (h.toneOnExpired hs _) ht
  case toneOffExpiry => exact event_kept (h.toneOffExpired hs _) ht
  case pulseBreakEnd => exact event_kept (h.breakEnded hs _) ht
  case pulseMakeEnd => exact event_kept (h.makeEnded hs _) ht
  case interDigitGapExpiry => exact event_kept (h.gapExpired hs _) ht
  case pauseExpiry => exact event_kept (h.pauseExpired hs _) ht
  case answerToneDetected => exact event_kept (h.answerTone hs _) ht
  case busyToneDetected => exact event_kept (h.busyTone hs _) ht
  case answerWaitExpiry => exact event_kept (h.answerWaitExpired hs _) ht
  case loopLoss => exact event_kept (h.loopLost hs _) ht
  case meterPulse => exact event_kept (h.meterPulsed hs _) ht
  case guardExpiry => exact event_kept (h.guardExpired hs _) ht
  case apertureSet => exact request_kept h hs (h.apertureSet · _ _ _ _ _ _ _ _ _) ht
  case apertureClear => exact request_kept h hs (h.apertureClear · _ _) ht
  case masterSet => exact request_kept h hs (h.masterSet · _ _ _) ht
  case shareSet => exact request_kept h hs (h.shareSet · _ _) ht
  case routeSet => exact request_kept h hs (h.routeSet · _ _ _) ht
  case storeSet => exact request_kept h hs (h.storeSet · _ _ _ _ _) ht
  case delete => exact request_kept h hs (h.delete · _ _) ht
  case reportDocuments =>
    exact request_kept h hs (fun hp => ite_kept P (h.beginReport hp _ _ _ _) (h.done hp _ _ _ _)) ht
  case reportPages => exact request_kept h hs (h.beginReport · _ _ _ _) ht
  case reportAccounts => exact request_kept h hs (h.beginReport · _ _ _ _) ht
  case reportCalls => exact request_kept h hs (h.beginReport · _ _ _ _) ht
  case reportLines => exact request_kept h hs (h.beginReport · _ _ _ _) ht
  case scanBegin => exact request_kept h hs (h.scanBegin · _ _ _ _) ht
  case ingestStop => exact request_kept h hs (h.ingestStop · _ _ _) ht
  case ingestSet => exact request_kept h hs (h.ingestSet · _ _ _) ht
  case printSetup => exact request_kept h hs (h.printSetup · _ _ _ _) ht
  case print => exact request_kept h hs (h.printJob · _ _ _ _ _) ht
  case printCancel => exact request_kept h hs (h.printCancel · _ _) ht
  case pageResult => exact request_kept h hs (h.pageResult · _ _ _) ht
  case lineSet => exact request_kept h hs (h.lineSet · _ _) ht
  case answer => exact request_kept h hs (h.answer · _ _) ht
  case connectRx => exact request_kept h hs (h.connectRx · _ _ _ _ _ _) ht
  case connectTx => exact request_kept h hs (h.connectTx · _ _ _ _) ht
  case release => exact request_kept h hs (h.releaseRequest · _ _ _) ht
  case call => exact request_kept h hs (h.placeCall · _ _) ht
  case callCancel => exact request_kept h hs (h.callCancel · _ _) ht
  case outgoingLimit => exact request_kept h hs (h.outgoingLimit · _ _) ht
  case seed => exact request_kept h hs (h.seed · _ _) ht
  case setClock => exact request_kept h hs (h.setClock · _ _ _) ht
  case holiday => exact request_kept h hs (h.setHoliday · _ _) ht
  case tariffCommit => exact request_kept h hs (h.tariffCommit · _ _) ht
  case accountSet => exact request_kept h hs (h.accountSet · _ _ _) ht
  case accountClear => exact request_kept h hs (h.accountClear · _ _) ht
  case logSet => exact request_kept h hs (h.logSet · _ _ _) ht
  case warmRestart => exact request_kept h hs (h.warmRestart · _) ht
  case unknownKind => exact request_kept h hs (h.done · _ _ _ _) ht

/-- A property with the closures of `Every` holds after every step that answers a next state. -/
theorem step_kept (h : Every P) {s t : State} (hs : P s.chip) (ht : step s = .next t) : P t.chip := by
  unfold step at ht; split at ht
  · next rest _ => exact exec_kept (s := { s with pending := rest }) h hs ht
  · unfold State.idle at ht; split at ht
    · cases ht; exact h.serveRowless hs
    · next heq => exact exec_kept (s := { s with chip := _ }) h (h.nextDue hs heq) ht
    · cases ht; exact h.halfPeriod hs

end Sys2Proof.Machine
end

