-- ==== Sys2Proof/Laws/Answers.lean ====
section
/-! SUPPORT. What handing over a notice and ending a request come to, in the terms of Safety.lean. -/

namespace Sys2Proof.Machine

/-- Handing over a notice is being told of it (10 R186). -/
theorem Chip.told_send (p : Chip) (n : Notice) : p.Told (p.send n) n := by
  unfold Chip.Told Chip.send Chip.placeNotice Chip.dropNotice Chip.issueWord withWord Chip.issueRecord satAdd
  split <;> simp_all
  split <;> rfl

/-- A status word issued joins the waiting RECORD operations unless it waits (10 R189). -/
theorem Chip.issueWord_eq (p : Chip) (w : StatusWord) :
    p.issueWord w = { p with mport := { p.mport with records := withWord p.mport.records w } } := by
  unfold Chip.issueWord withWord; split <;> rfl

/-- A line updated is the line as given. -/
theorem Chip.onLine_eq (p : Chip) (n : Nat) (f : Line → Line) : p.onLine n f = p.lineIs n (f (p.line n)) := rfl

/-- A line's state set (07 R122). -/
theorem Chip.setLineState_eq (p : Chip) (n : Nat) (st : LineState) :
    p.setLineState n st = p.lineEnters n { p.line n with state := st } := by
  unfold Chip.setLineState; rw [Chip.issueWord_eq]; rfl

/-- Handing over a notice leaves what it does not name free to differ: the lines. -/
theorem Chip.send_withLines (p : Chip) (n : Notice) (x : Vector Line 4) :
    { p.send n with lines := x } = ({ p with lines := x } : Chip).send n := by
  unfold Chip.send Chip.placeNotice Chip.dropNotice Chip.issueWord
  simp only [Chip.unconsumed]; split
  · rfl
  · split <;> rfl

/-- Handing over a notice and then replacing a line, or the other way round. -/
theorem Chip.send_lineIs (p : Chip) (n : Nat) (l : Line) (x : Notice) :
    (p.send x).lineIs n l = (p.lineIs n l).send x := by
  unfold Chip.lineIs; rw [Chip.send_withLines, Chip.send_lines]

/-- The end of a dispatch (10 R180). -/
theorem Chip.ended_nextRequest (p : Chip) : p.Ended p.nextRequest := by
  unfold Chip.Ended Chip.nextRequest Chip.takeRequest Chip.issueWord withWord Chip.issueRecord
  by_cases hc : (p.req.consumer + 1) % 65536 = p.req.producer <;>
    by_cases hw : RecordOp.word .consumer ∈ p.mport.records <;> simp [hc, hw]

/-- A notice and then the end of the dispatch. -/
theorem Chip.answeredWith_send (p : Chip) (n : Notice) : p.AnsweredWith (p.send n).nextRequest n :=
  ⟨_, p.told_send n, Chip.ended_nextRequest _⟩

/-- A DONE and then the end of the dispatch. -/
theorem Chip.answeredWith_done (p : Chip) (tag : Half) (k : Nat) (r : Result) (v : Nat) :
    p.AnsweredWith (p.done tag k r v).nextRequest (.done tag.toNat k r v) := p.answeredWith_send _

/-- A served request acts and its dispatch ends. -/
theorem request_served {c : Instr} {act : Chip → Chip} {s : State} (h : s.served c = true) :
    request c act s = .next { s with chip := (act s.chip.freePort).nextRequest } := by
  unfold request; rw [if_pos h]; rfl

/-- A request that is not the one served leaves the machine as it is (log 9). -/
theorem request_unserved {c : Instr} {act : Chip → Chip} {s : State} (h : s.served c = false) :
    request c act s = .next s := by
  unfold request; rw [h]; rfl

end Sys2Proof.Machine
end

