-- ==== Sys2Proof/Laws/Memory.lean ====
section
/-! SUPPORT. Page memory: what a write leaves, what reads back, and that every write keeps the canonical form. -/

namespace Sys2Proof.Machine

/-! ## One byte -/

/-- A write leaves every other address as it was. -/
theorem memRead_memWrite_ne (m : List Host.Cell) {a c : Nat} (b : Byte) (h : c ≠ a) :
    memRead (memWrite m a b) c = memRead m c := by
  induction m with
  | nil =>
    unfold memWrite
    split
    · rfl
    · simp [memRead, Ne.symm h]
  | cons e m ih =>
    obtain ⟨k, x⟩ := e
    unfold memWrite
    split
    · split
      · rfl
      · simp [memRead, Ne.symm h]
    · split
      · next hk =>
        subst hk
        split <;> simp [memRead, Ne.symm h]
      · simp [memRead, ih]

/-- Below the addresses of a canonical list every byte is unlisted. -/
theorem memRead_below {m : List Host.Cell} {low c : Nat} (h : memWfFrom low m = true) (hc : c < low) :
    memRead m c = 0 := by
  induction m generalizing low with
  | nil => rfl
  | cons e m ih =>
    obtain ⟨k, x⟩ := e
    simp only [memWfFrom, Bool.and_eq_true, decide_eq_true_eq] at h
    have hk : k ≠ c := by omega
    simp only [memRead, if_neg hk]
    exact ih h.2 (by omega)

/-- A canonical list from an address on is one from every lower address. -/
theorem memWfFrom_mono {m : List Host.Cell} {low low' : Nat} (h : memWfFrom low m = true) (hl : low' ≤ low) :
    memWfFrom low' m = true := by
  cases m with
  | nil => rfl
  | cons e m =>
    obtain ⟨k, x⟩ := e
    simp only [memWfFrom, Bool.and_eq_true, decide_eq_true_eq] at h ⊢
    exact ⟨⟨by omega, h.1.2⟩, h.2⟩

/-- A read at the address of a write gives the byte written. -/
theorem memRead_memWrite_from {m : List Host.Cell} {low : Nat} (a : Nat) (b : Byte) (h : memWfFrom low m = true) :
    memRead (memWrite m a b) a = b := by
  induction m generalizing low with
  | nil =>
    unfold memWrite
    split
    · next hb => simp [memRead, hb]
    · simp [memRead]
  | cons e m ih =>
    obtain ⟨k, x⟩ := e
    simp only [memWfFrom, Bool.and_eq_true, decide_eq_true_eq] at h
    unfold memWrite
    split
    · next ha =>
      split
      · next hb =>
        have hk : k ≠ a := by omega
        simp only [memRead, if_neg hk, hb]
        exact memRead_below h.2 (by omega)
      · simp [memRead]
    · split
      · next hk =>
        subst hk
        split
        · next hb => rw [hb]; exact memRead_below h.2 (by omega)
        · simp [memRead]
      · next hk =>
        have hk' : k ≠ a := Ne.symm hk
        simp only [memRead, if_neg hk']
        exact ih h.2

/-- A read at the address of a write gives the byte written. -/
theorem memRead_memWrite_self {m : List Host.Cell} (a : Nat) (b : Byte) (h : memWf m = true) :
    memRead (memWrite m a b) a = b := memRead_memWrite_from a b h

/-- A write keeps the canonical form from an address on. -/
theorem memWfFrom_memWrite {m : List Host.Cell} {low : Nat} (a : Nat) (b : Byte) (h : memWfFrom low m = true)
    (ha : low ≤ a) : memWfFrom low (memWrite m a b) = true := by
  induction m generalizing low with
  | nil =>
    unfold memWrite
    split
    · rfl
    · next hb =>
      simp only [memWfFrom, Bool.and_true, Bool.and_eq_true, decide_eq_true_eq, bne_iff_ne]
      exact ⟨ha, hb⟩
  | cons e m ih =>
    obtain ⟨k, x⟩ := e
    have h' := h
    simp only [memWfFrom, Bool.and_eq_true, decide_eq_true_eq] at h'
    unfold memWrite
    split
    · next hk =>
      split
      · exact h
      · next hb =>
        simp only [memWfFrom, Bool.and_eq_true, decide_eq_true_eq, bne_iff_ne]
        exact ⟨⟨ha, hb⟩, ⟨by omega, by simpa using h'.1.2⟩, h'.2⟩
    · split
      · next hk =>
        subst hk
        split
        · exact memWfFrom_mono h'.2 (by omega)
        · next hb =>
          simp only [memWfFrom, Bool.and_eq_true, decide_eq_true_eq, bne_iff_ne]
          exact ⟨⟨ha, hb⟩, h'.2⟩
      · simp only [memWfFrom, Bool.and_eq_true, decide_eq_true_eq]
        exact ⟨h'.1, ih h'.2 (by omega)⟩

/-- A write keeps the canonical form. -/
theorem memWf_memWrite {m : List Host.Cell} (a : Nat) (b : Byte) (h : memWf m = true) : memWf (memWrite m a b) = true :=
  memWfFrom_memWrite a b h (Nat.zero_le _)

/-! ## Runs of bytes and words -/

/-- Bytes written keep the canonical form. -/
theorem memWf_memWriteBytes {m : List Host.Cell} (a : Nat) (bs : List Byte) (h : memWf m = true) :
    memWf (memWriteBytes m a bs) = true := by
  induction bs generalizing m a with
  | nil => exact h
  | cons b bs ih => exact ih (a + 1) (memWf_memWrite a b h)

/-- Bytes written leave every address outside them. -/
theorem memRead_memWriteBytes_ne (m : List Host.Cell) {a c : Nat} (bs : List Byte) (h : c < a ∨ a + bs.length ≤ c) :
    memRead (memWriteBytes m a bs) c = memRead m c := by
  induction bs generalizing m a with
  | nil => rfl
  | cons b bs ih =>
    simp only [List.length_cons] at h
    rw [memWriteBytes, ih _ (by omega), memRead_memWrite_ne _ _ (by omega)]

/-- A byte of a run of bytes written reads back. -/
theorem memRead_memWriteBytes_self {m : List Host.Cell} (a : Nat) (bs : List Byte) (h : memWf m = true) {k : Nat}
    (hk : k < bs.length) : memRead (memWriteBytes m a bs) (a + k) = bs[k] := by
  induction bs generalizing m a k with
  | nil => simp at hk
  | cons b bs ih =>
    rw [memWriteBytes]
    cases k with
    | zero =>
      rw [memRead_memWriteBytes_ne _ _ (by omega)]
      exact memRead_memWrite_self a b h
    | succ k =>
      have hk' : k < bs.length := by simpa using hk
      rw [show a + (k + 1) = (a + 1) + k by omega, ih (a + 1) (memWf_memWrite a b h) hk']
      rfl

/-- Bytes written, past the last address too, keep the canonical form. -/
theorem memWf_memWritePast {m : List Host.Cell} (k a : Nat) (bs : List Byte) (h : memWf m = true) :
    memWf (memWritePast k m a bs) = true := by
  induction bs generalizing m a with
  | nil => exact h
  | cons b bs ih =>
    refine ih (a + 1) ?_
    split
    · exact memWf_memWrite _ b h
    · exact h

/-- Bytes written, none of them past the last address, are written like any others. -/
theorem memWritePast_eq (k : Nat) (m : List Host.Cell) (a : Nat) (bs : List Byte) (h : a + bs.length ≤ addressSpace) :
    memWritePast k m a bs = memWriteBytes m a bs := by
  induction bs generalizing m a with
  | nil => rfl
  | cons b bs ih =>
    simp only [List.length_cons] at h
    have hp : recordPlace k a = some a := if_pos (by omega)
    rw [memWritePast, hp, memWriteBytes, ih _ _ (by omega)]

/-- Bytes read, none of them past the last address, are what memory holds. -/
theorem memReadPast_eq (k : Nat) (m : List Host.Cell) (a n : Nat) (h : a + n ≤ addressSpace) :
    memReadPast k m a n = memReadBytes m a n := by
  induction n generalizing a with
  | zero => rfl
  | succ n ih => rw [memReadPast, if_pos (by omega), memReadBytes, ih _ (by omega)]

/-- As many bytes are read as were asked for. -/
@[simp] theorem memReadPast_length (k : Nat) (m : List Host.Cell) (a n : Nat) : (memReadPast k m a n).length = n := by
  induction n generalizing a with
  | zero => rfl
  | succ n ih => rw [memReadPast, List.length_cons, ih]

/-- `leBytes` has the size asked for. -/
@[simp] theorem leBytes_length (n v : Nat) : (leBytes n v).length = n := by
  induction n generalizing v with
  | zero => rfl
  | succ n ih => simp [leBytes, ih]

/-- A data word written keeps the canonical form. -/
theorem memWf_memPutWord {m : List Host.Cell} (a v : Nat) (h : memWf m = true) : memWf (memPutWord m a v) = true :=
  memWf_memWriteBytes a _ h

/-- A data word written leaves every address outside its four bytes. -/
theorem memRead_memPutWord_ne (m : List Host.Cell) {a c : Nat} (v : Nat) (h : c < a ∨ a + 4 ≤ c) :
    memRead (memPutWord m a v) c = memRead m c := memRead_memWriteBytes_ne _ _ (by simpa using h)

/-- A bus word written: the enabled bytes. -/
theorem memWf_memWriteWord {m : List Host.Cell} (a : Nat) (w : BusWord) (h : memWf m = true) :
    memWf (memWriteWord m a w) = true := by
  unfold memWriteWord
  generalize List.range 4 = l
  induction l generalizing m with
  | nil => exact h
  | cons i l ih =>
    rw [List.foldl_cons]
    split
    · exact ih (memWf_memWrite _ _ h)
    · exact ih h

/-- A bus word written leaves every address outside its four bytes, and every byte that is not enabled. -/
theorem memRead_memWriteWord_ne (m : List Host.Cell) (a c : Nat) (w : BusWord)
    (h : ∀ i, i < 4 → w.enables.getLsbD i = true → c ≠ a + i) : memRead (memWriteWord m a w) c = memRead m c := by
  unfold memWriteWord
  have hl : ∀ i ∈ List.range 4, i < 4 := fun i hi => List.mem_range.1 hi
  revert hl
  generalize List.range 4 = l
  intro hl
  induction l generalizing m with
  | nil => rfl
  | cons i l ih =>
    rw [List.foldl_cons, ih _ fun j hj => hl j (List.mem_cons_of_mem _ hj)]
    split
    · next hi => exact memRead_memWrite_ne _ _ (h i (hl i List.mem_cons_self) hi)
    · rfl

/-- Bus words written keep the canonical form. -/
theorem memWf_memWriteWords {m : List Host.Cell} (a : Nat) (ws : List BusWord) (h : memWf m = true) :
    memWf (memWriteWords m a ws) = true := by
  induction ws generalizing m a with
  | nil => exact h
  | cons w ws ih => exact ih (a + 4) (memWf_memWriteWord a w h)

/-- Bus words written leave every address outside them. -/
theorem memRead_memWriteWords_ne (m : List Host.Cell) {a c : Nat} (ws : List BusWord)
    (h : c < a ∨ a + 4 * ws.length ≤ c) : memRead (memWriteWords m a ws) c = memRead m c := by
  induction ws generalizing m a with
  | nil => rfl
  | cons w ws ih =>
    simp only [List.length_cons] at h
    rw [memWriteWords, ih _ (by omega), memRead_memWriteWord_ne _ _ _ _ fun i hi _ => by omega]

/-- The bytes of an abandoned write keep the canonical form. -/
theorem memWf_abandonBytes {m : List Host.Cell} (k : Nat) (as : List Nat) (h : memWf m = true) :
    memWf (abandonBytes k m as) = true := by
  unfold abandonBytes
  induction as generalizing m with
  | nil => exact h
  | cons a as ih => exact ih (memWf_memWrite _ _ h)

/-- The bytes of an abandoned write leave every other address. -/
theorem memRead_abandonBytes_ne (m : List Host.Cell) (k : Nat) (as : List Nat) {c : Nat} (h : c ∉ as) :
    memRead (abandonBytes k m as) c = memRead m c := by
  unfold abandonBytes
  induction as generalizing m with
  | nil => rfl
  | cons a as ih =>
    rw [List.foldl_cons, ih _ fun hc => h (List.mem_cons_of_mem _ hc)]
    exact memRead_memWrite_ne _ _ fun hc => h (hc ▸ List.mem_cons_self)

/-- A SLOT_WRITE keeps the canonical form. -/
theorem memWf_slotBytes {m : List Host.Cell} (a ta : Nat) (pels : Option (List Bool)) (tag : Nat) (h : memWf m = true) :
    memWf (slotBytes m a ta pels tag) = true := by
  unfold slotBytes
  cases pels with
  | none => exact memWf_memPutWord _ _ h
  | some bits => exact memWf_memPutWord _ _ (memWf_memWriteBytes _ _ h)

/-- A RECORD_WRITE without a row of its own keeps the canonical form. -/
theorem memWf_rowlessWrite {p : Chip} {m m' : List Host.Cell} (h : memWf m = true) (hm : p.rowlessWrite m = some m') :
    memWf m' = true := by
  unfold Chip.rowlessWrite at hm
  split at hm <;> simp only [Option.some.injEq, reduceCtorEq] at hm <;> subst hm
  · exact memWf_memPutWord _ _ h
  · exact memWf_memWriteBytes _ _ h
  · exact memWf_memWriteBytes _ _ h

/-- The service of such a write keeps the canonical form. -/
theorem memWf_serveRowless {s : State} (h : memWf s.mem = true) : memWf s.serveRowless.mem = true := by
  unfold State.serveRowless; split
  · next hm => exact memWf_rowlessWrite h hm
  · exact h

end Sys2Proof.Machine
end

