-- ==== Sys2Proof/Laws/Drains.lean ====
section
/-! SUPPORT. What memory reads after words or bytes were written, address by address, in the terms of Safety.lean. -/

namespace Sys2Proof.Machine

/-- A byte of a bus word, if enabled. -/
theorem memRead_enabled {m : List Host.Cell} (hm : memWf m = true) (b i : Nat) (w : BusWord) (a : Nat) :
    memWf (if w.enables.getLsbD i then memWrite m (b + i) (w.data.extractLsb' (8 * i) 8) else m) = true ∧
    memRead (if w.enables.getLsbD i then memWrite m (b + i) (w.data.extractLsb' (8 * i) 8) else m) a =
      if a = b + i ∧ w.enables.getLsbD i = true then w.data.extractLsb' (8 * i) 8 else memRead m a := by
  split
  · refine ⟨memWf_memWrite _ _ hm, ?_⟩
    by_cases h : a = b + i
    · subst h; rw [memRead_memWrite_self _ _ hm]; simp [*]
    · rw [memRead_memWrite_ne _ _ h]; simp [h]
  · exact ⟨hm, by simp [*]⟩

/-- What memory reads after one bus word was written. -/
theorem memRead_memWriteWord {m : List Host.Cell} (hm : memWf m = true) (b : Nat) (w : BusWord) (a : Nat) :
    memRead (memWriteWord m b w) a =
      if b ≤ a ∧ a < b + 4 then
        if w.enables.getLsbD (a - b) then w.data.extractLsb' (8 * (a - b)) 8 else memRead m a
      else memRead m a := by
  unfold memWriteWord
  rw [show List.range 4 = [0, 1, 2, 3] from rfl]
  simp only [List.foldl_cons, List.foldl_nil]
  have k0 := memRead_enabled hm b 0 w a
  have k1 := memRead_enabled k0.1 b 1 w a
  have k2 := memRead_enabled k1.1 b 2 w a
  have k3 := memRead_enabled k2.1 b 3 w a
  rw [k3.2, k2.2, k1.2, k0.2]
  by_cases h : b ≤ a ∧ a < b + 4
  · rw [if_pos h]
    obtain ⟨d, rfl⟩ := Nat.exists_eq_add_of_le h.1
    have hd : d < 4 := by omega
    simp only [Nat.add_sub_cancel_left, Nat.add_left_cancel_iff]
    match d, hd with
    | 0, _ => simp
    | 1, _ => simp
    | 2, _ => simp
    | 3, _ => simp
  · rw [if_neg h, if_neg (by omega), if_neg (by omega), if_neg (by omega), if_neg (by omega)]

/-- What memory reads after the words of a transaction were written (03 R38). -/
theorem memRead_memWriteWords {m : List Host.Cell} (hm : memWf m = true) (b : Nat) (ws : List BusWord) (a : Nat) :
    memRead (memWriteWords m b ws) a = wordsOver (memRead m) b ws a := by
  induction ws generalizing m b with
  | nil => unfold wordsOver memWriteWords; rw [if_neg (by simp only [List.length_nil]; omega)]
  | cons w ws ih =>
    rw [memWriteWords, ih (memWf_memWriteWord _ _ hm)]
    unfold wordsOver
    rw [memRead_memWriteWord hm]
    have hlen : 4 * (w :: ws).length = 4 + 4 * ws.length := by rw [List.length_cons]; omega
    rw [hlen]
    by_cases h : b + 4 ≤ a ∧ a < b + 4 + 4 * ws.length
    · have h' : b ≤ a ∧ a < b + (4 + 4 * ws.length) := by omega
      have hn : ¬(b ≤ a ∧ a < b + 4) := by omega
      have e1 : (a - b) / 4 = (a - (b + 4)) / 4 + 1 := by omega
      have e2 : (a - b) % 4 = (a - (b + 4)) % 4 := by omega
      simp only [if_pos h, if_pos h', if_neg hn, e1, e2, List.getD_cons_succ]
    · by_cases h2 : b ≤ a ∧ a < b + 4
      · have h' : b ≤ a ∧ a < b + (4 + 4 * ws.length) := by omega
        have e1 : (a - b) / 4 = 0 := by omega
        have e2 : (a - b) % 4 = a - b := by omega
        simp only [if_neg h, if_pos h2, if_pos h', e1, e2, List.getD_cons_zero]
      · have h' : ¬(b ≤ a ∧ a < b + (4 + 4 * ws.length)) := by omega
        simp only [if_neg h, if_neg h2, if_neg h']

/-- What memory reads after bytes were written. -/
theorem memRead_memWriteBytes {m : List Host.Cell} (hm : memWf m = true) (b : Nat) (bs : List Byte) (a : Nat) :
    memRead (memWriteBytes m b bs) a = bytesOver (memRead m) b bs a := by
  unfold bytesOver
  by_cases h : b ≤ a ∧ a < b + bs.length
  · obtain ⟨d, rfl⟩ := Nat.exists_eq_add_of_le h.1
    have hd : d < bs.length := by omega
    rw [if_pos h, memRead_memWriteBytes_self _ _ hm hd, Nat.add_sub_cancel_left]
    simp [List.getD_eq_getElem?_getD, hd]
  · rw [if_neg h, memRead_memWriteBytes_ne _ _ (by omega)]

end Sys2Proof.Machine
end

