-- ==== Sys2Proof/Laws/Bits.lean ====
section
/-! SUPPORT. Bits and bytes (01 R10): what reading a bit of the bits of bytes, or of the bytes of bits, gives. -/

namespace Sys2Proof.Machine

/-! ## Numbers and their bits -/

/-- The low bits of a number are as many as asked for. -/
@[simp] theorem bitsOf_length (w n : Nat) : (bitsOf w n).length = w := by
  induction w with
  | zero => rfl
  | succ w ih => simp [bitsOf, ih]

theorem bitsVal_foldl (bs : List Bool) (k : Nat) :
    bs.foldl (fun acc b => 2 * acc + b.toNat) k = k * 2 ^ bs.length + bitsVal bs := by
  induction bs generalizing k with
  | nil => simp [bitsVal]
  | cons b bs ih =>
    have h : bitsVal (b :: bs) = b.toNat * 2 ^ bs.length + bitsVal bs := by
      show List.foldl _ _ bs = _
      rw [ih]; simp
    rw [List.foldl_cons, ih, h, List.length_cons, Nat.pow_succ, Nat.add_mul]
    rw [show 2 * k * 2 ^ bs.length = k * (2 ^ bs.length * 2) by
      rw [Nat.mul_comm 2 k, Nat.mul_assoc, Nat.mul_comm 2]]
    omega

/-- The value of bits, the first of them first. -/
theorem bitsVal_cons (b : Bool) (bs : List Bool) : bitsVal (b :: bs) = b.toNat * 2 ^ bs.length + bitsVal bs := by
  show List.foldl _ _ bs = _
  rw [bitsVal_foldl]; simp

/-- The low `w` bits of a number read back as the number modulo 2^w. -/
theorem bitsVal_bitsOf (w n : Nat) : bitsVal (bitsOf w n) = n % 2 ^ w := by
  induction w with
  | zero => simp [bitsOf, bitsVal, Nat.mod_one]
  | succ w ih =>
    rw [bitsOf, bitsVal_cons, ih, bitsOf_length, Nat.mod_pow_succ, Nat.testBit_eq_decide_div_mod_eq]
    have : n / 2 ^ w % 2 < 2 := Nat.mod_lt _ (by decide)
    rcases h : n / 2 ^ w % 2 with _ | _ | k
    · simp
    · simp; omega
    · omega

/-- The value of bits is below 2 to their number. -/
theorem bitsVal_lt (bs : List Bool) : bitsVal bs < 2 ^ bs.length := by
  induction bs with
  | nil => simp [bitsVal]
  | cons b bs ih =>
    rw [bitsVal_cons, List.length_cons, Nat.pow_succ]
    cases b <;> simp <;> omega

/-! ## Bytes as bits -/

/-- Bit 7 of a byte comes first. -/
theorem bitsOf_byte (b : Byte) (j : Nat) (h : j < 8) : (bitsOf 8 b.toNat).getD j false = b.getLsbD (7 - j) := by
  have e : bitsOf 8 b.toNat = [b.toNat.testBit 7, b.toNat.testBit 6, b.toNat.testBit 5, b.toNat.testBit 4,
      b.toNat.testBit 3, b.toNat.testBit 2, b.toNat.testBit 1, b.toNat.testBit 0] := rfl
  rw [e]
  match j, h with
  | 0, _ | 1, _ | 2, _ | 3, _ | 4, _ | 5, _ | 6, _ | 7, _ => rfl

/-- Bytes have eight bits each. -/
@[simp] theorem bytesToBits_length (l : List Byte) : (bytesToBits l).length = 8 * l.length := by
  unfold bytesToBits
  induction l with
  | nil => rfl
  | cons b l ih => rw [List.flatMap_cons, List.length_append, ih, bitsOf_length, List.length_cons]; omega

/-- Reading a bit of the bits of bytes. -/
theorem bytesToBits_getD (l : List Byte) (i : Nat) (h : i < 8 * l.length) :
    (bytesToBits l).getD i false = (l.getD (i / 8) 0).getLsbD (7 - i % 8) := by
  induction l generalizing i with
  | nil => simp at h
  | cons b l ih =>
    have e : bytesToBits (b :: l) = bitsOf 8 b.toNat ++ bytesToBits l := rfl
    rw [e]
    by_cases h8 : i < 8
    · rw [List.getD_eq_getElem?_getD, List.getElem?_append_left (by rw [bitsOf_length]; exact h8),
        ← List.getD_eq_getElem?_getD, bitsOf_byte b i h8, show i / 8 = 0 by omega, show i % 8 = i by omega]
      rfl
    · rw [List.getD_eq_getElem?_getD, List.getElem?_append_right (by rw [bitsOf_length]; omega),
        ← List.getD_eq_getElem?_getD, bitsOf_length, ih _ (by rw [List.length_cons] at h; omega),
        show i / 8 = (i - 8) / 8 + 1 by omega, show (i - 8) % 8 = i % 8 by omega]
      rfl

/-- A list cut or filled to `n` bits has `n` bits. -/
@[simp] theorem padBits_length (n : Nat) (bs : List Bool) : (padBits n bs).length = n := by
  unfold padBits; rw [List.length_append, List.length_take, List.length_replicate]; omega

/-- Reading a bit of a list cut or filled. -/
theorem padBits_getD (n : Nat) (bs : List Bool) (i : Nat) (h : i < n) :
    (padBits n bs).getD i false = bs.getD i false := by
  unfold padBits
  by_cases hb : i < bs.length
  · rw [List.getD_eq_getElem?_getD, List.getElem?_append_left (by rw [List.length_take]; omega), List.getElem?_take,
      if_pos h, ← List.getD_eq_getElem?_getD]
  · rw [List.getD_eq_getElem?_getD, List.getElem?_append_right (by rw [List.length_take]; omega),
      List.getElem?_replicate, List.getD_eq_getElem?_getD, List.getElem?_eq_none (by omega)]
    split <;> rfl

/-- As many bytes as asked for. -/
@[simp] theorem bitsToBytes_length (n : Nat) (bs : List Bool) : (bitsToBytes n bs).length = n := by
  induction n generalizing bs with
  | zero => rfl
  | succ n ih => rw [bitsToBytes, List.length_cons, ih]

/-- A byte made of eight bits has them, bit 7 first. -/
theorem ofBits_getLsbD (bs : List Bool) (h : bs.length = 8) (j : Nat) (hj : j < 8) :
    (BitVec.ofNat 8 (bitsVal bs)).getLsbD (7 - j) = bs.getD j false := by
  match bs, h with
  | [a, b, c, d, e, f, g, i], _ =>
    cases a <;> cases b <;> cases c <;> cases d <;> cases e <;> cases f <;> cases g <;> cases i <;>
      (match j, hj with
        | 0, _ | 1, _ | 2, _ | 3, _ | 4, _ | 5, _ | 6, _ | 7, _ => rfl)

/-- Reading a bit of the bytes of bits. -/
theorem bitsToBytes_getLsbD (n : Nat) (bs : List Bool) (i : Nat) (h : i < 8 * n) :
    ((bitsToBytes n bs).getD (i / 8) 0).getLsbD (7 - i % 8) = bs.getD i false := by
  induction n generalizing bs i with
  | zero => omega
  | succ n ih =>
    rw [bitsToBytes]
    by_cases h8 : i < 8
    · rw [show i / 8 = 0 by omega, show i % 8 = i by omega, List.getD_cons_zero,
        ofBits_getLsbD _ (padBits_length 8 bs) i h8, padBits_getD 8 bs i h8]
    · rw [show i / 8 = (i - 8) / 8 + 1 by omega, List.getD_cons_succ, show i % 8 = (i - 8) % 8 by omega,
        ih _ _ (by omega), List.getD_eq_getElem?_getD, List.getElem?_drop, show 8 + (i - 8) = i by omega,
        ← List.getD_eq_getElem?_getD]

/-! ## Bytes of memory -/

/-- As many bytes are read as asked for. -/
@[simp] theorem memReadBytes_length (m : List Host.Cell) (a n : Nat) : (memReadBytes m a n).length = n := by
  induction n generalizing a with
  | zero => rfl
  | succ n ih => rw [memReadBytes, List.length_cons, ih]

/-- A byte of the bytes read. -/
theorem memReadBytes_getD (m : List Host.Cell) (a n i : Nat) (h : i < n) :
    (memReadBytes m a n).getD i 0 = memRead m (a + i) := by
  induction n generalizing a i with
  | zero => omega
  | succ n ih =>
    match i with
    | 0 => rfl
    | i + 1 => rw [memReadBytes, List.getD_cons_succ, ih _ _ (by omega), show a + 1 + i = a + (i + 1) by omega]

end Sys2Proof.Machine
end

