-- ==== Sys2Proof/Laws/Coding.lean ====
section
/-! SUPPORT. Store coding (01): what a line's transitions and runs say of the line, and that each part of a code reads
back as what it was made of. -/

namespace Sys2Proof.Machine

/-! ## Transitions and runs (R1) -/

/-- Laying the runs of what is left of a line, with the pels of the open run before it. -/
theorem layRuns_runsFrom (l : List Bool) (i s : Nat) (b : Bool) (h : s ≤ i) :
    layRuns b (runsFrom (i + l.length) s (transitionsFrom i b l)) = List.replicate (i - s) b ++ l := by
  induction l generalizing i s b with
  | nil => simp [transitionsFrom, runsFrom, layRuns]
  | cons x xs ih =>
    have hl : i + (x :: xs).length = (i + 1) + xs.length := by rw [List.length_cons]; omega
    rw [transitionsFrom, hl]
    split
    · next hx =>
      subst hx
      rw [ih (i + 1) s x (by omega), show i + 1 - s = (i - s) + 1 by omega, List.replicate_succ', List.append_assoc]
      rfl
    · next hx =>
      have hb : (!b) = x := by cases b <;> cases x <;> simp_all
      rw [runsFrom, layRuns, hb, ih (i + 1) i x (by omega), show i + 1 - i = 1 by omega]
      rfl

/-- A line is laid again from its runs. -/
theorem layRuns_lineRuns (line : List Bool) : layRuns false (lineRuns line) = line := by
  have h := layRuns_runsFrom line 0 0 false (Nat.le_refl 0)
  rw [Nat.zero_add] at h
  exact h.trans (by simp)

/-- A line is laid again from its transitions. -/
theorem lineOf_transitions (line : List Bool) : lineOf line.length (transitions line) = line := layRuns_lineRuns line

/-- Runs laid down have their sum of pels. -/
theorem layRuns_length (b : Bool) (rs : List Nat) : (layRuns b rs).length = rs.sum := by
  induction rs generalizing b with
  | nil => rfl
  | cons r rs ih => rw [layRuns, List.length_append, List.length_replicate, ih, List.sum_cons]

/-- A line's runs sum to its width. -/
theorem lineRuns_sum (line : List Bool) : (lineRuns line).sum = line.length := by
  rw [← layRuns_length false, layRuns_lineRuns]

/-- Every run of what is left of a line is positive once the open run holds a pel. -/
theorem runsFrom_pos (l : List Bool) (i s : Nat) (b : Bool) (h : s < i) :
    ∀ r ∈ runsFrom (i + l.length) s (transitionsFrom i b l), 0 < r := by
  induction l generalizing i s b with
  | nil =>
    intro r hr
    rw [transitionsFrom, runsFrom, List.mem_singleton] at hr
    rw [List.length_nil] at hr; omega
  | cons x xs ih =>
    have hl : i + (x :: xs).length = (i + 1) + xs.length := by rw [List.length_cons]; omega
    rw [transitionsFrom, hl]
    split
    · exact ih (i + 1) s x (by omega)
    · intro r hr
      rw [runsFrom, List.mem_cons] at hr
      rcases hr with hr | hr
      · omega
      · exact ih (i + 1) i x (by omega) r hr

/-- Every run of a line but the first is positive. -/
theorem lineRuns_tail_pos (line : List Bool) : ∀ r ∈ (lineRuns line).tail, 0 < r := by
  unfold lineRuns transitions
  cases line with
  | nil => intro r hr; simp [transitionsFrom, runsFrom] at hr
  | cons x xs =>
    have hl : (x :: xs).length = 1 + xs.length := by rw [List.length_cons]; omega
    rw [transitionsFrom, hl]
    split
    · intro r hr
      exact runsFrom_pos xs 1 0 x (by omega) r (List.mem_of_mem_tail hr)
    · rw [runsFrom, List.tail_cons]
      exact runsFrom_pos xs 1 0 x (by omega)

/-- A line has at least one run. -/
theorem lineRuns_ne_nil (line : List Bool) : lineRuns line ≠ [] := by
  unfold lineRuns; cases transitions line <;> simp [runsFrom]

/-- Transitions lie in the line from the position they are sought from, and rise strictly. -/
theorem transitionsFrom_bounds (l : List Bool) (i : Nat) (b : Bool) :
    (∀ t ∈ transitionsFrom i b l, i ≤ t ∧ t < i + l.length) ∧ (transitionsFrom i b l).Pairwise (· < ·) := by
  induction l generalizing i b with
  | nil => exact ⟨fun t h => by simp [transitionsFrom] at h, by simp [transitionsFrom]⟩
  | cons x xs ih =>
    obtain ⟨h1, h2⟩ := ih (i + 1) x
    have step : ∀ t ∈ transitionsFrom (i + 1) x xs, i < t ∧ t < i + (x :: xs).length := by
      intro t ht; have := h1 t ht; rw [List.length_cons]; omega
    rw [transitionsFrom]; split
    · exact ⟨fun t ht => ⟨Nat.le_of_lt (step t ht).1, (step t ht).2⟩, h2⟩
    · refine ⟨fun t ht => ?_, List.pairwise_cons.2 ⟨fun t ht => (step t ht).1, h2⟩⟩
      rcases List.mem_cons.1 ht with ht | ht
      · subst ht; rw [List.length_cons]; omega
      · exact ⟨Nat.le_of_lt (step t ht).1, (step t ht).2⟩

/-- A line's transitions lie in the line. -/
theorem transitions_lt (line : List Bool) : ∀ t ∈ transitions line, t < line.length := by
  intro t ht; have := (transitionsFrom_bounds line 0 false).1 t ht; omega

/-- A line's transitions rise strictly. -/
theorem transitions_rising (line : List Bool) : (transitions line).Pairwise (· < ·) :=
  (transitionsFrom_bounds line 0 false).2

/-! ## Run codes (R4, R5) -/

/-- Reading on in a run code after `z` of its zero bits. -/
theorem readRun_zeros (k v room m : Nat) (rest : List Bool) (hm : m = Nat.log2 (v + 2 ^ k)) (hv : v ≤ room) (j : Nat) :
    ∀ z, z + j + k = m →
      readRun k room z (List.replicate j false ++ (true :: bitsOf m (v + 2 ^ k)) ++ rest) = .run v rest := by
  have hpos : v + 2 ^ k ≠ 0 := by have := Nat.two_pow_pos k; omega
  have hlo : 2 ^ m ≤ v + 2 ^ k := by rw [hm]; exact Nat.log2_self_le hpos
  have hhi : v + 2 ^ k < 2 ^ (m + 1) := by rw [hm]; exact Nat.lt_log2_self
  rw [Nat.pow_succ] at hhi
  induction j with
  | zero =>
    intro z hz
    have hz' : z + k = m := by omega
    show readRun k room z (true :: (bitsOf m (v + 2 ^ k) ++ rest)) = _
    rw [readRun, hz', if_neg (by rw [List.length_append, bitsOf_length]; omega)]
    have ht : (bitsOf m (v + 2 ^ k) ++ rest).take m = bitsOf m (v + 2 ^ k) := by
      rw [List.take_append_of_le_length (Nat.le_of_eq (bitsOf_length ..).symm),
        List.take_of_length_le (Nat.le_of_eq (bitsOf_length ..))]
    have hd : (bitsOf m (v + 2 ^ k) ++ rest).drop m = rest := by
      rw [List.drop_append_of_le_length (Nat.le_of_eq (bitsOf_length ..).symm),
        List.drop_of_length_le (Nat.le_of_eq (bitsOf_length ..))]
      rfl
    have hmod : (v + 2 ^ k) % 2 ^ m = v + 2 ^ k - 2 ^ m := by
      rw [Nat.mod_eq_sub_mod hlo, Nat.mod_eq_of_lt (by omega)]
    have hval : 2 ^ m + bitsVal ((bitsOf m (v + 2 ^ k) ++ rest).take m) - 2 ^ k = v := by
      rw [ht, bitsVal_bitsOf, hmod]; omega
    dsimp only
    rw [hval, hd, if_neg (by omega)]
  | succ j ih =>
    intro z hz
    show readRun k room z (false :: (List.replicate j false ++ (true :: bitsOf m (v + 2 ^ k)) ++ rest)) = _
    have hle : 2 ^ (z + 1 + k) ≤ 2 ^ m := Nat.pow_le_pow_right (by decide) (by omega)
    rw [readRun, if_neg (by omega)]
    exact ih (z + 1) (by omega)

/-- A run code reads back as its run (R4). -/
theorem readRun_runCode (k v room : Nat) (rest : List Bool) (hv : v ≤ room) :
    readRun k room 0 (runCode k v ++ rest) = .run v rest := by
  have hpos : v + 2 ^ k ≠ 0 := by have := Nat.two_pow_pos k; omega
  have hk : k ≤ Nat.log2 (v + 2 ^ k) := (Nat.le_log2 hpos).2 (by omega)
  have hbit : (v + 2 ^ k).testBit (Nat.log2 (v + 2 ^ k)) = true := by
    have hlo := Nat.log2_self_le hpos
    have hhi := @Nat.lt_log2_self (v + 2 ^ k)
    rw [Nat.pow_succ] at hhi
    rw [Nat.testBit_eq_decide_div_mod_eq]
    have : (v + 2 ^ k) / 2 ^ Nat.log2 (v + 2 ^ k) = 1 := by
      apply Nat.div_eq_of_lt_le <;> omega
    rw [this]; rfl
  unfold runCode
  dsimp only
  rw [bitsOf, hbit]
  exact readRun_zeros k v room _ rest rfl hv _ 0 (by omega)

/-- A run code has at least one bit. -/
theorem runCode_length_pos (k v : Nat) : 0 < (runCode k v).length := by
  unfold runCode; dsimp only; rw [List.length_append, bitsOf_length]; omega

/-- Run codes have at least as many bits as runs. -/
theorem runCodes_length (b : Bool) (rs : List Nat) : rs.length ≤ (runCodes b rs).length := by
  induction rs generalizing b with
  | nil => exact Nat.le_refl 0
  | cons r rs ih =>
    rw [runCodes, List.length_append, List.length_cons]
    have h1 := runCode_length_pos (runOrder b) r
    have h2 := ih (!b)
    omega

/-- The run codes of a line's runs read back as the runs (R5, R12): the runs read so far are `accepted`, those to come sum
to what is left of the width and are positive but for the line's first. -/
theorem readRuns_runCodes (w : Nat) (rs : List Nat) (rest : List Bool) :
    ∀ (fuel : Nat) (b : Bool) (accepted : List Nat), rs ≠ [] → rs.length ≤ fuel → accepted.sum + rs.sum = w →
      (∀ r ∈ rs.tail, 0 < r) → (accepted ≠ [] → ∀ r ∈ rs, 0 < r) →
      readRuns w fuel b accepted (runCodes b rs ++ rest) = .ok (accepted ++ rs) rest := by
  induction rs with
  | nil => intro _ _ _ h; exact absurd rfl h
  | cons r rs ih =>
    intro fuel b accepted _ hf hs ht hp
    rw [List.length_cons] at hf
    rw [List.sum_cons] at hs
    match fuel, hf with
    | fuel + 1, hf =>
      rw [readRuns, runCodes, List.append_assoc, readRun_runCode _ _ _ _ (by omega)]
      have hz : ¬ (r = 0 ∧ accepted ≠ []) := by
        rintro ⟨hr, ha⟩; have := hp ha r (List.mem_cons_self ..); omega
      dsimp only
      rw [if_neg hz]
      rw [List.tail_cons] at ht
      cases rs with
      | nil =>
        rw [List.sum_nil] at hs
        rw [if_pos (by omega)]
        rfl
      | cons r' rs' =>
        have hr' : 0 < r' := ht r' (List.mem_cons_self ..)
        rw [List.sum_cons] at hs
        rw [if_neg (by omega), ih fuel (!b) (accepted ++ [r]) (by simp) (by omega)
          (by rw [List.sum_append, List.sum_cons, List.sum_nil, List.sum_cons]; omega)
          (fun x hx => ht x (List.mem_of_mem_tail hx)) (fun _ => ht), List.append_assoc]
        rfl

/-! ## Offset codes (R6) -/

/-- An offset code reads back as its offset (R6). -/
theorem readOffset_offsetCode (d : Int) (code rest : List Bool) (h : offsetCode d = some code) :
    readOffset (code ++ rest) = .offset d rest := by
  unfold offsetCode at h
  split at h
  · next hd => subst hd; cases h; rfl
  split at h
  · next hd => subst hd; cases h; rfl
  split at h
  · next hd => subst hd; cases h; rfl
  split at h
  · next hd => subst hd; cases h; rfl
  split at h
  · next hd => subst hd; cases h; rfl
  split at h
  · next hd => subst hd; cases h; rfl
  split at h
  · next hd => subst hd; cases h; rfl
  · cases h

/-- The offset codes of rising transitions read back as the transitions (R6, R12); `accepted` are those before them. -/
theorem readDeltas_offsetCodes (w : Nat) (ref : List Nat) (rest : List Bool) :
    ∀ (ts accepted : List Nat) (codes : List Bool), offsetCodes ref ts = some codes → (∀ t ∈ ts, t < w) →
      (accepted ++ ts).Pairwise (· < ·) → readDeltas w ref accepted (codes ++ rest) = .ok (accepted ++ ts) rest := by
  induction ref with
  | nil =>
    intro ts accepted codes h _ _
    cases ts with
    | nil => cases h; rw [readDeltas, List.append_nil]; rfl
    | cons t ts => cases h
  | cons r ref ih =>
    intro ts accepted codes h hw hp
    cases ts with
    | nil => cases h
    | cons t ts =>
      rw [offsetCodes] at h
      split at h
      · next a b ha hb =>
        cases h
        rw [readDeltas, List.append_assoc, readOffset_offsetCode _ _ _ ha]
        dsimp only
        have hin : (r : Int) + ((t : Int) - (r : Int)) = (t : Int) := by omega
        have hlt : t < w := hw t (List.mem_cons_self ..)
        have hfloor : (match accepted.getLast? with
            | some q => (q : Int) + 1
            | none => 0) ≤ (t : Int) := by
          split
          · next q hq =>
            have hm : q ∈ accepted := List.mem_of_getLast? hq
            have := (List.pairwise_append.1 hp).2.2 q hm t (List.mem_cons_self ..)
            omega
          · omega
        rw [hin, if_pos ⟨hfloor, by omega⟩, Int.toNat_natCast,
          ih ts (accepted ++ [t]) b hb (fun x hx => hw x (List.mem_cons_of_mem _ hx)) (by rw [List.append_assoc]; exact hp),
          List.append_assoc]
        rfl
      · cases h

end Sys2Proof.Machine
end

