-- ==== Sys2Proof/Laws/Frames.lean ====
section
/-! SUPPORT. What the engines, the charge unit, the arbiter and a release leave of the lines (07 R136, 08 R146 to R149). -/

namespace Sys2Proof.Machine

variable {p : Chip}

/-- Handing over a notice leaves the lines. -/
theorem send_lines_eq (p : Chip) (n : Notice) : (p.send n).lines = p.lines := by simp

/-- The engines leave the lines. -/
theorem inner_lines (x : Vector Line 4) : Inner fun q => q.lines = x where
  record := fun h _ => h
  notice := fun h n => (send_lines_eq _ n).trans h
  pool := fun h _ => h
  pages := fun h _ => h
  docs := fun h _ => h
  report := fun h _ => h
  attempts := fun h _ => h
  ingest := fun h _ => h
  render := fun h _ => h
  jobs := fun h _ => h
  queue := fun h _ => h
  accounts := fun h _ => h
  restart := fun h _ => h
  lineOps := fun h _ => h
  scanOps := fun h _ => h
  printOps := fun h _ => h

/-- The charge unit leaves the lines. -/
theorem charging_lines (x : Vector Line 4) : Charging fun q => q.lines = x where
  toBase := (inner_lines x).toBase
  accounts := fun h _ => h
  records := fun h _ => h
  log := fun h _ => h
  logSeq := fun h _ => h

theorem line_of_lines {p q : Chip} (h : q.lines = p.lines) (n : Nat) : q.line n = p.line n := by
  unfold Chip.line; rw [h]

/-- The end of a call leaves the lines. -/
theorem endCall_lines (p : Chip) (i : Nat) (c : Cause) : (p.endCall i c).lines = p.lines := by
  have h := inner_lines p.lines
  show ((((p.send _).releaseHold _).onCall i _).lines) = _
  exact h.releaseHold (h.notice rfl _) _

/-- An update of one line leaves the others. -/
theorem line_onLine_ne (p : Chip) (f : Line → Line) {m n : Nat} (h : m ≠ n) : (p.onLine n f).line m = p.line m := by
  rw [Chip.line_onLine]; exact if_neg fun e => h e.1.symm

/-- A status word issued leaves the lines. -/
theorem issueWord_lines_eq (p : Chip) (w : StatusWord) : (p.issueWord w).lines = p.lines := by
  unfold Chip.issueWord; split <;> rfl

/-- A line's state set leaves the other lines. -/
theorem setLineState_line_ne (p : Chip) (st : LineState) {m n : Nat} (h : m ≠ n) :
    (p.setLineState n st).line m = p.line m :=
  (line_of_lines (issueWord_lines_eq _ _) m).trans (line_onLine_ne _ _ h)

/-- A line's state set. -/
theorem setLineState_line (p : Chip) (st : LineState) {n : Nat} (h : n < 4) :
    (p.setLineState n st).line n = { p.line n with state := st } :=
  (line_of_lines (issueWord_lines_eq _ _) n).trans (Chip.line_onLine_self _ h _)

/-- A seizure changes its own line alone. -/
theorem assign_line_ne (p : Chip) (i : Nat) {m n : Nat} (h : m ≠ n) : (p.assign i n).line m = p.line m := by
  unfold Chip.assign Chip.seize
  exact (setLineState_line_ne _ _ h).trans (line_onLine_ne _ _ h)

/-- A pass over a record leaves every line that is not IDLE. -/
theorem passRecord_line (i : Nat) {n : Nat} (h : (p.line n).state ≠ .idle) : (p.passRecord i).line n = p.line n := by
  unfold Chip.passRecord; split
  · exact line_of_lines (endCall_lines _ _ _) n
  · split
    · rfl
    · split
      · next m hm =>
        refine assign_line_ne p i fun he => h ?_
        have := List.find?_some hm
        subst he
        simp at this; exact this.1.1
      · rfl

/-- An arbiter pass leaves every line that is not IDLE. -/
theorem arbiterPass_line {n : Nat} (h : (p.line n).state ≠ .idle) : p.arbiterPass.line n = p.line n := by
  unfold Chip.arbiterPass
  generalize p.passOrder = l
  induction l generalizing p with
  | nil => rfl
  | cons i l ih =>
    have hi := passRecord_line i h
    rw [List.foldl_cons, ih (by rw [hi]; exact h), hi]

/-- The end of an attempt leaves every line that is not IDLE. -/
theorem attemptEnd_line (i : Nat) (c : Cause) {n : Nat} (h : (p.line n).state ≠ .idle) :
    (p.attemptEnd i c).line n = p.line n := by
  unfold Chip.attemptEnd; extract_lets o k q
  have hq : q.line n = p.line n := by
    refine line_of_lines ?_ n
    unfold q; split
    · unfold Chip.retryCall Chip.add32; dsimp only; split <;> rfl
    · exact endCall_lines _ _ _
  rw [arbiterPass_line (by rw [hq]; exact h), hq]

/-- The contexts stopped with a line leave the lines. -/
theorem stopContexts_lines (p : Chip) (n : Nat) (l : Line) : (p.stopContexts n l).lines = p.lines := by
  have h := inner_lines p.lines
  unfold Chip.stopContexts
  exact h.stopIngestIfActive (ite_kept (fun q => q.lines = p.lines) (h.stopRender rfl) rfl) _

/-- The end of an attempt record leaves the lines. -/
theorem closeAttempt_lines (p : Chip) (n : Nat) (c : Cause) : (p.closeAttempt n c).lines = p.lines :=
  (charging_lines p.lines).closeAttempt rfl _ _

/-- What giving up the call record leaves of a line that is not IDLE. -/
theorem giveUpCall_line (p : Chip) (c : Cause) {n : Nat} (hn : n < 4) (h : (p.line n).state ≠ .idle) :
    (p.giveUpCall n c).line n = { p.line n with call := if (p.line n).dir = .outward then none else (p.line n).call } := by
  unfold Chip.giveUpCall; split
  · next i hd hc =>
    have hl := Chip.line_onLine_self p hn fun l => { l with call := none }
    rw [attemptEnd_line i c (by rw [hl]; exact h), hl, if_pos hd]
  · next hne =>
    split
    · next hd =>
      cases hc : (p.line n).call with
      | none => rw [← hc]
      | some i => exact absurd hc (hne i hd)
    · rfl

/-- What a release leaves of its line (R136). -/
theorem release_line (p : Chip) {n : Nat} (hn : n < 4) (c : Cause) :
    (p.release n c).line n = (p.line n).letGo c := by
  unfold Chip.release; extract_lets l q1 q2
  have h1 : q1.line n = Line.released c (p.line n) :=
    (line_of_lines (issueWord_lines_eq _ _) n).trans (Chip.line_onLine_self _ hn _)
  have hc : (((q1.stopContexts n l).closeAttempt n c)).line n = q1.line n :=
    line_of_lines ((closeAttempt_lines _ _ _).trans (stopContexts_lines _ _ _)) n
  have h2 : q2.line n = { Line.released c (p.line n) with
      call := if (p.line n).dir = .outward then none else (p.line n).call } := by
    refine (giveUpCall_line _ c hn ?_).trans ?_
    · rw [hc, h1]; intro h; cases h
    · rw [hc, h1]; rfl
  refine (Chip.line_onLine_self _ hn _).trans ?_
  rw [h2]; rfl

/-- A release leaves every other line that is not IDLE. -/
theorem release_line_ne (p : Chip) (c : Cause) {m n : Nat} (hmn : m ≠ n) (h : (p.line m).state ≠ .idle) :
    (p.release n c).line m = p.line m := by
  unfold Chip.release; extract_lets l q1 q2
  have h1 : q1.line m = p.line m := (line_of_lines (issueWord_lines_eq _ _) m).trans (line_onLine_ne _ _ hmn)
  have hc : (((q1.stopContexts n l).closeAttempt n c)).line m = p.line m :=
    (line_of_lines ((closeAttempt_lines _ _ _).trans (stopContexts_lines _ _ _)) m).trans h1
  have h2 : q2.line m = p.line m := by
    show (Chip.giveUpCall _ n c).line m = _
    unfold Chip.giveUpCall; split
    · rw [attemptEnd_line]
      · exact (line_onLine_ne _ _ hmn).trans hc
      · rw [line_onLine_ne _ _ hmn, hc]; exact h
    · exact hc
  exact (line_onLine_ne _ _ hmn).trans h2

end Sys2Proof.Machine
end

