-- ==== Sys2Proof/Laws/Records.lean ====
section
/-! SUPPORT. What a record that the part writes holds (11 R191), what the service of a RECORD_WRITE without a row of its own
leaves (log 11), what a posting comes to (09 R171, R173), and what asking for a page comes to (06 R97), in the terms of
Safety.lean. -/

namespace Sys2Proof.Machine

/-! ## Record layouts (11 R191) -/

theorem leVal_leBytes (size v : Nat) (h : v < 256 ^ size) : leVal (leBytes size v) = v := by
  induction size generalizing v with
  | zero => simp at h; simp [leBytes, leVal, h]
  | succ size ih =>
    have : v / 256 < 256 ^ size := Nat.div_lt_of_lt_mul (by rwa [Nat.pow_succ, Nat.mul_comm] at h)
    simp only [leBytes, leVal, ih _ this, BitVec.toNat_ofNat]
    omega

@[simp] theorem putField_length (bytes : List Byte) (f : Field) (h : f.1 + f.2.1 ≤ bytes.length) :
    (putField bytes f).length = bytes.length := by
  obtain ⟨o, z, v⟩ := f
  simp at h ⊢
  simp [putField]; omega

/-- A field that is written leaves every byte outside it. -/
theorem putField_getElem?_ne (bytes : List Byte) (f : Field) (h : f.1 + f.2.1 ≤ bytes.length) (i : Nat)
    (hi : i < f.1 ∨ f.1 + f.2.1 ≤ i) : (putField bytes f)[i]? = bytes[i]? := by
  obtain ⟨o, z, v⟩ := f
  simp only [putField] at h hi ⊢
  rcases hi with hi | hi
  · rw [List.append_assoc, List.getElem?_append_left (by simp; omega), List.getElem?_take]
    simp [hi]
  · rw [List.getElem?_append_right (by simp; omega), List.getElem?_drop]
    congr 1
    simp; omega

/-- A field that is written reads back, saturated. -/
theorem fieldAt_putField (bytes : List Byte) (f : Field) (h : f.1 + f.2.1 ≤ bytes.length) :
    fieldAt (putField bytes f) f.1 f.2.1 = min f.2.2 (256 ^ f.2.1 - 1) := by
  have hp : 0 < 256 ^ f.2.1 := Nat.pow_pos (by decide)
  have e : ((putField bytes f).drop f.1).take f.2.1 = leBytes f.2.1 (min f.2.2 (256 ^ f.2.1 - 1)) := by
    obtain ⟨o, z, v⟩ := f
    simp only [putField] at h ⊢
    rw [List.append_assoc, List.drop_left' (by simp; omega), List.take_left' (by simp)]
  rw [fieldAt, e, leVal_leBytes _ _ (by omega)]

/-- A field reads the same in two records whose bytes there are the same. -/
theorem fieldAt_congr {a b : List Byte} {o n : Nat} (h : ∀ i, o ≤ i → i < o + n → a[i]? = b[i]?) :
    fieldAt a o n = fieldAt b o n := by
  unfold fieldAt
  congr 1
  apply List.ext_getElem?
  intro i
  simp only [List.getElem?_take, List.getElem?_drop]
  split
  · exact h _ (by omega) (by omega)
  · rfl

theorem foldl_putField_length (fields : List Field) (bytes : List Byte) (h : ∀ f ∈ fields, f.1 + f.2.1 ≤ bytes.length) :
    (fields.foldl putField bytes).length = bytes.length := by
  induction fields generalizing bytes with
  | nil => rfl
  | cons f fs ih =>
    have hf := putField_length bytes f (h f List.mem_cons_self)
    rw [List.foldl_cons, ih _ fun g hg => hf ▸ h g (List.mem_cons_of_mem _ hg), hf]

theorem foldl_putField_getElem?_ne (fields : List Field) (bytes : List Byte) (h : ∀ f ∈ fields, f.1 + f.2.1 ≤ bytes.length)
    (i : Nat) (hi : ∀ f ∈ fields, i < f.1 ∨ f.1 + f.2.1 ≤ i) : (fields.foldl putField bytes)[i]? = bytes[i]? := by
  induction fields generalizing bytes with
  | nil => rfl
  | cons f fs ih =>
    have hf := putField_length bytes f (h f List.mem_cons_self)
    rw [List.foldl_cons, ih _ (fun g hg => hf ▸ h g (List.mem_cons_of_mem _ hg))
        (fun g hg => hi g (List.mem_cons_of_mem _ hg)),
      putField_getElem?_ne _ _ (h f List.mem_cons_self) _ (hi f List.mem_cons_self)]

/-- A record whose fields lie within it and apart holds each of them, and 0 elsewhere. -/
theorem layout_holds (n : Nat) (fields : List Field) (hin : ∀ f ∈ fields, f.1 + f.2.1 ≤ n)
    (hapart : fields.Pairwise fun f g => f.1 + f.2.1 ≤ g.1 ∨ g.1 + g.2.1 ≤ f.1) : HoldsFields (layout n fields) n fields := by
  have hlen : ∀ f ∈ fields, f.1 + f.2.1 ≤ (List.replicate n (0 : Byte)).length := by simpa using hin
  refine ⟨by rw [layout, foldl_putField_length _ _ hlen, List.length_replicate], ?_, ?_⟩
  · unfold layout
    generalize List.replicate n (0 : Byte) = bytes at hlen
    clear hin
    induction fields generalizing bytes with
    | nil => simp
    | cons f fs ih =>
      have hf := putField_length bytes f (hlen f List.mem_cons_self)
      have hfs : ∀ g ∈ fs, g.1 + g.2.1 ≤ (putField bytes f).length := fun g hg => hf ▸ hlen g (List.mem_cons_of_mem _ hg)
      intro g hg
      rw [List.foldl_cons]
      rcases List.mem_cons.1 hg with rfl | hg
      · rw [← fieldAt_putField bytes g (hlen g List.mem_cons_self)]
        refine fieldAt_congr fun i hi hi' => foldl_putField_getElem?_ne _ _ hfs _ fun k hk => ?_
        have := List.rel_of_pairwise_cons hapart hk
        omega
      · exact ih (List.pairwise_cons.1 hapart).2 _ hfs g hg
  · intro i hi hne
    rw [List.getD_eq_getElem?_getD, layout, foldl_putField_getElem?_ne _ _ hlen _ hne]
    simp [hi]

/-! ## Writes without a row of their own (log 11) -/

/-- Memory serves the RECORD_WRITE that holds the port, if no row serves it. -/
theorem State.serveRowless_served {s : State} {op : PortOp} (hm : memWf s.mem = true) (hb : s.chip.mport.busy = some op)
    (ho : op.rowless = true) : s.RowlessServed s.serveRowless := by
  unfold PortOp.rowless at ho
  split at ho <;> cases ho <;>
    simp only [State.serveRowless, Chip.rowlessWrite, hb, State.RowlessServed, Option.some.injEq, PortOp.record.injEq,
      RecordOp.word.injEq, RecordOp.notice.injEq, RecordOp.logEntry.injEq, reduceCtorEq]
  · next w =>
    refine ⟨_, s.chip.path.strap * 8192 + w.place, leBytes 4 (s.chip.wordShown w), rfl,
      fun a => ?_, .inl ⟨w, rfl, rfl, rfl⟩⟩
    have e : leBytes 4 (s.chip.wordValue w) = leBytes 4 (s.chip.wordShown w) := by cases w <;> rfl
    have o : s.chip.control + w.offset = s.chip.path.strap * 8192 + w.place := by
      cases w <;> simp [Chip.control, StatusWord.offset, StatusWord.place]
    rw [← e, ← o]
    exact memRead_memWriteBytes hm _ _ a
  · next k n =>
    refine ⟨_, s.chip.path.strap * 8192 + 0x1000 + 16 * k, n.bytes, rfl, fun a => ?_, .inr (.inl ⟨k, n, ⟨rfl, rfl⟩, rfl, rfl⟩)⟩
    rw [memRead_memWriteBytes hm]
    simp [Chip.control, Nat.mul_comm]
  · next b bs => exact ⟨_, b, bs, rfl, fun a => memRead_memWriteBytes hm _ _ a, .inr (.inr ⟨rfl, rfl⟩)⟩

/-- With no such write at the port nothing is served. -/
theorem State.serveRowless_eq {s : State} (h : ∀ op, s.chip.mport.busy = some op → op.rowless = false) :
    s.serveRowless = s := by
  unfold State.serveRowless Chip.rowlessWrite
  split
  · next m hm =>
    split at hm
    all_goals first
      | (next hb => exact absurd (h _ hb) (by simp [PortOp.rowless]))
      | cases hm
  · rfl

/-! ## Postings (09 R171, R173) -/

/-- A posting in full. -/
theorem Chip.post_posted (p : Chip) (n amount : Nat) : p.Posted (p.post n amount) n amount := by
  refine ⟨fun h => by simp [Chip.post, h], fun d hd => ?_⟩
  have hn : n < 4 := by
    rcases Nat.lt_or_ge n 4 with h | h
    · exact h
    · rw [Chip.attempt, tget_ge _ h] at hd; cases hd
  intro a total reached q
  let q0 : Chip := { p with
      charge := { p.charge with
        accounts := tset p.charge.accounts d { a with total := total }
        attempts := tset p.charge.attempts n { p.attempt n with billed := min 4294967295 ((p.attempt n).billed + amount) } }
      calls := match (p.attempt n).call with
        | some i => { p.calls with records := tset p.calls.records i { p.callRec i with
            charge := min 4294967295 ((p.callRec i).charge + amount) } }
        | none => p.calls }
  have h1 : p.post n amount = q0.testBudget d := by
    unfold Chip.post
    simp only [hd]
    congr 1
    have e : ((p.onAccount d fun a => { a with total := satAdd top32 a.total amount }).onAttempt n fun a =>
        { a with billed := satAdd top32 a.billed amount }).attempt n
        = { p.attempt n with billed := satAdd top32 (p.attempt n).billed amount } := by
      rw [Chip.attempt_onAttempt_self _ hn]; rfl
    have key : ∀ (x : Chip) (c : Option Nat), (match c with
        | some i => x.onCall i fun c => { c with charge := satAdd top32 c.charge amount }
        | none => x) = { x with calls := match c with
        | some i => { x.calls with records := tset x.calls.records i { x.callRec i with
            charge := min 4294967295 ((x.callRec i).charge + amount) } }
        | none => x.calls } := by intro x c; cases c <;> rfl
    simp only [e]
    exact key _ _
  rw [h1]
  rcases Nat.lt_or_ge d 64 with h64 | h64
  · have ha : q0.account d = { a with total := total } := tget_tset_self _ h64 _
    unfold Chip.testBudget
    simp only [ha]
    split
    · next hr =>
      have hq : q = q0.onAccount d fun a => { a with blocked := true } := by
        have hb : reached = true := by simpa [reached] using hr
        simp only [Chip.onAccount, ha]
        rw [show q0.charge.accounts = tset p.charge.accounts d { a with total := total } from rfl, tset_tset]
        simp only [q, hb, Bool.or_true]
        rfl
      refine ⟨fun _ => hq ▸ Chip.told_send _ _, fun h => ?_⟩
      simp [reached] at h
      exact absurd hr.2.2 (by simpa using h hr.1 hr.2.1)
    · next hr =>
      have : reached = false := by simpa [reached] using hr
      refine ⟨fun h => by simp [this] at h, fun _ => ?_⟩
      simp only [q, this, Bool.or_false]
      rfl
  · have hx : ∀ x : Account, tset p.charge.accounts d x = p.charge.accounts := fun x => by
      unfold tset; exact Vector.setIfInBounds_eq_of_size_le h64
    have ha : a = default := tget_ge _ h64
    have hr : reached = false := by simp [reached, ha]; intro h; exact absurd rfl h
    have hq : q0.account d = default := tget_ge _ h64
    unfold Chip.testBudget
    rw [hq, if_neg (by decide)]
    exact ⟨fun h => by simp [hr] at h, fun _ =>
      congrArg (fun v => ({ q0 with charge := { q0.charge with accounts := v } } : Chip)) ((hx _).trans (hx _).symm)⟩

/-- A charge of the tariff in full: it joins the tariff charge, and in meter mode NONE it is posted (09 R168, R169). -/
theorem Chip.tariffCharge_posted (p : Chip) {n : Nat} (hn : n < 4) (amount : Nat) :
    let charged : Chip := { p with charge := { p.charge with attempts := tset p.charge.attempts n { p.attempt n with
      tariffCharge := min 4294967295 ((p.attempt n).tariffCharge + amount) } } }
    ((p.attempt n).meterPulses = false → charged.Posted (p.tariffCharge n amount) n amount)
    ∧ ((p.attempt n).meterPulses = true → p.tariffCharge n amount = charged) := by
  intro charged
  have hc : p.onAttempt n (fun a => { a with tariffCharge := satAdd top32 a.tariffCharge amount }) = charged := rfl
  have hm : (charged.attempt n).meterPulses = (p.attempt n).meterPulses := by
    rw [Chip.attempt, show charged.charge.attempts = tset _ _ _ from rfl, tget_tset_self _ hn]
  unfold Chip.tariffCharge
  simp only [hc, hm]
  refine ⟨fun h => ?_, fun h => by rw [if_pos h]⟩
  rw [if_neg (by rw [h]; decide)]
  exact Chip.post_posted _ _ _

/-! ## Pages asked for (02 R30, 06 R97) -/

/-- Two updates of one render context are one. -/
theorem Chip.onRen_onRen (p : Chip) {c : Nat} (hc : c < 5) (f g : RenderCtx → RenderCtx) :
    (p.onRen c f).onRen c g = p.onRen c fun x => g (f x) := by
  unfold Chip.onRen Chip.ren; simp only [tget_tset_self _ hc, tset_tset]

/-- The start of a page in a transmit context. -/
theorem Chip.startPage_line (p : Chip) {c : Nat} (hc : 1 ≤ c) (r : Nat) : let x := p.pageRec r
    p.startPage c r = p.onRen c fun y => { y with
      state := .render, source := some ⟨r, x.width, x.res, x.lines, x.bitLength, x.chain, x.corrupt⟩
      decoder := Decoder.start x.width, vertical := Vertical.blank, lineOut := 0 } := by
  have h : ∀ q : Chip, q.markJobCorrupt c = q := fun q => by
    unfold Chip.markJobCorrupt; split
    · omega
    · rfl
  unfold Chip.startPage; simp only [h, ite_self]

/-- A transmit context's question for a page in full. -/
theorem Chip.txFetch_asked (p : Chip) {c : Nat} (i n : Nat) (h1 : 1 ≤ c) (h5 : c < 5) :
    p.TxAsked (p.txFetch c i n) c i n := by
  have hd (q : Chip) (h : q = p.onRen c fun x => { x with page := n }) :
      q.askPage (q.callRec i).doc n = p.askPage (p.callRec i).doc n := by subst h; rfl
  unfold Chip.TxAsked Chip.txFetch
  simp only [hd _ rfl]
  refine ⟨fun r hr hs => ?_, fun r hr hs => ?_, fun hr hs => ?_, fun hr hs => ?_⟩
  all_goals
    simp only [Chip.askPage, hr, hs, if_true, if_false, Chip.txDone, Chip.startPage_line _ h1, Chip.onRen_onRen _ h5]
    rfl

end Sys2Proof.Machine
end

