-- ==== Sys2Proof/WellFormed.lean ====
section
/-! DEFINITION. Which terms of Instr are commands that can come at all: a bus transaction has 1 to 8 words (03 R38),
a CALL record has 40 packed destination symbols (11.5), and each record belongs to exactly one row (log 10). -/

namespace Sys2Proof

/-- The command can come: its operands are what the bus or the record format can carry. -/
def Instr.wellFormed : Instr → Bool
  | .sportTransaction t => decide (1 ≤ t.words.length) && decide (t.words.length ≤ 8)
  | .call _ f => f.dest.length == 40
  | .connectRx _ _ direction _ _ _ => direction != 1
  | .reportDocuments _ kind _ => kind == 0 || decide (4 < kind.toNat)
  | .unknownKind _ kind => kind == 0 || decide (30 < kind.toNat)
  | _ => true

end Sys2Proof
end

