-- ==== Sys2Proof/Tests/Slice0.lean ====
section
/-! SUPPORT. Small tests of single commands, with expected results from the spec's tables and worked examples or worked
out by hand from its rules, and a witness for the hypotheses of every statement. -/

namespace Sys2Proof.Machine

/-- The part with an operation holding the port. -/
def Chip.holding (p : Chip) (op : PortOp) : Chip := { p with mport := { p.mport with busy := some op } }

/-- A document record set. -/
def Chip.withDoc (p : Chip) (d : Nat) (x : DocRecord) : Chip := p.onDoc d fun _ => x

/-- A line in a state with a direction, its guard at the reset value. -/
def Chip.lineAt (p : Chip) (n : Nat) (st : LineState) (dir : LineDir := .none) : Chip :=
  p.onLine n fun l => { l with state := st, dir := dir, stateTimer := some 5 }

end Sys2Proof.Machine

namespace Sys2Proof.Tests

open Sys2Proof Sys2Proof.Machine

set_option Elab.async false

/-! ## Small states -/

/-- The part after reset with no status word waiting. -/
def part : Chip := { Chip.reset 0 with mport := { MPort.reset with records := [] } }

/-- A request record of 64 bytes with tag 7 (11.5). -/
def record (kind : Nat) (fields : List Field) : List Byte := layout 64 ((0, 2, kind) :: (2, 2, 7) :: fields)

/-- The state in which memory serves the read of a request record at ring position 0. -/
def asked (p : Chip) (kind : Nat) (fields : List Field) : State :=
  { pending := [], mem := memWriteBytes [] 0 (record kind fields)
    chip := { p with
      mport := { p.mport with busy := some (.record (.requestRead 0)) }, req := { p.req with producer := 1, taking := true } } }

/-- A state with the given part and memory. -/
def at_ (p : Chip) (mem : List Host.Cell := []) : State := ⟨[], mem, p⟩

/-- The state after a command, if it answers one. -/
def next (i : Instr) (s : State) : Option State :=
  match exec i s with
  | .next t => some t
  | _ => none

/-- The part after a command that answers a next state. -/
def after (i : Instr) (s : State) : Option Chip := (next i s).map (·.chip)

/-- The notices placed in the ring that wait to be written. -/
def told (p : Chip) : List Notice := p.mport.records.filterMap fun
  | .notice _ n => some n
  | _ => none

/-- What a command makes of the part, and the notices it sends. -/
def effect {α : Type} (i : Instr) (s : State) (f : Chip → α) : Option (α × List Notice) :=
  (after i s).map fun p => (f p, told p)

/-- A word with every byte enabled. -/
def word (v : Nat) : BusWord := ⟨BitVec.ofNat 32 v, 15⟩

/-- A write transaction of master 3. -/
def write (a : Nat) (ws : List BusWord) : Transaction := ⟨BitVec.ofNat 32 a, .write, ws, 3⟩

/-- A read transaction of `n` words of master 3. -/
def read (a n : Nat) : Transaction := ⟨BitVec.ofNat 32 a, .read, List.replicate n (word 0), 3⟩

/-- The part with a page store at 0x04000000 whose free blocks are the given ones. -/
def stored (pool : List Nat) : Chip :=
  { part with store := { part.store with configured := true, base := 0x4000000, blocks := 1024, pool := pool } }

/-- A COMPLETE document of desk 6 with the given pages. -/
def complete (pages : List Nat) : DocRecord := { DocRecord.free with st := .complete, desk := 6, pages := pages }

/-- A bound ingest ring of four slots of 128 bytes at 0x100000. -/
def inRing (st : IngestSlotState) (overwrite : Bool := false) : IngestRing :=
  ⟨2, 0x100000, 128, overwrite, List.replicate 4 ⟨st, false, false, false⟩, 0⟩

/-- A bound render ring of four slots of 128 bytes at 0x200000. -/
def outRing (st : RenderSlotState) (stall : StallTimer := .stopped) : RenderRing :=
  ⟨3, 0x200000, 128, List.replicate 4 ⟨st, false, .clear, 0⟩, 0, 0, false, stall⟩

/-- The aperture of `inRing` or `outRing`. -/
def ap (base : Nat) (kind : ApKind) (overwrite : Bool := false) : Aperture := ⟨base, 0, kind, 128, 4, overwrite⟩

/-- The part with the ring of SCAN bound, its slots in the given state. -/
def scanning (st : IngestSlotState) (overwrite : Bool := false) : Chip :=
  ((stored [3, 4]).setAperture 2 (some (ap 0x100000 .scanRing overwrite))).onIng 0 fun x =>
    { x with ring := some (inRing st overwrite) }

/-- The part with the ring of PRINT bound, its slots in the given state. -/
def printing (st : RenderSlotState) : Chip :=
  ((stored [3, 4]).setAperture 3 (some (ap 0x200000 .printRing))).onRen 0 fun x => { x with ring := some (outRing st) }

/-! ## Well-formed commands -/

theorem test_wf_transaction_without_words : Instr.wellFormed (.sportTransaction (write 0x2000 [])) = false := by
  decide +kernel
theorem test_wf_transaction_of_nine_words :
    Instr.wellFormed (.sportTransaction (write 0x2000 (List.replicate 9 (word 1)))) = false := by decide +kernel
theorem test_wf_transaction_of_eight_words :
    Instr.wellFormed (.sportTransaction (write 0x2000 (List.replicate 8 (word 1)))) = true := by decide +kernel
theorem test_wf_call_of_39_symbols :
    Instr.wellFormed (.call 7 { callBody (record 21 []) with dest := List.replicate 39 0 }) = false := by decide +kernel
theorem test_wf_connect_rx_of_direction_tx : Instr.wellFormed (.connectRx 7 0 1 1728 1 0) = false := by decide +kernel
theorem test_wf_report_documents_of_another_kind : Instr.wellFormed (.reportDocuments 7 3 0) = false := by decide +kernel
theorem test_wf_unknown_kind_that_is_known : Instr.wellFormed (.unknownKind 7 30) = false := by decide +kernel
theorem test_wf_decoded_records : ∀ k, k < 32 → (decodeRequest (record k [])).wellFormed = true := by decide +kernel

/-! ## Request records written out from 11.5 -/

theorem test_record_of_line_set :
    decodeRequest (record 15 [(4, 1, 2), (5, 1, 1), (6, 1, 64), (7, 1, 50), (8, 1, 31), (9, 1, 60), (10, 2, 768),
        (12, 2, 100), (14, 2, 101), (16, 1, 3), (17, 1, 5), (18, 1, 45), (19, 1, 6), (20, 2, 205), (22, 1, 20),
        (23, 1, 8), (24, 2, 2048), (26, 2, 25)])
      = .lineSet 7 ⟨2, 1, 64, 50, 31, 60, 768, 100, 101, 3, 5, 45, 6, 205, 20, 8, 2048, 25⟩ := by decide +kernel
theorem test_record_of_call :
    let f := callBody (record 21 [(4, 1, 6), (5, 1, 5), (6, 1, 1), (10, 2, 60), (12, 1, 15), (13, 1, 1), (14, 1, 3),
      (24, 1, 0x9C), (25, 1, 0x40)])
    (f.desk, f.document, f.retry, f.lineMask) = (6, 5, 60, 15) ∧ (f.first, f.access, f.count) = (1, 1, 3)
      ∧ f.dest.take 4 = [9, 12, 4, 0] := by decide +kernel

/-! ## Coding and conversion: the worked examples of 01 1.6 and 06 6.4 -/

/-- A line of 512 pels laid down from its runs. -/
def lineB : List Bool := layRuns false [98, 12, 402]
def lineA : List Bool := layRuns false [100, 12, 400]

theorem test_coded_page :
    pageStream 512 ([lineB, lineA] ++ List.replicate 5 lineA ++ [whiteLine 512, whiteLine 512])
      = bitsOf 32 0b10000110101000111000000110011010 ++ bitsOf 10 0b1111001100 ++ bitsOf 8 0b01000100 ++ bitsOf 2 0b00
        ++ bitsOf 8 0b01000000 := by decide +kernel
theorem test_delta_refused_and_chosen :
    (deltaCode lineB (layRuns false [100, 15, 397]), deltaCode lineB (layRuns false [98, 6, 1, 5, 402]),
      lineCode lineB (layRuns false [97, 12, 403])) = (none, none, bitsOf 8 0b11101101) := by decide +kernel
theorem test_corrupt_page_decoded :
    decodedLines ⟨0, 512, 1, 3, 90, [], false⟩ 3 { Decoder.start 512 with held := [true, false] ++ runCodes false [100, 50, 500] }
      = [layRuns false [100, 50, 362], whiteLine 512, whiteLine 512] := by decide +kernel

/-- The black pels of a line. -/
def black (line : List Bool) : List Nat := (List.range line.length).filter fun i => line.getD i false

/-- A line of `w` pels with the given black pels. -/
def pels (w : Nat) (at' : List Nat) : List Bool := (List.range w).map fun i => at'.contains i

theorem test_width_reduced :
    let out := fitWidth 1728 (pels 2432 [2, 3, 2430])
    ([0, 1, 2, 3, 1726, 1727].filter fun x => out.getD x false) = [2, 1727] := by decide +kernel
theorem test_width_centred :
    let out := fitWidth 576 (pels 512 [0, 511])
    ([31, 32, 33, 542, 543, 544].filter fun x => out.getD x false) = [32, 543] := by decide +kernel
theorem test_vertical_groups :
    let (a, v) := Vertical.blank.take 2 1 false (pels 8 [2, 3])
    let (b, v) := v.take 2 1 false (pels 8 [6])
    let (c, _) := v.take 2 1 true (pels 8 [0])
    (a, b.map black, c.map black) = (none, some [2, 3, 6], some [0]) := by decide +kernel

/-! ## Reset, S-port and arbiter -/

theorem test_hardware_reset :
    effect (.hardwareReset 5) (at_ (scanning .filled)) (fun p => (p.path.strap, p.store.configured, p.mport.records.length))
      = some ((5, false, 7), []) := by decide +kernel
theorem test_warm_restart_with_nothing_to_stop :
    effect (.warmRestart 7) (asked { part with calls := { part.calls with limit := 2 } } 30 []) (·.calls.limit)
      = some (2, [.done 7 30 .ok 0]) := by decide +kernel
theorem test_misaligned_transaction :
    effect (.sportTransaction (write 0x2002 [word 1])) (at_ part) (·.path.response)
      = some (some .fault, [.protectFault 0x2002 3 .form]) := by decide +kernel
theorem test_ninth_posted_write :
    let full := { part with path := { part.path with posted := List.replicate 8 ⟨0x2000, [word 1], 3, .none⟩ } }
    (after (.sportTransaction (write 0x2000 [word 1])) (at_ full)).map (fun p => (p.path.response, p.path.posted.length))
      = some (some .retry, 8) := by decide +kernel

/-- The part with a posted write and a status word's write waiting, the turn at its third THROUGH grant. -/
def contended : Chip := { part with
  path := { part.path with posted := [⟨0x2000, [⟨0x11223344, 5⟩], 3, .none⟩] }
  mport := { part.mport with records := [.word .lineStates], turnCount := 2 } }

theorem test_grant_passes_the_turn :
    (after .arbiterGrant (at_ contended)).map (fun p => (p.mport.busy, p.mport.turn, p.mport.turnCount))
      = some (some .drain, .engine, 0) := by decide +kernel
theorem test_status_word_served_before_the_next_grant :
    (next .arbiterGrant (at_ (Chip.holding { part with charge := { part.charge with day := 3, second := 0x1234 } }
      (.record (.word .clock))))).map (fun t => (memReadBytes t.mem 0x1818 4, t.chip.mport.busy))
      = some ([0x34, 0x12, 0, 3], none) := by decide +kernel
theorem test_reset_abandons_a_notice_write :
    Chip.writingBytes (Chip.holding part (.record (.notice 2 (.lost 1)))) = List.range' 0x1020 16 := by decide +kernel
theorem test_drain_writes_enabled_bytes :
    (next .postedWriteDrain (at_ (Chip.holding contended .drain) (memWriteBytes [] 0x2000 [9, 9, 9, 9]))).map
      (fun t => (memReadBytes t.mem 0x2000 4, t.chip.path.posted)) = some ([0x44, 9, 0x22, 9], []) := by decide +kernel
theorem test_drain_of_a_producer_too_far :
    effect .postedWriteDrain (at_ (Chip.holding { part with
      path := { part.path with posted := [⟨0x1800, [word 65], 3, .producer⟩] } } .drain)) (·.req.producer)
      = some (0, [.indexBad 0 65 0]) := by decide +kernel
theorem test_read_served :
    (after .throughReadServed (at_ (Chip.holding { part with
      path := { part.path with held := some ⟨0x2000, 1, 3, none, [], false⟩ } } .read)
      (memWriteBytes [] 0x2000 [0x44, 0x33, 0x22, 0x11]))).map (·.path.response) = some (some (.done [0x11223344])) := by
  decide +kernel

/-! ## Completions -/

/-- SCAN in READY on document 0 at width 512, a SLOT_READ of slot 0 at the port. -/
def reading : Chip := Chip.holding
  (((scanning .coding).withDoc 0 { DocRecord.free with st := .opened }).onIng 0 fun x =>
    { x with phase := .ready, doc := some 0, width := 512, res := 1, reading := true })
  (.engine (.slotRead 0 0 0x100000 0x10007C 512))

theorem test_slot_read_opens_a_page :
    (after .slotReadComplete (at_ reading (memWriteBytes [] 0x100000 [0x80] ++ [⟨0x10007C, 1⟩]))).map
      (fun p => ((p.ing 0).phase, (p.ing 0).lineTotal, (p.pageRec 0).st, (p.doc 0).pages, (p.pageRec 0).chain))
      = some (.page, 1, .opened, [0], [3]) := by decide +kernel
theorem test_slot_read_with_end_doc_closes :
    effect .slotReadComplete (at_ reading [⟨0x10007C, 8⟩]) (fun p => ((p.ing 0).phase, (p.doc 0).st))
      = some ((.idle, .complete), [.docClosed 0 0 0 0 false]) := by decide +kernel
theorem test_block_write_fills_the_block :
    (next .blockWriteComplete (at_ (Chip.holding part (.engine (.blockWrite 0 0 0x4000000 [true, false, true]))))).map
      (fun t => (memReadBytes t.mem 0x4000000 2, t.mem.length)) = some ([0xA0, 0], 1) := by decide +kernel
theorem test_block_read_feeds_the_decoder :
    (after .blockReadComplete (at_ (Chip.holding part (.engine (.blockRead 0 0 0x4000000))) [⟨0x4000000, 0xA0⟩])).map
      (fun p => ((p.ren 0).decoder.held.take 4, (p.ren 0).decoder.fetched)) = some ([true, false, true, false], 1) := by
  decide +kernel
theorem test_slot_write_fills_the_slot :
    (next .slotWriteComplete (at_ (Chip.holding (printing .writing)
      (.engine (.slotWrite 0 0 0x200000 0x20007C (some [true]) ⟨true, false, false, false⟩ 5 false false false))))).map
      (fun t => (memReadBytes t.mem 0x20007C 4, (t.chip.ren 0).ring.map fun r => ((r.slots.getD 0 .fresh).st, r.stall)))
      = some ([1, 0, 5, 0], some (.ready, .running 10240)) := by decide +kernel
theorem test_tariff_read_past_the_last_address :
    (after .tariffReadComplete (at_ (Chip.holding { part with charge := { part.charge with load := some ⟨7, 0xFFFFFFFC, []⟩ } }
      (.record (.tariffRead 0xFFFFFFFC 64))) [⟨0xFFFFFFFF, 9⟩])).map
      (fun p => (p.charge.load.map fun l => (l.bytes.length, l.bytes.take 4), p.mport.records))
      = some (some (64, [0, 0, 0, 9]), [.tariffRead (0xFFFFFFFC + 64) 64]) := by decide +kernel

/-- A valid tariff image: one band a day type, units of 60 s. -/
def image : List Byte :=
  List.replicate 8 0 ++ [1, 1, 1] ++ List.replicate 493 0 ++ (List.replicate 128 [60, 0, 0, 0]).flatten

/-- The last read of a tariff load at the port. -/
def loading (bytes : List Byte) : State := at_
  (Chip.holding { part with charge := { part.charge with load := some ⟨7, 0x3000, bytes.take 960⟩ } }
    (.record (.tariffRead 0x33C0 56))) (memWriteBytes [] 0x33C0 (bytes.drop 960))

theorem test_image_is_valid : imageValid image = true := by decide +kernel
theorem test_tariff_of_a_bad_day_map : effect .tariffReadComplete (loading (image.set 6 3)) (·.charge.load)
    = some (none, [.done 7 26 .badField 0]) := by decide +kernel
theorem test_notice_producer_written :
    (next .noticeProducerWriteComplete (at_ (Chip.holding part (.record (.noticeProducer 0x102))))).map
      (fun t => (t.chip.notices.pd, memReadBytes t.mem 0x1808 4)) = some (0x102, [2, 1, 0, 0]) := by decide +kernel
theorem test_report_ends_with_its_count :
    effect .reportRecordWriteComplete (at_ (Chip.holding { part with
      req := { part.req with report := some ⟨7, .lines, 0, 0x3000, 5, 5, false⟩ } }
      (.record (.reportRecord 0x3040 [1, 2])))) (·.req.report) = some (none, [.done 7 8 .ok 5]) := by decide +kernel

/-! ## Clock and timers -/

theorem test_clock_at_midnight :
    (after .clockAdvance (at_ { part with charge := { part.charge with day := 6, second := 86399, holiday := true } })).map
      (fun p => (p.charge.day, p.charge.second, p.charge.holiday, p.calls.schedule)) = some (0, 0, false, 1) := by
  decide +kernel
theorem test_stall_timer_names_its_ring :
    effect (.stallTimerExpiry 0) (at_ ((printing .ready).onRen 0 fun x => { x with ring := some (outRing .ready (.running 1)) }))
      (fun p => (p.ren 0).ring.map (·.stall)) = some (some .expired, [.consumerStall 0 4]) := by decide +kernel

/-- The tariff of the example in 09 9.8, its clock at day 2, 17:59:20, and call 14 of desk 6 awaiting its answer on
line 2. -/
def example98 : Chip := (({ part with charge := { part.charge with
    day := 2, second := 64760
    tariff := { Tariff.null with
      bands := [[⟨0, 2⟩, ⟨480, 1⟩, ⟨1080, 2⟩], [⟨0, 0⟩], [⟨0, 0⟩]], defaultZone := 3
      setup := [0, 0, 0, 40], rates := List.replicate 25 ⟨60, 0⟩ ++ [⟨30, 12⟩, ⟨60, 8⟩] }
    attempts := tset part.charge.attempts 2 { Attempt.closed with
      opened := true, outward := true, call := some 14, desk := some 6 }
    accounts := tset part.charge.accounts 6 { Account.reset with total := 990, limit := 1050 } } } : Chip).onCall 14
      fun c => { c with st := .active, desk := 6, made := 1, line := some 2 }).onLine 2
      fun l => { l with state := .awaitAnswer, dir := .outward, call := some 14 }

/-- Attempt and account figures of the example. -/
def figures (p : Chip) : Nat × Nat × Option Nat × Nat × Bool :=
  ((p.attempt 2).units, (p.attempt 2).tariffCharge, (p.attempt 2).unitTimer, (p.account 6).total, (p.account 6).blocked)

theorem test_answer_starts_unit_one :
    effect (.answerToneDetected 2) (at_ example98) figures
      = some ((1, 52, some 30720, 1042, false), [.answered 2 .outward (some 14)]) := by decide +kernel

/-- The example before its second unit. -/
def answered98 : Chip := example98.onAttempt 2 fun a =>
  { a with answered := true, zone := some 3, units := 1, tariffCharge := 52, billed := 52, unitTimer := some 0 }

theorem test_unit_two_crosses_the_budget :
    effect (.unitTimerExpiry 2) (at_ (answered98.onAccount 6 fun a => { a with total := 1042 })) figures
      = some ((2, 64, some 30720, 1054, true), [.budgetReached 6 1054 1050]) := by decide +kernel
theorem test_zone_of_the_longest_prefix :
    let t : Tariff := { Tariff.null with prefixes := [⟨[0], 2⟩, ⟨[0, 0], 9⟩, ⟨[0, 4, 4], 5⟩, ⟨[0, 4, 4, 3], 6⟩] }
    (t.zoneOf (numberPart [9, 12, 0, 4, 4, 2, 0, 7, 5, 5, 1] 1), t.zoneOf (numberPart [9, 12, 0, 4, 11, 2, 0, 7, 5, 5, 1] 1))
      = (5, 2) := by decide +kernel

/-! ## Lines -/

/-- A dialling line with its symbols. -/
def dialling (dial : List Nat) (pulse : Bool) (phase : DialPhase) : State :=
  at_ (part.onLine 1 fun l => { l with
    state := .dialling, dir := .outward, dial := dial, phase := phase, hook := true, cfg := { l.cfg with pulse := pulse } })

/-- A line's phase, phase timer, HOOK, TONE_ON and DIGIT. -/
def dialled (p : Chip) : DialPhase × Option Nat × Bool × Bool × Nat :=
  let l := p.line 1
  (l.phase, l.phaseTimer, l.hook, l.toneOn, l.digit)

theorem test_first_ring_burst :
    effect (.ringBurst 1) (at_ part) (fun p => ((p.line 1).state, (p.line 1).dir, (p.line 1).bursts))
      = some ((.ringing, .inward, 1), [.ring 1 1]) := by decide +kernel
theorem test_ring_absent_starts_the_end_timer :
    (after (.ringAbsent 1) (at_ (part.lineAt 1 .ringing .inward))).map (fun p => (p.line 1).ringEnd) = some (some 8192) := by
  decide +kernel
theorem test_ring_end_stops_ringing :
    effect (.ringEndTimerExpiry 1) (at_ (part.onLine 1 fun l => { l with state := .ringing, bursts := 4, ringEnd := some 0 }))
      (fun p => (p.line 1).state) = some (.idle, [.ringStopped 1 4]) := by decide +kernel
theorem test_settle_without_loop_is_dead :
    (effect (.settleTimerExpiry 1 false) (at_ (part.onLine 1 fun l => { l with
      state := .seizing, dir := .outward, settle := some 0, dead := 254 })) fun p => ((p.line 1).state, (p.line 1).dead))
      = some ((.releasing, 255), [.lineFault 1 255]) := by decide +kernel
theorem test_dial_tone_starts_the_first_tone :
    (after (.dialToneDetected 1) (at_ (part.onLine 1 fun l => { l with state := .awaitTone, dial := [10] }))).map dialled
      = some (.toneOn, some 100, false, true, 11) := by decide +kernel
theorem test_tone_on_then_off :
    (after (.toneOnExpiry 1) (dialling [0] false .toneOn)).map dialled = some (.toneOff, some 100, true, false, 0) := by
  decide +kernel
theorem test_tone_off_takes_the_next_symbol :
    (after (.toneOffExpiry 1) (dialling [0, 0] false .toneOff)).map dialled = some (.toneOn, some 100, true, true, 10) := by
  decide +kernel
theorem test_break_then_make :
    (after (.pulseBreakEnd 1) (at_ ((dialling [2] true (.breaking 1)).chip.onLine 1 fun l => { l with hook := false }))).map
      dialled = some (.making 1, some (64 * 39), true, false, 0) := by decide +kernel
theorem test_make_then_next_break :
    (after (.pulseMakeEnd 1) (dialling [2] true (.making 1))).map dialled
      = some (.breaking 0, some (64 * 63), false, false, 0) := by decide +kernel
theorem test_gap_ends_the_last_digit :
    (after (.interDigitGapExpiry 1) (dialling [2] true .gap)).map (fun p => ((p.line 1).state, (p.line 1).stateTimer))
      = some (.awaitAnswer, some (45 * 1024)) := by decide +kernel
theorem test_pause_is_passed :
    (after (.pauseExpiry 1) (dialling [12, 12] false .pause)).map (fun p => ((p.line 1).pos, (p.line 1).stateTimer))
      = some (1, some 2048) := by decide +kernel
theorem test_loop_loss_releases :
    (after (.loopLoss 1) (at_ (part.lineAt 1 .dialling .outward))).map
      (fun p => ((p.line 1).state, (p.line 1).cause, (p.line 1).stateTimer)) = some (.releasing, some .lineLost, some 2048) := by
  decide +kernel
theorem test_busy_tone_releases :
    (after (.busyToneDetected 1) (at_ (part.lineAt 1 .awaitAnswer .outward))).map (fun p => (p.line 1).cause)
      = some (some .busy) := by decide +kernel
theorem test_dial_tone_wait_releases :
    (after (.dialToneWaitExpiry 1) (at_ (part.lineAt 1 .awaitTone .outward))).map (fun p => (p.line 1).cause)
      = some (some .noTone) := by decide +kernel
theorem test_answer_wait_releases :
    (after (.answerWaitExpiry 1) (at_ (part.lineAt 1 .awaitAnswer .outward))).map (fun p => (p.line 1).cause)
      = some (some .noAnswer) := by decide +kernel
theorem test_meter_pulse_posts_its_value :
    (after (.meterPulse 2) (at_ (answered98.onAttempt 2 fun a => { a with meterPulses := true, meterValue := 25 }))).map
      (fun p => ((p.attempt 2).pulses, (p.account 6).total)) = some (1, 1015) := by decide +kernel
theorem test_guard_frees_the_line :
    effect (.guardExpiry 1) (at_ ((part.lineAt 1 .releasing .inward).onLine 1 fun l => { l with cause := some .normal }))
      (fun p => ((p.line 1).state, (p.line 1).dir)) = some ((.idle, .none), [.released 1 .inward .normal]) := by decide +kernel

/-! ## Requests -/

theorem test_aperture_set_binds_scan :
    effect (.apertureSet 7 2 1 0 0 0x100000 128 4 0)
      (asked part 1 [(4, 1, 2), (5, 1, 1), (8, 4, 0x100000), (12, 2, 128), (14, 1, 4)]) (fun p => (p.ing 0).ring)
      = some (some (inRing .empty), [.done 7 1 .ok 0]) := by decide +kernel
theorem test_aperture_clear_unbinds :
    effect (.apertureClear 7 2) (asked (scanning .empty) 2 [(4, 1, 2)]) (fun p => ((p.ing 0).ring, p.aperture 2))
      = some ((none, none), [.done 7 2 .ok 0]) := by decide +kernel
theorem test_master_set :
    effect (.masterSet 7 15 1) (asked part 3 [(4, 1, 15), (5, 1, 1)]) (fun p => tget p.path.ordered 15)
      = some (false, [.done 7 3 .ok 0]) := by decide +kernel
theorem test_share_set :
    effect (.shareSet 7 2) (asked contended 4 [(4, 1, 2)]) (fun p => (p.mport.share, p.mport.turnCount))
      = some ((.oneThree, 0), [.done 7 4 .ok 0]) := by decide +kernel
theorem test_route_set :
    effect (.routeSet 7 6 2) (asked part 5 [(4, 1, 6), (5, 1, 2)]) (fun p => p.route .path)
      = some (.int1, [.done 7 5 .ok 0]) := by decide +kernel
theorem test_store_set :
    effect (.storeSet 7 0x4000000 1 16 24) (asked part 6 [(4, 4, 0x4000000), (8, 1, 1), (10, 2, 16), (12, 2, 24)])
      (fun p => (p.store.pool.length, p.store.lowMark)) = some ((1024, 24), [.done 7 6 .ok 1024]) := by decide +kernel

/-- The store of 02 2.5 before step 7: document 5 has pages with chains 3, 4, 5 and 10. -/
def store25 : Chip := (((stored (List.range' 1009 15)).withDoc 5 (complete [0, 1])).onPage 0
  fun x => { x with st := .closed, chain := [3, 4, 5] }).onPage 1 fun x => { x with st := .closed, chain := [10] }

theorem test_delete_returns_the_blocks :
    effect (.delete 7 5) (asked store25 7 [(4, 1, 5)]) (fun p => (p.store.pool.length, p.store.pool.take 4))
      = some ((19, [3, 4, 5, 10]), [.docFreed 5 2 4, .done 7 7 .ok 0]) := by decide +kernel
theorem test_delete_of_a_held_document :
    effect (.delete 7 5) (asked (store25.onDoc 5 fun d => { d with holds := 2 }) 7 [(4, 1, 5)]) (fun p => (p.doc 5).st)
      = some (.doomed, [.done 7 7 .ok 2]) := by decide +kernel
theorem test_report_documents_takes_the_first :
    (after (.reportDocuments 7 0 0x3000) (asked store25 8 [(8, 4, 0x3000)])).map (fun p => p.mport.records)
      = some [.reportRecord 0x3000 [5, 2, 0, 6, 2, 0, 0, 0, 0, 0, 0, 0, 0, 0, 0, 0], .word .consumer] := by decide +kernel
theorem test_report_pages_of_a_free_document :
    effect (.reportPages 7 9 0x3000) (asked store25 8 [(4, 1, 1), (5, 1, 9), (8, 4, 0x3000)]) (fun _ => ())
      = some ((), [.done 7 8 .notFound 0]) := by decide +kernel
theorem test_report_accounts_misaligned :
    effect (.reportAccounts 7 0x3002) (asked part 8 [(4, 1, 2), (8, 4, 0x3002)]) (·.req.report)
      = some (none, [.done 7 8 .badField 0]) := by decide +kernel
theorem test_report_calls_of_none :
    effect (.reportCalls 7 0x3000) (asked part 8 [(4, 1, 3), (8, 4, 0x3000)]) (·.req.report)
      = some (none, [.done 7 8 .ok 0]) := by decide +kernel
theorem test_report_lines_begins :
    (after (.reportLines 7 0x3000) (asked part 8 [(4, 1, 4), (8, 4, 0x3000)])).map (fun p => p.mport.records)
      = some [.reportRecord 0x3000 [0, 0, 0, 0xFF, 0, 0, 0, 0, 0, 0, 0, 0, 0, 0, 0, 0], .word .consumer] := by decide +kernel
theorem test_scan_begin :
    effect (.scanBegin 7 6 1 512) (asked (scanning .empty) 9 [(4, 1, 6), (5, 1, 1), (6, 2, 512)])
      (fun p => ((p.ing 0).phase, (p.doc 0).st, (p.doc 0).desk)) = some ((.ready, .opened, 6), [.done 7 9 .ok 0]) := by
  decide +kernel
theorem test_ingest_stop_of_an_idle_context :
    effect (.ingestStop 7 0 0) (asked (scanning .empty) 10 []) (fun _ => ()) = some ((), [.done 7 10 .state 0]) := by
  decide +kernel
theorem test_ingest_set :
    effect (.ingestSet 7 4 255) (asked part 11 [(4, 1, 4), (5, 1, 255)]) (fun p => (p.ing 4).poorLimit)
      = some (255, [.done 7 11 .ok 0]) := by decide +kernel
theorem test_print_setup :
    effect (.printSetup 7 512 1 60) (asked (printing .empty) 12 [(4, 2, 512), (6, 1, 1), (7, 1, 60)])
      (fun p => (p.print.setup, p.print.stallSeconds)) = some ((some (512, 1), 60), [.done 7 12 .ok 0]) := by decide +kernel
theorem test_print_copies_are_brought_in_range :
    (after (.print 7 5 1 0 200) (asked { (printing .empty).withDoc 5 { complete [] with st := .opened } with
      print := { part.print with setup := some (512, 1) } } 13 [(4, 1, 5), (5, 1, 1), (7, 1, 200)])).map
      (fun p => ((p.job 0).copies, (p.doc 5).holds)) = some (99, 1) := by decide +kernel
theorem test_print_cancel_of_a_queued_job :
    effect (.printCancel 7 15) (asked ({ part.withDoc 5 (complete []) with
      print := { part.print with queue := [15] } }.onJob 15 fun x => { x with st := .queued, doc := 5 }) 14 [(4, 1, 15)])
      (fun p => (p.print.queue, (p.job 15).st)) = some (([], .free), [.printDone 15 5 0 true false false false, .done 7 14 .ok 0]) := by
  decide +kernel
/-- The record of a LINE_SET of line 3 that every check passes. -/
def lineSetFields : List Field :=
  [(4, 1, 3), (5, 1, 1), (6, 1, 64), (7, 1, 50), (8, 1, 50), (9, 1, 128), (10, 2, 768), (12, 2, 100), (14, 2, 101), (16, 1, 3),
   (17, 1, 5), (18, 1, 45), (19, 1, 6), (20, 2, 205), (22, 1, 20), (23, 1, 8), (24, 2, 2048), (26, 2, 25)]

theorem test_line_set_judges_a_present_mp :
    effect (.lineSet 7 (lineSetBody (record 15 lineSetFields))) (asked (part.onLine 3 fun l => { l with mpQ := ⟨true, 20⟩ }) 15
      lineSetFields) (fun p => ((p.line 3).cfg.meterQualify, (p.line 3).mpQ, p.due)) = some ((20, ⟨false, 0⟩, []), [.done 7 15 .ok 0]) := by
  decide +kernel
theorem test_line_set_in_use :
    effect (.lineSet 7 (lineSetBody (record 15 []))) (asked part 15 []) (fun _ => ()) = some ((), [.done 7 15 .badField 0]) := by
  decide +kernel
theorem test_answer_goes_off_hook :
    effect (.answer 7 1) (asked (part.lineAt 1 .ringing .inward) 16 [(4, 1, 1)])
      (fun p => ((p.line 1).state, (p.line 1).hook, (p.line 1).settle)) = some ((.answering, true, some 64), [.done 7 16 .ok 0]) := by
  decide +kernel
theorem test_connect_rx_without_a_ring :
    effect (.connectRx 7 1 0 1728 1 6) (asked ((stored [3]).lineAt 1 .answered .inward) 17
      [(4, 1, 1), (6, 2, 1728), (8, 1, 1), (9, 1, 6)]) (fun p => (p.line 1).state) = some (.answered, [.done 7 17 .state 0]) := by
  decide +kernel
theorem test_connect_tx_of_an_incoming_call :
    effect (.connectTx 7 1 1728 1) (asked (part.lineAt 1 .answered .inward) 17 [(4, 1, 1), (5, 1, 1), (6, 2, 1728), (8, 1, 1)])
      (fun _ => ()) = some ((), [.done 7 17 .state 0]) := by decide +kernel
theorem test_page_result_outside_page_wait :
    effect (.pageResult 7 3 2) (asked part 18 [(4, 1, 3), (5, 1, 2)]) (fun _ => ()) = some ((), [.done 7 18 .state 0]) := by
  decide +kernel
theorem test_release_logs_the_call :
    effect (.release 7 2 6) (asked (answered98.onAttempt 2 fun a => { a with units := 4, billed := 80, duration := 145 }) 19
      [(4, 1, 2), (5, 1, 6)]) (fun p => ((p.line 2).state, p.charge.logSeq, (p.attempt 2).opened))
      = some ((.releasing, 1, false), [.attemptEnded 2 .normal 0 80 145 (some 14), .callEnded 14 .partialSent 1 0 0 6, .done 7 19 .ok 0]) := by
  decide +kernel
/-- A CALL of desk 6 for document 5 on line 0, its retry interval 5 s, not before second 100. -/
def callFields : List Field :=
  [(4, 1, 6), (5, 1, 5), (6, 1, 1), (9, 1, 3), (10, 2, 5), (12, 1, 1), (14, 1, 2), (15, 1, 1), (16, 4, 100), (24, 1, 0x12)]

theorem test_call_takes_the_lowest_record :
    effect (.call 7 (callBody (record 21 callFields))) (asked (part.withDoc 5 (complete [])) 21 callFields)
      (fun p => ((p.callRec 0).dest, (p.callRec 0).retry, (p.callRec 0).ready, (p.doc 5).holds))
      = some (([1, 2], 10, 100, 1), [.done 7 21 .ok 0]) := by decide +kernel
theorem test_call_cancel_of_a_free_record :
    effect (.callCancel 7 31) (asked part 22 [(4, 1, 31)]) (fun _ => ()) = some ((), [.done 7 22 .notFound 0]) := by
  decide +kernel
theorem test_outgoing_limit :
    effect (.outgoingLimit 7 4) (asked part 20 [(4, 1, 4)]) (·.calls.limit) = some (4, [.done 7 20 .ok 4]) := by decide +kernel
theorem test_seed_of_zero :
    effect (.seed 7 0) (asked part 23 []) (·.calls.lfsr) = some (1, [.done 7 23 .ok 1]) := by decide +kernel
theorem test_set_clock :
    effect (.setClock 7 86399 6) (asked part 24 [(4, 4, 86399), (8, 1, 6)]) (fun p => (p.charge.day, p.charge.second))
      = some ((6, 86399), [.done 7 24 .ok 0]) := by decide +kernel
theorem test_holiday :
    effect (.holiday 7 1) (asked part 25 [(4, 1, 1)]) (·.charge.dayType) = some (2, [.done 7 25 .ok 0]) := by decide +kernel
theorem test_tariff_commit_issues_its_first_read :
    (after (.tariffCommit 7 0x3000) (asked part 26 [(4, 4, 0x3000)])).map (·.mport.records)
      = some [.tariffRead 0x3000 64, .word .consumer] := by decide +kernel
theorem test_account_set_blocks :
    effect (.accountSet 7 6 990) (asked example98 27 [(4, 1, 6), (8, 4, 990)]) (fun p => (p.account 6).blocked)
      = some (true, [.done 7 27 .ok 1]) := by decide +kernel
theorem test_account_clear :
    effect (.accountClear 7 6) (asked example98 28 [(4, 1, 6)]) (fun p => ((p.account 6).total, (p.account 6).limit))
      = some ((0, 1050), [.done 7 28 .ok 990]) := by decide +kernel
theorem test_log_set :
    effect (.logSet 7 0x3000 16) (asked part 29 [(4, 4, 0x3000), (8, 2, 16)]) (·.charge.log)
      = some (some ⟨0x3000, 16, 0⟩, [.done 7 29 .ok 0]) := by decide +kernel
theorem test_unknown_kind :
    effect (.unknownKind 7 31) (asked part 31 []) (fun _ => ()) = some ((), [.done 7 31 .badKind 0]) := by decide +kernel

/-! ## Witnesses: states and operands that meet the hypotheses of the statements, clause by clause -/

theorem witness_StepRunsTheFrontCommand : (⟨[.arbiterGrant, .clockAdvance], [], part⟩ : State).pending
    = .arbiterGrant :: [.clockAdvance] := by decide +kernel

theorem witness_EmptyQueueLetsTimePass :
    State.reset.pending = [] ∧ State.reset.chip.due = []
    ∧ Chip.due { part with charge := { part.charge with tick := 1024 } } = [.clockAdvance]
    ∧ 2 ≤ (Chip.due ({ part with charge := { part.charge with tick := 1024 } }.onAttempt 3 fun a =>
        { a with unitTimer := some 0 })).length
    ∧ State.reset.chip.subTick + 1 < 64 ∧ 64 ≤ ({ part with subTick := 63 } : Chip).subTick + 1
    ∧ (Chip.holding part (.record (.word .clock))).mport.busy = some (.record (.word .clock))
    ∧ PortOp.rowless (.record (.word .clock)) = true ∧ memWf (at_ part).mem = true := by decide +kernel

theorem witness_HardwareResetSetsTheResetState :
    0x3000 ∉ Chip.writingBytes (Chip.holding contended .drain)
    ∧ 0x2000 ∈ Chip.writingBytes (Chip.holding contended .drain)
    ∧ 0x2001 ∉ Chip.writingBytes (Chip.holding contended .drain)
    ∧ (∀ a ∈ [0x1820, 0x1823], a ∈ Chip.writingBytes (Chip.holding part (.record (.word .logNext))))
    ∧ (∀ a ∈ [0x3000, 0x303F], a ∈ Chip.writingBytes (Chip.holding part (.record (.logEntry 0x3000 (List.replicate 64 0)))))
    ∧ 0x3040 ∉ Chip.writingBytes (Chip.holding part (.record (.logEntry 0x3000 (List.replicate 64 0)))) := by decide +kernel

theorem witness_WarmRestartKeepsTheConfiguration :
    (asked part 30 []).served (.warmRestart 7) = true
    ∧ (asked { part with req := { part.req with restart := some ⟨1, [0]⟩ } } 30 []).chip.req.restart.isSome = true
    ∧ (∀ c, c < 5 → (part.ing c).phase = .idle) ∧ (part.onIng 4 fun x => { x with stop := some ⟨true, .noRequest, 0⟩ }).req.restart = none
    ∧ ((part.lineAt 3 .connected .outward).line 3).state ∉ [LineState.idle, .ringing, .releasing]
    ∧ ((part.lineAt 0 .releasing).line 0).state = .releasing
    ∧ ((part.lineAt 0 .ringing .inward).line 0).state = .ringing
    ∧ (∀ m, m < 4 → ((part.lineAt 0 .ringing .inward).line m).dir ≠ .outward)
    ∧ part.req.restart = none ∧ part.print.queue = []
    ∧ ({ part with print := { part.print with queue := [0, 15] } } : Chip).print.queue.head? ≠ some 15
    ∧ ((part.onJob 15 fun x => { x with st := .finishing, deferred := true }).job 15).st = .finishing
    ∧ (let l := (part.onLine 3 fun l => { l with state := .connected, dir := .outward, conn := .tx }).line 3
       l.state = .connected ∧ l.conn = .tx) := by decide +kernel

theorem witness_RefusedTransactionsFault :
    part.path.held = none ∧ 64 < (write 60 [word 1, word 2]).addr.toNat % 64 + 4 * 2
    ∧ malformed (write 0x1800 [word 1, word 2]) = false
    ∧ wordsAt 0x1800 [word 1, word 2] = [(0x1800, word 1)] ++ (0x1804, word 2) :: []
    ∧ partOwned (0x1804 - part.path.strap * 8192) = true ∧ partOwned (0x1800 - part.path.strap * 8192) = false
    ∧ ((stored []).store.configured = true ∧ (stored []).store.base ≤ 0x40FFFFC
        ∧ 0x40FFFFC < (stored []).store.base + (stored []).store.blocks * 1024 ∧ malformed (write 0x40FFFFC [word 1]) = false)
    ∧ (printing .empty).matchAperture 0x2001FC = some (3, ap 0x200000 .printRing)
    ∧ (0x2001FC - 0x200000) / 128 < 4 ∧ malformed (write 0x2001FC [word 1]) = false
    ∧ ({ part with path := { part.path with held := some ⟨0, 1, 3, none, [], false⟩ } } : Chip).path.held.isSome = true := by
  decide +kernel

theorem witness_PlainTrafficIsPostedOrHeld :
    part.path.held = none ∧ malformed (write 0x2000 [word 1]) = false ∧ part.handling 0x2000 = .plain
    ∧ part.handling 0x1FFC = .control ∧ malformed (write 0x1FFC [word 1]) = false
    ∧ (∀ x ∈ wordsAt 0x1800 [word 1], partOwned (x.1 - part.path.strap * 8192) = false ∨ x.2.enables = 0)
    ∧ part.handling 0x1800 = .control
    ∧ contended.path.held = none ∧ malformed (read 0x2000 8) = false ∧ contended.handling 0x2000 = .plain
    ∧ malformed (read 0x1FFC 1) = false ∧ contended.handling 0x1FFC = .control
    ∧ (stored []).handling 0x4000000 = .store ∧ (stored []).path.held = none ∧ malformed (read 0x1001FC 1) = false
    ∧ (scanning .filled).handling 0x1001FC = .ingest 2 0 3 (ap 0x100000 .scanRing)
    ∧ (scanning .filled).path.held = none := by decide +kernel

theorem witness_RingSlotsHoldOffTraffic :
    malformed (write 0x1001FC [word 1]) = false
    ∧ (scanning .filled).handling 0x1001FC = .ingest 2 0 3 (ap 0x100000 .scanRing)
    ∧ ((inRing .filled).slot 3).st ≠ .empty ∧ ((scanning .filled).ing 0).ring = some (inRing .filled)
    ∧ ((inRing .empty).slot 3).st = .empty ∧ ((inRing .empty).slot 3).posted = false
    ∧ (scanning .coding true).handling 0x100000 = .ingest 2 0 0 (ap 0x100000 .scanRing true)
    ∧ coversTag false (ap 0x100000 .scanRing) 3 0x1001FC [word 1] = true
    ∧ (printing .ready).handling 0x2001FC = .render 0 3 (ap 0x200000 .printRing)
    ∧ ((outRing .ready).slot 3).st = .ready ∧ ((printing .ready).ren 0).ring = some (outRing .ready)
    ∧ ((outRing .writing).slot 3).st ≠ .ready ∧ malformed (read 0x2001FC 1) = false
    ∧ (let full : Chip := { scanning .empty with path := { (scanning .empty).path with
         posted := List.replicate 8 ⟨0x2000, [word 1], 3, .none⟩ } }
       8 ≤ full.path.posted.length ∧ full.path.held = none
       ∧ full.handling 0x1001FC = .ingest 2 0 3 (ap 0x100000 .scanRing) ∧ (full.ing 0).ring = some (inRing .empty)) := by
  decide +kernel

theorem witness_DrainWritesTheEnabledBytes :
    memWf (memWriteBytes [] 0x2000 [9, 0, 9]) = true ∧ (Chip.holding contended .drain).mport.busy = some .drain
    ∧ contended.path.posted = ⟨0x2000, [⟨0x11223344, 5⟩], 3, .none⟩ :: [] := by decide +kernel

/-- The part with a write of one index word at its drain. -/
def indexing (offset v : Nat) (watch : Watch) (lost : Nat := 0) : Chip := Chip.holding { part with
  path := { part.path with posted := [⟨offset, [word v], 3, watch⟩] }
  notices := { part.notices with pn := 127, lost := lost } } .drain

theorem witness_IndexWordsTakeEffectAtTheirDrain :
    (indexing 0x1800 64 .producer).mport.busy = some .drain
    ∧ (indexing 0x1800 64 .producer).controlWord 0x1800 [word 64] 0x1800 = some (word 64)
    ∧ (64 + 65536 - part.req.consumer) % 65536 ≤ 64 ∧ 64 < (65 + 65536 - part.req.consumer) % 65536
    ∧ (indexing 0x180C 0 .consumer).controlWord 0x180C [word 0] 0x180C = some (word 0)
    ∧ ((127 + 65536 - 0) % 65536 < 128 ∧ 0 < (indexing 0x180C 0 .consumer 1).notices.lost)
    ∧ ((127 + 65536 - 65535) % 65536 = 128) ∧ 128 < (127 + 65536 - 65534) % 65536
    ∧ part.controlWord 0x1800 [word 64, ⟨0, 0⟩, ⟨0, 0⟩, word 1] 0x1800 = some (word 64)
    ∧ part.controlWord 0x1800 [word 64, ⟨0, 0⟩, ⟨0, 0⟩, word 1] 0x180C = some (word 1) := by decide +kernel

/-- SCAN with a completing write of slot 3 at its drain, its slots in a state. -/
def slotDraining (st : IngestSlotState) (phase : IngestPhase) : Chip := Chip.holding
  { (scanning st).onIng 0 fun x => { x with phase := phase } with
    path := { (scanning st).path with posted := [⟨0x1001FC, [word 1], 3, .slot 2 0 3 true⟩] } } .drain

theorem witness_IngestSlotDrainActsOnTheRing :
    (slotDraining .empty .ready).mport.busy = some .drain
    ∧ (slotDraining .empty .ready).path.posted = ⟨0x1001FC, [word 1], 3, .slot 2 0 3 true⟩ :: []
    ∧ (∀ st ∈ [IngestSlotState.empty, .filled, .coding],
        ((slotDraining st .ready).freePort.dropOldest.ing 0).ring = some (inRing st) ∧ ((inRing st).slot 3).st = st)
    ∧ ((inRing .coding).slot 3).readServed = false
    ∧ (((inRing .coding).setSlot 3 ⟨.coding, true, true, false⟩).slot 3).readServed = true
    ∧ ((slotDraining .filled .idle).ing 0).phase = .idle ∧ ((slotDraining .filled .page).ing 0).phase = .page
    ∧ ((scanning .filled).ing 0).phase = .idle ∧ ((scanning .filled).ing 0).stop = none
    ∧ ((scanning .filled).ing 0).tasks = [] ∧ ((scanning .filled).ing 0).reading = false
    ∧ ((inRing .filled).slot (inRing .filled).next).st = .filled ∧ ((inRing .empty).slot (inRing .empty).next).st ≠ .filled
    ∧ (reading.ing 0).phase = .ready ∧ (reading.ing 0).reading = true := by decide +kernel

theorem witness_served_reads_return_memory :
    let reads (slot : Option (Nat × Nat × Bool)) : Chip := Chip.holding { printing .ready with
      path := { (printing .ready).path with held := some ⟨0x20007C, 1, 3, slot, [], false⟩ } } .read
    (reads none).mport.busy = some .read ∧ (reads none).path.held = some ⟨0x20007C, 1, 3, none, [], false⟩
    ∧ (reads (some (0, 0, false))).path.held = some ⟨0x20007C, 1, 3, some (0, 0, false), [], false⟩
    ∧ (reads (some (0, 0, true))).path.held = some ⟨0x20007C, 1, 3, some (0, 0, true), [], false⟩ := by decide +kernel

/-- A completing read of print slot 3, which carries END_DOC with sequence number 9, at the port. -/
def consuming (st : RenderSlotState) (j : JobState) : Chip := Chip.holding
  { ((printing st).onRen 0 fun x => { x with
      ring := some { outRing st with slots := List.replicate 4 ⟨st, false, ⟨false, false, true, false⟩, 9⟩ } }).onJob 15
        fun x => { x with st := j, endSequence := 9 } with
    path := { part.path with held := some ⟨0x2001FC, 1, 3, some (0, 3, true), [], false⟩ } } .read

theorem witness_ServedReadReturnsMemoryAndConsumes :
    (consuming .ready .finishing).mport.busy = some .read
    ∧ (consuming .ready .finishing).path.held = some ⟨0x2001FC, 1, 3, some (0, 3, true), [], false⟩
    ∧ (((consuming .ready .finishing).ren 0).ring.map fun r => ((r.slot 3).st, (r.slot 3).markers.endDoc, (r.slot 3).sequence))
      = some (.ready, true, 9)
    ∧ ((consuming .ready .finishing).job 15).st = .finishing ∧ ((consuming .ready .finishing).job 15).endSequence = 9
    ∧ (∀ i, i < 15 → ((consuming .ready .finishing).job i).st ≠ .finishing)
    ∧ (∀ j, j < 16 → ((consuming .ready .queued).job j).st ≠ .finishing)
    ∧ (((consuming .empty .finishing).ren 0).ring.map fun r => (r.slot 3).st) = some .empty := by decide +kernel

theorem witness_GrantsFollowTheTurn :
    let op : EngineOp := .blockRead 1 0 0x4000000
    let engine : Chip := { part with mport := { part.mport with scanOps := [op] } }
    contended.mport.busy = none ∧ contended.throughWaiting = some .drain
    ∧ contended.engineGrant = some (.record (.word .lineStates), { contended.mport with records := [] })
    ∧ contended.mport.turn = .through
    ∧ ({ contended with mport := { contended.mport with turn := .engine, turnCount := 0 } } : Chip).mport.turn = .engine
    ∧ (Chip.holding contended .drain).mport.busy.isSome = true
    ∧ (({ contended with mport := part.mport } : Chip).throughWaiting = some .drain
        ∧ ({ contended with mport := part.mport } : Chip).engineGrant = none)
    ∧ engine.throughWaiting = none ∧ engine.engineGrant = some (.engine op, part.mport)
    ∧ PortOp.rowless (.engine op) = false ∧ PortOp.rowless .drain = false
    ∧ (Chip.holding contended (.record (.word .lineStates))).mport.busy = some (.record (.word .lineStates))
    ∧ PortOp.rowless (.record (.word .lineStates)) = true ∧ memWf (at_ contended).mem = true
    ∧ part.throughWaiting = none ∧ part.engineGrant = none := by decide +kernel

theorem witness_WaitingOperationsKeepTheirOrder :
    let op : EngineOp := .blockRead 1 0 0x4000000
    let line (n last : Nat) : Chip := { part with mport := { part.mport with
      lineOps := tset part.mport.lineOps n [op], lastLine := last } }
    let held (waits : List Nat) (behind : Bool) : Chip := { contended with
      path := { contended.path with held := some ⟨0x2000, 1, 3, none, waits, behind⟩ } }
    contended.mport.records = .word .lineStates :: []
    ∧ (tget (line 2 2).mport.lineOps ((2 + 4) % 4) = [op] ∧ (line 2 2).mport.records = []
        ∧ ∀ j, j < 4 → 1 ≤ j → tget (line 2 2).mport.lineOps ((2 + j) % 4) = [])
    ∧ tget (line 0 3).mport.lineOps ((3 + 1) % 4) = [op]
    ∧ (∀ n, n < 4 → tget part.mport.lineOps n = []) ∧ part.mport.records = [] ∧ part.mport.scanOps = []
    ∧ ({ part with mport := { part.mport with scanOps := [op] } } : Chip).mport.scanOps = op :: []
    ∧ ({ part with mport := { part.mport with printOps := [op] } } : Chip).mport.printOps = op :: []
    ∧ (held [0] false).throughWaiting = some .drain ∧ (held [] false).throughWaiting = some .read
    ∧ (held [] true).throughWaiting = some .drain ∧ part.throughWaiting = none ∧ contended.throughWaiting = some .drain := by
  decide +kernel

theorem witness_StatusWordsAndInterruptsFollowTheState :
    (∀ w ∈ [StatusWord.consumer, .lost, .freeBlocks, .clock, .lineStates, .logNext],
      (at_ (Chip.holding contended (.record (.word w)))).chip.mport.busy = some (.record (.word w)))
    ∧ (Chip.holding part (.record (.notice 127 (.lost 1)))).mport.busy = some (.record (.notice 127 (.lost 1)))
    ∧ (Chip.holding part (.record (.logEntry 0x3000 [1]))).mport.busy = some (.record (.logEntry 0x3000 [1]))
    ∧ (at_ part).pending = [] ∧ memWf (at_ part).mem = true
    ∧ (Chip.holding part (.record (.noticeProducer 65535))).mport.busy = some (.record (.noticeProducer 65535))
    ∧ part.notices.pd = part.notices.cn := by decide +kernel

/-- Records of every kind with a field at the first value out of its range (11.5). -/
def badRecords : List (Nat × List Field) :=
  [(1, [(4, 1, 12)]), (1, [(5, 1, 5)]), (1, [(6, 1, 13)]), (2, [(4, 1, 12)]), (3, [(4, 1, 16)]), (3, [(5, 1, 2)]),
   (4, [(4, 1, 3)]), (5, [(4, 1, 7)]), (5, [(5, 1, 3)]), (6, [(4, 4, 1), (8, 1, 1)]), (6, [(8, 1, 33)]),
   (6, [(8, 1, 1), (10, 2, 1024)]), (7, [(4, 1, 64)]), (8, [(4, 1, 5)]), (8, [(8, 4, 2)]), (8, [(4, 1, 1), (8, 4, 1)]),
   (8, [(4, 1, 2), (8, 4, 1)]), (8, [(4, 1, 3), (8, 4, 1)]), (8, [(4, 1, 4), (8, 4, 1)]), (9, [(4, 1, 64)]),
   (9, [(5, 1, 3), (6, 2, 512)]), (9, [(5, 1, 1), (6, 2, 2464)]), (10, [(4, 1, 5)]), (10, [(5, 1, 2)]), (11, []),
   (11, [(4, 1, 5), (5, 1, 1)]), (12, [(4, 2, 480), (6, 1, 1), (7, 1, 1)]), (12, [(4, 2, 512), (6, 1, 1), (7, 1, 61)]),
   (13, [(4, 1, 64), (5, 1, 1)]), (13, []), (13, [(5, 1, 2), (6, 1, 1)]), (14, [(4, 1, 16)]), (15, []), (16, [(4, 1, 4)]),
   (17, [(4, 1, 4)]), (17, [(5, 1, 2)]), (17, [(4, 1, 4), (5, 1, 1)]), (18, [(4, 1, 4)]), (18, [(5, 1, 3)]),
   (19, [(4, 1, 4), (5, 1, 6)]), (19, [(5, 1, 5)]), (19, [(5, 1, 10)]), (20, [(4, 1, 5)]), (21, []), (22, [(4, 1, 32)]),
   (23, [(4, 2, 1024)]), (24, [(8, 1, 7)]), (24, [(4, 4, 86400)]), (25, [(4, 1, 2)]), (26, [(4, 4, 2)]), (27, [(4, 1, 64)]),
   (28, [(4, 1, 64)]), (29, [(8, 2, 15)]), (29, [(8, 2, 4097)]), (29, [(4, 4, 32), (8, 2, 16)])]

theorem witness_RefusedRequestsHaveNoEffect :
    ((asked part 31 []).served (.unknownKind 7 31) = true ∧ (asked part 65535 []).served (.unknownKind 7 65535) = true)
    ∧ (requestCommand (.seed 7 1) = true ∧ (asked part 31 []).served (.seed 7 1) = false)
    ∧ ∀ x ∈ badRecords, (fieldsRefused (decodeRequest (record x.1 x.2))).map (·.2) = some x.1
      ∧ (asked part x.1 x.2).served (decodeRequest (record x.1 x.2)) = true := by decide +kernel

theorem witness_SettingsAreTaken :
    (asked part 4 [(4, 1, 2)]).served (.shareSet 7 2) = true ∧ (asked part 4 [(4, 1, 3)]).served (.shareSet 7 3) = true
    ∧ (asked part 3 [(4, 1, 15), (5, 1, 1)]).served (.masterSet 7 15 1) = true
    ∧ (asked part 5 [(4, 1, 6), (5, 1, 2)]).served (.routeSet 7 6 2) = true
    ∧ (asked part 20 [(4, 1, 4)]).served (.outgoingLimit 7 4) = true
    ∧ (asked part 20 [(4, 1, 5)]).served (.outgoingLimit 7 5) = true
    ∧ (asked part 24 [(4, 4, 86399), (8, 1, 6)]).served (.setClock 7 86399 6) = true
    ∧ (asked part 25 [(4, 1, 1)]).served (.holiday 7 1) = true ∧ (asked part 25 []).served (.holiday 7 0) = true
    ∧ (asked part 29 []).served (.logSet 7 0 0) = true
    ∧ (asked part 29 [(4, 4, 0xFFFC0000), (8, 2, 4096)]).served (.logSet 7 0xFFFC0000 4096) = true
    ∧ 0xFFFC0000 + 4096 * 64 ≤ 2 ^ 32 ∧ part.protectedOverlap 0xFFFC0000 (4096 * 64) = false
    ∧ (asked part 29 [(4, 4, 0x2000), (8, 2, 16)]).served (.logSet 7 0x2000 16) = true
    ∧ part.protectedOverlap 0x2000 (16 * 64) = false
    ∧ (asked part 29 [(4, 4, 0x3000), (8, 2, 15)]).served (.logSet 7 0x3000 15) = true
    ∧ (asked part 29 [(4, 4, 0x3000), (8, 2, 4097)]).served (.logSet 7 0x3000 4097) = true
    ∧ ((asked part 29 [(4, 4, 0x3020), (8, 2, 16)]).served (.logSet 7 0x3020 16) = true ∧ 0x3020 % 64 ≠ 0)
    ∧ ((asked part 29 [(4, 4, 0xFFFFFC00), (8, 2, 17)]).served (.logSet 7 0xFFFFFC00 17) = true
        ∧ 2 ^ 32 < 0xFFFFFC00 + 17 * 64)
    ∧ ((asked part 29 [(4, 4, 0x1FC0), (8, 2, 16)]).served (.logSet 7 0x1FC0 16) = true
        ∧ 0x1FC0 < part.path.strap * 8192 + 8192 ∧ part.path.strap * 8192 < 0x1FC0 + 16 * 64)
    ∧ ((asked (stored []) 29 [(4, 4, 0x3FFFC40), (8, 2, 16)]).served (.logSet 7 0x3FFFC40 16) = true
        ∧ (stored []).store.configured = true ∧ 0x3FFFC40 < (stored []).store.base + (stored []).store.blocks * 1024
        ∧ (stored []).store.base < 0x3FFFC40 + 16 * 64) := by decide +kernel

theorem witness_ApertureClearUnbinds :
    (asked (scanning .empty) 2 [(4, 1, 2)]).served (.apertureClear 7 2) = true
    ∧ (asked part 2 [(4, 1, 11)]).served (.apertureClear 7 11) = true
    ∧ (scanning .empty).entryActive 2 = false ∧ (scanning .empty).aperture 2 = some (ap 0x100000 .scanRing)
    ∧ ApKind.scanRing.ingestCtx = some 0 ∧ (printing .empty).entryActive 3 = false
    ∧ (printing .empty).aperture 3 = some (ap 0x200000 .printRing) ∧ ApKind.printRing.ingestCtx = none
    ∧ ApKind.printRing.renderCtx = some 0 ∧ part.aperture 11 = none ∧ part.entryActive 11 = false
    ∧ (let p := part.setAperture 11 (some (ap 0x100000 .through))
       p.aperture 11 = some (ap 0x100000 .through) ∧ p.entryActive 11 = false)
    ∧ ((scanning .empty).onIng 0 fun x => { x with phase := .ready }).entryActive 2 = true := by
  decide +kernel

/-- The record of an APERTURE_SET of a SCAN ring at entry 11, and the command it spells. -/
def scanSet : List Field := [(4, 1, 11), (5, 1, 1), (8, 4, 0x100000), (12, 2, 512), (14, 1, 8)]

theorem witness_ApertureSetWritesAndBinds :
    (asked part 1 scanSet).served (.apertureSet 7 11 1 0 0 0x100000 512 8 0) = true ∧ apertureKind 1 0 = some .scanRing
    ∧ part.apertureFields 11 0 0 (newAperture .scanRing 0 0x100000 512 8 0) = true
    ∧ part.entryActive 11 = false ∧ part.kindActive .scanRing = false ∧ part.boundEntry .scanRing = none
    ∧ (scanning .empty).boundEntry .scanRing = some 2
    ∧ ((scanning .empty).onIng 0 fun x => { x with phase := .ready }).kindActive .scanRing = true
    ∧ ((asked part 1 [(4, 1, 11), (5, 1, 5)]).served (.apertureSet 7 11 5 0 0 0 0 0 0) = true ∧ apertureKind 5 0 = none)
    ∧ ((asked part 1 [(4, 1, 11), (5, 1, 1), (8, 4, 0x100000), (12, 2, 512), (14, 1, 1)]).served
          (.apertureSet 7 11 1 0 0 0x100000 512 1 0) = true
        ∧ part.apertureFields 11 0 0 (newAperture .scanRing 0 0x100000 512 1 0) = false)
    ∧ ((asked part 1 [(4, 1, 11)]).served (.apertureSet 7 11 0 0 0 0 0 0 0) = true ∧ apertureKind 0 0 = some .through
        ∧ part.apertureFields 11 0 0 (newAperture .through 0 0 0 0 0) = false) := by decide +kernel

theorem witness_TariffLoadReadsAndCommits :
    (asked part 26 [(4, 4, 0x3000)]).served (.tariffCommit 7 0x3000) = true ∧ part.charge.load = none
    ∧ (loading image).chip.mport.busy = some (.record (.tariffRead 0x33C0 56))
    ∧ (loading image).chip.charge.load = some ⟨7, 0x3000, image.take 960⟩
    ∧ ((image.take 960) ++ memReadBytes (loading image).mem 0x33C0 56).length = 1016
    ∧ imageValid image = true ∧ imageValid (image.set 6 3) = false := by decide +kernel

theorem witness_tariff_image_read : (image.take 960) ++ memReadBytes (loading image).mem 0x33C0 56 = image := by decide +kernel

theorem witness_AccountRequestsKeepTheLedger :
    (asked example98 27 [(4, 1, 63), (8, 4, 990)]).served (.accountSet 7 63 990) = true
    ∧ (asked example98 27 [(4, 1, 64)]).served (.accountSet 7 64 0) = true
    ∧ (asked example98 28 [(4, 1, 63)]).served (.accountClear 7 63) = true
    ∧ (example98.attempt 2).desk = some 6 ∧ (part.attempt 2).desk = none
    ∧ ((example98.account 6).limit ≠ 0 ∧ (example98.account 6).limit ≤ min 4294967295 ((example98.account 6).total + 60)
        ∧ (example98.account 6).blocked = false) := by decide +kernel

theorem witness_SeedSetsTheLfsr :
    (asked part 23 [(4, 2, 1023)]).served (.seed 7 1023) = true ∧ (asked part 23 []).served (.seed 7 0) = true
    ∧ (asked part 23 [(4, 2, 1024)]).served (.seed 7 1024) = true := by decide +kernel

theorem witness_SlotReadStartsTheCodingStep :
    reading.mport.busy = some (.engine (.slotRead 0 0 0x100000 0x10007C 512))
    ∧ (reading.ing 0).ring = some (inRing .coding) := by decide +kernel

/-- SCAN in a phase with tasks to do. -/
def tasked (phase : IngestPhase) (tasks : List Task) (pool : List Nat := [3, 4]) : Chip :=
  { reading with store := { reading.store with pool := pool } }.onIng 0 fun x => { x with
    phase := phase, tasks := tasks, page := some 1023, coder := some { Coder.start 512 with buffer := List.replicate 8192 true } }

theorem witness_TasksOpenPagesAndActOnMarkers :
    ((tasked .ready [.openPage]).ing 0).tasks = .openPage :: [] ∧ ((tasked .ready [.openPage]).ing 0).doc = some 0
    ∧ ((tasked .ready []).doc 0).pages.length < 255 ∧ ((tasked .ready []).pageRec 0).st = .free
    ∧ (tasked .ready [] []).store.pool = [] ∧ (tasked .ready []).store.pool = 3 :: [4]
    ∧ ((tasked .ready []).doc 0).origin = 0 ∧ (tasked .ready []).store.reserve < (tasked .ready []).store.pool.length
    ∧ 255 ≤ (((tasked .ready []).withDoc 0 (complete (List.range 255))).doc 0).pages.length
    ∧ ((tasked .discard [.lost 0]).ing 0).tasks = .lost 0 :: [] ∧ ((tasked .discard [.lost (0 + 1)]).ing 0).tasks = .lost (0 + 1) :: []
    ∧ ((tasked .discard [.line none]).ing 0).tasks = .line none :: [] ∧ ((tasked .discard []).ing 0).phase ≠ .page
    ∧ (∀ ph ∈ [IngestPhase.page, .closing, .discard, .ready],
        ((tasked ph [.marks true true, .endStep]).ing 0).tasks = .marks true true :: .endStep :: []
        ∧ ((tasked ph []).ing 0).phase = ph)
    ∧ ((tasked .page [.endStep]).ing 0).tasks = .endStep :: [] ∧ ((tasked .page []).ing 0).ring = some (inRing .coding) := by
  decide +kernel

/-- SCAN in PAGE with `n` lines handed in. -/
def paging (n : Nat) : Chip := reading.onIng 0 fun x =>
  { x with phase := .page, page := some 1023, coder := some (Coder.start 512), lineTotal := n }

theorem witness_LineLimitTruncatesThePage :
    ((paging 16383).ing 0).phase = .page ∧ ((paging 16383).ing 0).page = some 1023
    ∧ ((paging 16383).ing 0).coder = some (Coder.start 512) ∧ 16383 ≤ ((paging 16383).ing 0).lineTotal
    ∧ ((paging 16382).ing 0).lineTotal < 16383 := by decide +kernel

theorem witness_CodesFillTheBlocksOfThePage :
    let code : LineCode := ⟨[true], 1, none⟩
    let full (tasks : List Task) (pool : List Nat := [3, 4]) : Chip := tasked .page tasks pool
    (((full []).ing 0).coder.map fun k => k.buffer.length) = some 8192 ∧ ((full []).ing 0).blockWrite = false
    ∧ ((full [.place []]).ing 0).tasks = .place [] :: [] ∧ ((full [.place [code]]).ing 0).tasks = .place (code :: []) :: []
    ∧ ((full [.placing 9 [] [code]]).ing 0).tasks = .placing 9 [] (code :: []) :: []
    ∧ ((full [.placing 9 [true] [code]]).ing 0).tasks = .placing 9 (true :: []) (code :: []) :: []
    ∧ (Coder.start 512).buffer.length < 8192 ∧ ((full []).ing 0).page = some 1023 ∧ ((full []).ing 0).doc = some 0
    ∧ (full [] []).store.pool = [] ∧ (full []).store.pool = 3 :: [4] ∧ ((full []).doc 0).origin = 0
    ∧ (full []).store.reserve < (full []).store.pool.length
    ∧ (((full []).onIng 0 fun x => { x with blockWrite := true }).ing 0).blockWrite = true := by decide +kernel

theorem witness_PagesDocumentsAndStopsEnd :
    let stopping (phase : IngestPhase) (tasks : List Task) : Chip := (tasked phase tasks).onIng 0 fun x =>
      { x with reading := false, stop := some ⟨false, .request 7, 0⟩ }
    (∀ k ∈ [Task.emitRun, .lastWrite, .pageClosed, .afterClose, .docClose true, .discardPage],
      ((tasked .closing [k]).ing 0).tasks = k :: [])
    ∧ ((tasked .closing []).ing 0).page = some 1023 ∧ ((tasked .closing []).ing 0).doc = some 0
    ∧ (((tasked .closing []).ing 0).coder.map fun k => k.run) = some 0 ∧ 0 < ({ Coder.start 512 with run := 1 } : Coder).run
    ∧ ((tasked .closing []).ing 0).blockWrite = false ∧ ((tasked .closing []).pageRec 1023).doc < 64
    ∧ (∀ i, i < 5 → ((tasked .closing []).ren i).state ≠ .waitPage) ∧ ((tasked .closing []).ing 0).stop = none
    ∧ (((tasked .closing []).onIng 0 fun x => { x with afterClose := some .ready }).ing 0).afterClose = some .ready
    ∧ (∀ ph ∈ [IngestPhase.idle, .ready, .page, .discard, .closing],
        ((stopping ph [.stopAct]).ing 0).tasks = .stopAct :: [] ∧ ((stopping ph []).ing 0).phase = ph)
    ∧ ((stopping .idle [.stopDone]).ing 0).tasks = .stopDone :: []
    ∧ ((stopping .idle []).ing 0).stop = some ⟨false, .request 7, 0⟩ ∧ ((stopping .idle []).ing 0).reading = false
    ∧ (stopping .idle []).req.restart = none
    ∧ ({ part with req := { part.req with restart := some ⟨9, [0, 4]⟩ } } : Chip).req.restart = some ⟨9, [0, 4]⟩ := by
  decide +kernel

theorem witness_BlocksCrossThePortWhole :
    (Chip.holding part (.engine (.blockWrite 4 0 0x4000000 [true]))).mport.busy = some (.engine (.blockWrite 4 0 0x4000000 [true]))
    ∧ (Chip.holding part (.engine (.blockRead 4 0 0x4000000))).mport.busy = some (.engine (.blockRead 4 0 0x4000000))
    ∧ memWf [] = true := by decide +kernel

/-- A SLOT_WRITE of PRINT at the port. -/
def filling (pageEnd final orphan void : Bool) : Chip := Chip.holding
  ((printing .writing).onRen 0 fun x => { x with
    job := some 15, ring := x.ring.map fun r => { r with slots := r.slots.set 3 ⟨.writing, void, .clear, 0⟩ } })
  (.engine (.slotWrite 0 3 0x200180 0x2001FC none .clear 5 pageEnd final orphan))

theorem witness_SlotWriteFillsTheSlot :
    (filling false false true false).mport.busy = some (.engine (.slotWrite 0 3 0x200180 0x2001FC none .clear 5 false false true))
    ∧ (((filling false false false true).ren 0).ring.map fun r => (r.slot 3).void) = some true
    ∧ (((filling false false false false).ren 0).ring.map fun r => (r.slot 3).void) = some false
    ∧ ((filling true false false false).ren 0).job = some 15
    ∧ ((part.onRen 4 fun x => { x with call := some 31, ring := some (outRing .writing) }).ren 4).call = some 31 := by
  decide +kernel

theorem witness_final_slots_written :
    (filling true true false false).mport.busy = some (.engine (.slotWrite 0 3 0x200180 0x2001FC none .clear 5 true true false))
    ∧ ((filling true true false false).ren 0).job = some 15
    ∧ (Chip.holding part (.engine (.slotWrite 4 3 0x200180 0x2001FC none .clear 5 false true false))).mport.busy
      = some (.engine (.slotWrite 4 3 0x200180 0x2001FC none .clear 5 false true false)) := by decide +kernel

/-- Line 3's transmit context on call 31 of document 0, which has one CLOSED page. -/
def sending (x : DocRecord) (st : PageState) : Chip := (((part.withDoc 0 x).onPage 0 fun r => { r with
  st := st, width := 512, res := 1, lines := 2 }).onCall 31 fun c => { c with first := 1 }).onRen 4 fun x => { x with
    call := some 31, target := some (512, 1), ring := some (outRing .empty) }

theorem witness_WorkFetchesItsPage :
    let print (d : DocRecord) (copyNo n : Nat) : Chip := ((sending d .closed).onJob 15 fun x => { x with
      st := .queued, first := 1, last := 2, copies := 2 }).onRen 0 fun x => { x with job := some 15, copyNo := copyNo, page := n }
    ((sending (complete [0]) .closed).ren 4).call = some 31 ∧ ((sending (complete [0]) .closed).ren 4).position < 1
    ∧ ((sending (complete [0]) .closed).callRec 31).first ≤ 1 ∧ 1 ∉ ((sending (complete [0]) .closed).callRec 31).accepted
    ∧ ((sending (complete [0]) .closed).doc 0).pages[1 - 1]? = some 0
    ∧ ((sending (complete [0]) .closed).pageRec 0).st = .closed ∧ ((sending (complete [0]) .opened).pageRec 0).st ≠ .closed
    ∧ ((sending (complete []) .closed).doc 0).pages[1 - 1]? = none ∧ ((sending (complete []) .closed).doc 0).st ≠ .opened
    ∧ ((sending { complete [] with st := .opened } .closed).doc 0).st = .opened
    ∧ (((sending (complete [0]) .closed).onRen 4 fun x => { x with position := 255 }).ren 4).position = 255
    ∧ part.print.queue = [] ∧ ({ part with print := { part.print with queue := [15] } } : Chip).print.queue = 15 :: []
    ∧ ((print (complete [0]) 1 1).ren 0).job = some 15 ∧ ((print (complete [0]) 1 1).doc 0).pages[1 - 1]? = some 0
    ∧ ((print (complete [0]) 1 2).doc 0).pages[2 - 1]? = none ∧ 2 ≠ ((print (complete [0]) 1 2).job 15).first
    ∧ ((print (complete [0]) 1 2).ren 0).copyNo < ((print (complete [0]) 1 2).job 15).copies
    ∧ ((print (complete []) 2 1).job 15).copies ≤ ((print (complete []) 2 1).ren 0).copyNo
    ∧ (let waiting := ((print (complete [0]) 1 1).onRen 0 fun x => { x with state := .waitPage }).onRen 4 fun x =>
         { x with state := .waitPage, page := 1 }
       (waiting.ren 0).state = .waitPage ∧ (waiting.ren 0).job = some 15 ∧ (waiting.job 15).doc = 0
       ∧ (waiting.ren 4).state = .waitPage ∧ (waiting.ren 4).call = some 31 ∧ (waiting.callRec 31).doc = 0
       ∧ (waiting.ren 1).state ≠ .waitPage) := by decide +kernel

theorem witness_PageLinesGoToTheRing :
    let src : Source := ⟨0, 512, 1, 2, 2, [3], false⟩
    let at' (c : Nat) (lines held : Nat) : Chip := (sending (complete [0]) .closed).onRen c fun x => { x with
      state := .render, source := some { src with lines := lines }, target := some (512, 1), job := some 15, copyNo := 1, page := 1
      ring := some (outRing .empty), decoder := { Decoder.start 512 with held := List.replicate held false } }
    ((outRing .empty).inFlight = false ∧ ((outRing .empty).slot (outRing .empty).next).st = .empty)
    ∧ ((outRing .ready).slot (outRing .ready).next).st ≠ .empty ∧ (part.ren 4).ring = none
    ∧ (∀ c ∈ [0, 4], ((at' c 2 2).ren c).ring = some (outRing .empty) ∧ ((at' c 2 2).ren c).outgoing = none
        ∧ ((at' c 2 2).ren c).state = .render ∧ ((at' c 2 2).ren c).source = some src
        ∧ ((at' c 2 2).ren c).target = some (512, 1))
    ∧ (((at' 4 2 2).onRen 4 fun x => { x with outgoing := some .clear }).ren 4).outgoing = some .clear
    ∧ ({ src with lines := 0 } : Source).lines = 0 ∧ 0 < src.lines
    ∧ ((Chip.pullLine 4 src 1 4 (at' 4 2 2)).1 = some (whiteLine 512)) ∧ ((Chip.pullLine 4 src 1 4 (at' 4 2 0)).1 = none)
    ∧ ((at' 0 2 2).ren 0).job = some 15 ∧ ((at' 4 2 2).ren 4).vertical.repeats = 0 ∧ ((at' 4 2 2).ren 4).reading = false
    ∧ ((at' 4 2 0).ren 4).decoder.next src = .needBlock
    ∧ (match ((at' 4 2 2).ren 4).decoder.next src with | .line p _ met => (p, met) | _ => ([], true)) = (whiteLine 512, false)
    ∧ (match ((at' 4 2 2).ren 4).decoder.next { src with bitLength := 0 } with | .line _ _ met => met | _ => false) = true
    ∧ (0 < ({ Vertical.blank with repeats := 1 } : Vertical).repeats) := by decide +kernel

theorem witness_ReportsGoRecordByRecord :
    let lines : Report := ⟨7, .lines, 0, 0x3000, 0, 0, false⟩
    (asked part 8 [(4, 1, 4), (8, 4, 0x2000)]).served (.reportLines 7 0x2000) = true
    ∧ part.protectedOverlap 0x2000 80 = false ∧ part.protectedOverlap 0x1FFC 80 = true ∧ part.req.report = none
    ∧ (asked part 8 [(8, 4, 0x3000)]).served (.reportDocuments 7 0 0x3000) = true
    ∧ part.nextRecord ⟨7, .documents, 0, 0x3000, 0, 0, false⟩ = none ∧ (part.nextRecord lines).isSome = true
    ∧ (asked part 8 [(4, 1, 1), (5, 1, 64), (8, 4, 0x3000)]).served (.reportPages 7 64 0x3000) = true
    ∧ (part.doc 63).st = .free
    ∧ (Chip.holding { part with req := { part.req with report := some lines } } (.record (.reportRecord 0xFFFFFFFE [1, 2, 3]))).mport.busy
      = some (.record (.reportRecord 0xFFFFFFFE [1, 2, 3])) ∧ 2 ^ 32 < 0xFFFFFFFE + [1, 2, 3].length
    ∧ 0xFFFFFFFE + [1, 2].length ≤ 2 ^ 32 ∧ part.nextRecord { lines with next := 5 } = none := by decide +kernel

theorem witness_report_records :
    ((store25.doc 5).st ≠ .free ∧ (∀ e, e < 5 → (store25.doc e).st = .free) ∧ ∀ e, e < 64 → 6 ≤ e → (store25.doc e).st = .free)
    ∧ (store25.doc 5).pages[0]? = some 0 ∧ (store25.doc 5).pages[1]? = some 1 ∧ (store25.doc 5).pages.length ≤ 2
    ∧ ((example98.callRec 14).st ≠ .free ∧ (∀ e, e < 14 → (example98.callRec e).st = .free)
        ∧ ∀ e, e < 32 → 15 ≤ e → (example98.callRec e).st = .free) := by decide +kernel

theorem witness_ClockAdvancesOneSecond :
    part.calls.schedule + 1 < 2 ^ 32
    ∧ ((part.onCall 31 fun c => { c with st := .waiting, ready := 1 }).callRec 31).ready = part.calls.schedule + 1
    ∧ (∀ n, n < 4 → (part.attempt n).duration + 1 < 2 ^ 32) := by decide +kernel

theorem witness_StallAndUnitTimersExpire :
    ((part.onRen 4 fun x => { x with ring := some (outRing .ready (.running 0)) }).ren 4).ring = some (outRing .ready (.running 0))
    ∧ (part.ren 4).ring = none
    ∧ ((answered98.attempt 2).opened = true ∧ (answered98.attempt 2).answered = true
        ∧ (answered98.attempt 2).unitTimer.isSome = true ∧ (answered98.attempt 2).meterPulses = false
        ∧ (answered98.attempt 2).desk = some 6)
    ∧ ¬ (part.attempt 3).opened = true := by decide +kernel

theorem witness_RingingFollowsTheDetector :
    (part.line 3).state = .idle ∧ ((part.lineAt 3 .ringing).line 3).state = .ringing
    ∧ ((part.lineAt 3 .connected).line 3).state = .connected ∧ ((part.lineAt 3 .releasing).line 3).state = .releasing
    ∧ ((part.onLine 3 fun l => { l with state := .ringing, ringEnd := some 0 }).line 3).ringEnd.isSome = true := by
  decide +kernel

theorem witness_SettleAndDialToneMoveTheLine :
    (part.line 3).settle = none
    ∧ (let l := (part.onLine 3 fun l => { l with state := .seizing, settle := some 0, cfg := { l.cfg with blind := true } }).line 3
       l.state = .seizing ∧ l.settle.isSome = true ∧ l.cfg.blind = true ∧ l.dial.head? ≠ some 13)
    ∧ (let l := (part.onLine 3 fun l => { l with state := .seizing, settle := some 0, dial := [13] }).line 3
       l.state = .seizing ∧ l.settle.isSome = true ∧ l.dial.head? = some 13)
    ∧ (let l := (part.onLine 3 fun l => { l with state := .answering, settle := some 0 }).line 3
       l.state = .answering ∧ l.settle.isSome = true)
    ∧ (let l := (part.onLine 3 fun l => { l with state := .dialling, settle := some 0 }).line 3
       l.settle.isSome = true ∧ l.state ≠ .answering ∧ l.state ≠ .seizing)
    ∧ ((part.lineAt 3 .awaitTone).line 3).state = .awaitTone ∧ ((part.lineAt 3 .awaitTone).line 3).settle = none
    ∧ ((part.lineAt 3 .releasing).line 3).state = .releasing
    ∧ (let l := ((part.lineAt 3 .awaitTone).onLine 3 fun l => { l with train := true }).line 3
       l.train = true ∧ l.settle = none ∧ l.state ≠ .releasing) := by decide +kernel

theorem witness_DiallerSendsItsSymbols :
    let l (dial : List Nat) (pulse : Bool) : Line := (dialling dial pulse .none).chip.line 1
    (l [] false).dial[(l [] false).pos]? = none ∧ (l [12] false).dial[(l [12] false).pos]? = some 12
    ∧ (l [13] false).dial[(l [13] false).pos]? = some 13 ∧ (l [11] false).dial[(l [11] false).pos]? = some 11
    ∧ (l [11] false).cfg.pulse = false ∧ (l [9] true).cfg.pulse = true ∧ (l [9] true).dial[(l [9] true).pos]? = some 9
    ∧ (l [10] true).dial[(l [10] true).pos]? = some 10
    ∧ ((dialling [] true (.breaking 9)).chip.line 1).phase = .breaking 9
    ∧ ((dialling [] true (.making 1)).chip.line 1).phase = .making (0 + 1)
    ∧ ((dialling [] true (.making 0)).chip.line 1).phase = .making 0 := by decide +kernel

theorem witness_AnswerToneAnswersTheCall :
    (example98.line 2).settle = none ∧ (example98.line 2).state = .awaitAnswer ∧ (example98.line 2).call = some 14
    ∧ (example98.attempt 2).call = some 14 ∧ (example98.attempt 2).desk = some 6
    ∧ (part.line 3).state ≠ .awaitAnswer ∧ (part.line 3).state ≠ .releasing
    ∧ (example98.attempt 2).meterPulses = false
    ∧ ((example98.onAttempt 2 fun a => { a with meterPulses := true }).attempt 2).meterPulses = true
    ∧ (let l := (example98.onLine 2 fun l => { l with train := true }).line 2
       l.train = true ∧ l.settle = none ∧ l.state = .awaitAnswer)
    ∧ [0, 4, 4] = [0, 4] ++ [4] ∧ ∀ x ∈ part.charge.tariff.prefixes, x.digits ≠ [] := by decide +kernel

theorem witness_MeterPulseIsCountedAndBilled :
    (example98.line 2).settle = none ∧ (example98.line 2).state = .awaitAnswer
    ∧ (((part.lineAt 3 .connected .outward).line 3).state = .connected ∧ ((part.lineAt 3 .connected .outward).line 3).dir = .outward)
    ∧ ((answered98.onAttempt 2 fun a => { a with meterPulses := true }).attempt 2).meterPulses = true
    ∧ (answered98.attempt 2).meterPulses = false ∧ (part.line 0).state = .idle
    ∧ ((example98.onLine 2 fun l => { l with train := true }).line 2).train = true := by decide +kernel

theorem witness_ReleasesLetTheLineGo :
    (∀ st ∈ [LineState.awaitTone, .dialling, .awaitAnswer, .answered, .connected],
      let l := (part.lineAt 3 st .outward).line 3
      l.state = st ∧ l.settle = none ∧ l.train = false ∧ l.stateTimer.isSome = true)
    ∧ (let l := (part.onLine 3 fun l => { l with state := .seizing, settle := some 0 }).line 3
       l.state = .seizing ∧ l.settle.isSome = true)
    ∧ (let l := ((part.lineAt 3 .releasing).onLine 3 fun l => { l with cause := some .normal }).line 3
       l.state = .releasing ∧ l.cause = some .normal ∧ l.stateTimer.isSome = true ∧ (part.line 3).state ≠ .releasing)
    ∧ (asked part 19 [(4, 1, 3), (5, 1, 9)]).served (.release 7 3 9) = true
    ∧ (asked part 19 [(4, 1, 4), (5, 1, 6)]).served (.release 7 4 6) = true
    ∧ (asked part 19 [(4, 1, 3), (5, 1, 5)]).served (.release 7 3 5) = true
    ∧ (part.line 3).state ∉ [LineState.seizing, .awaitTone, .dialling, .awaitAnswer, .answered, .connected]
    ∧ (part.line 3).settle = none ∧ (part.line 3).train = false ∧ (part.line 3).stateTimer = none
    ∧ ((part.onLine 3 fun l => { l with train := true }).line 3).train = true := by decide +kernel

theorem witness_EndedAttemptIsLogged :
    (part.attempt 3).opened = false ∧ (example98.attempt 2).opened = true ∧ part.charge.log = none
    ∧ ({ part with charge := { part.charge with log := some ⟨0x3000, 16, 15⟩ } } : Chip).charge.log = some ⟨0x3000, 16, 15⟩
    ∧ (let a := (answered98.onAttempt 2 fun a => { a with meterPulses := true }).attempt 2
       a.opened = true ∧ a.meterPulses = true ∧ a.outward = true ∧ a.answered = true ∧ a.pulses = 0 ∧ a.desk = some 6)
    ∧ (answered98.attempt 2).meterPulses = false ∧ ((answered98.callRec 14).dest.drop (answered98.callRec 14).access).length ≤ 40 := by
  decide +kernel

theorem witness_AttemptEndRetriesOrEnds :
    let calling (made accepted : Nat) (ready : Nat) : Chip := { (part.withDoc 0 (complete [5])).onCall 31 fun c => { c with
      st := .active, first := 1, made := made, allowed := 2, retry := 10, accepted := List.replicate accepted 1 } with
        calls := { ((part.withDoc 0 (complete [5])).onCall 31 fun c => { c with
          st := .active, first := 1, made := made, allowed := 2, retry := 10, accepted := List.replicate accepted 1 }).calls with
            schedule := ready } }
    ((calling 1 0 0).doc ((calling 1 0 0).callRec 31).doc).st = .complete
    ∧ 1 ∈ ((calling 1 1 0).callRec 31).accepted ∧ 1 ∉ ((calling 1 0 0).callRec 31).accepted
    ∧ ((calling 1 0 0).callRec 31).made < ((calling 1 0 0).callRec 31).allowed
    ∧ ((calling 2 0 0).callRec 31).allowed ≤ ((calling 2 0 0).callRec 31).made
    ∧ (calling 1 0 0).calls.schedule + (10 + 2 % (10 / 4 + 1)) < 2 ^ 32
    ∧ 2 ^ 32 ≤ (calling 1 0 (2 ^ 32 - 1)).calls.schedule + (10 + 2 % (10 / 4 + 1))
    ∧ (example98.line 2).dir = .outward ∧ (example98.line 2).call = some 14 ∧ (example98.line 2).conn ≠ .tx
    ∧ (example98.ing 3).phase = .idle ∧ ((part.lineAt 3 .connected .inward).line 3).dir ≠ .outward
    ∧ (let l := ((part.lineAt 3 .connected .outward).onLine 3 fun l => { l with conn := .tx }).line 3
       l.state = .connected ∧ l.conn = .tx)
    ∧ (let k := ((part.lineAt 3 .connected .inward).onIng 4 fun x => { x with phase := .discard }).ing 4
       k.phase ≠ .idle ∧ k.stop = none) := by decide +kernel

theorem witness_StoreSetAndDeleteActOnTheStore :
    (asked part 6 [(4, 4, 0xFE000000), (8, 1, 32), (10, 2, 4095), (12, 2, 32767)]).served (.storeSet 7 0xFE000000 32 4095 32767) = true
    ∧ fieldsRefused (.storeSet 7 0xFE000000 32 4095 32767) = none ∧ ¬ (0xFE000000 < part.path.strap * 8192 + 8192)
    ∧ (asked part 6 [(8, 1, 1)]).served (.storeSet 7 0 1 0 0) = true ∧ fieldsRefused (.storeSet 7 0 1 0 0) = none
    ∧ (0 < part.path.strap * 8192 + 8192 ∧ part.path.strap * 8192 < 0 + 1024 * 1024)
    ∧ (store25.doc 5).st ≠ .free ∧ (∀ d, d < 64 → (part.doc d).st = .free)
    ∧ (asked store25 7 [(4, 1, 63)]).served (.delete 7 63) = true ∧ (store25.doc 63).st = .free
    ∧ (store25.doc 5).st = .complete ∧ (store25.doc 5).holds = 0 ∧ 0 < ((store25.onDoc 5 fun d => { d with holds := 1 }).doc 5).holds
    ∧ store25.engineOps = [] ∧ (Chip.holding store25 (.engine (.blockRead 0 1 0x4002800))).engineOps = [.blockRead 0 1 0x4002800]
    ∧ 1 ∈ (store25.doc 5).pages ∧ ((store25.onDoc 5 fun d => { d with st := .opened }).doc 5).st = .opened
    ∧ ((store25.onDoc 5 fun d => { d with st := .doomed }).doc 5).st = .doomed := by decide +kernel

theorem witness_PoolGivesLowestAndTakesBack :
    (stored []).store.pool = [] ∧ (stored [7]).store.pool = 7 :: [] ∧ ((stored [7]).doc 0).origin = 0
    ∧ ({ stored [7] with store := { (stored [7]).store with reserve := 1 } } : Chip).store.pool.length ≤ 1
    ∧ (stored [7]).store.reserve < (stored [7]).store.pool.length
    ∧ (store25.doc 5).pages.Nodup ∧ (∀ r ∈ (store25.doc 5).pages, r < 1024) ∧ store25.store.pool.Pairwise (· ≤ ·)
    ∧ (∀ r ∈ (store25.doc 5).pages, (store25.pageRec r).chain ≠ [])
    ∧ (let p := store25.onDoc 5 fun d => { d with st := .doomed, holds := 1 }
       (p.doc 5).st = .doomed ∧ (p.doc 5).holds ≤ 1 ∧ p.docReads 5 = false)
    ∧ (store25.doc 5).st ≠ .doomed := by decide +kernel

theorem witness_IngestRequestsOpenStopAndLimit :
    let receiving : Chip := ((stored [3]).lineAt 3 .answered .inward).onIng 4 fun x => { x with ring := some (inRing .empty) }
    (asked (scanning .empty) 9 [(4, 1, 63), (5, 1, 4), (6, 2, 992)]).served (.scanBegin 7 63 4 992) = true
    ∧ goodWidth 992 = true ∧ goodRes 4 = true ∧ ((scanning .empty).ing 0).phase = .idle ∧ ((scanning .empty).ing 0).stop = none
    ∧ ((scanning .empty).ing 0).ring = some (inRing .empty) ∧ 992 / 8 + 4 ≤ (inRing .empty).slotSize
    ∧ (scanning .empty).store.configured = true ∧ ((scanning .empty).doc 0).st = .free
    ∧ (asked receiving 17 [(4, 1, 3), (6, 2, 992), (8, 1, 4), (9, 1, 63)]).served (.connectRx 7 (BitVec.ofNat 8 (4 - 1)) 0 992 4 63) = true
    ∧ (receiving.line 3).state = .answered ∧ (receiving.line 3).dir = .inward
    ∧ (receiving.ing 4).ring = some (inRing .empty) ∧ receiving.store.configured = true
    ∧ (part.line 3).state ≠ .answered ∧ (reading.ing 0).phase ≠ .idle ∧ (part.ing 0).ring = none
    ∧ (inRing .empty).slotSize < 1024 / 8 + 4 ∧ part.store.configured = false
    ∧ (asked part 9 [(4, 1, 64)]).served (.scanBegin 7 64 0 0) = true
    ∧ (∀ e, e < 64 → (({ scanning .empty with store := { (scanning .empty).store with
        docs := Vector.replicate 64 (complete []) } } : Chip).doc e).st ≠ .free) := by decide +kernel

theorem witness_ingest_stops_and_limits :
    (asked part 10 [(4, 1, 4), (5, 1, 1)]).served (.ingestStop 7 4 1) = true
    ∧ (asked part 11 [(4, 1, 4), (5, 1, 1)]).served (.ingestSet 7 4 1) = true ∧ (part.ing 4).phase = .idle
    ∧ (part.ing 4).stop = none ∧ (reading.ing 0).phase ≠ .idle ∧ (reading.ing 0).stop = none
    ∧ ((part.onIng 4 fun x => { x with stop := some ⟨true, .request 7, 0⟩ }).ing 4).stop.isSome = true := by decide +kernel

theorem witness_PrintTakesSetupAndJob :
    let ready : Chip := { (printing .empty).withDoc 63 (complete []) with print := { part.print with setup := some (992, 4) } }
    (printing .empty |>.ren 0).ring = some (outRing .empty) ∧ (printing .empty |>.ren 0).state = .idle
    ∧ (asked (printing .empty) 12 [(4, 2, 992), (6, 1, 4), (7, 1, 60)]).served (.printSetup 7 992 4 60) = true
    ∧ fieldsRefused (.printSetup 7 992 4 60) = none ∧ (∀ j, j < 16 → (part.job j).st = .free)
    ∧ 992 / 8 + 4 ≤ (outRing .empty).slotSize
    ∧ (asked ready 13 [(4, 1, 63), (5, 1, 255), (6, 1, 255)]).served (.print 7 63 255 255 0) = true
    ∧ fieldsRefused (.print 7 63 255 255 0) = none ∧ ready.print.setup = some (992, 4) ∧ (ready.doc 63).st = .complete
    ∧ (ready.ren 0).ring = some (outRing .empty) ∧ (ready.job 0).st = .free
    ∧ (part.ren 0).ring = none ∧ (outRing .empty).slotSize < 1024 / 8 + 4 ∧ part.print.setup = none ∧ (part.doc 63).st = .free
    ∧ ((part.onJob 15 fun x => { x with st := .queued }).job 15).st ≠ .free
    ∧ (∀ j, j < 16 → (({ ready with print := { ready.print with
        jobs := Vector.replicate 16 { Job.free with st := .queued } } } : Chip).job j).st ≠ .free) := by decide +kernel

theorem witness_PrintCancelEndsTheJob :
    (asked part 14 [(4, 1, 15)]).served (.printCancel 7 15) = true ∧ (part.job 15).st = .free
    ∧ (∀ st ∈ [JobState.queued, .active, .finishing], ((part.onJob 15 fun x => { x with st := st }).job 15).st = st)
    ∧ (part.ren 0).state ≠ .ending ∧ ((part.onRen 0 fun x => { x with state := .ending }).ren 0).state = .ending := by
  decide +kernel

/-- Line 3 ANSWERED outward for call 31, its transmit ring bound. -/
def outgoing : Chip := (part.onLine 3 fun l => { l with state := .answered, dir := .outward, call := some 31 }).onRen 4
  fun x => { x with ring := some (outRing .empty) }

theorem witness_ConnectTxStartsTransmission :
    (asked outgoing 17 [(4, 1, 3), (5, 1, 1), (6, 2, 992), (8, 1, 4)]).served (.connectTx 7 3 992 4) = true
    ∧ (outgoing.line 3).state = .answered ∧ (outgoing.line 3).dir = .outward ∧ (outgoing.line 3).call = some 31
    ∧ goodWidth 992 = true ∧ goodRes 4 = true ∧ goodWidth 991 = false ∧ (outgoing.ren 4).ring = some (outRing .empty)
    ∧ 992 / 8 + 4 ≤ (outRing .empty).slotSize ∧ (outRing .empty).slotSize < 1024 / 8 + 4 ∧ (part.ren 4).ring = none
    ∧ ¬ (part.line 3).state = .answered := by decide +kernel

theorem witness_PageResultActsOnThePage :
    let waiting : Chip := (part.onRen 4 fun x => { x with state := .pageWait, call := some 31, position := 255 }).onCall 31
      fun c => { c with resends := [255, 255, 255] }
    (∀ k, k < 3 → (asked waiting 18 [(4, 1, 3), (5, 1, k)]).served (.pageResult 7 3 (BitVec.ofNat 8 k)) = true) ∧ (waiting.ren 4).state = .pageWait
    ∧ (waiting.ren 4).call = some 31 ∧ 3 ≤ (waiting.callRec 31).resends.count 255 ∧ (part.ren 4).state ≠ .pageWait := by
  decide +kernel

theorem witness_LineRequestsActOnTheLine :
    (asked part 15 lineSetFields).served (.lineSet 7 (lineSetBody (record 15 lineSetFields))) = true
    ∧ lineSetGood (lineSetBody (record 15 lineSetFields)) = true ∧ (part.line 3).state = .idle
    ∧ ((part.lineAt 3 .ringing).line 3).state = .ringing ∧ (asked part 16 [(4, 1, 3)]).served (.answer 7 3) = true := by
  decide +kernel

theorem witness_CallFillsALowestRecord :
    (asked part 21 callFields).served (.call 7 (callBody (record 21 callFields))) = true
    ∧ callGood (callBody (record 21 callFields)) = true ∧ (part.callRec 0).st = .free ∧ (part.doc 5).st = .free
    ∧ ((part.withDoc 5 (complete [])).doc 5).st = .complete ∧ (part.account 6).blocked = false
    ∧ ((part.onAccount 6 fun a => { a with blocked := true }).account 6).blocked = true
    ∧ part.calls.schedule + 604799 < 2 ^ 32
    ∧ (∀ i, i < 32 → (({ part with calls := { part.calls with
        records := Vector.replicate 32 { CallRecord.free with st := .waiting } } } : Chip).callRec i).st ≠ .free) := by decide +kernel

theorem witness_CallCancelEndsTheCall :
    (asked part 22 [(4, 1, 31)]).served (.callCancel 7 31) = true ∧ (part.callRec 31).st = .free
    ∧ ((part.onCall 31 fun c => { c with st := .waiting }).callRec 31).st = .waiting
    ∧ (example98.callRec 14).st = .active ∧ (example98.callRec 14).line = some 2 := by decide +kernel

theorem witness_ArbiterPassKeepsItsOrder :
    ((part.withDoc 0 { complete [] with st := .opened }).doc (part.callRec 0).doc).st = .opened ∧ (part.callRec 0).flash = false
    ∧ ((part.withDoc 0 (complete [])).doc (part.callRec 0).doc).pages.length < 1
    ∧ ({ part with calls := { part.calls with limit := 0 } } : Chip).calls.limit ≤ part.assignedLines
    ∧ part.assignedLines < part.calls.limit
    ∧ (let p := part.onCall 0 fun c => { c with mask := [3], flash := true }
       (p.line 3).state = .idle ∧ (p.line 3).cfg.outgoing = true ∧ 3 ∈ (p.callRec 0).mask ∧ 2 ∉ (p.callRec 0).mask) := by
  decide +kernel

theorem witness_LineCodesReadBack : 0 < 512 ∧ lineA.length = 512 ∧ lineB.length = 512 ∧ (64 : Nat) ≤ 64 := by decide +kernel

theorem witness_PageDecodesToItsLines :
    0 < 512 ∧ (∀ x ∈ [lineB, lineA, whiteLine 512], x.length = 512)
    ∧ ([100, 411].sum < 512 ∧ (∀ r ∈ [100, 411].tail, 0 < r) ∧ 512 < [100, 411].sum + 2
        ∧ 512 + 2 ^ 3 < [100, 411].sum + 2 ^ (1 + 3) ∧ [100, 411].sum + 1 ≤ 512)
    ∧ ([true] <+: runCode 3 1 ∧ [true] ≠ runCode 3 1 ∧ [false, true] <+: runCode 3 8)
    ∧ (transitions (layRuns false [5, 1, 506]) = [5] ++ 6 :: [] ∧ offsetCodes [5] [7] = some [true, true, false, false]
        ∧ offsetCode 0 = some [false] ∧ (6 : Int) + 0 ≤ 7)
    ∧ transitions (layRuns false [1, 511]) = [] ++ 1 :: [] ∧ (1 : Int) + -2 < 0 ∧ offsetCode (-2) = some [true, true, false, true]
    ∧ transitions (layRuns false [510, 2]) = [510] ∧ (512 : Int) ≤ 510 + 2 ∧ transitions (whiteLine 512) = []
    ∧ (let d : Decoder := { Decoder.start 512 with held := [true] }
       d.corrupt = false ∧ d.again = 0 ∧ readCode 512 d.ref 1 (d.held.take 1) = .short (whiteLine 512) ∧ 1 ≤ d.pos + d.held.length) := by
  decide +kernel

theorem witness_ConversionKeepsBlackPels : (∀ x ∈ [lineB, lineA], x.length = 512) ∧ (4 : Nat) ∈ [1, 2, 4] ∧ 0 < 1728 ∧ lineA.length ≤ 1728 ∧ 511 < lineA.length := by decide +kernel

theorem witness_EveryStepKeepsTheInvariants :
    let s : State := ⟨[.arbiterGrant], [⟨0x2000, 1⟩], contended⟩
    memWf s.mem = true ∧ (match step s with | .next t => t.chip.mport.busy | _ => none) = some .drain
    ∧ s.chip.unconsumed ≤ Config.noticeRing ∧ s.chip.path.posted.length ≤ Config.postingDepth
    ∧ 1 ≤ s.chip.calls.lfsr ∧ s.chip.calls.lfsr ≤ 1023 ∧ (∀ n, n < 4 → (s.chip.line n).digit = 0 ∧ (s.chip.line n).toneOn = false) := by
  decide +kernel

/-- Line 3 on its first attempt of call record 31 for document 63, which print job 15 is printing too. -/
def sharing : Chip :=
  let p := (part.withDoc 63 { complete [1023] with holds := 2 }).onPage 1023 fun x => { x with
    st := .closed, doc := 63, number := 1, chain := [1, 0] }
  let p := p.onLine 3 fun l => { l with state := .dialling, dir := .outward, call := some 31 }
  let p := p.onCall 31 fun c => { c with st := .active, doc := 63, line := some 3, made := 1, allowed := 1 }
  let p := p.onJob 15 fun x => { x with st := .active, doc := 63 }
  { p with store := { p.store with blocks := 3, pool := [2] } }

theorem witness_EveryStepKeepsTheCallQueueLaws :
    (sharing.line 3).call = some 31 ∧ (sharing.callRec 31).line = some 3 ∧ (sharing.callRec 31).st = .active
    ∧ (∀ n, n < 3 → (sharing.line n).call = none) ∧ (∀ i, i < 31 → (sharing.callRec i).st = .free)
    ∧ (sharing.callRec 31).made = (sharing.callRec 31).allowed ∧ (match step ⟨[.clockAdvance], [], sharing⟩ with
      | .next t => some (t.chip.callRec 31).made
      | _ => none) = some 1 := by decide +kernel

theorem witness_EveryStepKeepsTheStoreLaws :
    (sharing.store.pool ++ (sharing.store.pages.toList.flatMap (·.chain))).isPerm (List.range sharing.store.blocks) = true
    ∧ (sharing.store.pages.toList.filter fun x => x.st != .free) = [sharing.pageRec 1023]
    ∧ (sharing.pageRec 1023).doc = 63 ∧ (sharing.doc 63).pages = [1023] ∧ (sharing.doc 63).st ≠ .free
    ∧ (∀ d, d < 63 → (sharing.doc d).pages = [] ∧ (sharing.doc d).holds = 0)
    ∧ (∀ c, c < 5 → (sharing.ing c).doc = none ∧ (sharing.ing c).page = none)
    ∧ (sharing.doc 63).holds = ((List.range 16).filter fun j => (sharing.job j).holdsDoc 63).length
      + ((List.range 32).filter fun i => (sharing.callRec i).holdsDoc 63).length
    ∧ sharing.print.queue = [] ∧ (sharing.ren 0).job = none := by decide +kernel

end Sys2Proof.Tests
end

section
/-! PROOFS. Store coding (01): every line code reads back (R3 to R6, R8, R12), and what corruption leaves (R13, R14). -/

namespace Sys2Proof.Machine

/-! ## A whole line code reads back -/

/-- A RUNS code reads back as its line (R5, R12). -/
theorem readCode_runsCode {w left : Nat} {ref line : List Bool} (rest : List Bool) (hl : line.length = w) :
    readCode w ref left (runsCode line ++ rest) = .line line rest 0 true := by
  have hlen := runCodes_length false (lineRuns line)
  have hread : readRuns w ((runCodes false (lineRuns line) ++ rest).length + 1) false []
      (runCodes false (lineRuns line) ++ rest) = .ok ([] ++ lineRuns line) rest :=
    readRuns_runCodes w _ rest _ false [] (lineRuns_ne_nil line) (by rw [List.length_append]; omega)
      (by rw [lineRuns_sum, hl]; simp) (lineRuns_tail_pos line) (absurd rfl)
  show readCode w ref left (true :: false :: (runCodes false (lineRuns line) ++ rest)) = _
  simp only [readCode, hread, List.nil_append, layRuns_lineRuns]

/-- A DELTA code reads back as its line (R6, R12). -/
theorem readCode_deltaCode {w left : Nat} {ref line code : List Bool} (rest : List Bool) (hl : line.length = w)
    (hc : deltaCode ref line = some code) : readCode w ref left (code ++ rest) = .line line rest 0 true := by
  unfold deltaCode at hc
  split at hc
  · cases hc
  · next hne =>
    obtain ⟨codes, hcodes, rfl⟩ := Option.map_eq_some_iff.1 hc
    have hread : readDeltas w (transitions ref) [] (codes ++ rest) = .ok ([] ++ transitions line) rest :=
      readDeltas_offsetCodes w _ rest _ [] codes hcodes (hl ▸ transitions_lt line) (transitions_rising line)
    show readCode w ref left (true :: true :: (codes ++ rest)) = _
    simp only [readCode, if_neg hne, hread, List.nil_append]
    rw [← hl, lineOf_transitions]

/-- The code of a line reads back as the line (R8, R12). -/
theorem readCode_lineCode {w left : Nat} {ref line : List Bool} (rest : List Bool) (hl : line.length = w) :
    readCode w ref left (lineCode ref line ++ rest) = .line line rest 0 true := by
  unfold lineCode
  split
  · next hwhite => rw [hwhite, hl]; rfl
  · split
    · next d hd =>
      split
      · exact readCode_deltaCode rest hl hd
      · exact readCode_runsCode rest hl
    · exact readCode_runsCode rest hl

/-- What a SAME code comes to: the reference line as often as it says, or corruption where too few lines are left (R12,
R13). -/
theorem readCode_sameCode {w n : Nat} (left : Nat) (ref rest : List Bool) (h1 : 1 ≤ n) (h64 : n ≤ 64) :
    readCode w ref left (sameCode n ++ rest) =
      if left < n then .bad (whiteLine w) else .line ref rest (n - 1) false := by
  show readCode w ref left (false :: true :: (bitsOf 6 (n - 1) ++ rest)) = _
  have hval : bitsVal ((bitsOf 6 (n - 1) ++ rest).take 6) + 1 = n := by
    rw [List.take_left' (bitsOf_length _ _), bitsVal_bitsOf]; omega
  have hlen : ¬ (bitsOf 6 (n - 1) ++ rest).length < 6 := by simp
  simp only [readCode, if_neg hlen, hval, List.drop_left' (bitsOf_length 6 (n - 1))]

/-- Settles O55: a line's own code by the kind the coder chose, a SAME code by its count. -/
theorem lineCodesReadBack : Obligations.LineCodesReadBack := by
  unfold Obligations.LineCodesReadBack
  refine ⟨fun w left ref line rest _ _ hl => readCode_lineCode rest hl, fun w n left ref rest h1 h64 hleft => ?_⟩
  rw [readCode_sameCode left ref rest h1 h64, if_neg (Nat.not_lt.2 hleft)]

end Sys2Proof.Machine
end

section
/-! PROOFS. Store coding (01): what corruption leaves of a line (R13, R14). -/

namespace Sys2Proof.Machine

/-! ## Run codes cut short or past the width (R4, R13) -/

/-- A run code: its zero bits, then a 1 bit and the rest of its value. -/
theorem runCode_eq (k v : Nat) : runCode k v = List.replicate (Nat.log2 (v + 2 ^ k) - k) false ++
    (true :: bitsOf (Nat.log2 (v + 2 ^ k)) (v + 2 ^ k)) := by
  have hpos : v + 2 ^ k ≠ 0 := by have := Nat.two_pow_pos k; omega
  unfold runCode
  dsimp only
  rw [bitsOf, Nat.testBit_log2 hpos]

/-- The highest bit of a run code's number: at or above its order's, and within the number. -/
theorem runCode_order (k v : Nat) : k ≤ Nat.log2 (v + 2 ^ k) ∧ 2 ^ Nat.log2 (v + 2 ^ k) ≤ v + 2 ^ k := by
  have hpos : v + 2 ^ k ≠ 0 := by have := Nat.two_pow_pos k; omega
  exact ⟨(Nat.le_log2 hpos).2 (by omega), Nat.log2_self_le hpos⟩

/-- Zero bits that no run within the room begins with (R13). -/
theorem readRun_zeros_pass {k room : Nat} (rest : List Bool) (j : Nat) :
    ∀ z, ¬ room + 2 ^ k < 2 ^ (z + k) → room + 2 ^ k < 2 ^ (z + j + k) →
      readRun k room z (List.replicate j false ++ rest) = .pass := by
  induction j with
  | zero => intro z h h'; exact absurd h' h
  | succ j ih =>
    intro z _ h'
    show readRun k room z (false :: (List.replicate j false ++ rest)) = .pass
    rw [readRun]
    split
    · rfl
    · next hroom => exact ih (z + 1) (by omega) (by rwa [show z + 1 + j = z + (j + 1) by omega])

/-- The code of a run past the room, from `z` of its zero bits on. -/
theorem readRun_past {k v room m : Nat} (rest : List Bool) (hm : m = Nat.log2 (v + 2 ^ k)) (hv : room < v) (j : Nat) :
    ∀ z, z + j + k = m →
      readRun k room z (List.replicate j false ++ (true :: bitsOf m (v + 2 ^ k)) ++ rest) = .pass := by
  have hpos : v + 2 ^ k ≠ 0 := by have := Nat.two_pow_pos k; omega
  have hlo : 2 ^ m ≤ v + 2 ^ k := hm ▸ Nat.log2_self_le hpos
  have hhi : v + 2 ^ k < 2 ^ (m + 1) := hm ▸ Nat.lt_log2_self
  rw [Nat.pow_succ] at hhi
  induction j with
  | zero =>
    intro z hz
    show readRun k room z (true :: (bitsOf m (v + 2 ^ k) ++ rest)) = .pass
    have hmod : (v + 2 ^ k) % 2 ^ m = v + 2 ^ k - 2 ^ m := by
      rw [Nat.mod_eq_sub_mod hlo, Nat.mod_eq_of_lt (by omega)]
    rw [readRun, show z + k = m by omega, if_neg (by rw [List.length_append, bitsOf_length]; omega),
      List.take_left' (bitsOf_length _ _), bitsVal_bitsOf, hmod]
    exact if_pos (by omega)
  | succ j ih =>
    intro z hz
    show readRun k room z (false :: (List.replicate j false ++ (true :: bitsOf m (v + 2 ^ k)) ++ rest)) = .pass
    rw [readRun]
    split
    · rfl
    · exact ih (z + 1) (by omega)

/-- A run past the room left is corruption (R13). -/
theorem readRun_runCode_past {k v room : Nat} (rest : List Bool) (hv : room < v) :
    readRun k room 0 (runCode k v ++ rest) = .pass := by
  have hk := (runCode_order k v).1
  rw [runCode_eq]
  exact readRun_past rest rfl hv _ 0 (by omega)

/-- The bits of a run that fits, cut short, from `z` of its zero bits on. -/
theorem readRun_cut {k room m : Nat} {code : List Bool} (hcode : code.length = m) (hroom : 2 ^ m ≤ room + 2 ^ k)
    (j : Nat) :
    ∀ z part, z + j + k = m → part <+: List.replicate j false ++ (true :: code) →
      part ≠ List.replicate j false ++ (true :: code) → readRun k room z part = .short := by
  induction j with
  | zero =>
    intro z part hz hpre hne
    cases part with
    | nil => rfl
    | cons b part =>
      obtain ⟨rfl, tail⟩ := List.cons_prefix_cons.1 (show b :: part <+: true :: code from hpre)
      have hlt : part.length < z + k := by
        rcases Nat.lt_or_ge part.length code.length with h | h
        · omega
        · exact absurd (congrArg (true :: ·) (tail.eq_of_length_le h)) hne
      rw [readRun, if_pos hlt]
  | succ j ih =>
    intro z part hz hpre hne
    cases part with
    | nil => rfl
    | cons b part =>
      obtain ⟨rfl, tail⟩ := List.cons_prefix_cons.1
        (show b :: part <+: false :: (List.replicate j false ++ (true :: code)) from hpre)
      have hle : 2 ^ (z + 1 + k) ≤ 2 ^ m := Nat.pow_le_pow_right (by decide) (by omega)
      rw [readRun, if_neg (by omega)]
      exact ih (z + 1) part (by omega) tail fun h => hne (congrArg (false :: ·) h)

/-- A run code cut short has run out of bits (R14). -/
theorem readRun_runCode_cut {k v room : Nat} {part : List Bool} (hv : v ≤ room) (hpre : part <+: runCode k v)
    (hne : part ≠ runCode k v) : readRun k room 0 part = .short := by
  obtain ⟨hk, hm⟩ := runCode_order k v
  rw [runCode_eq] at hpre hne
  exact readRun_cut (bitsOf_length _ _) (by omega) _ 0 part (by omega) hpre hne

/-! ## The runs accepted before it (R5, R13, R14) -/

/-- The colour after `n` runs, the first of colour `black` (R5). -/
def colourAfter : (n : Nat) → (black : Bool) → Bool
  | 0, black => black
  | n + 1, black => colourAfter n (!black)

/-- Every second run has the first one's colour. -/
theorem colourAfter_eq (n : Nat) (b : Bool) : colourAfter n b = if n % 2 = 0 then b else !b := by
  induction n generalizing b with
  | zero => rfl
  | succ n ih =>
    rw [colourAfter, ih, Bool.not_not]
    by_cases h : n % 2 = 0
    · rw [if_pos h, if_neg (by omega)]
    · rw [if_neg h, if_pos (by omega)]

/-- The order of the run code after `n` runs of a line (R4). -/
theorem runOrder_colourAfter (n : Nat) : runOrder (colourAfter n false) = if n % 2 = 0 then 3 else 1 := by
  rw [colourAfter_eq]; split <;> rfl

/-- Runs that do not reach the width are accepted, and reading goes on after them. -/
theorem readRuns_runCodes_append {w : Nat} (next : List Bool) (runs : List Nat) :
    ∀ (fuel : Nat) (b : Bool) (accepted : List Nat), accepted.sum + runs.sum < w →
      (∀ r ∈ runs.tail, 0 < r) → (accepted ≠ [] → ∀ r ∈ runs, 0 < r) →
      readRuns w (fuel + runs.length) b accepted (runCodes b runs ++ next) =
        readRuns w fuel (colourAfter runs.length b) (accepted ++ runs) next := by
  induction runs with
  | nil => intro fuel b accepted _ _ _; rw [List.append_nil]; rfl
  | cons r runs ih =>
    intro fuel b accepted hs ht hp
    rw [List.sum_cons] at hs
    have hz : ¬ (r = 0 ∧ accepted ≠ []) := by
      rintro ⟨hr, ha⟩; have := hp ha r List.mem_cons_self; omega
    rw [List.length_cons, ← Nat.add_assoc, readRuns, runCodes, List.append_assoc, readRun_runCode _ _ _ _ (by omega)]
    dsimp only
    rw [if_neg hz, if_neg (by omega), ih fuel (!b) (accepted ++ [r]) (by simp; omega)
      (fun x hx => ht x (List.mem_of_mem_tail hx)) (fun _ => ht), List.append_assoc]
    rfl

/-- The runs accepted, and white after them (R14). -/
theorem partRuns_eq {w : Nat} {runs : List Nat} (h : runs.sum ≤ w) :
    partRuns w runs = layRuns false runs ++ List.replicate (w - runs.sum) false := by
  unfold partRuns padBits
  rw [layRuns_length, List.take_of_length_le (by rw [layRuns_length]; exact h)]

section
variable {w left : Nat} {ref next : List Bool} {runs : List Nat} (hs : runs.sum < w) (ht : ∀ r ∈ runs.tail, 0 < r)
include hs ht

/-- Reading on in a RUNS code after runs that do not reach the width: some fuel is left. -/
theorem readRuns_after : ∃ fuel,
    readRuns w ((runCodes false runs ++ next).length + 1) false [] (runCodes false runs ++ next) =
      readRuns w (fuel + 1) (colourAfter runs.length false) runs next := by
  have hlen := runCodes_length false runs
  refine ⟨(runCodes false runs ++ next).length - runs.length, ?_⟩
  have h := readRuns_runCodes_append next runs ((runCodes false runs ++ next).length - runs.length + 1) false []
    (by simpa using hs) ht (absurd rfl)
  rw [List.nil_append] at h
  rw [← h]
  congr 1
  rw [List.length_append]; omega

/-- A RUNS code corrupt after some runs leaves them, and white (R13, R14). -/
theorem readCode_runs_bad (h : ∀ fuel, readRuns w (fuel + 1) (colourAfter runs.length false) runs next = .bad runs) :
    readCode w ref left ([true, false] ++ runCodes false runs ++ next) =
      .bad (layRuns false runs ++ List.replicate (w - runs.sum) false) := by
  obtain ⟨fuel, hf⟩ := readRuns_after (next := next) hs ht
  show readCode w ref left (true :: false :: (runCodes false runs ++ next)) = _
  simp only [readCode, hf, h, partRuns_eq (Nat.le_of_lt hs)]

/-- A RUNS code whose bits run out after some runs leaves them, and white (R14). -/
theorem readCode_runs_short (h : ∀ fuel, readRuns w (fuel + 1) (colourAfter runs.length false) runs next = .short runs) :
    readCode w ref left ([true, false] ++ runCodes false runs ++ next) =
      .short (layRuns false runs ++ List.replicate (w - runs.sum) false) := by
  obtain ⟨fuel, hf⟩ := readRuns_after (next := next) hs ht
  show readCode w ref left (true :: false :: (runCodes false runs ++ next)) = _
  simp only [readCode, hf, h, partRuns_eq (Nat.le_of_lt hs)]

end

/-! ## Transitions accepted before corruption (R6, R13, R14) -/

/-- A transition that keeps to the line and rises is accepted (R6, R12). -/
theorem readDeltas_cons_ok {w r t : Nat} {accepted : List Nat} {code : List Bool} (rs : List Nat) (rest : List Bool)
    (hc : offsetCode ((t : Int) - (r : Int)) = some code) (hw : t < w) (hlast : ∀ q ∈ accepted, q < t) :
    readDeltas w (r :: rs) accepted (code ++ rest) = readDeltas w rs (accepted ++ [t]) rest := by
  have hin : (r : Int) + ((t : Int) - (r : Int)) = (t : Int) := by omega
  rw [readDeltas, readOffset_offsetCode _ _ _ hc]
  dsimp only
  rw [hin, Int.toNat_natCast]
  refine if_pos ⟨?_, by omega⟩
  split
  · next q hq => have := hlast q (List.mem_of_getLast? hq); omega
  · omega

/-- A transition outside the line, or not above the last, is corruption (R13). -/
theorem readDeltas_cons_bad {w r : Nat} {accepted : List Nat} {d : Int} {code : List Bool} (rs : List Nat)
    (rest : List Bool) (hc : offsetCode d = some code)
    (h : (r : Int) + d < 0 ∨ (w : Int) ≤ r + d ∨ ∃ q, accepted.getLast? = some q ∧ (r : Int) + d ≤ q) :
    readDeltas w (r :: rs) accepted (code ++ rest) = .bad accepted := by
  rw [readDeltas, readOffset_offsetCode _ _ _ hc]
  refine if_neg fun ⟨hlow, hhigh⟩ => ?_
  rcases h with h | h | ⟨q, hq, h⟩
  · split at hlow <;> omega
  · omega
  · rw [hq] at hlow; dsimp only at hlow; omega

/-- Transitions that keep to the line and rise are accepted, and reading goes on after them. -/
theorem readDeltas_offsetCodes_append {w : Nat} (rs : List Nat) (next : List Bool) (before : List Nat) :
    ∀ (ts accepted : List Nat) (codes : List Bool), offsetCodes before ts = some codes → (∀ t ∈ ts, t < w) →
      (accepted ++ ts).Pairwise (· < ·) →
      readDeltas w (before ++ rs) accepted (codes ++ next) = readDeltas w rs (accepted ++ ts) next := by
  induction before with
  | nil =>
    intro ts accepted codes h _ _
    cases ts with
    | nil => cases h; rw [List.append_nil]; rfl
    | cons t ts => cases h
  | cons r before ih =>
    intro ts accepted codes h hw hp
    cases ts with
    | nil => cases h
    | cons t ts =>
      rw [offsetCodes] at h
      split at h
      · next a b ha hb =>
        cases h
        have hlast : ∀ q ∈ accepted, q < t := fun q hq => (List.pairwise_append.1 hp).2.2 q hq t List.mem_cons_self
        rw [List.append_cons] at hp
        rw [List.cons_append, List.append_assoc, readDeltas_cons_ok _ _ ha (hw t List.mem_cons_self) hlast,
          ih ts (accepted ++ [t]) b hb (fun x hx => hw x (List.mem_cons_of_mem _ hx)) hp, ← List.append_cons]
      · cases h

/-- Only the offsets -3 to 3 have a code (R6). -/
theorem offsetCode_mem {d : Int} {code : List Bool} (h : offsetCode d = some code) :
    code ∈ ([0, 1, -1, 2, -2, 3, -3] : List Int).filterMap offsetCode := by
  refine List.mem_filterMap.2 ⟨d, ?_, h⟩
  unfold offsetCode at h
  grind

/-- An offset code cut short has run out of bits (R14): of each of the seven, each of its beginnings. -/
theorem readOffset_cut {d : Int} {code part : List Bool} (hc : offsetCode d = some code) (hpre : part <+: code)
    (hne : part ≠ code) : readOffset part = .short := by
  have table : ∀ code ∈ ([0, 1, -1, 2, -2, 3, -3] : List Int).filterMap offsetCode, ∀ i, i < code.length →
      readOffset (code.take i) = .short := by decide
  have hlt : part.length < code.length := Nat.lt_of_not_le fun h => hne (hpre.eq_of_length_le h)
  rw [List.prefix_iff_eq_take.1 hpre]
  exact table code (offsetCode_mem hc) part.length hlt

/-- The runs up to a last transition, and the one after it. -/
theorem runsFrom_concat (w q : Nat) (ts : List Nat) (s : Nat) :
    runsFrom w s (ts ++ [q]) = runsFrom q s ts ++ [w - q] := by
  induction ts generalizing s with
  | nil => rfl
  | cons t ts ih => rw [List.cons_append, runsFrom, ih, runsFrom, List.cons_append]

/-- The runs between rising transitions sum to the end they run to. -/
theorem runsFrom_sum {q : Nat} (ts : List Nat) (s : Nat) (hs : s ≤ q) (h : ∀ t ∈ ts, s ≤ t)
    (hp : (ts ++ [q]).Pairwise (· < ·)) : (runsFrom q s ts).sum = q - s := by
  induction ts generalizing s with
  | nil => simp [runsFrom]
  | cons t ts ih =>
    obtain ⟨ht, hp⟩ := List.pairwise_cons.1 hp
    have htq := ht q (by simp)
    have hst := h t List.mem_cons_self
    rw [runsFrom, List.sum_cons, ih t (Nat.le_of_lt htq) (fun x hx => Nat.le_of_lt (ht x (by simp [hx]))) hp]
    omega

/-- Runs laid after runs. -/
theorem layRuns_append (b : Bool) (xs ys : List Nat) :
    layRuns b (xs ++ ys) = layRuns b xs ++ layRuns (colourAfter xs.length b) ys := by
  induction xs generalizing b with
  | nil => rfl
  | cons x xs ih => rw [List.cons_append, layRuns, ih, layRuns, List.append_assoc]; rfl

/-- The line that corruption leaves has the page's width. -/
theorem partTransitions_length (w : Nat) (ts : List Nat) : (partTransitions w ts).length = w := by
  unfold partTransitions; split
  · exact padBits_length _ _
  · exact List.length_replicate

/-- The line that corruption leaves is the line of its accepted transitions up to the last of them, then white (R14). -/
theorem partTransitions_getD {w : Nat} {ts : List Nat} (hp : ts.Pairwise (· < ·)) {x : Nat} (hx : x < w) :
    (partTransitions w ts).getD x false = match ts.getLast? with
      | some q => decide (x < q) && (lineOf w ts).getD x false
      | none => false := by
  unfold partTransitions
  cases hlast : ts.getLast? with
  | none => simp [whiteLine, hx]
  | some q =>
    obtain ⟨ts, rfl⟩ := List.getLast?_eq_some_iff.1 hlast
    have hlen : (lineOf q ts).length = q := by
      rw [lineOf, layRuns_length, runsFrom_sum ts 0 (Nat.zero_le _) (fun _ _ => Nat.zero_le _) hp, Nat.sub_zero]
    have hline : lineOf w (ts ++ [q]) = lineOf q ts ++ layRuns (colourAfter (runsFrom q 0 ts).length false) [w - q] := by
      unfold lineOf; rw [runsFrom_concat, layRuns_append]
    simp only [List.dropLast_concat, padBits_getD _ _ _ hx, hline]
    by_cases h : x < q
    · rw [List.getD_eq_getElem?_getD, List.getD_eq_getElem?_getD, List.getElem?_append_left (hlen.symm ▸ h),
        decide_eq_true h, Bool.true_and]
    · rw [List.getD_eq_getElem?_getD, List.getElem?_eq_none (by omega), decide_eq_false h, Bool.false_and]
      rfl

end Sys2Proof.Machine
end

section
/-! PROOFS. Store coding (01): a page decodes to the lines that were coded, a corrupt one to what was accepted and then
white (R7 to R9, R12 to R14). -/

namespace Sys2Proof.Machine

/-! ## Corrupt codes (R13, R14) -/

section
variable {w left r : Nat} {ref codes next : List Bool} {before accepted rs : List Nat}
  (href : transitions ref = before ++ r :: rs) (hcodes : offsetCodes before accepted = some codes)
  (hrise : accepted.Pairwise (· < ·)) (hin : ∀ t ∈ accepted, t < w)
include href hcodes hrise hin

/-- A DELTA code corrupt after some transitions leaves the line up to the last of them, and white (R13, R14). -/
theorem readCode_deltas_bad (h : readDeltas w (r :: rs) accepted next = .bad accepted) :
    readCode w ref left ([true, true] ++ codes ++ next) = .bad (partTransitions w accepted) := by
  have hread := readDeltas_offsetCodes_append (r :: rs) next before accepted [] codes hcodes hin (by simpa using hrise)
  rw [List.nil_append, h, ← href] at hread
  show readCode w ref left (true :: true :: (codes ++ next)) = _
  simp only [readCode, hread]
  exact if_neg (by rw [href]; simp)

/-- A DELTA code whose bits run out after some transitions leaves the same (R14). -/
theorem readCode_deltas_short (h : readDeltas w (r :: rs) accepted next = .short accepted) :
    readCode w ref left ([true, true] ++ codes ++ next) = .short (partTransitions w accepted) := by
  have hread := readDeltas_offsetCodes_append (r :: rs) next before accepted [] codes hcodes hin (by simpa using hrise)
  rw [List.nil_append, h, ← href] at hread
  show readCode w ref left (true :: true :: (codes ++ next)) = _
  simp only [readCode, hread]
  exact if_neg (by rw [href]; simp)

end

/-- A DELTA code against a line without transitions is corrupt (R13). -/
theorem readCode_delta_no_transition {w left : Nat} {ref : List Bool} (rest : List Bool) (h : transitions ref = []) :
    readCode w ref left ([true, true] ++ rest) = .bad (whiteLine w) := by
  show readCode w ref left (true :: true :: rest) = _
  simp only [readCode, if_pos h]

/-- A SAME code cut short has run out of bits (R14). -/
theorem readCode_same_cut {w left : Nat} {ref part : List Bool} (h : part.length < 6) :
    readCode w ref left ([false, true] ++ part) = .short (whiteLine w) := by
  show readCode w ref left (false :: true :: part) = _
  simp only [readCode, if_pos h]

/-- A tag cut short has run out of bits (R14). -/
theorem readCode_tag_cut {w left : Nat} {ref part : List Bool} (h : part.length < 2) :
    readCode w ref left part = .short (whiteLine w) := by
  match part, h with
  | [], _ => rfl
  | [false], _ => rfl
  | [true], _ => rfl

/-! ## The decoder's next line (R12 to R14) -/

section
variable {src : Source} {d : Decoder}

/-- Once corrupt, a page is white to its end (R14). -/
theorem decodedLines_corrupt (n : Nat) (h : d.corrupt = true) :
    decodedLines src n d = List.replicate n (whiteLine src.width) := by
  induction n generalizing d with
  | zero => rfl
  | succ n ih =>
    have hnext : d.next src = .line (whiteLine src.width) d.step false := if_pos h
    rw [decodedLines, hnext, List.replicate_succ]
    exact congrArg _ (ih (d := d.step) h)

/-- A repeat still owed is the reference line (R12). -/
theorem Decoder.next_again {n : Nat} (hc : d.corrupt = false) (ha : d.again = n + 1) :
    d.next src = .line d.ref { d with produced := d.produced + 1, again := n } false := by
  unfold Decoder.next; rw [if_neg (Bool.eq_false_iff.1 hc), if_pos (by omega), ha]; rfl

/-- With nothing owed the next code is read: a line (R12). -/
theorem Decoder.next_line {pels rest : List Bool} {again : Nat} {newRef : Bool} (hc : d.corrupt = false)
    (ha : d.again = 0)
    (hread : readCode src.width d.ref (src.lines - d.produced) (d.held.take (src.bitLength - d.pos)) =
      .line pels rest again newRef) :
    let used := (d.held.take (src.bitLength - d.pos)).length - rest.length
    d.next src = .line pels { d with
      ref := if newRef then pels else d.ref, pos := d.pos + used, held := d.held.drop used, again := again
      produced := d.produced + 1 } false := by
  unfold Decoder.next
  rw [if_neg (Bool.eq_false_iff.1 hc), if_neg (by omega)]
  simp only [hread, Decoder.step]

/-- Corruption in a code, or the stream's end in it (R13, R14). -/
theorem Decoder.next_corrupt {pels : List Bool} (hc : d.corrupt = false) (ha : d.again = 0)
    (hread : let read := readCode src.width d.ref (src.lines - d.produced) (d.held.take (src.bitLength - d.pos))
      read = .bad pels ∨ read = .short pels ∧ src.bitLength ≤ d.pos + d.held.length) :
    d.next src = .line pels { d with produced := d.produced + 1, corrupt := true } true := by
  unfold Decoder.next
  rw [if_neg (Bool.eq_false_iff.1 hc), if_neg (by omega)]
  rcases hread with h | ⟨h, hend⟩
  · simp only [h, Decoder.step]
  · simp only [h, if_pos hend, Decoder.step]

/-- The rest of a page of which the decoder holds the whole stream is as many lines as are asked for (R12, R14). -/
theorem decodedLines_length (n : Nat) (h : src.bitLength ≤ d.pos + d.held.length) :
    (decodedLines src n d).length = n := by
  induction n generalizing d with
  | zero => rfl
  | succ n ih =>
    suffices hnext : ∃ pels d' met, d.next src = .line pels d' met ∧ src.bitLength ≤ d'.pos + d'.held.length by
      obtain ⟨pels, d', met, hd, h'⟩ := hnext
      rw [decodedLines, hd]
      exact congrArg (· + 1) (ih h')
    by_cases hc : d.corrupt = true
    · exact ⟨_, d.step, _, if_pos hc, h⟩
    · rw [Bool.not_eq_true] at hc
      cases ha : d.again with
      | succ k => exact ⟨_, _, _, Decoder.next_again hc ha, h⟩
      | zero =>
        cases hread : readCode src.width d.ref (src.lines - d.produced) (d.held.take (src.bitLength - d.pos)) with
        | line pels rest again newRef =>
          refine ⟨_, _, _, Decoder.next_line hc ha hread, ?_⟩
          simp only [List.length_drop, List.length_take]
          omega
        | bad pels => exact ⟨_, _, _, Decoder.next_corrupt hc ha (.inl hread), h⟩
        | short pels => exact ⟨_, _, _, Decoder.next_corrupt hc ha (.inr ⟨hread, h⟩), h⟩

end

/-! ## A page's stream decodes to its lines (R7 to R9, R12) -/

/-- A decoder between two codes of a page whose stream it holds to the end: `ref` is its reference line, `bits` are the
bits left of the stream and `n` the lines left of the page. -/
structure Decoder.Between (d : Decoder) (src : Source) (ref bits : List Bool) (n : Nat) : Prop where
  sound : d.corrupt = false
  owes : d.again = 0
  ref_eq : d.ref = ref
  held_eq : d.held = bits
  bitLength_eq : src.bitLength = d.pos + bits.length
  lines_eq : src.lines = d.produced + n

section
variable {src : Source} {d : Decoder} {ref bits rest : List Bool} {n m : Nat}

/-- Between two codes a code that reads as a line gives it, and no bit of what follows is taken (R12). -/
theorem Decoder.Between.code (h : d.Between src ref (bits ++ rest) (m + 1)) {pels : List Bool} {again : Nat}
    {newRef : Bool} (hread : readCode src.width ref (m + 1) (bits ++ rest) = .line pels rest again newRef) :
    decodedLines src (m + 1) d = pels :: decodedLines src m { d with
      ref := if newRef then pels else ref, pos := d.pos + bits.length, held := rest, again := again
      produced := d.produced + 1 } := by
  obtain ⟨hc, ha, rfl, hheld, hbits, hlines⟩ := h
  have htake : d.held.take (src.bitLength - d.pos) = bits ++ rest := by rw [hheld, List.take_of_length_le (by omega)]
  have hused : (d.held.take (src.bitLength - d.pos)).length - rest.length = bits.length := by
    rw [htake, List.length_append]; omega
  have hdrop : d.held.drop bits.length = rest := by rw [hheld, List.drop_left]
  rw [← htake, show m + 1 = src.lines - d.produced by omega] at hread
  rw [decodedLines, Decoder.next_line hc ha hread]
  simp only [hused, hdrop]

/-- The code of a line gives the line, and it becomes the reference line (R12). -/
theorem Decoder.Between.line {line : List Bool} (h : d.Between src ref (lineCode ref line ++ rest) (m + 1))
    (hl : line.length = src.width) :
    ∃ d' : Decoder, d'.Between src line rest m ∧ decodedLines src (m + 1) d = line :: decodedLines src m d' := by
  refine ⟨_, ?_, h.code (readCode_lineCode rest hl)⟩
  obtain ⟨hc, -, -, -, hbits, hlines⟩ := h
  rw [List.length_append] at hbits
  exact ⟨hc, rfl, rfl, rfl, by dsimp only; omega, by dsimp only; omega⟩

/-- The repeats still owed are the reference line (R12). -/
theorem decodedLines_again (hc : d.corrupt = false) (ha : d.again = n) : decodedLines src (n + m) d =
    List.replicate n d.ref ++ decodedLines src m { d with again := 0, produced := d.produced + n } := by
  induction n generalizing d with
  | zero => cases d; cases ha; rw [Nat.zero_add]; rfl
  | succ n ih =>
    have hrest := ih (d := { d with produced := d.produced + 1, again := n }) hc rfl
    rw [show n + 1 + m = n + m + 1 by omega, decodedLines, Decoder.next_again hc ha]
    dsimp only at hrest ⊢
    rw [hrest, List.replicate_succ, List.cons_append, Nat.add_assoc, Nat.add_comm 1]

/-- A SAME code gives the reference line as often as it says (R12). -/
theorem Decoder.Between.same (h : d.Between src ref (sameCode n ++ rest) (n + m)) (h1 : 1 ≤ n) (h64 : n ≤ 64) :
    ∃ d' : Decoder, d'.Between src ref rest m
      ∧ decodedLines src (n + m) d = List.replicate n ref ++ decodedLines src m d' := by
  obtain ⟨k, rfl⟩ : ∃ k, n = k + 1 := ⟨n - 1, by omega⟩
  rw [show k + 1 + m = k + m + 1 by omega] at h ⊢
  have hread : readCode src.width ref (k + m + 1) (sameCode (k + 1) ++ rest) = .line ref rest k false := by
    rw [readCode_sameCode _ _ _ h1 h64, if_neg (by omega)]; rfl
  rw [h.code hread, decodedLines_again (n := k) ?sound rfl]
  case sound => exact h.sound
  obtain ⟨hc, -, -, -, hbits, hlines⟩ := h
  rw [List.length_append] at hbits
  refine ⟨_, ?_, rfl⟩
  exact ⟨hc, rfl, rfl, rfl, by dsimp only; omega, by dsimp only; omega⟩

/-- An open SAME run emitted gives the lines it stands for (R8, R9). -/
theorem Decoder.Between.openRun
    (h : d.Between src ref ((if n = 0 then [] else sameCode n) ++ rest) (n + m)) (h64 : n ≤ 64) :
    ∃ d' : Decoder, d'.Between src ref rest m
      ∧ decodedLines src (n + m) d = List.replicate n ref ++ decodedLines src m d' := by
  split at h
  · next h0 => subst h0; rw [Nat.zero_add] at h ⊢; exact ⟨d, h, rfl⟩
  · exact h.same (by omega) h64

end

section
variable {k : Coder} {line : List Bool} (lines : List (List Bool))

/-- A line like the reference line that makes the open run 64 long has it emitted (R8). -/
theorem pageStreamFrom_same_full (h : line = k.ref) (hrun : k.run + 1 = 64) :
    pageStreamFrom k (line :: lines) = sameCode 64 ++ pageStreamFrom { k with run := 0 } lines := by
  rw [pageStreamFrom, Coder.take, if_pos h, if_pos hrun]
  simp [sameLineCode]

/-- Another line like the reference line joins the open run (R8). -/
theorem pageStreamFrom_same (h : line = k.ref) (hrun : k.run + 1 ≠ 64) :
    pageStreamFrom k (line :: lines) = pageStreamFrom { k with run := k.run + 1 } lines := by
  rw [pageStreamFrom, Coder.take, if_pos h, if_neg hrun]
  simp

/-- A line that differs has the open run emitted and then its own code, and becomes the reference line (R8). -/
theorem pageStreamFrom_line (h : line ≠ k.ref) : pageStreamFrom k (line :: lines) =
    (if k.run = 0 then [] else sameCode k.run) ++
      (lineCode k.ref line ++ pageStreamFrom { k with run := 0, ref := line } lines) := by
  rw [pageStreamFrom, Coder.take, if_neg h]
  by_cases h0 : k.run = 0
  · simp [h0]
  · simp [h0, Nat.pos_of_ne_zero h0, sameLineCode]

end

/-- A decoder that holds what the coder gives for some lines, with its open run before them, produces the run's lines
and then those lines (R7 to R9, R12). -/
theorem decodedLines_pageStreamFrom {src : Source} (lines : List (List Bool)) :
    ∀ (k : Coder) (d : Decoder), k.run < 64 → (∀ x ∈ lines, x.length = src.width) →
      d.Between src k.ref (pageStreamFrom k lines) (k.run + lines.length) →
      decodedLines src (k.run + lines.length) d = List.replicate k.run k.ref ++ lines := by
  induction lines with
  | nil =>
    intro k d hrun _ h
    rw [pageStreamFrom, ← List.append_nil (ite ..)] at h
    obtain ⟨d', -, hd⟩ := h.openRun (by omega)
    exact hd
  | cons line lines ih =>
    intro k d hrun hl h
    have hl' : ∀ x ∈ lines, x.length = src.width := fun x hx => hl x (List.mem_cons_of_mem _ hx)
    rw [List.length_cons] at h ⊢
    by_cases hsame : line = k.ref
    · rw [show k.run + (lines.length + 1) = k.run + 1 + lines.length by omega] at h ⊢
      rw [List.append_cons, hsame, ← List.replicate_succ']
      by_cases hfull : k.run + 1 = 64
      · rw [pageStreamFrom_same_full lines hsame hfull, hfull] at h
        obtain ⟨d', hd', hd⟩ := h.same (by omega) (by omega)
        rw [hfull, hd]
        congr 1
        have := ih { k with run := 0 } d' (Nat.zero_lt_succ _) hl' (by rwa [Nat.zero_add])
        rwa [Nat.zero_add] at this
      · rw [pageStreamFrom_same lines hsame hfull] at h
        exact ih { k with run := k.run + 1 } d (by dsimp only; omega) hl' h
    · rw [pageStreamFrom_line lines hsame] at h
      obtain ⟨d₁, h₁, hd₁⟩ := h.openRun (by omega)
      obtain ⟨d₂, h₂, hd₂⟩ := h₁.line (hl line List.mem_cons_self)
      rw [hd₁, hd₂]
      have := ih { k with run := 0, ref := line } d₂ (Nat.zero_lt_succ _) hl' (by rwa [Nat.zero_add])
      rw [Nat.zero_add] at this
      rw [this]
      rfl

/-- A page of which the decoder holds the whole stream decodes to the lines that were coded (R7 to R9, R12). -/
theorem decodedLines_pageStream {w : Nat} {lines : List (List Bool)} (hl : ∀ x ∈ lines, x.length = w) :
    decodedLines ⟨0, w, 1, lines.length, (pageStream w lines).length, [], false⟩ lines.length
      { Decoder.start w with held := pageStream w lines } = lines := by
  have h := decodedLines_pageStreamFrom (src := ⟨0, w, 1, lines.length, (pageStream w lines).length, [], false⟩) lines
    (Coder.start w) { Decoder.start w with held := pageStream w lines } (Nat.zero_lt_succ _) hl
    ⟨rfl, rfl, rfl, rfl, (Nat.zero_add _).symm, by dsimp only [Coder.start, Decoder.start, Decoder.blank]; omega⟩
  rw [show (Coder.start w).run = 0 from rfl, Nat.zero_add] at h
  exact h

/-- Settles O56: the codes of a page read back one by one; a corrupt code leaves what was accepted of its line. -/
theorem pageDecodesToItsLines : Obligations.PageDecodesToItsLines := by
  unfold Obligations.PageDecodesToItsLines
  refine ⟨fun w lines _ hl => decodedLines_pageStream hl, fun w left ref _ _ => ⟨fun runs hs ht => ?_,
    fun before accepted rs r codes href hcodes hrise hin => ?_, fun rest => readCode_delta_no_transition rest,
    fun n rest h1 h64 hleft => ?_, fun part => readCode_same_cut, fun part => readCode_tag_cut⟩,
    fun src d => ⟨fun pels => Decoder.next_corrupt, fun n => decodedLines_corrupt n⟩,
    fun w n bits => decodedLines_length n (Nat.le_add_left _ _)⟩
  · refine ⟨fun v rest hv => ?_, fun z rest hz => ?_, fun rest hne => ?_, fun v part hv hpre hne => ?_⟩
    · refine readCode_runs_bad hs ht fun fuel => ?_
      rw [readRuns, runOrder_colourAfter, readRun_runCode_past rest (by omega)]
    · refine readCode_runs_bad hs ht fun fuel => ?_
      rw [readRuns, runOrder_colourAfter, readRun_zeros_pass rest z 0 (by rw [Nat.zero_add]; omega)
        (by rw [Nat.zero_add]; omega)]
    · refine readCode_runs_bad hs ht fun fuel => ?_
      rw [readRuns, runOrder_colourAfter, readRun_runCode _ _ _ _ (Nat.zero_le _)]
      exact if_pos ⟨rfl, hne⟩
    · refine readCode_runs_short hs ht fun fuel => ?_
      rw [readRuns, runOrder_colourAfter, readRun_runCode_cut (by omega) hpre hne]
  · refine ⟨partTransitions w accepted, partTransitions_length w accepted, fun x hx => partTransitions_getD hrise hx,
      fun rest => ?_, fun d code rest hd hout => ?_, fun d code part hd hpre hne => ?_⟩
    · exact readCode_deltas_bad href hcodes hrise hin rfl
    · exact readCode_deltas_bad href hcodes hrise hin (readDeltas_cons_bad rs rest hd hout)
    · exact readCode_deltas_short href hcodes hrise hin (by rw [readDeltas, readOffset_cut hd hpre hne])
  · rw [readCode_sameCode left ref rest h1 h64, if_pos hleft]

end Sys2Proof.Machine
end

section
/-! PROOFS. The blocks of the page store at the M-port (01 R10, 05 R84, 06 R98). -/

namespace Sys2Proof.Machine

/-- A bit of bits written as bytes, as memory then holds it (01 R10). -/
theorem memRead_bitsToBytes {m : List Host.Cell} (hm : memWf m = true) (a n : Nat) (bits : List Bool) {i : Nat}
    (hi : i < 8 * n) :
    (memRead (memWriteBytes m a (bitsToBytes n bits)) (a + i / 8)).getLsbD (7 - i % 8) = bits.getD i false := by
  have hk : i / 8 < (bitsToBytes n bits).length := by rw [bitsToBytes_length]; omega
  rw [memRead_memWriteBytes_self a _ hm hk, ← bitsToBytes_getLsbD n bits i hi,
    List.getD_eq_getElem?_getD, List.getElem?_eq_getElem hk, Option.getD_some]

/-- A bit of the bytes read from memory (01 R10). -/
theorem bytesToBits_memReadBytes (m : List Host.Cell) (a n : Nat) {i : Nat} (hi : i < 8 * n) :
    (bytesToBits (memReadBytes m a n)).getD i false = (memRead m (a + i / 8)).getLsbD (7 - i % 8) := by
  rw [bytesToBits_getD _ _ (by rwa [memReadBytes_length]), memReadBytes_getD _ _ _ _ (by omega)]

/-- A BLOCK_WRITE served (05 R84). -/
theorem exec_blockWriteComplete {s : State} {c r a : Nat} {bits : List Bool}
    (h : s.chip.mport.busy = some (.engine (.blockWrite c r a bits))) :
    exec .blockWriteComplete s = .next { s with
      mem := memWriteBytes s.mem a (bitsToBytes 1024 bits), chip := s.chip.freePort.blockWritten c } := by
  show execBlockWriteComplete s = _
  unfold execBlockWriteComplete; rw [h]

/-- A BLOCK_READ served (06 R98). -/
theorem exec_blockReadComplete {s : State} {c r a : Nat} (h : s.chip.mport.busy = some (.engine (.blockRead c r a))) :
    exec .blockReadComplete s = .next { s with
      chip := s.chip.freePort.blockRead c r (bytesToBits (memReadBytes s.mem a 1024)) } := by
  show execBlockReadComplete s = _
  unfold execBlockReadComplete; rw [h]

/-- Settles O28: what memory reads after the block's bytes are written, and the bits of the bytes read. -/
theorem blocksCrossThePortWhole : Obligations.BlocksCrossThePortWhole := by
  unfold Obligations.BlocksCrossThePortWhole
  refine ⟨fun s c r a bits _ hm hb => ?_, fun s c r a _ hb => ?_⟩
  · refine ⟨_, exec_blockWriteComplete hb, fun i hi => memRead_bitsToBytes hm a 1024 bits hi, fun x hx => ?_⟩
    exact memRead_memWriteBytes_ne _ _ (by rwa [bitsToBytes_length])
  · exact ⟨_, by rw [bytesToBits_length, memReadBytes_length], fun i hi => bytesToBits_memReadBytes s.mem a 1024 hi,
      exec_blockReadComplete hb⟩

end Sys2Proof.Machine
end

section
/-! PROOFS. Placement of a line's codes in the blocks of the page (01 R10, R11; 05 R84, R85). -/

namespace Sys2Proof.Machine

/-! ## Operations issued, and blocks of the pool (02 R21 to R25, 03 R55) -/

/-- An operation issued by an ingest context joins those of its requester (03 R55). -/
theorem Chip.issueIngest_eq (p : Chip) (c : Nat) (op : EngineOp) :
    p.issueIngest c op = { p with mport := p.withIngestOp c op } := by
  unfold Chip.issueIngest Chip.withIngestOp; split <;> rfl

/-- Two updates of one ingest context are one. -/
theorem Chip.onIng_onIng (p : Chip) {c : Nat} (hc : c < 5) (f g : IngestCtx → IngestCtx) :
    (p.onIng c f).onIng c g = p.onIng c fun x => g (f x) := by
  unfold Chip.onIng Chip.ing; simp only [tget_tset_self _ hc, tset_tset]

/-- The part with the lowest block gone from the pool: the free-blocks word goes out (02 R21, R23). -/
def Chip.blockTaken (p : Chip) (more : List Nat) : Chip :=
  { p with
    store := { p.store with pool := more }
    mport := { p.mport with records := withWord p.mport.records .freeBlocks } }

/-- A pool that loses a block changes the free count (02 R23). -/
theorem Chip.setPool_shorter {p : Chip} {b : Nat} {more : List Nat} (h : p.store.pool = b :: more) :
    p.setPool more = p.blockTaken more := by
  unfold Chip.setPool
  rw [if_neg (by rw [h, List.length_cons]; omega), Chip.issueWord_eq]
  rfl

section
variable {p : Chip} (c d n : Nat)

/-- An empty pool refuses (02 R25). -/
theorem Chip.allocate_empty (h : p.store.pool = []) :
    p.allocate c d n = (none, p.send (.storeFull c d n .blocks)) := by
  unfold Chip.allocate; rw [h]; rfl

/-- The scan reserve refuses a scanned document (02 R24, R25). -/
theorem Chip.allocate_reserved (h : p.store.pool ≠ [])
    (hr : (p.doc d).origin = 0 ∧ p.store.pool.length ≤ p.store.reserve) :
    p.allocate c d n = (none, p.send (.storeFull c d n .reserve)) := by
  obtain ⟨b, more, hpool⟩ := List.exists_cons_of_ne_nil h
  unfold Chip.allocate
  rw [hpool] at hr ⊢
  exact if_pos hr

/-- A granted block leaves the pool; the free-blocks word goes out before STORE_LOW (02 R21, R23, R24; log 37). -/
theorem Chip.allocate_granted {b : Nat} {more : List Nat} (hpool : p.store.pool = b :: more)
    (hr : ¬ ((p.doc d).origin = 0 ∧ p.store.pool.length ≤ p.store.reserve)) :
    ∃ u : Chip, p.allocate c d n = (some b, u) ∧ u.ingest = p.ingest ∧ u.store = { p.store with pool := more }
      ∧ (more.length ≠ p.store.lowMark → u = p.blockTaken more)
      ∧ (more.length = p.store.lowMark → (p.blockTaken more).Told u (.storeLow more.length p.store.lowMark)) := by
  have halloc : p.allocate c d n = (some b, if more.length = p.store.lowMark
      then (p.blockTaken more).send (.storeLow more.length p.store.lowMark) else p.blockTaken more) := by
    rw [← Chip.setPool_shorter hpool]
    unfold Chip.allocate
    rw [hpool] at hr ⊢
    exact if_neg hr
  refine ⟨_, halloc, ?_, ?_, fun h => if_neg h, fun h => ?_⟩
  · split
    · rw [Chip.send_ingest]; rfl
    · rfl
  · split
    · rw [Chip.send_store]; rfl
    · rfl
  · rw [if_pos h]; exact Chip.told_send _ _

end

/-! ## The moves of placement -/

section
variable {p : Chip} {c : Nat} {k : Coder} {code : LineCode} {codes : List LineCode} {rest : List Task}

/-- Every code of the line is placed. -/
theorem Chip.runTask_place_nil (h : (p.ing c).tasks = .place [] :: rest) :
    p.runTask c = some (p.setTasks c rest) := by
  unfold Chip.runTask; dsimp only; rw [h]

/-- The next code of the line is begun, after the bits that stand in the buffer. -/
theorem Chip.runTask_place_cons (h : (p.ing c).tasks = .place (code :: codes) :: rest) :
    p.runTask c = some (p.setTasks c
      (.placing (p.ing c).coderOf.buffer.length code.bits (code :: codes) :: rest)) := by
  unfold Chip.runTask; dsimp only; rw [h]

/-- Placement of a code goes on. -/
theorem Chip.runTask_placing {before : Nat} {bits : List Bool}
    (h : (p.ing c).tasks = .placing before bits codes :: rest) :
    p.runTask c = p.taskPlacing c before bits codes rest := by
  unfold Chip.runTask; dsimp only; rw [h]

/-- A context's coder. -/
theorem IngestCtx.coderOf_eq {x : IngestCtx} (h : x.coder = some k) : x.coderOf = k := by
  unfold IngestCtx.coderOf; rw [h]; rfl

variable (hk : (p.ing c).coder = some k)
include hk

/-- A code whose last bit stands is placed (01 R11). -/
theorem Chip.taskPlacing_placed (before : Nat) :
    p.taskPlacing c before [] (code :: codes) rest = some { p with ingest := tset p.ingest c { p.ing c with
      coder := some { k with
        bitLength := k.bitLength + code.bits.length, placed := k.placed + code.lines, ref := code.ref.getD k.ref }
      tasks := .place codes :: rest } } := by
  unfold Chip.taskPlacing
  rw [if_pos rfl]
  simp only [Chip.onIng, IngestCtx.coderOf_eq hk, Coder.placedCode]

/-- With room in the block buffer the bits go there, as many as it takes (01 R10). -/
theorem Chip.taskPlacing_room {before : Nat} {bits : List Bool} (hb : bits ≠ []) (hroom : k.buffer.length < 8192) :
    p.taskPlacing c before bits codes rest = some { p with ingest := tset p.ingest c { p.ing c with
      coder := some { k with buffer := k.buffer ++ bits.take (8192 - k.buffer.length) }
      tasks := .placing before (bits.drop (8192 - k.buffer.length)) codes :: rest } } := by
  unfold Chip.taskPlacing
  rw [if_neg hb]
  simp only [IngestCtx.coderOf_eq hk]
  exact if_pos (Nat.sub_pos_of_lt hroom)

/-- With the buffer full and a block write of the page in flight the context waits (05 R84). -/
theorem Chip.taskPlacing_waits {before : Nat} {bits : List Bool} (hb : bits ≠ []) (hfull : k.buffer.length = 8192)
    (hw : (p.ing c).blockWrite = true) : p.taskPlacing c before bits codes rest = none := by
  unfold Chip.taskPlacing
  rw [if_neg hb]
  simp only [IngestCtx.coderOf_eq hk, hfull, hw]
  rfl

/-- With the buffer full and no block write in flight the next block is asked for (05 R84). -/
theorem Chip.taskPlacing_asks {before : Nat} {bits : List Bool} (hb : bits ≠ []) (hfull : k.buffer.length = 8192)
    (hw : (p.ing c).blockWrite = false) :
    p.taskPlacing c before bits codes rest = some (p.nextBlock c before bits codes rest) := by
  unfold Chip.taskPlacing
  rw [if_neg hb]
  simp only [IngestCtx.coderOf_eq hk, hfull, hw]
  rfl

/-- The full buffer goes out to the last block of the chain (01 R10, 05 R84). -/
theorem Chip.writeBlock_full {r : Nat} (hp : (p.ing c).page = some r) (hfull : k.buffer.length = 8192) :
    p.writeBlock c = (p.issueIngest c
      (.blockWrite c r (p.store.base + (p.pageRec r).chain.getLastD 0 * 1024) k.buffer)).onIng c
        fun x => { x with blockWrite := true } := by
  have hpad : padBits Config.blockBits k.buffer = k.buffer := by
    unfold padBits
    rw [List.take_of_length_le (Nat.le_of_eq hfull), show Config.blockBits = 8192 from rfl, hfull, Nat.sub_self]
    exact List.append_nil _
  unfold Chip.writeBlock
  simp only [hp, IngestCtx.coderOf_eq hk, hpad, Chip.blockAddress]

end

/-! ## The next block -/

section
variable {p u : Chip} {c r d before : Nat} {k : Coder} {bits : List Bool} {codes : List LineCode} {rest : List Task}
  (hk : (p.ing c).coder = some k) (hp : (p.ing c).page = some r) (hd : (p.ing c).doc = some d)
  (hi : u.ingest = p.ingest)
include hk hp hd hi

/-- Refused, the code is dropped, and the page is TRUNCATED and closes (01 R11, 05 R85). -/
theorem Chip.nextBlock_refused (ha : p.allocate c d (p.pageRec r).number = (none, u)) (hs : u.store = p.store) :
    p.nextBlock c before bits codes rest = { u with
      store := { u.store with pages := tset u.store.pages r { p.pageRec r with truncated := true } }
      ingest := tset u.ingest c { p.ing c with
        coder := some { k with buffer := k.buffer.take before, run := 0 }, lineTotal := k.placed, phase := .closing
        tasks := rest } } := by
  have hing : u.ing c = p.ing c := by unfold Chip.ing; rw [hi]
  have hrec : u.pageRec r = p.pageRec r := by unfold Chip.pageRec; rw [hs]
  have hnext : p.nextBlock c before bits codes rest = u.dropCode c before rest := by
    unfold Chip.nextBlock; simp only [hp, hd, Option.getD_some, ha]
  have hopen (f : PageRecord → PageRecord) : u.onOpenPage c f = u.onPage r f := by
    unfold Chip.onOpenPage; rw [hing, hp]
  rw [hnext, ← hing, ← hrec]
  obtain rfl : (u.ing c).coderOf = k := IngestCtx.coderOf_eq (hing ▸ hk)
  unfold Chip.dropCode
  rw [hopen]
  rfl

/-- Granted, the block joins the chain while the full buffer goes out to the block before it (01 R10, 05 R84). -/
theorem Chip.nextBlock_granted {block : Nat} (hc : c < 5) (hfull : k.buffer.length = 8192)
    (ha : p.allocate c d (p.pageRec r).number = (some block, u)) (hpages : u.store.pages = p.store.pages)
    (hbase : u.store.base = p.store.base) :
    p.nextBlock c before bits codes rest = { u with
      mport := u.withIngestOp c (.blockWrite c r (p.store.base + (p.pageRec r).chain.getLastD 0 * 1024) k.buffer)
      store := { u.store with pages := tset u.store.pages r { p.pageRec r with
        chain := (p.pageRec r).chain ++ [block] } }
      ingest := tset u.ingest c { p.ing c with
        blockWrite := true, coder := some { k with buffer := [] }
        tasks := .placing 0 bits codes :: rest } } := by
  have hing : u.ing c = p.ing c := by unfold Chip.ing; rw [hi]
  have hrec : u.pageRec r = p.pageRec r := by unfold Chip.pageRec; rw [hpages]
  have hnext : p.nextBlock c before bits codes rest =
      ((u.writeBlock c).onPage r fun x => { x with chain := x.chain ++ [block] }).onIng c fun x => { x with
        coder := some { x.coderOf with buffer := [] }, tasks := .placing 0 bits codes :: rest } := by
    unfold Chip.nextBlock; simp only [hp, hd, Option.getD_some, ha]
  have hcomm (q : Chip) (f : IngestCtx → IngestCtx) (g : PageRecord → PageRecord) :
      (q.onIng c f).onPage r g = (q.onPage r g).onIng c f := rfl
  rw [hnext, ← hing, ← hrec, ← hbase, Chip.writeBlock_full (hing ▸ hk) (hing ▸ hp) hfull, hcomm, Chip.onIng_onIng _ hc,
    Chip.issueIngest_eq]
  obtain rfl : (u.ing c).coderOf = k := IngestCtx.coderOf_eq (hing ▸ hk)
  rfl

end

/-- Settles O26: each move of a placement, and what the request for the next block comes to. -/
theorem codesFillTheBlocksOfThePage : Obligations.CodesFillTheBlocksOfThePage := by
  unfold Obligations.CodesFillTheBlocksOfThePage
  intro p c k code codes rest hc hk
  refine ⟨fun h => Chip.runTask_place_nil h, fun h => ?_, fun before h => ?_, fun before b bits h => ⟨fun hroom => ?_,
    fun hfull hw => ?_, fun r d hfull hw hp _ hd => ?_⟩⟩
  · rw [Chip.runTask_place_cons h, IngestCtx.coderOf_eq hk]; rfl
  · rw [Chip.runTask_placing h]; exact Chip.taskPlacing_placed hk before
  · rw [Chip.runTask_placing h]; exact Chip.taskPlacing_room hk (List.cons_ne_nil _ _) hroom
  · rw [Chip.runTask_placing h]; exact Chip.taskPlacing_waits hk (List.cons_ne_nil _ _) hfull hw
  · rw [Chip.runTask_placing h, Chip.taskPlacing_asks hk (List.cons_ne_nil _ _) hfull hw]
    refine ⟨_, rfl, fun hpool => ?_, fun hpool hr => ?_, fun block more hpool hr => ?_⟩
    · exact ⟨_, Chip.told_send _ _, Chip.nextBlock_refused hk hp hd (Chip.send_ingest _ _)
        (Chip.allocate_empty c d _ hpool) (Chip.send_store _ _)⟩
    · exact ⟨_, Chip.told_send _ _, Chip.nextBlock_refused hk hp hd (Chip.send_ingest _ _)
        (Chip.allocate_reserved c d _ hpool hr) (Chip.send_store _ _)⟩
    · obtain ⟨u, ha, hi, hs, hne, hlow⟩ := Chip.allocate_granted c d (p.pageRec r).number hpool hr
      exact ⟨u, ⟨hne, hlow⟩, Chip.nextBlock_granted hk hp hd hi hc hfull ha (by rw [hs]) (by rw [hs])⟩

end Sys2Proof.Machine
end

section
/-! PROOFS. A page's lines go through decoder and conversion to the ring (01 R14; 04 R70; 06 R98 to R108). -/

namespace Sys2Proof.Machine

/-! ## A slot issued to the ring (04 R70) -/

/-- An operation issued by a render context joins those of its requester (03 R55). -/
theorem Chip.issueRender_eq (p : Chip) (c : Nat) (op : EngineOp) :
    p.issueRender c op = { p with mport := p.withRenderOp c op } := by
  unfold Chip.issueRender Chip.withRenderOp; split <;> rfl

/-- Updates of a render context that do the same to it as it stands are the same. -/
theorem Chip.onRen_congr (p : Chip) {c : Nat} {f g : RenderCtx → RenderCtx} (h : f (p.ren c) = g (p.ren c)) :
    p.onRen c f = p.onRen c g := by
  unfold Chip.onRen; rw [h]

/-- The part with a SLOT_WRITE issued to the next slot of ring `r` of context `c`, which then stands as `y` with the
ring gone on. -/
def Chip.slotIssued (p : Chip) (c : Nat) (r : RenderRing) (pels : Option (List Bool)) (m : Markers)
    (pageEnd final : Bool) (y : RenderCtx) : Chip :=
  let a := r.base + r.next * r.slotSize
  { p with
    mport := p.withRenderOp c
      (.slotWrite c r.next a (a + r.slotSize - 4) pels m r.sequence pageEnd final false)
    render := tset p.render c { y with ring := some (r.issued m) } }

section
variable {p : Chip} {c : Nat} {r : RenderRing} {pels : Option (List Bool)} {m : Markers} {pageEnd final : Bool}
  {y : RenderCtx}

/-- Issuing a slot of a bound ring (04 R70). -/
theorem Chip.issueSlot_eq (hr : (p.ren c).ring = some r) :
    p.issueSlot c pels m pageEnd final = p.slotIssued c r pels m pageEnd final (p.ren c) := by
  unfold Chip.issueSlot
  rw [hr]
  dsimp only
  rw [Chip.issueRender_eq]
  unfold Chip.onRenRing Chip.onRen
  show ({ p with mport := _, render := tset p.render c { p.ren c with ring := (p.ren c).ring.map _ } } : Chip) = _
  rw [hr]
  rfl

/-- The context after the issue. -/
theorem Chip.slotIssued_ren (hc : c < 5) :
    (p.slotIssued c r pels m pageEnd final y).ren c = { y with ring := some (r.issued m) } := tget_tset_self _ hc _

/-- An update of the context that leaves the ring alone can come before the issue. -/
theorem Chip.slotIssued_onRen (hc : c < 5) {f : RenderCtx → RenderCtx}
    (hf : ∀ x g, f { x with ring := g } = { f x with ring := g }) :
    (p.slotIssued c r pels m pageEnd final y).onRen c f = p.slotIssued c r pels m pageEnd final (f y) := by
  unfold Chip.onRen
  rw [Chip.slotIssued_ren hc, hf]
  unfold Chip.slotIssued
  dsimp only
  rw [tset_tset]

/-! ## When the ring can take a slot (06 R99) -/

/-- Without a ring nothing is handed over. -/
theorem Chip.advance_unbound (h : (p.ren c).ring = none) : p.advance c = p := by
  unfold Chip.advance RenderCtx.canTake; dsimp only; rw [h]; rfl

/-- The ring can take a slot where the next is EMPTY and no SLOT_WRITE is in flight. -/
theorem RenderCtx.canTake_iff {x : RenderCtx} (hr : x.ring = some r) :
    x.canTake = true ↔ r.inFlight = false ∧ (r.slot r.next).st = .empty := by
  unfold RenderCtx.canTake; rw [hr]; simp

/-- A ring that cannot take a slot is handed none. -/
theorem Chip.advance_unable (h : (p.ren c).canTake ≠ true) : p.advance c = p := by
  unfold Chip.advance; dsimp only; rw [Bool.eq_false_iff.2 h]; rfl

/-- A NO-LINE slot to hand over goes first (04 R70). -/
theorem Chip.advance_outgoing (hc : c < 5) (hr : (p.ren c).ring = some r) (hable : (p.ren c).canTake = true)
    (ho : (p.ren c).outgoing = some m) :
    p.advance c = p.slotIssued c r none m false true { p.ren c with outgoing := none } := by
  unfold Chip.advance; dsimp only; rw [hable, ho]
  dsimp only
  rw [Chip.issueSlot_eq hr, Chip.slotIssued_onRen hc fun _ _ => rfl]
  rfl

/-- A context without a page to render hands nothing over (06 R99). -/
theorem Chip.advance_idle (ho : (p.ren c).outgoing = none) (h : (p.ren c).state ≠ .render ∨ (p.ren c).source = none) :
    p.advance c = p := by
  unfold Chip.advance; dsimp only; rw [ho]
  split
  · rfl
  · dsimp only
    split
    · next hst hsrc => exact h.elim (absurd hst) fun hnone => absurd (hsrc.symm.trans hnone) (Option.some_ne_none _)
    · rfl

/-- In RENDER the page's next slot is produced (06 R99). -/
theorem Chip.advance_render {src : Source} (hable : (p.ren c).canTake = true) (ho : (p.ren c).outgoing = none)
    (hs : (p.ren c).state = .render) (hsrc : (p.ren c).source = some src) : p.advance c = p.produce c src := by
  unfold Chip.advance; dsimp only; rw [hable, ho, hs, hsrc]; rfl

end

/-! ## The end slot of a print job's page (06 R107, R108) -/

/-- The context's position is the last page of the job's range. -/
def Chip.AtLast (p : Chip) (c j : Nat) : Prop := (p.job j).last ≠ 0 ∧ (p.ren c).page = (p.job j).last

/-- The page's end slot ends the job: its last copy is at the last page of its range, or of its document (R108). -/
def Chip.EndsJob (p : Chip) (c j : Nat) : Prop :=
  (p.job j).copies ≤ (p.ren c).copyNo
  ∧ (p.AtLast c j ∨ (p.doc (p.job j).doc).pages.length ≤ (p.ren c).page
      ∧ ((p.doc (p.job j).doc).st = .complete ∨ (p.doc (p.job j).doc).st = .doomed))

section
variable {p : Chip} {j : Nat} (hj : (p.ren 0).job = some j)
include hj

/-- A job that ends before its range does ends SHORT (R108). -/
theorem Chip.printFinal_short (h : p.EndsJob 0 j) (hl : ¬ p.AtLast 0 j) (h0 : (p.job j).last ≠ 0)
    (hlt : (p.ren 0).page < (p.job j).last) : p.printFinal = (true, true) := by
  obtain ⟨hcopies, hend⟩ := h
  obtain ⟨hpages, hst⟩ := hend.resolve_left hl
  have hdoc : p.docEnded (p.job j).doc = true := by unfold Chip.docEnded; simpa using hst
  unfold Chip.AtLast at hl
  unfold Chip.printFinal; rw [hj]; dsimp only
  rw [if_neg (by omega), if_neg hl, if_neg (by omega), if_pos hdoc, decide_eq_true ⟨h0, hlt⟩]

/-- A job that ends at the end of its range, or without one, does not end short (R108). -/
theorem Chip.printFinal_full (h : p.EndsJob 0 j)
    (hfull : p.AtLast 0 j ∨ (p.job j).last = 0 ∨ (p.job j).last ≤ (p.ren 0).page) : p.printFinal = (true, false) := by
  obtain ⟨hcopies, hend⟩ := h
  unfold Chip.printFinal; rw [hj]; dsimp only
  rw [if_neg (by omega)]
  split
  · rfl
  · next hl =>
    obtain ⟨hpages, hst⟩ := hend.resolve_left hl
    have hdoc : p.docEnded (p.job j).doc = true := by unfold Chip.docEnded; simpa using hst
    rcases hfull with hfull | hfull
    · exact absurd hfull hl
    · rw [if_neg (by omega), if_pos hdoc, decide_eq_false (by omega)]

/-- Any other end slot does not end the job (R107). -/
theorem Chip.printFinal_not (h : ¬ p.EndsJob 0 j) : p.printFinal = (false, false) := by
  unfold Chip.EndsJob Chip.AtLast at h
  unfold Chip.printFinal Chip.docEnded; rw [hj]; dsimp only
  split
  · rfl
  · split
    · next hcopies hl => exact absurd ⟨by omega, .inl hl⟩ h
    · split
      · rfl
      · split
        · next hcopies hl hpages hdoc =>
          exact absurd ⟨by omega, .inr ⟨by omega, by simpa using hdoc⟩⟩ h
        · rfl

/-- The final end slot handed: PRINT is ENDING, the job SHORT if it ends so (R107, R108). -/
theorem Chip.printHanded_final (short : Bool) : p.printHanded true short =
    (if short then p.onJob j fun x => { x with short := true } else p).onRen 0
      fun x => { x with state := .ending, source := none } := by
  unfold Chip.printHanded; rw [hj]; rfl

/-- An end slot at the range's last page handed: the next copy begins (R107). -/
theorem Chip.printHanded_copy (hl : p.AtLast 0 j) : p.printHanded false false =
    Chip.printFetch 2 (p.onRen 0 fun x => { x with
      copyNo := x.copyNo + 1, page := (p.job j).first, source := none }) := by
  unfold Chip.printHanded; rw [hj]
  exact congrArg (Chip.printFetch 2) (p.onRen_congr (if_pos hl))

/-- Another end slot handed: PRINT goes on to the next page (R107). -/
theorem Chip.printHanded_next (hl : ¬ p.AtLast 0 j) : p.printHanded false false =
    Chip.printFetch 2 (p.onRen 0 fun x => { x with page := x.page + 1, source := none }) := by
  unfold Chip.printHanded; rw [hj]
  exact congrArg (Chip.printFetch 2) (p.onRen_congr (if_neg hl))

end

/-! ## A page slot handed to the ring (06 R103) -/

section
variable {p : Chip} {c : Nat} {r : RenderRing} {pels : Option (List Bool)} (hr : (p.ren c).ring = some r)
include hr

/-- A slot of a page that is not its last. -/
theorem Chip.handSlot_mid (hc : c < 5) : p.handSlot c pels false =
    p.slotIssued c r pels ⟨pels.isSome, false, false, false⟩ false false
      { p.ren c with lineOut := (p.ren c).lineOut + 1 } := by
  unfold Chip.handSlot
  simp only [Bool.false_and, Bool.false_eq_true, if_false, Bool.not_false, if_true]
  rw [Chip.issueSlot_eq hr, Chip.slotIssued_onRen hc fun _ _ => rfl]

/-- The end slot of a page that a transmit context renders. -/
theorem Chip.handSlot_end_line (hc : c < 5) (h1 : 1 ≤ c) : p.handSlot c pels true =
    p.slotIssued c r pels ⟨pels.isSome, true, false, false⟩ true false
      { p.ren c with lineOut := (p.ren c).lineOut + 1, source := none } := by
  have hne : (c == 0) = false := by simp; omega
  unfold Chip.handSlot
  simp only [hne, Bool.and_false, Bool.false_eq_true, if_false, Bool.not_true, if_neg (show ¬ c = 0 by omega)]
  rw [Chip.issueSlot_eq hr, Chip.slotIssued_onRen hc fun _ _ => rfl, Chip.slotIssued_onRen hc fun _ _ => rfl]

end

/-- The end slot of a page that PRINT renders: R108 decides whether it ends the job. -/
theorem Chip.handSlot_end_print {p : Chip} {r : RenderRing} {pels : Option (List Bool)} {final short : Bool}
    (hr : (p.ren 0).ring = some r) (hf : p.printFinal = (final, short)) : p.handSlot 0 pels true =
    (p.slotIssued 0 r pels ⟨pels.isSome, true, final, false⟩ true final
      { p.ren 0 with lineOut := (p.ren 0).lineOut + 1 }).printHanded final short := by
  have h0 : (true && (0 : Nat) == 0) = true := rfl
  unfold Chip.handSlot
  simp only [h0, if_true, hf, Bool.not_true, Bool.false_eq_true, if_false]
  rw [Chip.issueSlot_eq hr, Chip.slotIssued_onRen (by decide) fun _ _ => rfl]

section
variable {p : Chip} {c j : Nat} {r : RenderRing} {pels : Option (List Bool)} (h0 : c = 0) (hr : (p.ren c).ring = some r)
  (hj : (p.ren c).job = some j)
include h0 hr hj

/-- The end slot of a job that ends: END_DOC goes with it, PRINT is ENDING, and the job is SHORT if its range asks for
more (R107, R108). -/
theorem Chip.handSlot_print_final {short : Bool} (hf : p.printFinal = (true, short)) : p.handSlot c pels true =
    let u := p.slotIssued c r pels ⟨pels.isSome, true, true, false⟩ true true { p.ren c with
      lineOut := (p.ren c).lineOut + 1, state := .ending, source := none }
    if short then u.onJob j fun x => { x with short := true } else u := by
  subst h0
  have hcomm (q : Chip) (f : Job → Job) (g : RenderCtx → RenderCtx) :
      (q.onJob j f).onRen 0 g = (q.onRen 0 g).onJob j f := rfl
  rw [Chip.handSlot_end_print hr hf, Chip.printHanded_final (by rw [Chip.slotIssued_ren (by decide)]; exact hj)]
  split
  · rw [hcomm, Chip.slotIssued_onRen (by decide) fun _ _ => rfl]
  · rw [Chip.slotIssued_onRen (by decide) fun _ _ => rfl]

/-- The end slot of a job that ends before its range does (R108). -/
theorem Chip.handSlot_print_short (h : p.EndsJob c j) (hl : ¬ p.AtLast c j) (hlast : (p.job j).last ≠ 0)
    (hlt : (p.ren c).page < (p.job j).last) : p.handSlot c pels true =
    (p.slotIssued c r pels ⟨pels.isSome, true, true, false⟩ true true { p.ren c with
      lineOut := (p.ren c).lineOut + 1, state := .ending, source := none }).onJob j
        fun x => { x with short := true } := by
  subst h0; exact Chip.handSlot_print_final rfl hr hj (Chip.printFinal_short hj h hl hlast hlt)

/-- The end slot of a job that ends with its range (R108). -/
theorem Chip.handSlot_print_full (h : p.EndsJob c j)
    (hfull : p.AtLast c j ∨ (p.job j).last = 0 ∨ (p.job j).last ≤ (p.ren c).page) : p.handSlot c pels true =
    p.slotIssued c r pels ⟨pels.isSome, true, true, false⟩ true true { p.ren c with
      lineOut := (p.ren c).lineOut + 1, state := .ending, source := none } := by
  subst h0; exact Chip.handSlot_print_final rfl hr hj (Chip.printFinal_full hj h hfull)

/-- The end slot of a copy of a job that goes on (R107). -/
theorem Chip.handSlot_print_copy (h : ¬ p.EndsJob c j) (hl : p.AtLast c j) : p.handSlot c pels true = Chip.printFetch 2
    (p.slotIssued c r pels ⟨pels.isSome, true, false, false⟩ true false { p.ren c with
      lineOut := (p.ren c).lineOut + 1, source := none, copyNo := (p.ren c).copyNo + 1, page := (p.job j).first }) := by
  subst h0
  have hren := Chip.slotIssued_ren (p := p) (r := r) (pels := pels) (m := ⟨pels.isSome, true, false, false⟩)
    (pageEnd := true) (final := false) (y := { p.ren 0 with lineOut := (p.ren 0).lineOut + 1 }) (c := 0) (by decide)
  rw [Chip.handSlot_end_print hr (Chip.printFinal_not hj h),
    Chip.printHanded_copy (by rw [hren]; exact hj) (by unfold Chip.AtLast; rw [hren]; exact hl),
    Chip.slotIssued_onRen (by decide) fun _ _ => rfl]
  rfl

/-- The end slot of a page of a copy that goes on (R107). -/
theorem Chip.handSlot_print_next (h : ¬ p.EndsJob c j) (hl : ¬ p.AtLast c j) : p.handSlot c pels true =
    Chip.printFetch 2 (p.slotIssued c r pels ⟨pels.isSome, true, false, false⟩ true false { p.ren c with
      lineOut := (p.ren c).lineOut + 1, source := none, page := (p.ren c).page + 1 }) := by
  subst h0
  have hren := Chip.slotIssued_ren (p := p) (r := r) (pels := pels) (m := ⟨pels.isSome, true, false, false⟩)
    (pageEnd := true) (final := false) (y := { p.ren 0 with lineOut := (p.ren 0).lineOut + 1 }) (c := 0) (by decide)
  rw [Chip.handSlot_end_print hr (Chip.printFinal_not hj h),
    Chip.printHanded_next (by rw [hren]; exact hj) (by unfold Chip.AtLast; rw [hren]; exact hl),
    Chip.slotIssued_onRen (by decide) fun _ _ => rfl]

end

end Sys2Proof.Machine
end

section
/-! PROOFS. The vertical lines of a page (01 R14; 06 R98 to R100), and what a render context hands to its ring. -/

namespace Sys2Proof.Machine

/-! ## The vertical stage (06 R100) -/

section
variable {v : Vertical} {rs rt : Nat} {last : Bool} {line : List Bool}

/-- Going up, or at equal resolutions, a line is given at once and its repeats are owed. -/
theorem Vertical.take_up (h : rs ≤ rt) :
    v.take rs rt last line = (some line, { v with repeatLine := line, repeats := rt / rs - 1 }) := if_pos h

/-- Going down, the last line of a group gives the group. -/
theorem Vertical.take_group (h : rt < rs) (hg : v.count + 1 = rs / rt ∨ last = true) :
    v.take rs rt last line = (some (if v.count = 0 then line else List.zipWith (· || ·) v.group line), .blank) := by
  unfold Vertical.take; rw [if_neg (Nat.not_le.2 h)]; exact if_pos hg

/-- Going down, any other line joins the open group. -/
theorem Vertical.take_join (h : rt < rs) (hg : ¬ (v.count + 1 = rs / rt ∨ last = true)) :
    v.take rs rt last line = (none, { v with
      group := if v.count = 0 then line else List.zipWith (· || ·) v.group line, count := v.count + 1 }) := by
  unfold Vertical.take; rw [if_neg (Nat.not_le.2 h)]; exact if_neg hg

end

/-! ## A line decoded (01 R14, 06 R98) -/

/-- Marking a job corrupt leaves the render contexts. -/
theorem Chip.markJobCorrupt_render (p : Chip) (c : Nat) : (p.markJobCorrupt c).render = p.render := by
  unfold Chip.markJobCorrupt; split <;> rfl

/-- Only PRINT's own job is marked (06 R107). -/
theorem Chip.markJobCorrupt_none {p : Chip} {c : Nat} (h : 1 ≤ c ∨ (p.ren c).job = none) : p.markJobCorrupt c = p := by
  unfold Chip.markJobCorrupt
  split
  · next j hj => exact h.elim (absurd · (by decide)) fun hnone => absurd (hj.symm.trans hnone) (Option.some_ne_none j)
  · rfl

/-- PRINT's job is marked (06 R107). -/
theorem Chip.markJobCorrupt_print {p : Chip} {j : Nat} (h : (p.ren 0).job = some j) :
    p.markJobCorrupt 0 = p.onJob j fun x => { x with corrupt := true } := by
  unfold Chip.markJobCorrupt; simp only [h]

/-- Corruption met leaves the render contexts. -/
theorem Chip.metCorruption_render (p : Chip) (c : Nat) (src : Source) (n : Nat) :
    (p.metCorruption c src n).render = p.render := by
  unfold Chip.metCorruption
  dsimp only
  split
  · exact p.markJobCorrupt_render c
  · rw [Chip.send_render]; exact p.markJobCorrupt_render c

section
variable {p : Chip} {c : Nat} {src : Source} {n : Nat}

/-- A page already marked is not marked again. -/
theorem Chip.metCorruption_marked (h : (p.pageRec src.record).corrupt = true) :
    p.metCorruption c src n = p.markJobCorrupt c := by
  unfold Chip.metCorruption; exact if_pos h

/-- A page not yet marked is, and PAGE_CORRUPT follows (01 R14). -/
theorem Chip.metCorruption_told (h : (p.pageRec src.record).corrupt = false) :
    let u := p.markJobCorrupt c
    let y := p.pageRec src.record
    Chip.Told { u with store := { u.store with pages := tset u.store.pages src.record { y with corrupt := true } } }
      (p.metCorruption c src n) (.pageCorrupt y.doc y.number n) := by
  intro u y
  have hrec : u.pageRec src.record = y := by
    unfold u y Chip.markJobCorrupt; split <;> rfl
  have hmet : p.metCorruption c src n =
      (u.onPage src.record fun x => { x with corrupt := true }).send (.pageCorrupt y.doc y.number n) := by
    unfold Chip.metCorruption; exact if_neg (by rw [h]; decide)
  rw [hmet, ← hrec]
  exact Chip.told_send _ _

end

/-- The part after the decoder has produced a line, with what follows from corruption met in it. -/
def Chip.decoded (p : Chip) (c : Nat) (src : Source) (d : Decoder) (met : Bool) : Chip :=
  if met then (p.onRen c fun x => { x with decoder := d }).metCorruption c src d.produced
  else p.onRen c fun x => { x with decoder := d }

section
variable {p : Chip} {c : Nat} {src : Source} {rt fuel : Nat}

/-- A line decoded changes nothing of the contexts but its own decoder. -/
theorem Chip.decoded_render (d : Decoder) (met : Bool) :
    (p.decoded c src d met).render = tset p.render c { p.ren c with decoder := d } := by
  unfold Chip.decoded; split
  · exact Chip.metCorruption_render _ _ _ _
  · rfl

/-- The context after a line is decoded. -/
theorem Chip.decoded_ren (hc : c < 5) (d : Decoder) (met : Bool) :
    (p.decoded c src d met).ren c = { p.ren c with decoder := d } := by
  unfold Chip.ren; rw [Chip.decoded_render]; exact tget_tset_self _ hc _

/-- The vertical stage's part set after a line is decoded. -/
theorem Chip.decoded_vertical (hc : c < 5) (d : Decoder) (met : Bool) (w : Vertical) :
    ((p.decoded c src d met).onRen c fun x => { x with vertical := w }) = { p.decoded c src d met with
      render := tset (p.decoded c src d met).render c { p.ren c with decoder := d, vertical := w } } := by
  unfold Chip.onRen; rw [Chip.decoded_ren hc]

/-! ## The next vertical line (06 R99, R100) -/

/-- A repeat still owed is given first. -/
theorem Chip.pullLine_repeat (h : 0 < (p.ren c).vertical.repeats) :
    Chip.pullLine c src rt (fuel + 1) p = ((some (p.ren c).vertical.repeatLine), p.onRen c fun x => { x with
      vertical := { x.vertical with repeats := x.vertical.repeats - 1 } }) := by
  rw [Chip.pullLine]; exact if_pos h

variable (h0 : (p.ren c).vertical.repeats = 0)
include h0

/-- Without its next block the decoder gives no line (06 R98). -/
theorem Chip.pullLine_needBlock (hn : (p.ren c).decoder.next src = .needBlock) :
    Chip.pullLine c src rt (fuel + 1) p = (none, p.needBlock c src) := by
  rw [Chip.pullLine]; dsimp only; rw [if_neg (by omega), hn]

section
variable {pels : List Bool} {d : Decoder} {met : Bool} (hn : (p.ren c).decoder.next src = .line pels d met)
include hn

/-- A line that completes a vertical line gives it. -/
theorem Chip.pullLine_line {v : List Bool} {w : Vertical}
    (hv : (p.ren c).vertical.take src.res rt (d.produced == src.lines) pels = (some v, w)) :
    Chip.pullLine c src rt (fuel + 1) p =
      (some v, (p.decoded c src d met).onRen c fun x => { x with vertical := w }) := by
  rw [Chip.pullLine]; dsimp only; rw [if_neg (by omega), hn]; dsimp only; rw [hv]; rfl

/-- A line that completes none leaves the next one to be decoded. -/
theorem Chip.pullLine_more {w : Vertical}
    (hv : (p.ren c).vertical.take src.res rt (d.produced == src.lines) pels = (none, w)) :
    Chip.pullLine c src rt (fuel + 1) p =
      Chip.pullLine c src rt fuel ((p.decoded c src d met).onRen c fun x => { x with vertical := w }) := by
  rw [Chip.pullLine]; dsimp only; rw [if_neg (by omega), hn]; dsimp only; rw [hv]; rfl

end
end

/-- With a BLOCK_READ in flight the context waits for it (06 R98). -/
theorem Chip.needBlock_reading {p : Chip} {c : Nat} {src : Source} (h : (p.ren c).reading = true) :
    p.needBlock c src = p := if_pos h

/-- With none in flight the next chain block is read (06 R98). -/
theorem Chip.needBlock_asks {p : Chip} {c : Nat} {src : Source} (h : (p.ren c).reading = false) :
    p.needBlock c src = { p with
      mport := p.withRenderOp c
        (.blockRead c src.record (p.store.base + src.chain.getD (p.ren c).decoder.fetched 0 * 1024))
      render := tset p.render c { p.ren c with reading := true } } := by
  unfold Chip.needBlock; rw [if_neg (Bool.eq_false_iff.1 h), Chip.issueRender_eq]; rfl

/-- A BLOCK_READ asked for leaves the context's ring. -/
theorem Chip.needBlock_ring {p : Chip} {c : Nat} (hc : c < 5) (src : Source) :
    ((p.needBlock c src).ren c).ring = (p.ren c).ring := by
  unfold Chip.needBlock; split
  · rfl
  · rw [Chip.ren_onRen_self _ hc]; unfold Chip.ren; rw [Chip.issueRender_render]

/-- Pulling a vertical line leaves the context's ring. -/
theorem Chip.pullLine_ring {c : Nat} (hc : c < 5) (src : Source) (rt fuel : Nat) (p : Chip) :
    ((Chip.pullLine c src rt fuel p).2.ren c).ring = (p.ren c).ring := by
  induction fuel generalizing p with
  | zero => rfl
  | succ fuel ih =>
    rcases Nat.eq_zero_or_pos (p.ren c).vertical.repeats with h0 | hpos
    · cases hn : (p.ren c).decoder.next src with
      | needBlock => rw [Chip.pullLine_needBlock h0 hn]; exact Chip.needBlock_ring hc src
      | line pels d met =>
        rcases hv : (p.ren c).vertical.take src.res rt (d.produced == src.lines) pels with ⟨_ | v, w⟩
        · rw [Chip.pullLine_more h0 hn hv, ih, Chip.ren_onRen_self _ hc, Chip.decoded_ren hc]
        · rw [Chip.pullLine_line h0 hn hv, Chip.ren_onRen_self _ hc, Chip.decoded_ren hc]
    · rw [Chip.pullLine_repeat hpos, Chip.ren_onRen_self _ hc]

/-! ## The page's next slot (06 R99, R103) -/

section
variable {p : Chip} {c : Nat} {src : Source} {wt rt : Nat}

/-- A page without lines has one NO-LINE slot (06 R103). -/
theorem Chip.produce_no_lines (h : src.lines = 0) : p.produce c src = p.handSlot c none true := if_pos h

variable (h : 0 < src.lines) (ht : (p.ren c).target = some (wt, rt))
include h ht

/-- Without its next vertical line a page waits (06 R98, R99). -/
theorem Chip.produce_waits {q : Chip} (hl : Chip.pullLine c src rt 4 p = (none, q)) : p.produce c src = q := by
  unfold Chip.produce; rw [if_neg (by omega), ht]; dsimp only; rw [hl]

/-- A vertical line goes to the ring fitted to the target's width, the page's last as its end slot (06 R101 to
R103). -/
theorem Chip.produce_line {v : List Bool} {q : Chip} (hl : Chip.pullLine c src rt 4 p = (some v, q)) :
    p.produce c src =
      q.handSlot c (some (fitWidth wt v)) ((q.ren c).lineOut + 1 == outputLines src.res rt src.lines) := by
  unfold Chip.produce; rw [if_neg (by omega), ht]; dsimp only; rw [hl]

end

/-! ## The obligation -/

/-- Settles O31: what the ring's state lets through, then the slot of a line pulled, then each way a line is pulled. -/
theorem pageLinesGoToTheRing : Obligations.PageLinesGoToTheRing := by
  unfold Obligations.PageLinesGoToTheRing
  refine ⟨fun p c hc => ?_, fun p c rt fuel src hc _ => ?_⟩
  · intro x able issued
    refine ⟨Chip.advance_unbound, fun r hr => ?_⟩
    have hable : able r ↔ x.canTake = true := (RenderCtx.canTake_iff hr).symm
    have hissued (q : Chip) (pels : Option (List Bool)) (m : Markers) (final : Bool) (y : RenderCtx) :
        issued q r pels m final y = q.slotIssued c r pels m (m.endPage && x.outgoing.isNone) final y := rfl
    refine ⟨fun h => Chip.advance_unable fun h' => h (hable.2 h'), fun m h ho => ?_,
      fun _ ho h => Chip.advance_idle ho h, fun src wt rt h ho hst hsrc ht => ?_⟩
    · rw [hissued, ho, Option.isNone_some, Bool.and_false]
      exact Chip.advance_outgoing hc hr (hable.1 h) ho
    · have hadv : p.advance c = p.produce c src := Chip.advance_render (hable.1 h) ho hst hsrc
      intro hands
      have handed (q : Chip) (pels : Option (List Bool)) (last : Bool) (hq : (q.ren c).ring = some r)
          (he : p.advance c = q.handSlot c pels last) : hands q pels last := by
        refine ⟨fun hl => ?_, fun hl h1 => ?_, fun j hl h0 hj _ => ?_⟩
        · rw [he, hl]; exact Chip.handSlot_mid hq hc
        · rw [he, hl, hissued, ho]; exact Chip.handSlot_end_line hq hc h1
        · rw [he, hl]
          simp only [hissued, ho]
          refine ⟨fun hf hat hlast hlt => ?_, fun hf hfull => ?_, fun hf hat => ?_, fun hf hat => ?_⟩
          · exact Chip.handSlot_print_short h0 hq hj hf hat hlast hlt
          · exact Chip.handSlot_print_full h0 hq hj hf hfull
          · exact Chip.handSlot_print_copy h0 hq hj hf hat
          · exact Chip.handSlot_print_next h0 hq hj hf hat
      refine ⟨fun h0 => ?_, fun q h0 hl => ?_, fun line q h0 hl => ?_⟩
      · exact handed p none true hr (hadv.trans (Chip.produce_no_lines h0))
      · exact hadv.trans (Chip.produce_waits h0 ht hl)
      · have hring := Chip.pullLine_ring hc src rt 4 p
        rw [hl] at hring
        exact handed q _ _ (hring.trans hr) (hadv.trans (Chip.produce_line h0 ht hl))
  · intro x pulled
    refine ⟨fun h => Chip.pullLine_repeat h, fun h0 hn hrd => ?_, fun h0 hn hrd => ?_, fun pels d met h0 hn => ?_⟩
    · exact (Chip.pullLine_needBlock h0 hn).trans (congrArg _ (Chip.needBlock_reading hrd))
    · exact (Chip.pullLine_needBlock h0 hn).trans (congrArg _ (Chip.needBlock_asks hrd))
    · intro y decoded
      refine ⟨p.decoded c src d met, fun hm => by rw [hm]; rfl, fun hm => ?_, fun hup => ?_, fun hdown => ?_⟩
      · subst hm
        have hren : decoded.ren c = { p.ren c with decoder := d } := tget_tset_self _ hc _
        have hjob : (decoded.ren c).job = x.job := by rw [hren]
        refine ⟨decoded.markJobCorrupt c, fun h => Chip.markJobCorrupt_none (hjob ▸ h), fun j h0 hj => ?_, fun h => ?_,
          fun h => ?_⟩
        · subst h0; exact Chip.markJobCorrupt_print (hjob.trans hj)
        · exact Chip.metCorruption_marked h
        · exact Chip.metCorruption_told h
      · rw [← Chip.decoded_vertical hc]
        exact Chip.pullLine_line h0 hn (Vertical.take_up hup)
      · intro group
        refine ⟨fun h => ?_, fun h1 h2 => ?_⟩
        · rw [← Chip.decoded_vertical hc]
          exact Chip.pullLine_line h0 hn (Vertical.take_group hdown (by simpa using h))
        · rw [← Chip.decoded_vertical hc]
          exact Chip.pullLine_more h0 hn (Vertical.take_join hdown (by simpa using ⟨h1, h2⟩))

end Sys2Proof.Machine
end

section
/-! PROOFS. Page memory stays in canonical form (00 5.2; log 1): what each command does to memory at all. -/

namespace Sys2Proof.Machine

/-- The command writes page memory: a drain, a served write of the engines or of RECORD, the writes that a grant or a
hardware reset ends. -/
def writesMemory : Instr → Bool
  | .hardwareReset _ | .arbiterGrant | .postedWriteDrain | .blockWriteComplete | .slotWriteComplete
  | .noticeProducerWriteComplete | .reportRecordWriteComplete => true
  | _ => false

/-- A meaning that acts on the part alone leaves memory. -/
theorem event_mem {f : Chip → Chip} {s t : State} (ht : event f s = .next t) : t.mem = s.mem := by
  cases ht; rfl

/-- A request leaves memory, taken or not. -/
theorem request_mem {c : Instr} {act : Chip → Chip} {s t : State} (ht : request c act s = .next t) : t.mem = s.mem := by
  unfold request at ht; split at ht <;> cases ht <;> rfl

/-- Every command but the writing ones leaves memory as it was. -/
theorem exec_mem {c : Instr} {s t : State} (hc : writesMemory c = false) (ht : exec c s = .next t) : t.mem = s.mem := by
  cases c <;> simp only [exec] at ht
  case hardwareReset | arbiterGrant | postedWriteDrain | blockWriteComplete | slotWriteComplete
    | noticeProducerWriteComplete | reportRecordWriteComplete => cases hc
  case throughReadServed => unfold execThroughReadServed at ht; split at ht <;> cases ht <;> rfl
  case slotReadComplete => unfold execSlotReadComplete at ht; split at ht <;> cases ht <;> rfl
  case blockReadComplete => unfold execBlockReadComplete at ht; split at ht <;> cases ht <;> rfl
  case tariffReadComplete => unfold execTariffReadComplete at ht; split at ht <;> cases ht <;> rfl
  case sportTransaction | stallTimerExpiry | clockAdvance | unitTimerExpiry | ringBurst | ringAbsent | ringEndTimerExpiry
    | settleTimerExpiry | dialToneDetected | dialToneWaitExpiry | toneOnExpiry | toneOffExpiry | pulseBreakEnd
    | pulseMakeEnd | interDigitGapExpiry | pauseExpiry | answerToneDetected | busyToneDetected | answerWaitExpiry
    | loopLoss | meterPulse | guardExpiry => exact event_mem ht
  all_goals exact request_mem ht

/-- The writing commands keep the canonical form. -/
theorem memWf_exec_writing {c : Instr} {s t : State} (hc : writesMemory c = true) (hs : memWf s.mem = true)
    (ht : exec c s = .next t) : memWf t.mem = true := by
  unfold writesMemory at hc
  split at hc <;> simp only [exec] at ht
  · cases ht; exact memWf_abandonBytes s.chip.freeIndex s.chip.writingBytes hs
  · cases ht; exact memWf_serveRowless hs
  · unfold execPostedWriteDrain at ht; split at ht <;> cases ht
    · exact memWf_memWriteWords _ _ hs
    · exact hs
  · unfold execBlockWriteComplete at ht; split at ht <;> cases ht
    · simp only [memWf_memWriteBytes _ _ hs]
    · exact hs
  · unfold execSlotWriteComplete at ht; split at ht <;> cases ht
    · exact memWf_slotBytes _ _ _ _ hs
    · exact hs
  · unfold execNoticeProducerWriteComplete at ht; split at ht <;> cases ht
    · exact memWf_memPutWord _ _ hs
    · exact hs
  · unfold execReportRecordWriteComplete at ht; split at ht <;> cases ht
    · exact memWf_memWritePast _ _ _ hs
    · exact hs
  · cases hc

/-- Every command keeps the canonical form. -/
theorem memWf_exec {c : Instr} {s t : State} (hs : memWf s.mem = true) (ht : exec c s = .next t) :
    memWf t.mem = true := by
  cases hc : writesMemory c with
  | true => exact memWf_exec_writing hc hs ht
  | false => rw [exec_mem hc ht]; exact hs

/-- Settles O59: the front command keeps the form, and on an empty queue a due event, the service of a rowless write or a
half-period does. -/
theorem everyStepKeepsMemoryCanonical : Obligations.EveryStepKeepsMemoryCanonical := by
  intro s t hs ht
  unfold step at ht; split at ht
  · next rest _ => exact memWf_exec (s := { s with pending := rest }) hs ht
  · unfold State.idle at ht; split at ht
    · cases ht; exact memWf_serveRowless hs
    · next p _ _ => exact memWf_exec (s := { s with chip := p }) hs ht
    · cases ht; exact hs

end Sys2Proof.Machine
end

section
/-! PROOFS. The S-port: what each transaction is answered and what it leaves in the posting queue (03 R38 to R43, R47, R50). -/

namespace Sys2Proof.Machine

/-! ## The path decoder (R39 to R43) -/

/-- What makes a transaction malformed (R39). -/
theorem malformed_iff (t : Transaction) :
    malformed t = true ↔ t.addr.toNat % 4 ≠ 0 ∨ 64 < t.addr.toNat % 64 + 4 * t.words.length := by
  simp [malformed]

section Decoder

variable {p : Chip} {a : Nat}

/-- An address in the control area is handled there. -/
theorem Chip.handling_control (h : p.control ≤ a ∧ a < p.control + 8192) : p.handling a = .control := by
  unfold Chip.handling; rw [if_pos h]

/-- An address in the configured page store, outside the control area. -/
theorem Chip.handling_store (hc : ¬ (p.control ≤ a ∧ a < p.control + 8192))
    (hs : p.store.configured = true ∧ p.store.base ≤ a ∧ a < p.store.base + p.store.blocks * 1024) :
    p.handling a = .store := by
  unfold Chip.handling; rw [if_neg hc, if_pos hs]

/-- Elsewhere the aperture that contains the address decides. -/
theorem Chip.handling_aperture (hc : ¬ (p.control ≤ a ∧ a < p.control + 8192))
    (hs : ¬ (p.store.configured = true ∧ p.store.base ≤ a ∧ a < p.store.base + p.store.blocks * 1024))
    {e : Nat} {x : Aperture} (hm : p.matchAperture a = some (e, x)) : p.handling a = x.handling e a := by
  unfold Chip.handling; rw [if_neg hc, if_neg hs, hm]

/-- A slot of a render ring's aperture is handled as such. -/
theorem Aperture.handling_render {x : Aperture} (hr : x.kind.renderCtx.isSome = true) (e : Nat)
    (hslot : (a - x.base) / x.slotSize < x.slotCount) :
    ∃ c, x.handling e a = .render c ((a - x.base) / x.slotSize) x := by
  unfold Aperture.handling
  cases hk : x.kind <;> simp_all [ApKind.renderCtx, ApKind.ingestCtx]

end Decoder

/-! ## What a transaction comes to -/

section Transaction

variable {p : Chip} {t : Transaction}

/-- While a read is held the S-port takes no transaction (log 28). -/
theorem Chip.transaction_held (h : p.path.held.isSome = true) : p.transaction t = p := by
  unfold Chip.transaction; dsimp only; rw [if_pos h]

/-- A malformed transaction is answered FAULT (R39). -/
theorem Chip.transaction_malformed (h : p.path.held = none) (hm : malformed t = true) :
    p.transaction t = p.faultAt t.addr.toNat t.master .form := by
  unfold Chip.transaction; dsimp only; rw [h, if_neg (by decide), if_pos hm]

/-- A well-formed transaction is handled by its direction and region (R39). -/
theorem Chip.transaction_taken (h : p.path.held = none) (hm : malformed t = false) :
    p.transaction t = match t.dir, p.handling t.addr.toNat with
      | .write, .control => p.controlWrite t
      | .write, .store => p.faultAt t.addr.toNat t.master .store
      | .write, .ingest e c slot ap => p.ingestWrite t e c slot ap
      | .write, .render .. => p.faultAt t.addr.toNat t.master .ring
      | .write, .plain => p.postWrite t .none
      | .read, .render c slot ap => p.renderRead t c slot ap
      | .read, _ => p.holdRead t none := by
  unfold Chip.transaction
  exact (if_neg (by rw [h]; decide)).trans ((if_neg (by rw [hm]; decide)).trans rfl)

/-- The command's effect is the part's taking of the transaction. -/
theorem exec_sportTransaction (t : Transaction) (s : State) :
    exec (.sportTransaction t) s = .next { s with chip := s.chip.transaction t } := rfl

/-- FAULT, with its PROTECT_FAULT (R42). -/
theorem Chip.told_faultAt (p : Chip) (a : Nat) (m : Fin 16) (c : FaultCause) :
    ({ p with path := { p.path with response := some .fault } } : Chip).Told (p.faultAt a m c) (.protectFault a m c) :=
  Chip.told_send _ _

/-- A write in the control area is refused at its first part-owned word with an enabled byte (R40). -/
theorem Chip.controlWrite_owned {b : Nat} {w : BusWord} {before after : List (Nat × BusWord)}
    (hw : wordsAt t.addr.toNat t.words = before ++ (b, w) :: after) (ho : partOwned (b - p.control) = true)
    (he : w.enables ≠ 0) (hb : ∀ x ∈ before, partOwned (x.1 - p.control) = false ∨ x.2.enables = 0) :
    p.controlWrite t = p.faultAt b t.master .control := by
  have hfind : (wordsAt t.addr.toNat t.words).find? (fun (b, w) => partOwned (b - p.control) && touched w) = some (b, w) := by
    refine List.find?_eq_some_iff_append.2 ⟨Bool.and_eq_true_iff.2 ⟨ho, bne_iff_ne.2 he⟩, before, after, hw, fun x hx => ?_⟩
    rcases hb x hx with h | h <;> simp [h, touched]
  unfold Chip.controlWrite; rw [hfind]

/-- A write of host-owned words alone passes (R40). -/
theorem Chip.controlWrite_passes
    (h : ∀ x ∈ wordsAt t.addr.toNat t.words, partOwned (x.1 - p.control) = false ∨ x.2.enables = 0) :
    p.controlWrite t = p.postWrite t (p.controlWatch t.addr.toNat t.words) := by
  have hfind : (wordsAt t.addr.toNat t.words).find? (fun (b, w) => partOwned (b - p.control) && touched w) = none := by
    refine List.find?_eq_none.2 fun x hx => ?_
    rcases h x hx with h | h <;> simp [h, touched]
  unfold Chip.controlWrite; rw [hfind]

/-- A write joins the posting queue below eight entries, and is answered RETRY at eight (R47). -/
theorem Chip.postWrite_eq (p : Chip) (t : Transaction) (w : Watch) :
    p.postWrite t w = { p with path :=
      if p.path.posted.length < 8 then
        { p.path with posted := p.path.posted ++ [⟨t.addr.toNat, t.words, t.master, w⟩], response := some (.done []) }
      else { p.path with response := some .retry } } := by
  unfold Chip.postWrite Chip.respond; split <;> rfl

/-- A watched word is written if some word of the transaction at its place has an enabled byte (R47). -/
theorem Chip.controlWord_isSome (p : Chip) (a o : Nat) (ws : List BusWord) :
    (p.controlWord a ws o).isSome = (wordsAt a ws).any fun x => x.1 == p.path.strap * 8192 + o && x.2.enables != 0 := by
  unfold Chip.controlWord
  rw [Option.isSome_map, Bool.eq_iff_iff, List.find?_isSome, List.any_eq_true]
  rfl

/-- The watch of a write in the control area, by the index words it touches (R47). -/
theorem Chip.controlWatch_eq (p : Chip) (a : Nat) (ws : List BusWord) :
    p.controlWatch a ws =
      if (p.controlWord a ws 0x1800).isSome then if (p.controlWord a ws 0x180C).isSome then .both else .producer
      else if (p.controlWord a ws 0x180C).isSome then .consumer else .none := by
  unfold Chip.controlWatch
  cases (p.controlWord a ws 0x1800).isSome <;> cases (p.controlWord a ws 0x180C).isSome <;> rfl

/-- The wait set of a read: all posted entries for an ordered master, else those with a word in common (R50, R51). -/
theorem Chip.mem_waitSet (p : Chip) (t : Transaction) (k : Nat) :
    k ∈ p.waitSet t ↔ ∃ e, p.path.posted[k]? = some e ∧ (tget p.path.ordered t.master = true ∨
      e.addr < t.addr.toNat + 4 * t.words.length ∧ t.addr.toNat < e.addr + 4 * e.words.length) := by
  unfold Chip.waitSet shareWord overlaps
  rw [List.mem_filter, List.mem_range]
  constructor
  · rintro ⟨hk, h⟩
    exact ⟨_, List.getElem?_eq_getElem hk, by simpa [List.getElem?_eq_getElem hk] using h⟩
  · rintro ⟨e, he, h⟩
    exact ⟨(List.getElem?_eq_some_iff.1 he).1, by simpa [he] using h⟩

/-- A well-formed read outside the render slots is held (R43, R50). -/
theorem Chip.transaction_read_held (h : p.path.held = none) (hm : malformed t = false) (hd : t.dir = .read)
    (hr : ∀ c slot ap, p.handling t.addr.toNat ≠ .render c slot ap) : p.transaction t = p.holdRead t none := by
  rw [Chip.transaction_taken h hm, hd]
  cases hh : p.handling t.addr.toNat with
  | render c slot ap => exact absurd hh (hr c slot ap)
  | control | store | ingest | plain => rfl

/-- A write into an ingest slot that the hold policy turns away (04 R63). -/
theorem Chip.ingestWrite_hold {e c slot : Nat} {ap : Aperture} {r : IngestRing} (hr : (p.ing c).ring = some r)
    (h : ap.overwrite = false ∧ ((r.slot slot).st ≠ .empty ∨ (r.slot slot).posted = true)) :
    p.ingestWrite t e c slot ap = p.respond .retry := by
  unfold Chip.ingestWrite; simp only [hr]; rw [if_pos h]

/-- A write into an ingest slot that the hold policy lets pass: retried when eight writes wait, else posted, a completing
one marking its slot (04 R63, R47). -/
theorem Chip.ingestWrite_pass {e c slot : Nat} {ap : Aperture} {r : IngestRing} (hr : (p.ing c).ring = some r)
    (h : ¬ (ap.overwrite = false ∧ ((r.slot slot).st ≠ .empty ∨ (r.slot slot).posted = true))) :
    let completing := coversTag false ap slot t.addr.toNat t.words
    let q := p.postWrite t (.slot e c slot completing)
    p.ingestWrite t e c slot ap = if completing = true ∧ p.path.posted.length < 8 then
      q.onIngRing c fun r => r.setSlot slot { r.slot slot with posted := true } else q := by
  unfold Chip.ingestWrite; simp only [hr]; rw [if_neg h]
  simp only [Bool.and_eq_true, decide_eq_true_eq]

end Transaction

/-- Settles O5: the region of the first address decides, and each refusal is a FAULT with its PROTECT_FAULT. -/
theorem refusedTransactionsFault : Obligations.RefusedTransactionsFault := by
  unfold Obligations.RefusedTransactionsFault
  refine ⟨fun t s hh hm => ?_, fun t s hh hm hd => ?_, fun t s hh => ?_⟩
  · refine ⟨_, ?_, s.chip.told_faultAt _ _ _⟩
    rw [exec_sportTransaction, Chip.transaction_malformed hh ((malformed_iff t).2 hm)]
  · refine ⟨fun b w before after hin hw ho he hb => ?_, fun hout hin => ?_, fun e ap hout hnot hmatch hr hslot => ?_⟩
    · refine ⟨_, ?_, s.chip.told_faultAt _ _ _⟩
      rw [exec_sportTransaction, Chip.transaction_taken hh hm, hd, Chip.handling_control hin]
      exact congrArg _ (congrArg _ (Chip.controlWrite_owned hw ho he hb))
    · refine ⟨_, ?_, s.chip.told_faultAt _ _ _⟩
      rw [exec_sportTransaction, Chip.transaction_taken hh hm, hd, Chip.handling_store hout hin]
    · obtain ⟨c, hc⟩ := Aperture.handling_render hr e hslot
      refine ⟨_, ?_, s.chip.told_faultAt _ _ _⟩
      rw [exec_sportTransaction, Chip.transaction_taken hh hm, hd, Chip.handling_aperture hout hnot hmatch, hc]
  · rw [exec_sportTransaction, Chip.transaction_held hh]

/-- Settles O6: plain and host-owned writes are posted with their watch, reads are held with the wait set of R50. -/
theorem plainTrafficIsPostedOrHeld : Obligations.PlainTrafficIsPostedOrHeld := by
  unfold Obligations.PlainTrafficIsPostedOrHeld
  refine ⟨fun t s hh hm hd => ?_, fun t s hh hm hd hpass => ⟨s.chip.waitSet t, ?_, s.chip.mem_waitSet t⟩⟩
  · intro p words touches watch hpass
    rw [exec_sportTransaction, Chip.transaction_taken hh hm, hd]
    rcases hpass with hplain | ⟨hcontrol, howned⟩
    · have hwatch : watch = .none := if_pos hplain
      rw [show s.chip.handling t.addr.toNat = .plain from hplain, hwatch]
      exact congrArg _ (congrArg _ (Chip.postWrite_eq _ _ _))
    · have hwatch : watch = p.controlWatch t.addr.toNat t.words := by
        rw [Chip.controlWatch_eq, Chip.controlWord_isSome, Chip.controlWord_isSome]
        exact if_neg (by rw [hcontrol]; decide)
      rw [show s.chip.handling t.addr.toNat = .control from hcontrol, hwatch, ← Chip.postWrite_eq]
      exact congrArg _ (congrArg _ (Chip.controlWrite_passes howned))
  · rw [exec_sportTransaction, Chip.transaction_read_held hh hm hd]
    · rfl
    · intro c slot ap hr
      rw [hr] at hpass
      simp at hpass

/-- Settles O7: the hold policy is asked first, then the posting queue; a render slot is asked for READY. -/
theorem ringSlotsHoldOffTraffic : Obligations.RingSlotsHoldOffTraffic := by
  unfold Obligations.RingSlotsHoldOffTraffic
  intro t s slot ap hh hm
  refine ⟨fun e c r hd hing hr hc => ?_, fun c r hd hren hr => ?_⟩
  · have htaken : s.chip.transaction t = s.chip.ingestWrite t e c slot ap := by
      rw [Chip.transaction_taken hh hm, hd, hing]
    rw [exec_sportTransaction, htaken]
    refine ⟨fun hturned => ?_, fun hroom hpass => ⟨_, rfl, ?_⟩⟩
    · by_cases hhold : ap.overwrite = false ∧ ((r.slot slot).st ≠ .empty ∨ (r.slot slot).posted = true)
      · rw [Chip.ingestWrite_hold hr hhold]; rfl
      · have hfull : ¬ s.chip.path.posted.length < 8 := by
          rcases hturned with h | h
          · exact absurd h hhold
          · omega
        rw [Chip.ingestWrite_pass hr hhold, if_neg fun h => hfull h.2, Chip.postWrite_eq, if_neg hfull]
    · have hhold : ¬ (ap.overwrite = false ∧ ((r.slot slot).st ≠ .empty ∨ (r.slot slot).posted = true)) := by
        rintro ⟨ho, hslot⟩
        rcases hpass with h | ⟨hst, hposted⟩
        · rw [h] at ho; cases ho
        · rcases hslot with h | h
          · exact h hst
          · rw [h] at hposted; cases hposted
      rw [Chip.ingestWrite_pass hr hhold, Chip.postWrite_eq, if_pos hroom]
      cases hcov : coversTag false ap slot t.addr.toNat t.words with
      | false => exact ⟨rfl, fun _ => rfl, by nofun⟩
      | true =>
        refine ⟨by rw [if_pos ⟨rfl, hroom⟩]; rfl, by nofun, fun _ => ?_⟩
        rw [if_pos ⟨rfl, hroom⟩]
        show Chip.onIngRing _ c _ = _
        unfold Chip.onIngRing Chip.onIng Chip.ing
        have hr' : (tget s.chip.ingest c).ring = some r := hr
        simp only [hr', Option.map_some]
  · have htaken : s.chip.transaction t = s.chip.renderRead t c slot ap := by
      rw [Chip.transaction_taken hh hm, hd, hren]
    rw [exec_sportTransaction, htaken]
    refine ⟨fun hst => ?_, fun hst => ⟨s.chip.waitSet t, ?_, s.chip.mem_waitSet t⟩⟩
    · unfold Chip.renderRead; simp [hr, hst]; rfl
    · unfold Chip.renderRead; simp [hr, hst]; rfl

end Sys2Proof.Machine
end

section
/-! PROOFS. Drains of posted writes (03 R48) and the index words they write (10 R181, R187). -/

namespace Sys2Proof.Machine

/-! ## What a drain leaves of the queue and the port -/

/-- The path stands as `x` and the port is held by `b`. -/
def Chip.PathPort (x : Path) (b : Option PortOp) (p : Chip) : Prop := p.path = x ∧ p.mport.busy = b

/-- Handing over a notice holds no port. -/
theorem Chip.send_busy (p : Chip) (n : Notice) : (p.send n).mport.busy = p.mport.busy := by
  unfold Chip.send Chip.placeNotice Chip.dropNotice
  rw [Chip.issueWord_eq]; split <;> rfl

/-- The ingest engine leaves the path and the port's holder. -/
theorem inner_pathPort (x : Path) (b : Option PortOp) : Inner (Chip.PathPort x b) where
  record := fun h _ => h
  notice := fun h n => ⟨(Chip.send_path _ n).trans h.1, (Chip.send_busy _ n).trans h.2⟩
  pool := fun h _ => h
  pages := fun h _ => h
  docs := fun h _ => h
  report := fun h _ => h
  attempts := fun h _ => h
  ingest := fun h _ => h
  render := fun h _ => h
  jobs := fun h _ => h
  queue := fun h _ => h
  accounts := fun h _ => h
  restart := fun h _ => h
  lineOps := fun h _ => h
  scanOps := fun h _ => h
  printOps := fun h _ => h

section PathPort

variable {x : Path} {b : Option PortOp} {p : Chip}

/-- So does the request unit on its index word. -/
theorem Chip.producerWritten_pathPort (w : BusWord) (h : p.PathPort x b) : (p.producerWritten w).PathPort x b := by
  unfold Chip.producerWritten Chip.takeRequest
  dsimp only
  refine ite_kept _ (ite_kept _ ?_ ?_) ((inner_pathPort x b).notice h _)
  · exact h
  · exact h

/-- So does LOST, placed or not. -/
theorem Chip.placeLost_pathPort (h : p.PathPort x b) : p.placeLost.PathPort x b := by
  unfold Chip.placeLost; split
  · refine (inner_pathPort x b).word ?_ _
    exact h
  · exact h

/-- So does the notice unit on its index word. -/
theorem Chip.consumerWritten_pathPort (w : BusWord) (h : p.PathPort x b) : (p.consumerWritten w).PathPort x b := by
  unfold Chip.consumerWritten
  dsimp only
  refine ite_kept _ (Chip.placeLost_pathPort ?_) ((inner_pathPort x b).notice h _)
  exact h

/-- So does a watch on an index word, written or not. -/
theorem Chip.watchWord_pathPort {f : Chip → BusWord → Chip} (hf : ∀ {q : Chip} (w), q.PathPort x b → (f q w).PathPort x b)
    (e : Machine.Posted) (o : Nat) (h : p.PathPort x b) : (p.watchWord e o f).PathPort x b := by
  unfold Chip.watchWord; split
  · exact hf _ h
  · exact h

/-- Whatever a drained entry was watched for, the path and the port's holder stay. -/
theorem Chip.drained_pathPort (e : Machine.Posted) (h : p.PathPort x b) : (p.drained e).PathPort x b := by
  unfold Chip.drained; split
  · exact h
  · exact Chip.watchWord_pathPort Chip.producerWritten_pathPort _ _ h
  · exact Chip.watchWord_pathPort Chip.consumerWritten_pathPort _ _ h
  · exact Chip.watchWord_pathPort Chip.consumerWritten_pathPort _ _
      (Chip.watchWord_pathPort Chip.producerWritten_pathPort _ _ h)
  · exact (inner_pathPort x b).drainSlot h _ _ _

end PathPort

section Drain

variable {s : State} {e : Machine.Posted} {rest : List Machine.Posted}

/-- The drain of the oldest entry, which holds the port (R48). -/
theorem exec_postedWriteDrain (hb : s.chip.mport.busy = some .drain) (hp : s.chip.path.posted = e :: rest) :
    exec .postedWriteDrain s = .next { s with
      mem := memWriteWords s.mem e.addr e.words, chip := (s.chip.freePort.dropOldest).drained e } := by
  show execPostedWriteDrain s = _
  unfold execPostedWriteDrain; rw [hb, hp]

/-- The oldest entry has left the queue, and the port is free (R47, R52). -/
theorem Chip.dropOldest_eq {p : Chip} (hp : p.path.posted = e :: rest) : p.freePort.dropOldest = { p with
    mport := { p.mport with busy := none }
    path := { p.path with
      posted := rest
      held := p.path.held.map fun r => { r with waits := (r.waits.filter (0 < ·)).map (· - 1), behindDrain := false } } } := by
  unfold Chip.dropOldest Chip.freePort; dsimp only; rw [hp]; rfl

/-- Settles O8: the words are written, and no watch moves the path or takes the port. -/
theorem drainWritesTheEnabledBytes : Obligations.DrainWritesTheEnabledBytes := by
  intro s e rest hm hb hp
  have hq := Chip.dropOldest_eq hp
  have hkept := Chip.drained_pathPort (p := s.chip.freePort.dropOldest) e ⟨rfl, rfl⟩
  refine ⟨_, exec_postedWriteDrain hb hp, rfl, memRead_memWriteWords hm _ _, ?_, ?_, fun hw => ?_⟩
  · exact (congrArg Path.posted hkept.1).trans (by rw [hq])
  · exact hkept.2.trans rfl
  · rw [← hq]; unfold Chip.drained; rw [hw]

/-! ## The index words (10 R181, R187) -/

/-- A producer value near enough to C is taken, and the next record is read unless one is being taken (10 R181). -/
theorem Chip.producerWritten_near {q : Chip} {w : BusWord} (h : countDist (indexOver q.req.producer w) q.req.consumer ≤ 64) :
    let v := indexOver q.req.producer w
    let c := q.req.consumer
    q.producerWritten w = { q with
      req := { q.req with producer := v, taking := q.req.taking || decide (c ≠ v) }
      mport := { q.mport with records := q.mport.records ++
        if c ≠ v ∧ q.req.taking = false then [.requestRead (c % 64)] else [] } } := by
  intro v c
  have htaken : q.producerWritten w = ({ q with req := { q.req with producer := v } } : Chip).takeRequest := if_pos h
  rw [htaken]
  unfold Chip.takeRequest
  by_cases hgo : c ≠ v ∧ q.req.taking = false
  · rw [if_pos hgo, if_pos hgo]
    simp [Chip.issueRecord, hgo.1, c]
  · rw [if_neg hgo, if_neg hgo, List.append_nil]
    have hstay : (q.req.taking || decide (c ≠ v)) = q.req.taking := by
      cases ht : q.req.taking with
      | true => rfl
      | false => simpa [ht] using hgo
    rw [hstay]

/-- The request unit takes the producer word (10 R181). -/
theorem Chip.producerTaken_producerWritten (q : Chip) (w : BusWord) : q.ProducerTaken (q.producerWritten w) w := by
  refine ⟨fun hnear => Chip.producerWritten_near hnear, fun hfar => ?_⟩
  have hfar' : ¬ countDist (indexOver q.req.producer w) q.req.consumer ≤ 64 := Nat.not_le.2 hfar
  unfold Chip.producerWritten; dsimp only; rw [if_neg hfar']
  exact Chip.told_send _ _

/-- The notice unit takes the consumer word (10 R187). -/
theorem Chip.consumerTaken_consumerWritten (q : Chip) (w : BusWord) : q.ConsumerTaken (q.consumerWritten w) w := by
  refine ⟨fun hnear hrest => ?_, fun hroom hlost => ?_, fun hfar => ?_⟩
  · have hnear' : countDist q.notices.pn (indexOver q.notices.cn w) ≤ Config.noticeRing := hnear
    unfold Chip.consumerWritten; dsimp only; rw [if_pos hnear']
    unfold Chip.placeLost
    refine if_neg ?_
    rintro ⟨hl, hr⟩
    rcases hrest with h | h
    · exact absurd h (Nat.pos_iff_ne_zero.1 hl)
    · exact absurd h (Nat.ne_of_lt hr)
  · have hnear : countDist q.notices.pn (indexOver q.notices.cn w) ≤ Config.noticeRing := Nat.le_of_lt hroom
    unfold Chip.consumerWritten; dsimp only; rw [if_pos hnear]
    unfold Chip.placeLost
    rw [if_pos ⟨hlost, hroom⟩, Chip.issueWord_eq]
    simp [Chip.placeNotice, Chip.issueRecord, indexOver, Notice.cls]
  · have hfar' : ¬ countDist q.notices.pn (indexOver q.notices.cn w) ≤ Config.noticeRing := Nat.not_le.2 hfar
    unfold Chip.consumerWritten; dsimp only; rw [if_neg hfar']
    exact Chip.told_send _ _

/-- A watched word that the write touched acts. -/
theorem Chip.watchWord_eq {p q : Chip} {o : Nat} {w : BusWord} (f : Chip → BusWord → Chip) (hs : p.path.strap = q.path.strap)
    (hw : q.controlWord e.addr e.words o = some w) : p.watchWord e o f = f p w := by
  have hw' : p.controlWord e.addr e.words o = some w := by
    rw [← hw]; unfold Chip.controlWord Chip.control; rw [hs]
  unfold Chip.watchWord; rw [hw']

/-- Settles O9: the watch names the unit that takes the word; of both the request unit acts first, and leaves the path. -/
theorem indexWordsTakeEffectAtTheirDrain : Obligations.IndexWordsTakeEffectAtTheirDrain := by
  intro s e rest hb hp q
  have hstrap : q.path.strap = s.chip.path.strap := rfl
  have hex := exec_postedWriteDrain hb hp
  refine ⟨fun w hwatch hw => ⟨_, hex, rfl, ?_⟩, fun w hwatch hw => ⟨_, hex, rfl, ?_⟩, fun w x hwatch hw hx => ?_⟩
  · have hd : q.drained e = q.producerWritten w := by
      unfold Chip.drained; rw [hwatch]; exact Chip.watchWord_eq _ hstrap hw
    exact hd ▸ q.producerTaken_producerWritten w
  · have hd : q.drained e = q.consumerWritten w := by
      unfold Chip.drained; rw [hwatch]; exact Chip.watchWord_eq _ hstrap hw
    exact hd ▸ q.consumerTaken_consumerWritten w
  · have hpath : (q.producerWritten w).path = q.path := (Chip.producerWritten_pathPort w ⟨rfl, rfl⟩).1
    have hd : q.drained e = (q.producerWritten w).consumerWritten x := by
      unfold Chip.drained; rw [hwatch]
      show (q.watchWord e producerOffset Chip.producerWritten).watchWord e consumerOffset Chip.consumerWritten = _
      rw [Chip.watchWord_eq _ hstrap hw]
      exact Chip.watchWord_eq _ ((congrArg Path.strap hpath).trans hstrap) hx
    exact ⟨_, _, hex, rfl, q.producerTaken_producerWritten w, hd ▸ Chip.consumerTaken_consumerWritten _ x⟩

end Drain

end Sys2Proof.Machine
end

section
/-! PROOFS. Reads served through the master port (03 R50) and the slots they consume (04 R72, R74; 06 R109). -/

namespace Sys2Proof.Machine

/-! ## The words read (00 5.2) -/

/-- Byte `i` of a little-endian value (11). -/
theorem leVal_byte (bs : List Byte) (i : Nat) : leVal bs / 256 ^ i % 256 = (bs.getD i 0).toNat := by
  induction bs generalizing i with
  | nil => simp [leVal]
  | cons b bs ih =>
    cases i with
    | zero => rw [leVal, Nat.pow_zero, Nat.div_one, List.getD_cons_zero]; have := b.isLt; omega
    | succ i =>
      have hdrop : (b.toNat + 256 * leVal bs) / 256 = leVal bs := by have := b.isLt; omega
      rw [leVal, Nat.pow_succ', ← Nat.div_div_eq_div_mul, hdrop, ih, List.getD_cons_succ]

/-- A data word holds the four bytes at its address, little-endian (00 5.2). -/
theorem memReadWord_byte (m : List Host.Cell) (a : Nat) {i : Nat} (hi : i < 4) :
    (memReadWord m a).extractLsb' (8 * i) 8 = memRead m (a + i) := by
  rw [← memReadBytes_getD m a 4 i hi]
  apply BitVec.eq_of_toNat_eq
  rw [← leVal_byte, memReadWord, BitVec.extractLsb'_toNat, BitVec.toNat_ofNat, Nat.shiftRight_eq_div_pow]
  generalize leVal (memReadBytes m a 4) = v
  match i, hi with
  | 0, _ => omega
  | 1, _ => omega
  | 2, _ => omega
  | 3, _ => omega

/-- The words that a read returns, byte by byte (R50). -/
theorem readWords_byte (m : List Host.Cell) (a n : Nat) {k i : Nat} (hk : k < n) (hi : i < 4) :
    ((readWords m a n).getD k 0).extractLsb' (8 * i) 8 = memRead m (a + 4 * k + i) := by
  have hget : (readWords m a n).getD k 0 = memReadWord m (a + 4 * k) := by
    simp [readWords, List.getD_eq_getElem?_getD, hk]
  rw [hget, memReadWord_byte m _ hi]

/-! ## A search over a table -/

section Search

variable {α : Type} {n : Nat} [Inhabited α] {t : Vector α n} {f : α → Bool}

/-- No entry of the table satisfies the search. -/
theorem tfind_eq_none : tfind t f = none ↔ ∀ i, i < n → f (tget t i) = false := by
  simp [tfind, List.find?_eq_none]

/-- The search gives the lowest entry that satisfies it. -/
theorem tfind_eq_some {j : Nat} :
    tfind t f = some j ↔ j < n ∧ f (tget t j) = true ∧ ∀ i, i < j → f (tget t i) = false := by
  unfold tfind
  rw [List.find?_range_eq_some]
  simp only [List.mem_range, Bool.not_eq_true']
  exact and_left_comm

/-- The search finds an entry just if there is one. -/
theorem tfind_isSome : (tfind t f).isSome = true ↔ ∃ i, i < n ∧ f (tget t i) = true := by
  simp [tfind]

end Search

/-! ## Consumption (04 R72, R74; 06 R109) -/

section Consume

variable {p : Chip} {c k : Nat} {r : RenderRing}

/-- The ring after slot `k` of it has been consumed, its stall timer's full time being `full` (R72, R74). -/
theorem RenderRing.consumed_eq (full : Nat) (r : RenderRing) (k : Nat) : r.consumed full k = { r with
    slots := r.slots.set k RenderSlot.fresh
    stall := if (r.slots.set k RenderSlot.fresh).any (fun x => x.st == .ready) = true then .running full else .stopped } := by
  have hany : (0 < ((r.slots.set k RenderSlot.fresh).filter (·.st == .ready)).length) ↔
      (r.slots.set k RenderSlot.fresh).any (fun x => x.st == .ready) = true := by
    rw [List.length_pos_iff_exists_mem, List.any_eq_true]
    simp only [List.mem_filter]
  unfold RenderRing.consumed RenderRing.readyCount
  simp only [hany]

/-- A slot that is no longer READY is not consumed (R72). -/
theorem Chip.consume_not_ready (hr : (p.ren c).ring = some r) (hst : (r.slot k).st ≠ .ready) : p.consume c k = p := by
  unfold Chip.consume; rw [hr]; exact if_pos hst

/-- A READY slot is consumed, its END_DOC acts on the print queue, and the context goes on (R70, R72; 06 R109). -/
theorem Chip.consume_ready (hr : (p.ren c).ring = some r) (hst : (r.slot k).st = .ready) :
    let q : Chip := { p with render := tset p.render c { p.ren c with ring := some (r.consumed (p.stallFull c) k) } }
    p.consume c k =
      (if c = 0 ∧ (r.slot k).markers.endDoc = true then q.printConsumed (r.slot k).sequence else q).advance c := by
  have hq : p.onRenRing c (RenderRing.consumed (p.stallFull c) k) =
      { p with render := tset p.render c { p.ren c with ring := some (r.consumed (p.stallFull c) k) } } := by
    unfold Chip.onRenRing Chip.onRen; dsimp only; rw [hr]; rfl
  unfold Chip.consume; rw [hr]; dsimp only; rw [if_neg (fun hn => hn hst), hq]

/-- Job `j` is FINISHING with the sequence number of a consumed slot. -/
def Job.endsWith (x : Job) (sequence : Nat) : Bool := x.st == .finishing && x.endSequence == sequence

theorem Job.endsWith_iff {x : Job} {sequence : Nat} :
    x.endsWith sequence = true ↔ x.st = .finishing ∧ x.endSequence = sequence := by
  simp [Job.endsWith]

/-- No FINISHING job has the slot's sequence number (06 R109). -/
theorem Chip.printConsumed_none {sequence : Nat} (h : ∀ j, j < 16 → (p.job j).endsWith sequence = false) :
    p.printConsumed sequence = p := by
  have hfind : tfind p.print.jobs (fun j => j.st == .finishing && j.endSequence == sequence) = none := tfind_eq_none.2 h
  unfold Chip.printConsumed; rw [hfind]

/-- Handing over a notice leaves the print jobs. -/
theorem Chip.send_job (p : Chip) (n : Notice) (j : Nat) : (p.send n).job j = p.job j := by
  unfold Chip.job; rw [Chip.send_print]

/-- PRINT is active while a job is ACTIVE or FINISHING (03 R45). -/
theorem Chip.printActive_iff : p.printActive = true ↔
    ∃ i, i < 16 ∧ ((p.job i).st = .active ∨ (p.job i).st = .finishing) := by
  unfold Chip.printActive; rw [tfind_isSome]; simp [Chip.job]

/-- The lowest FINISHING job with the slot's sequence number ends (06 R109). -/
theorem Chip.printConsumed_some {sequence j : Nat} (hj : j < 16) (he : (p.job j).endsWith sequence = true)
    (hlow : ∀ i, i < j → (p.job i).endsWith sequence = false) :
    let x := p.job j
    let u := p.send (.printDone j x.doc x.pagesOut x.cancelled x.short x.corrupt x.restart)
    let v := if x.deferred = true then u.releaseHold x.doc else u
    let w := v.onJob j fun _ => Job.free
    p.printConsumed sequence = if w.printActive = true then w else w.onRenRing 0 RenderRing.ceased := by
  have hfind : tfind p.print.jobs (fun j => j.st == .finishing && j.endSequence == sequence) = some j :=
    tfind_eq_some.2 ⟨hj, he, hlow⟩
  unfold Chip.printConsumed Chip.sendPrintDone; rw [hfind]
  simp only [Chip.send_job]

end Consume

/-- A held read that memory serves is answered with the words at its addresses (R50). -/
theorem exec_throughReadServed {s : State} {h : HeldRead} (hb : s.chip.mport.busy = some .read)
    (hh : s.chip.path.held = some h) :
    exec .throughReadServed s = .next { s with chip := s.chip.answerRead h (readWords s.mem h.addr h.words) } := by
  show execThroughReadServed s = _
  unfold execThroughReadServed; rw [hb, hh]

/-- The part with the held read answered `data` and the M-port free (R50). -/
def Chip.readAnswered (p : Chip) (data : List Word) : Chip := { p with
  path := { p.path with held := none, response := some (.done data) }
  mport := { p.mport with busy := none } }

/-- A completing read of a render slot consumes it (04 R72). -/
theorem Chip.answerRead_completing {p : Chip} {h : HeldRead} {c k : Nat} (hs : h.slot = some (c, k, true)) (data : List Word) :
    p.answerRead h data = (p.readAnswered data).consume c k := by
  unfold Chip.answerRead; rw [hs]; rfl

/-- Any other read is answered and does nothing else (R50). -/
theorem Chip.answerRead_plain {p : Chip} {h : HeldRead} {x : Nat × Nat} (hs : h.slot = none ∨ h.slot = some (x.1, x.2, false))
    (data : List Word) : p.answerRead h data = p.readAnswered data := by
  unfold Chip.answerRead
  rcases hs with hs | hs <;> rw [hs] <;> rfl

/-- Settles O12: the read is answered with the words; a completing one is the slot's consumption, by the slot's state, its
END_DOC and the print jobs. -/
theorem servedReadReturnsMemoryAndConsumes : Obligations.ServedReadReturnsMemoryAndConsumes := by
  unfold Obligations.ServedReadReturnsMemoryAndConsumes
  refine ⟨fun s r hb hh => ?_, fun s h c k r hc hb hh hslot hr => ?_⟩
  · refine ⟨_, readWords s.mem r.addr r.words, exec_throughReadServed hb hh, by simp [readWords],
      fun k i hk hi => readWords_byte _ _ _ hk hi, fun x hs => Chip.answerRead_plain hs _, fun c k hs =>
      Chip.answerRead_completing hs _⟩
  · refine ⟨readWords s.mem h.addr h.words, _, exec_throughReadServed hb hh, ?_⟩
    rw [Chip.answerRead_completing hslot]
    intro p q ends
    have hr' : (p.ren c).ring = some r := hr
    have hq (hst : (r.slot k).st = .ready) : p.consume c k =
        (if c = 0 ∧ (r.slot k).markers.endDoc = true then q.printConsumed (r.slot k).sequence else q).advance c := by
      rw [Chip.consume_ready hr' hst, RenderRing.consumed_eq]; rfl
    refine ⟨fun hst => Chip.consume_not_ready hr' hst, fun hst hno => ?_, fun j hst hc0 he hj hends hlow => ?_⟩
    · refine (hq hst).trans (congrArg (Chip.advance · c) ?_)
      split
      · next h0 =>
        refine Chip.printConsumed_none fun j hj => Bool.eq_false_iff.2 fun hends => ?_
        rcases hno with h | h | h
        · exact h h0.1
        · rw [h] at h0; exact absurd h0.2 (by decide)
        · exact h j hj (Job.endsWith_iff.1 hends)
      · rfl
    · subst hc0
      have hend := Chip.printConsumed_some (p := q) hj (Job.endsWith_iff.2 hends)
        fun i hi => Bool.eq_false_iff.2 fun h => hlow i hi (Job.endsWith_iff.1 h)
      refine ⟨_, _, _, Chip.told_send _ _, rfl, rfl, fun hactive => ?_, fun hceased => ?_⟩
      · refine (hq hst).trans (congrArg (Chip.advance · 0) ?_)
        rw [if_pos ⟨rfl, he⟩, hend]
        exact if_pos (Chip.printActive_iff.2 hactive)
      · refine (hq hst).trans (congrArg (Chip.advance · 0) ?_)
        rw [if_pos ⟨rfl, he⟩, hend]
        refine (if_neg fun hactive => ?_).trans rfl
        obtain ⟨i, hi, h | h⟩ := Chip.printActive_iff.1 hactive
        · exact (hceased i hi).1 h
        · exact (hceased i hi).2 h

end Sys2Proof.Machine
end

section
/-! PROOFS. The memory arbiter: which class and which operation a grant goes to (03 R53 to R55). -/

namespace Sys2Proof.Machine

/-! ## The operation of each class that goes first (R54, R55) -/

section Waiting

variable {p : Chip}

/-- The next line is the first after the one last granted that has an operation waiting (R55). -/
theorem Chip.nextLine_eq_some {k : Nat} (h1 : 1 ≤ k) (h4 : k ≤ 4)
    (hk : tget p.mport.lineOps ((p.mport.lastLine + k) % 4) ≠ [])
    (hbefore : ∀ j, 1 ≤ j → j < k → tget p.mport.lineOps ((p.mport.lastLine + j) % 4) = []) :
    p.nextLine = some ((p.mport.lastLine + k) % 4) := by
  unfold Chip.nextLine
  rw [List.findSome?_eq_some_iff]
  refine ⟨List.range' 1 (k - 1), k, List.range' (k + 1) (4 - k), ?_, by simp [hk], fun j hj => ?_⟩
  · show List.range' 1 4 = _
    have hcases : k = 1 ∨ k = 2 ∨ k = 3 ∨ k = 4 := by omega
    rcases hcases with rfl | rfl | rfl | rfl <;> rfl
  · have hj' := List.mem_range'_1.1 hj
    simp [hbefore j hj'.1 (by omega)]

/-- With nothing waiting on any line there is no next line. -/
theorem Chip.nextLine_eq_none (h : ∀ n, n < 4 → tget p.mport.lineOps n = []) : p.nextLine = none := by
  unfold Chip.nextLine
  rw [List.findSome?_eq_none_iff]
  intro k _
  simp [h _ (Nat.mod_lt (p.mport.lastLine + k) (by decide : 0 < 4))]

/-- RECORD comes first in its class (R55). -/
theorem Chip.engineGrant_record {op : RecordOp} {rest : List RecordOp} (h : p.mport.records = op :: rest) :
    p.engineGrant = some (.record op, { p.mport with records := rest }) := by
  unfold Chip.engineGrant; dsimp only; rw [h]

/-- Without RECORD operations the next line's goes, in issue order (R55). -/
theorem Chip.engineGrant_line {n : Nat} {op : EngineOp} {rest : List EngineOp} (hr : p.mport.records = [])
    (hn : p.nextLine = some n) (hops : tget p.mport.lineOps n = op :: rest) :
    p.engineGrant = some (.engine op, { p.mport with lineOps := tset p.mport.lineOps n rest, lastLine := n }) := by
  unfold Chip.engineGrant; dsimp only; rw [hr, hn]; simp [hops]

/-- With no RECORD or line operation waiting, SCAN's goes (R55). -/
theorem Chip.engineGrant_scan {op : EngineOp} {rest : List EngineOp} (hr : p.mport.records = []) (hn : p.nextLine = none)
    (hops : p.mport.scanOps = op :: rest) :
    p.engineGrant = some (.engine op, { p.mport with scanOps := rest }) := by
  unfold Chip.engineGrant; dsimp only; rw [hr, hn, hops]

/-- With none of SCAN's either, PRINT's goes (R55). -/
theorem Chip.engineGrant_print {op : EngineOp} {rest : List EngineOp} (hr : p.mport.records = []) (hn : p.nextLine = none)
    (hs : p.mport.scanOps = []) (hops : p.mport.printOps = op :: rest) :
    p.engineGrant = some (.engine op, { p.mport with printOps := rest }) := by
  unfold Chip.engineGrant; dsimp only; rw [hr, hn, hs, hops]

/-- Taking an ENGINE operation from its requester leaves turn and share; the operation is RECORD's or an engine's. -/
theorem Chip.engineGrant_turn {op : PortOp} {m : MPort} (h : p.engineGrant = some (op, m)) :
    m.turn = p.mport.turn ∧ m.turnCount = p.mport.turnCount ∧ m.share = p.mport.share
      ∧ ((∃ r, op = .record r) ∨ ∃ e, op = .engine e) := by
  unfold Chip.engineGrant at h
  dsimp only at h
  split at h
  · cases h; exact ⟨rfl, rfl, rfl, .inl ⟨_, rfl⟩⟩
  · split at h
    · obtain ⟨e, -, he⟩ := Option.map_eq_some_iff.1 h
      cases he; exact ⟨rfl, rfl, rfl, .inr ⟨_, rfl⟩⟩
    · split at h
      · cases h; exact ⟨rfl, rfl, rfl, .inr ⟨_, rfl⟩⟩
      · cases h; exact ⟨rfl, rfl, rfl, .inr ⟨_, rfl⟩⟩
      · cases h

/-- With no read held, the drain of the oldest entry waits if there is one. -/
theorem Chip.throughWaiting_no_read (h : p.path.held = none) :
    p.throughWaiting = if p.path.posted = [] then none else some .drain := by
  unfold Chip.throughWaiting; dsimp only; rw [h]
  cases p.path.posted <;> rfl

/-- A read whose wait set has drained goes first, unless a drain waited before it (R54). -/
theorem Chip.throughWaiting_read_ready {r : HeldRead} (h : p.path.held = some r) (hw : r.waits = []) :
    p.throughWaiting = if p.path.posted ≠ [] ∧ r.behindDrain = true then some .drain else some .read := by
  unfold Chip.throughWaiting; dsimp only; rw [h]; dsimp only; rw [hw]
  cases p.path.posted <;> simp

/-- While its wait set stands a read is not granted (R50). -/
theorem Chip.throughWaiting_read_waits {r : HeldRead} (h : p.path.held = some r) (hw : r.waits ≠ []) :
    p.throughWaiting = if p.path.posted = [] then none else some .drain := by
  unfold Chip.throughWaiting; dsimp only; rw [h]; dsimp only
  rw [if_neg (by simpa using hw)]
  cases p.path.posted <;> rfl

/-- A THROUGH request is a drain or a read (R52). -/
theorem Chip.throughWaiting_kind {op : PortOp} (h : p.throughWaiting = some op) : op = .drain ∨ op = .read := by
  unfold Chip.throughWaiting at h
  dsimp only at h
  split at h
  · split at h
    · split at h <;> cases h
      · exact .inl rfl
      · exact .inr rfl
    · split at h <;> cases h
      exact .inl rfl
  · split at h <;> cases h
    exact .inl rfl

end Waiting

/-- Settles O14: one lemma per requester, and one per state of the held read. -/
theorem waitingOperationsKeepTheirOrder : Obligations.WaitingOperationsKeepTheirOrder := by
  unfold Obligations.WaitingOperationsKeepTheirOrder
  refine ⟨fun p => ⟨fun op rest h => Chip.engineGrant_record h, fun k op rest hr h1 h4 hops hbefore => ?_,
    fun op rest hr hl hops => Chip.engineGrant_scan hr (Chip.nextLine_eq_none hl) hops,
    fun op rest hr hl hs hops => Chip.engineGrant_print hr (Chip.nextLine_eq_none hl) hs hops⟩,
    fun p => ⟨fun hh hp => ?_, fun e rest hh hp => ?_, fun r e rest hh hw hp => ?_, fun r hh hw hfree => ?_,
      fun r e rest hh hw hp hb => ?_⟩⟩
  · exact Chip.engineGrant_line hr (Chip.nextLine_eq_some h1 h4 (by rw [hops]; exact List.cons_ne_nil _ _) hbefore) hops
  · rw [Chip.throughWaiting_no_read hh, if_pos hp]
  · rw [Chip.throughWaiting_no_read hh, if_neg (by rw [hp]; exact List.cons_ne_nil _ _)]
  · rw [Chip.throughWaiting_read_waits hh hw, if_neg (by rw [hp]; exact List.cons_ne_nil _ _)]
  · rw [Chip.throughWaiting_read_ready hh hw, if_neg]
    rintro ⟨hp, hb⟩
    rcases hfree with h | h
    · exact hp h
    · rw [h] at hb; cases hb
  · rw [Chip.throughWaiting_read_ready hh hw, if_pos ⟨by rw [hp]; exact List.cons_ne_nil _ _, hb⟩]

/-! ## One grant (R53) -/

section Grant

variable {s : State}

/-- A port that no rowless RECORD_WRITE holds: the command makes one grant. -/
theorem exec_arbiterGrant (h : ∀ op, s.chip.mport.busy = some op → op.rowless = false) :
    exec .arbiterGrant s = .next { s with chip := s.chip.grant } := by
  show execArbiterGrant s = _
  unfold execArbiterGrant; rw [State.serveRowless_eq h]

/-- A port that is held makes no grant. -/
theorem Chip.grant_busy {p : Chip} (h : p.mport.busy.isSome = true) : p.grant = p := by
  unfold Chip.grant; exact if_pos h

/-- A grant that the THROUGH class is given in its turn is counted (R53). -/
theorem MPort.countGrant_through {m : MPort} {k : Nat} (ht : m.turn = .through)
    (hk : k = if m.share = .threeOne then 3 else 1) : m.countGrant = { m with
      turn := if m.turnCount + 1 = k then .engine else .through
      turnCount := if m.turnCount + 1 = k then 0 else m.turnCount + 1 } := by
  have hlen : m.share.turn m.turn = k := by rw [hk, ht]; cases m.share <;> rfl
  unfold MPort.countGrant; rw [hlen]
  split
  · rw [ht]; rfl
  · rw [← ht]

/-- A grant that the ENGINE class is given in its turn is counted (R53). -/
theorem MPort.countGrant_engine {m : MPort} {k : Nat} (ht : m.turn = .engine)
    (hk : k = if m.share = .oneThree then 3 else 1) : m.countGrant = { m with
      turn := if m.turnCount + 1 = k then .through else .engine
      turnCount := if m.turnCount + 1 = k then 0 else m.turnCount + 1 } := by
  have hlen : m.share.turn m.turn = k := by rw [hk, ht]; cases m.share <;> rfl
  unfold MPort.countGrant; rw [hlen]
  split
  · rw [ht]; rfl
  · rw [← ht]

/-- A free port with the class that is granted and its operation. -/
theorem Chip.grant_free {p : Chip} (h : p.mport.busy = none) :
    (p.throughWaiting = none → p.engineGrant = none → p.grant = p)
    ∧ (∀ op, p.throughWaiting = some op → p.engineGrant = none → p.grant = { p with mport := { p.mport with busy := some op } })
    ∧ (∀ op m, p.throughWaiting = none → p.engineGrant = some (op, m) → p.grant = { p with mport := { m with busy := some op } })
    ∧ (∀ a b m, p.throughWaiting = some a → p.engineGrant = some (b, m) → p.mport.turn = .through →
        p.grant = { p with mport := { p.mport.countGrant with busy := some a } })
    ∧ (∀ a b m, p.throughWaiting = some a → p.engineGrant = some (b, m) → p.mport.turn = .engine →
        p.grant = { p with mport := { m.countGrant with busy := some b } }) := by
  unfold Chip.grant
  rw [h, if_neg (by decide)]
  refine ⟨fun ht he => ?_, fun op ht he => ?_, fun op m ht he => ?_, fun a b m ht he hturn => ?_, fun a b m ht he hturn => ?_⟩
  · rw [ht, he]
  · rw [ht, he]
  · rw [ht, he]
  · rw [ht, he]; dsimp only; rw [hturn]
  · rw [ht, he]; dsimp only; rw [hturn]

/-- Settles O13: a rowless write that holds the port is served first; a free port is granted by turn. -/
theorem grantsFollowTheTurn : Obligations.GrantsFollowTheTurn := by
  unfold Obligations.GrantsFollowTheTurn
  refine ⟨fun s op hb => ⟨fun ho => ?_, fun ho hm => ?_⟩, fun s hb => ?_⟩
  · have hnot : ∀ x, s.chip.mport.busy = some x → x.rowless = false := by
      intro x hx; rw [hb] at hx; cases hx; exact ho
    rw [exec_arbiterGrant hnot, Chip.grant_busy (by rw [hb]; rfl)]
  · obtain ⟨m, base, bytes, hu, hrest⟩ := State.serveRowless_served hm hb ho
    have hfree : s.serveRowless.chip.mport.busy = none := by rw [hu]
    refine ⟨s.serveRowless, ⟨m, base, bytes, hu, hrest⟩, ?_⟩
    rw [exec_arbiterGrant (s := s.serveRowless) fun x hx => by rw [hfree] at hx; cases hx]
    rfl
  · intro p granted
    obtain ⟨hnone, hthrough, hengine, hboth, hboth'⟩ := Chip.grant_free hb
    have hgrant : exec .arbiterGrant s = .next { s with chip := s.chip.grant } :=
      exec_arbiterGrant fun x hx => by rw [hb] at hx; cases hx
    have hgranted {op : PortOp} {m : MPort} (h : s.chip.grant = { p with mport := { m with busy := some op } }) :
        granted op m := hgrant.trans (by rw [h])
    refine ⟨fun ht he => by rw [hgrant, hnone ht he], fun op ht he => hgranted (hthrough op ht he),
      fun op m ht he => hgranted (hengine op m ht he), fun a b m k ht he hturn hk => hgranted ?_,
      fun a b m k ht he hturn hk => hgranted ?_, fun op => Chip.throughWaiting_kind, fun op m => Chip.engineGrant_turn⟩
    · rw [hboth a b m ht he hturn, MPort.countGrant_through hturn hk]
    · obtain ⟨hmt, hmc, hms, -⟩ := Chip.engineGrant_turn he
      rw [hboth' a b m ht he hturn, MPort.countGrant_engine (hmt.trans hturn) (hms ▸ hk), hmc]

end Grant

end Sys2Proof.Machine
end

section
/-! PROOFS. The settings requests (03 R51, R56; 08 R150; 09 R161, R162, R179; 10 R188). -/

namespace Sys2Proof.Machine

/-! ## A request answered with DONE -/

/-- A served request whose block acts and sends DONE. -/
theorem request_done {c : Instr} {act : Chip → Chip} {s : State} {q : Chip} {tag : Half} {k : Nat} {r : Result} {v : Nat}
    (h : s.served c = true) (ha : act s.chip.freePort = q.done tag k r v) :
    ∃ t : Chip, request c act s = .next { s with chip := t } ∧ q.AnsweredWith t (.done tag.toNat k r v) :=
  ⟨_, request_served h, ha ▸ q.answeredWith_done tag k r v⟩

/-- Answering a request leaves the path, the charge unit and the routing. -/
theorem Chip.AnsweredWith.frame {q t : Chip} {n : Notice} (h : q.AnsweredWith t n) :
    t.path = q.path ∧ t.charge = q.charge ∧ t.notices.routes = q.notices.routes := by
  obtain ⟨u, htold, hended⟩ := h
  unfold Chip.Ended at hended
  unfold Chip.Told at htold
  split at htold <;> rw [hended, htold] <;> exact ⟨rfl, rfl, rfl⟩

/-! ## The codes of the settings (11.5) -/

/-- The share setting of a code (R56). -/
theorem shareOf_eq (n : Nat) :
    shareOf n = if n ≤ 2 then some (if n = 0 then .threeOne else if n = 1 then .oneOne else .oneThree) else none :=
  match n with
  | 0 | 1 | 2 => rfl
  | n + 3 => by rw [if_neg (by omega)]; rfl

/-- The target of a code (10 R188). -/
theorem targetOf_eq (n : Nat) :
    targetOf n = if n ≤ 2 then some (if n = 0 then .none else if n = 1 then .int0 else .int1) else none :=
  match n with
  | 0 | 1 | 2 => rfl
  | n + 3 => by rw [if_neg (by omega)]; rfl

theorem NoticeClass.code_lt (c : NoticeClass) : c.code < 7 := by cases c <;> decide

/-! ## What each setting comes to -/

section Settings

variable {p : Chip} {tag : Half}

/-- SHARE_SET takes the setting and turns to THROUGH (R56). -/
theorem Chip.shareSet_taken {setting : Nat} (h : setting ≤ 2) : p.shareSet tag setting =
    ({ p with mport := { p.mport with
      share := if setting = 0 then .threeOne else if setting = 1 then .oneOne else .oneThree
      turn := .through, turnCount := 0 } } : Chip).done tag 4 .ok := by
  unfold Chip.shareSet; rw [shareOf_eq, if_pos h]

/-- Another setting is refused (R56). -/
theorem Chip.shareSet_refused {setting : Nat} (h : ¬ setting ≤ 2) : p.shareSet tag setting = p.done tag 4 .badField := by
  unfold Chip.shareSet; rw [shareOf_eq, if_neg h]

/-- MASTER_SET sets the master's ordering flag (R51). -/
theorem Chip.masterSet_taken {master ordering : Nat} (hm : master ≤ 15) (ho : ordering ≤ 1) : p.masterSet tag master ordering =
    ({ p with path := { p.path with ordered := tset p.path.ordered master (decide (ordering = 0)) } } : Chip).done tag 3 .ok := by
  unfold Chip.masterSet; rw [if_neg (by omega)]; rfl

/-- ROUTE_SET routes the class (10 R188). -/
theorem Chip.routeSet_taken {cls target : Nat} (hc : cls ≤ 6) (ht : target ≤ 2) : p.routeSet tag cls target =
    ({ p with notices := { p.notices with routes := (tset p.notices.routes cls
      (if target = 0 then .none else if target = 1 then .int0 else .int1)) } } : Chip).done tag 5 .ok := by
  unfold Chip.routeSet; rw [targetOf_eq, if_pos ht]; exact if_neg (by omega)

/-- SET_CLOCK sets day and second, and the clock word goes out (R161). -/
theorem Chip.setClock_taken {second day : Nat} (hd : day ≤ 6) (hs : second ≤ 86399) : p.setClock tag second day =
    ({ p with
      charge := { p.charge with day := day, second := second, tick := 0 }
      mport := { p.mport with records := withWord p.mport.records .clock } } : Chip).done tag 24 .ok := by
  unfold Chip.setClock; rw [if_neg (by omega)]; dsimp only; rw [Chip.issueWord_eq]

/-- HOLIDAY sets or clears the override (R162). -/
theorem Chip.setHoliday_taken {setting : Nat} (h : setting ≤ 1) : p.setHoliday tag setting =
    ({ p with charge := { p.charge with holiday := decide (setting = 1) } } : Chip).done tag 25 .ok := by
  unfold Chip.setHoliday; rw [if_neg (by omega)]; rfl

/-- A log region that passes its checks is set at entry 0, or the log is off (R179). -/
theorem Chip.logSet_taken {address count : Nat} (h : p.logFields address count = true) : p.logSet tag address count =
    ({ p with charge := { p.charge with log := if count = 0 then none else some ⟨address, count, 0⟩ } } : Chip).done tag 29 .ok
      p.charge.logSeq := by
  unfold Chip.logSet; rw [h, Bool.not_true]; exact if_neg Bool.false_ne_true

/-- A log region that fails them is refused (R179). -/
theorem Chip.logSet_refused {address count : Nat} (h : p.logFields address count = false) :
    p.logSet tag address count = p.done tag 29 .badField := by
  unfold Chip.logSet; rw [h, Bool.not_false]; exact if_pos rfl

/-- The checks of LOG_SET: off at a count of 0, else a region of 16 to 4096 entries that is protected nowhere (R179). -/
theorem Chip.logFields_iff (p : Chip) (address count : Nat) : p.logFields address count = true ↔
    count = 0 ∨ 16 ≤ count ∧ count ≤ 4096 ∧ address % 64 = 0 ∧ address + count * 64 ≤ 2 ^ 32
      ∧ p.protectedOverlap address (count * 64) = false := by
  simp only [Chip.logFields, within, Bool.or_eq_true, Bool.and_eq_true, beq_iff_eq, decide_eq_true_eq, Bool.not_eq_true',
    and_assoc]

/-- The regions that are protected from a log or a report (R179). -/
theorem Chip.protectedOverlap_iff (p : Chip) (a n : Nat) : p.protectedOverlap a n = true ↔
    (a < p.path.strap * 8192 + 8192 ∧ p.path.strap * 8192 < a + n)
    ∨ (p.store.configured = true ∧ a < p.store.base + p.store.blocks * 1024 ∧ p.store.base < a + n) := by
  unfold Chip.protectedOverlap overlaps Chip.control
  simp only [Bool.or_eq_true, Bool.and_eq_true, decide_eq_true_eq]

end Settings

/-- OUTGOING_LIMIT takes the limit and sends DONE; one above the old limit then considers the arbiter (08 R150; log 20). -/
theorem Chip.outgoingLimit_taken {p : Chip} {tag : Half} {limit : Nat} (h : ¬ 4 < limit) : p.outgoingLimit tag limit =
    let q := ({ p with calls := { p.calls with limit := limit } } : Chip).done tag 20 .ok limit
    if p.calls.limit < limit then q.arbiterPass else q := if_neg h

/-- Settles O17: each request comes to its setting and a DONE. -/
theorem settingsAreTaken : Obligations.SettingsAreTaken := by
  unfold Obligations.SettingsAreTaken
  refine ⟨fun tag setting s hs => ?_, fun tag master ordering s hs hm ho => ?_, fun tag cls target s hs hc ht => ?_,
    fun tag limit s hs => ?_, fun tag second day s hs hd hsec => request_done hs (Chip.setClock_taken hd hsec),
    fun tag setting s hs h1 => ?_, fun tag address count s hs hgood => ?_, fun tag address count s hs => ?_⟩
  · by_cases h : setting.toNat ≤ 2
    · simp only [if_pos h]; exact request_done hs (Chip.shareSet_taken h)
    · simp only [if_neg h]; exact request_done hs (Chip.shareSet_refused h)
  · obtain ⟨t, hex, ht⟩ := request_done (act := fun p => p.masterSet tag master.toNat ordering.toNat) hs
      (Chip.masterSet_taken hm ho)
    refine ⟨t, hex, ht, fun m hm16 => ?_⟩
    rw [ht.frame.1]
    refine (tget_tset _ _ _ _).trans ?_
    by_cases he : m = master.toNat
    · rw [if_pos ⟨he.symm, by omega⟩, if_pos he]
    · rw [if_neg fun h => he h.1.symm, if_neg he]; rfl
  · obtain ⟨t, hex, ht⟩ := request_done (act := fun p => p.routeSet tag cls.toNat target.toNat) hs
      (Chip.routeSet_taken hc ht)
    refine ⟨t, hex, ht, fun c => ?_⟩
    unfold Chip.route
    rw [ht.frame.2.2]
    refine (tget_tset _ _ _ _).trans ?_
    by_cases he : c.code = cls.toNat
    · rw [if_pos ⟨he.symm, by omega⟩, if_pos he]
    · rw [if_neg fun h => he h.1.symm, if_neg he]; rfl
  · by_cases h : 4 < limit.toNat
    · simp only [if_pos h]; exact request_done hs (if_pos h)
    · simp only [if_neg h]
      exact ⟨_, request_served hs, _, Chip.told_send _ _, Chip.outgoingLimit_taken h ▸ Chip.ended_nextRequest _⟩
  · obtain ⟨t, hex, ht⟩ := request_done (act := fun p => p.setHoliday tag setting.toNat) hs
      (Chip.setHoliday_taken h1)
    refine ⟨t, hex, ht, ?_⟩
    rw [ht.frame.2.1]
    by_cases h : setting.toNat = 1
    · simp [ChargeUnit.dayType, h]
    · simp [ChargeUnit.dayType, h]
  · exact request_done hs (Chip.logSet_taken ((Chip.logFields_iff _ _ _).2 hgood))
  · intro p a bytes control hcount hbad
    refine request_done hs (Chip.logSet_refused (Bool.eq_false_iff.2 fun hgood => ?_))
    rcases (p.logFields_iff _ _).1 hgood with h0 | ⟨h16, h4096, h64, htop, hfree⟩
    · exact hcount h0
    · have hprot : ¬ p.protectedOverlap a bytes = true := by rw [hfree]; decide
      rw [Chip.protectedOverlap_iff] at hprot
      rcases hbad with h | h | h | h | h | h
      · omega
      · omega
      · exact h h64
      · omega
      · exact hprot (.inl h)
      · exact hprot (.inr h)

end Sys2Proof.Machine
end

section
/-! PROOFS. Apertures cleared and set, their rings unbound and bound (03 R43 to R46). -/

namespace Sys2Proof.Machine

/-! ## Unbinding (R46; log 18) -/

section Unbind

variable {p : Chip} {e : Nat} {x : Aperture}

/-- A disabled entry binds nothing. -/
theorem Chip.unbind_disabled (h : p.aperture e = none) : p.unbind e = p := by
  unfold Chip.unbind; rw [h]

/-- A THROUGH entry binds nothing. -/
theorem Chip.unbind_through (h : p.aperture e = some x) (hk : x.kind = .through) : p.unbind e = p := by
  unfold Chip.unbind; rw [h]; dsimp only; rw [hk]; rfl

/-- The ring of an ingest context is given up, and its entry's posted writes are plain (R46). -/
theorem Chip.unbind_ingest {c : Nat} (h : p.aperture e = some x) (hi : x.kind.ingestCtx = some c) :
    p.unbind e = { p with
      ingest := tset p.ingest c { p.ing c with ring := none }
      path := { p.path with posted := p.path.posted.map (Posted.unwatch e) } } := by
  unfold Chip.unbind; rw [h]; dsimp only; rw [hi]; rfl

/-- The ring of a render context is given up; its SLOT_WRITEs touch no ring, and a held read of its slots consumes
nothing (log 18). -/
theorem Chip.unbind_render {c : Nat} (h : p.aperture e = some x) (hi : x.kind.ingestCtx = none)
    (hr : x.kind.renderCtx = some c) :
    p.unbind e = ((p.onRen c fun y => { y with ring := none }).mapEngine (EngineOp.unbind c)).unbindHeld c := by
  unfold Chip.unbind; rw [h]; dsimp only; rw [hi, hr]

/-- A held read of a slot of context `c` forgets it. -/
theorem HeldRead.unbind_eq (c : Nat) (h : HeldRead) :
    h.unbind c = if (h.slot.map (·.1)) = some c then { h with slot := none } else h := by
  unfold HeldRead.unbind
  cases hs : h.slot with
  | none => rfl
  | some y => simp

/-- The entry that is written reads back. -/
theorem Chip.aperture_setAperture (he : e ≤ 11) (a : Option Aperture) : (p.setAperture e a).aperture e = a :=
  tget_tset_self _ (by omega) _

end Unbind

/-- An entry with an active ring is not cleared (R46). -/
theorem Chip.apertureClear_active {p : Chip} {tag : Half} {e : Nat} (he : e ≤ 11) (ha : p.entryActive e = true) :
    p.apertureClear tag e = p.done tag 2 .state := by
  unfold Chip.apertureClear; rw [if_neg (by omega), if_pos ha]

/-- Another entry is unbound and disabled (R46). -/
theorem Chip.apertureClear_done {p : Chip} {tag : Half} {e : Nat} (he : e ≤ 11) (ha : p.entryActive e = false) :
    p.apertureClear tag e = ((p.unbind e).setAperture e none).done tag 2 .ok := by
  unfold Chip.apertureClear; rw [if_neg (by omega), if_neg (by rw [ha]; decide)]

/-- Settles O18: the unbinding, by the kind of the entry, and the entry disabled. -/
theorem apertureClearUnbinds : Obligations.ApertureClearUnbinds := by
  intro tag entry s hs he p e disabled
  refine ⟨(p.unbind e).setAperture e none, _, request_served hs, fun ha => ?_, fun ha => ⟨?_, ?_, ?_, ?_, ?_, ?_⟩⟩
  · exact (Chip.apertureClear_active he ha) ▸ p.answeredWith_done tag 2 .state 0
  · exact (Chip.apertureClear_done he ha) ▸ Chip.answeredWith_done _ tag 2 .ok 0
  · exact Chip.aperture_setAperture he none
  · intro hn; rw [Chip.unbind_disabled hn]; rfl
  · intro x hx hk; rw [Chip.unbind_through hx hk]; rfl
  · intro x c hx hi _; rw [Chip.unbind_ingest hx hi]; rfl
  · intro x c hx hi hr _ freed
    rw [Chip.unbind_render hx hi hr]
    unfold Chip.unbindHeld
    rw [show HeldRead.unbind c = _ from funext (HeldRead.unbind_eq c)]
    rfl

/-! ## The fields of APERTURE_SET (R43, R44) -/

theorem ApKind.isRing_iff (k : ApKind) : k.isRing = true ↔ k ≠ .through := bne_iff_ne

theorem ApKind.hasLine_iff (k : ApKind) : k.hasLine = true ↔ ∃ n, k = .rxRing n ∨ k = .txRing n := by
  cases k <;> simp [ApKind.hasLine]

theorem ApKind.ingestCtx_isSome_iff (k : ApKind) : k.ingestCtx.isSome = true ↔ k = .scanRing ∨ ∃ n, k = .rxRing n := by
  cases k <;> simp [ApKind.ingestCtx]

/-- No kind binds an ingest and a render context. -/
theorem ApKind.renderCtx_none_of_ingest {k : ApKind} {c : Nat} (h : k.ingestCtx = some c) : k.renderCtx = none := by
  cases k with
  | through | printRing | txRing => cases h
  | scanRing | rxRing => rfl

/-- The kind that the codes name (11.5). -/
theorem apertureKind_eq (kind line : Nat) : apertureKind kind line =
    if kind = 0 then some .through else if kind = 1 then some .scanRing else if kind = 2 then some (.rxRing line)
    else if kind = 3 then some .printRing else if kind = 4 then some (.txRing line) else none :=
  match kind with
  | 0 | 1 | 2 | 3 | 4 => rfl
  | n + 5 => by simp [apertureKind]

/-- Two regions have no address in common just if one ends before the other begins. -/
theorem overlaps_eq_false {a n b m : Nat} : overlaps a n b m = false ↔ b + m ≤ a ∨ a + n ≤ b := by
  simp [overlaps]
  omega

/-- The checks on a ring's slots, which a THROUGH entry is spared (R44). -/
theorem newAperture_ring_iff (k : ApKind) (logSize base slotSize slotCount policy : Nat) :
    let x := newAperture k logSize base slotSize slotCount policy
    (!x.kind.isRing || ((x.slotSize == 128 || x.slotSize == 256 || x.slotSize == 512) && within 2 64 x.slotCount
          && decide (x.slotSize * x.slotCount ≤ x.size))) = true ↔
      (k ≠ .through → (slotSize = 128 ∨ slotSize = 256 ∨ slotSize = 512) ∧ 2 ≤ slotCount ∧ slotCount ≤ 64
        ∧ slotSize * slotCount ≤ 4096 * 2 ^ logSize) := by
  rw [← ApKind.isRing_iff]
  unfold newAperture Aperture.size within
  cases h : k.isRing <;> simp [h, or_assoc, and_assoc]

/-- The field checks of APERTURE_SET (R44). -/
theorem Chip.apertureFields_iff (p : Chip) (k : ApKind) (entry logSize line base slotSize slotCount policy : Nat) :
    let size := 4096 * 2 ^ logSize
    p.apertureFields entry line policy (newAperture k logSize base slotSize slotCount policy) = true ↔
      entry ≤ 11 ∧ logSize ≤ 12 ∧ base % size = 0
      ∧ (k ≠ .through → (slotSize = 128 ∨ slotSize = 256 ∨ slotSize = 512) ∧ 2 ≤ slotCount ∧ slotCount ≤ 64
          ∧ slotSize * slotCount ≤ size)
      ∧ (∀ n, k = .rxRing n ∨ k = .txRing n → line ≤ 3)
      ∧ (k = .scanRing ∨ (∃ n, k = .rxRing n) → policy ≤ 1)
      ∧ (p.path.strap * 8192 + 8192 ≤ base ∨ base + size ≤ p.path.strap * 8192) := by
  intro size
  have hring := newAperture_ring_iff k logSize base slotSize slotCount policy
  dsimp only at hring
  have hline : (!k.hasLine || decide (line ≤ 3)) = true ↔ ∀ n, k = .rxRing n ∨ k = .txRing n → line ≤ 3 := by
    rw [← exists_imp, ← ApKind.hasLine_iff]
    cases k.hasLine <;> simp
  have hpolicy : (k.ingestCtx.isNone || decide (policy ≤ 1)) = true ↔ (k = .scanRing ∨ (∃ n, k = .rxRing n) → policy ≤ 1) := by
    rw [← ApKind.ingestCtx_isSome_iff]
    cases k.ingestCtx <;> simp
  rw [← hring, ← hline, ← hpolicy, ← overlaps_eq_false]
  unfold Chip.apertureFields
  simp only [Bool.and_eq_true, decide_eq_true_eq, beq_iff_eq, Bool.not_eq_true', and_assoc]
  rfl

/-! ## Binding (R45) -/

section Bind

variable (p : Chip) (e : Nat) (x : Aperture)

/-- An ingest ring as its binding leaves it (R45). -/
def Aperture.ingestRing (e : Nat) (x : Aperture) : IngestRing :=
  ⟨e, x.base, x.slotSize, x.overwrite, List.replicate x.slotCount .fresh, 0⟩

/-- A render ring as its binding leaves it (R45). -/
def Aperture.renderRing (e : Nat) (x : Aperture) : RenderRing :=
  ⟨e, x.base, x.slotSize, List.replicate x.slotCount .fresh, 0, 0, false, .stopped⟩

/-- Binding an ingest ring. -/
theorem Chip.bind_ingest {c : Nat} (h : x.kind.ingestCtx = some c) :
    p.bind e x = p.onIng c fun y => { y with ring := some (x.ingestRing e) } := by
  unfold Chip.bind; rw [h]; rfl

/-- Binding a render ring. -/
theorem Chip.bind_render {c : Nat} (hi : x.kind.ingestCtx = none) (hr : x.kind.renderCtx = some c) :
    p.bind e x = p.onRen c fun y => { y with ring := some (x.renderRing e) } := by
  unfold Chip.bind; rw [hi, hr]; rfl

/-- A THROUGH entry binds nothing. -/
theorem Chip.bind_through (hi : x.kind.ingestCtx = none) (hr : x.kind.renderCtx = none) : p.bind e x = p := by
  unfold Chip.bind; rw [hi, hr]

/-- Binding touches the two kinds of context alone. -/
theorem Chip.bind_frame : p.bind e x = { p with ingest := (p.bind e x).ingest, render := (p.bind e x).render } := by
  cases hi : x.kind.ingestCtx with
  | some c => rw [Chip.bind_ingest p e x hi]; rfl
  | none =>
    cases hr : x.kind.renderCtx with
    | some c => rw [Chip.bind_render p e x hi hr]; rfl
    | none => rw [Chip.bind_through p e x hi hr]

/-- Binding leaves the path. -/
theorem Chip.bind_path : (p.bind e x).path = p.path := by rw [Chip.bind_frame]

/-- An ingest context after a binding. -/
theorem Chip.ing_bind (c : Nat) : (p.bind e x).ing c =
    if x.kind.ingestCtx = some c ∧ c < 5 then { p.ing c with ring := some (x.ingestRing e) } else p.ing c := by
  cases hi : x.kind.ingestCtx with
  | some b =>
    rw [Chip.bind_ingest p e x hi, Chip.ing_onIng]
    by_cases hbc : b = c
    · subst hbc; simp only [true_and]
    · rw [if_neg fun h => hbc h.1, if_neg fun h => hbc (Option.some.inj h.1)]
  | none =>
    rw [if_neg (by simp)]
    cases hr : x.kind.renderCtx with
    | some b => rw [Chip.bind_render p e x hi hr]; rfl
    | none => rw [Chip.bind_through p e x hi hr]

/-- A render context after a binding. -/
theorem Chip.ren_bind (c : Nat) : (p.bind e x).ren c =
    if x.kind.renderCtx = some c ∧ c < 5 then { p.ren c with ring := some (x.renderRing e) } else p.ren c := by
  cases hi : x.kind.ingestCtx with
  | some b => rw [ApKind.renderCtx_none_of_ingest hi, Chip.bind_ingest p e x hi, if_neg (by simp)]; rfl
  | none =>
    cases hr : x.kind.renderCtx with
    | some b =>
      rw [Chip.bind_render p e x hi hr, Chip.ren_onRen]
      by_cases hbc : b = c
      · subst hbc; simp only [true_and]
      · rw [if_neg fun h => hbc h.1, if_neg fun h => hbc (Option.some.inj h.1)]
    | none => rw [Chip.bind_through p e x hi hr, if_neg (by simp)]

end Bind

/-- The ring that a new entry of an ingest kind binds (R45). -/
theorem newAperture_ingestRing {k : ApKind} {c : Nat} (hk : k.ingestCtx = some c)
    (entry logSize base slotSize slotCount policy : Nat) :
    (newAperture k logSize base slotSize slotCount policy).ingestRing entry =
      ⟨entry, base, slotSize, decide (policy = 1), List.replicate slotCount ⟨.empty, false, false, false⟩, 0⟩ := by
  have hring : k.isRing = true := by
    rw [ApKind.isRing_iff]; rintro rfl; cases hk
  unfold newAperture Aperture.ingestRing
  rw [hring, hk]
  rfl

/-- The ring that a new entry of a render kind binds (R45). -/
theorem newAperture_renderRing {k : ApKind} {c : Nat} (hk : k.renderCtx = some c)
    (entry logSize base slotSize slotCount policy : Nat) :
    (newAperture k logSize base slotSize slotCount policy).renderRing entry =
      ⟨entry, base, slotSize, List.replicate slotCount ⟨.empty, false, ⟨false, false, false, false⟩, 0⟩, 0, 0, false,
        .stopped⟩ := by
  have hring : k.isRing = true := by
    rw [ApKind.isRing_iff]; rintro rfl; cases hk
  unfold newAperture Aperture.renderRing
  rw [hring]
  rfl

/-! ## APERTURE_SET (R44, R45) -/

section ApertureSet

variable {p : Chip} {tag : Half} {entry kind logSize line base slotSize slotCount policy : Nat} {k : ApKind}

/-- The context of the kind is bound through another entry (R45). -/
theorem Chip.boundElsewhere_iff :
    (k.isRing && (p.boundEntry k).any (· != entry)) = true ↔ ∃ e, p.boundEntry k = some e ∧ e ≠ entry := by
  rw [Bool.and_eq_true, Option.any_eq_true]
  constructor
  · rintro ⟨-, e, he, hne⟩; exact ⟨e, he, bne_iff_ne.1 hne⟩
  · rintro ⟨e, he, hne⟩
    refine ⟨k.isRing_iff.2 ?_, e, he, bne_iff_ne.2 hne⟩
    rintro rfl; cases he

/-- Fields out of range, or an unknown kind, are refused first (R44). -/
theorem Chip.apertureSet_badField (h : ∀ k, apertureKind kind line = some k → p.apertureFields entry line policy
      (newAperture k logSize base slotSize slotCount policy) = false) :
    p.apertureSet tag entry kind logSize line base slotSize slotCount policy = p.done tag 1 .badField := by
  unfold Chip.apertureSet
  cases hk : apertureKind kind line with
  | none => rfl
  | some k => dsimp only; rw [h k hk]; exact if_pos rfl

/-- What APERTURE_SET answers to fields that pass (R44, R45). -/
theorem Chip.apertureSet_fields (hk : apertureKind kind line = some k)
    (hf : p.apertureFields entry line policy (newAperture k logSize base slotSize slotCount policy) = true) :
    let x := newAperture k logSize base slotSize slotCount policy
    p.apertureSet tag entry kind logSize line base slotSize slotCount policy =
      if (p.entryActive entry || p.kindActive k) = true then p.done tag 1 .state
      else if (k.isRing && (p.boundEntry k).any (· != entry)) = true then p.done tag 1 .busy
      else (((p.unbind entry).setAperture entry (some x)).bind entry x).done tag 1 .ok := by
  unfold Chip.apertureSet; rw [hk]; dsimp only; rw [hf]; exact if_neg Bool.false_ne_true

end ApertureSet

/-- Settles O19: the checks in their order, then the unbinding, the entry and the binding. -/
theorem apertureSetWritesAndBinds : Obligations.ApertureSetWritesAndBinds := by
  unfold Obligations.ApertureSetWritesAndBinds
  refine ⟨Chip.apertureFields_iff, apertureKind_eq, fun tag entry kind logSize line base slotSize slotCount policy s hs hf =>
    request_done hs (Chip.apertureSet_badField hf), ?_⟩
  intro tag entry kind logSize line base slotSize slotCount policy s k hs p x hk hf active elsewhere u
  have hact : p.apertureSet tag entry.toNat kind.toNat logSize.toNat line.toNat base.toNat slotSize.toNat slotCount.toNat
      policy.toNat = _ := Chip.apertureSet_fields hk hf
  refine ⟨(u.setAperture entry.toNat (some x)).bind entry.toNat x, _, request_served hs, fun ha => ?_, fun ha hb => ?_,
    fun ha hb => ⟨?_, ?_, ?_, fun c => ?_, fun c => ?_⟩⟩
  · rw [if_pos ha] at hact
    exact hact ▸ p.answeredWith_done tag 1 .state 0
  · rw [if_neg (ne_true_of_eq_false ha), if_pos (Chip.boundElsewhere_iff.2 hb)] at hact
    exact hact ▸ p.answeredWith_done tag 1 .busy 0
  · rw [if_neg (ne_true_of_eq_false ha), if_neg (mt Chip.boundElsewhere_iff.1 hb)] at hact
    exact hact ▸ Chip.answeredWith_done _ tag 1 .ok 0
  · exact (Chip.bind_frame _ _ _).trans (by rw [Chip.bind_path]; rfl)
  · exact Chip.bind_path _ _ _
  · rw [Chip.ing_bind]
    by_cases h : k.ingestCtx = some c ∧ c < 5
    · rw [if_pos h]
      exact (if_pos h).trans (by rw [newAperture_ingestRing h.1]; rfl)
    · rw [if_neg h]; exact if_neg h
  · rw [Chip.ren_bind]
    by_cases h : k.renderCtx = some c ∧ c < 5
    · rw [if_pos h]
      exact (if_pos h).trans (by rw [newAperture_renderRing h.1]; rfl)
    · rw [if_neg h]; exact if_neg h

end Sys2Proof.Machine
end

section
/-! PROOFS. A line that comes up in PAGE: taken, replaced, or past the line limit (05 R81, R82, R86). -/

namespace Sys2Proof.Machine

section GivenLine

variable {p : Chip} {c r : Nat}

/-- An update of the open page is one of its record. -/
theorem Chip.onOpenPage_eq (hp : (p.ing c).page = some r) (f : PageRecord → PageRecord) :
    p.onOpenPage c f = p.onPage r f := by
  unfold Chip.onOpenPage; rw [hp]

/-- Strays are counted in their context, and in no other (R65). -/
theorem Chip.addStrays_ingest (p : Chip) (c k : Nat) :
    (p.addStrays c k).ingest = (p.onIng c fun x => { x with strays := satAdd 65535 x.strays k }).ingest := by
  unfold Chip.addStrays
  dsimp only
  split
  · rw [Chip.issueWord_eq]
  · rfl

/-- The context whose strays are counted (R65). -/
theorem Chip.ing_addStrays_self (hc : c < 5) (k : Nat) :
    (p.addStrays c k).ing c = { p.ing c with strays := satAdd 65535 (p.ing c).strays k } := by
  rw [← p.ing_onIng_self hc fun x => { x with strays := satAdd 65535 x.strays k }]
  unfold Chip.ing
  rw [Chip.addStrays_ingest]

/-- An ingest context updated leaves the page records. -/
theorem Chip.pageRec_onIng (p : Chip) (c r : Nat) (f : IngestCtx → IngestCtx) : (p.onIng c f).pageRec r = p.pageRec r := rfl

/-- Two updates of one page record are one. -/
theorem Chip.onPage_onPage (p : Chip) (hr : r < 1024) (f g : PageRecord → PageRecord) :
    (p.onPage r f).onPage r g = p.onPage r fun y => g (f y) := by
  unfold Chip.onPage Chip.pageRec; simp only [tget_tset_self _ hr, tset_tset]

/-- A replacement damages the open page and lengthens the bad run; the page is POOR when the run reaches the limit (R81,
R82; log 26). -/
theorem Chip.countReplacement_eq (hc : c < 5) (hr : r < 1024) (hp : (p.ing c).page = some r) {run : Nat}
    (hrun : run = min 255 ((p.ing c).badRun + 1)) :
    p.countReplacement c = (p.onPage r fun y => { y with
      damaged := min 65535 (y.damaged + 1), poor := y.poor || decide (run = (p.ing c).poorLimit) }).onIng c
        fun x => { x with badRun := run } := by
  subst hrun
  have hcomm (q : Chip) (f : IngestCtx → IngestCtx) (g : PageRecord → PageRecord) :
      (q.onIng c f).onPage r g = (q.onPage r g).onIng c f := rfl
  unfold Chip.countReplacement
  rw [Chip.onOpenPage_eq hp]
  dsimp only
  rw [Chip.onOpenPage_eq (r := r) (by rw [Chip.ing_onIng_self _ hc]; exact hp), Chip.ing_onIng_self _ hc, hcomm,
    Chip.onPage_onPage _ hr]
  by_cases hlimit : min 255 ((p.ing c).badRun + 1) = (p.ing c).poorLimit
  · refine (if_pos hlimit).trans ?_
    simp only [decide_eq_true hlimit, Bool.or_true]
    rfl
  · refine (if_neg hlimit).trans ?_
    simp only [decide_eq_false hlimit, Bool.or_false]
    rfl

variable {pels : Option (List Bool)} {rest : List Task} (hphase : (p.ing c).phase = .page)
include hphase

/-- At the line limit the line is a stray, and the page is TRUNCATED and closes (R86). -/
theorem Chip.giveLine_past_limit (hp : (p.ing c).page = some r) (hl : 16383 ≤ (p.ing c).lineTotal) :
    p.giveLine c pels rest = (((p.onPage r fun y => { y with truncated := true }).onIng c fun x =>
      { x with phase := .closing }).addStrays c 1).setTasks c rest := by
  unfold Chip.giveLine
  rw [if_neg (not_not_intro hphase), if_pos hl, Chip.onOpenPage_eq hp]

/-- Below it a replacement is counted, and the coder takes a copy of the reference line (R81, R82). -/
theorem Chip.giveLine_replacement {k : Coder} (hk : (p.ing c).coder = some k) (hl : (p.ing c).lineTotal < 16383) :
    p.giveLine c none rest = (p.countReplacement c).onIng c fun x => { x with
      lineTotal := x.lineTotal + 1, coder := some (k.take k.ref).1, tasks := .place (k.take k.ref).2 :: rest } := by
  unfold Chip.giveLine
  rw [if_neg (not_not_intro hphase), if_neg (Nat.not_le.2 hl)]
  simp only [IngestCtx.coderOf_eq hk]
  rfl

/-- A good line ends the bad run, and the coder takes it (R81, R82). -/
theorem Chip.giveLine_good {k : Coder} (hc : c < 5) (hk : (p.ing c).coder = some k) (hl : (p.ing c).lineTotal < 16383)
    (line : List Bool) :
    p.giveLine c (some line) rest = p.onIng c fun x => { x with
      lineTotal := x.lineTotal + 1, badRun := 0, coder := some (k.take line).1
      tasks := .place (k.take line).2 :: rest } := by
  unfold Chip.giveLine
  rw [if_neg (not_not_intro hphase), if_neg (Nat.not_le.2 hl)]
  simp only [IngestCtx.coderOf_eq hk]
  exact Chip.onIng_onIng _ hc _ _

end GivenLine

/-- Settles O25: the line past the limit, the replacement and the good line. -/
theorem lineLimitTruncatesThePage : Obligations.LineLimitTruncatesThePage := by
  intro p c r k pels rest hc hr hphase hp hk x t
  refine ⟨fun hl => ?_, fun hl hnone => ?_, fun line hl hsome => ?_⟩
  · have ht : t = _ := Chip.giveLine_past_limit hphase hp hl
    have hing : t.ing c = { x with phase := .closing, strays := min 65535 (x.strays + 1), tasks := rest } := by
      rw [ht]
      unfold Chip.setTasks
      rw [Chip.ing_onIng_self _ hc, Chip.ing_addStrays_self hc, Chip.ing_onIng_self _ hc]
      rfl
    have hpage : t.pageRec r = { p.pageRec r with truncated := true } := by
      rw [← p.pageRec_onPage_self hr fun y => { y with truncated := true }, ht]
      unfold Chip.setTasks
      rw [Chip.pageRec_onIng]
      unfold Chip.pageRec
      rw [Chip.addStrays_store, Chip.onIng_store]
    rw [hing]
    exact ⟨hpage, rfl, rfl, hk, rfl⟩
  · subst hnone
    have ht : t = _ := Chip.giveLine_replacement hphase hk hl
    rw [ht, Chip.countReplacement_eq hc hr hp rfl, Chip.onIng_onIng _ hc]
    exact ⟨by rw [Chip.pageRec_onIng, Chip.pageRec_onPage_self _ hr], Chip.ing_onIng_self _ hc _⟩
  · subst hsome
    have ht : t = _ := Chip.giveLine_good hphase hc hk hl line
    rw [ht]
    exact ⟨rfl, Chip.ing_onIng_self _ hc _⟩

end Sys2Proof.Machine
end

section
/-! PROOFS. The requests that open a document on an ingest context, stop one, and set its limit (05 R77, R78, R83, R92;
07 R133). -/

namespace Sys2Proof.Machine

/-! ## The checks (05 R76 to R78) -/

/-- A width in range (05 R77). -/
theorem goodWidth_iff (w : Nat) : goodWidth w = true ↔ w % 32 = 0 ∧ 512 ≤ w ∧ w ≤ 2432 := by
  simp only [goodWidth, Bool.and_eq_true, beq_iff_eq, decide_eq_true_eq, and_assoc]

/-- A resolution in range (05 R77). -/
theorem goodRes_iff (r : Nat) : goodRes r = true ↔ r = 1 ∨ r = 2 ∨ r = 4 := by
  simp only [goodRes, Bool.or_eq_true, beq_iff_eq, or_assoc]

/-- The desk, the width and the resolution are in range (05 R77). -/
theorem ingestFields_iff (desk w res : Nat) :
    ¬ (63 < desk ∨ goodWidth w = false ∨ goodRes res = false) ↔
      desk ≤ 63 ∧ w % 32 = 0 ∧ 512 ≤ w ∧ w ≤ 2432 ∧ (res = 1 ∨ res = 2 ∨ res = 4) := by
  simp only [not_or, Nat.not_lt, Bool.not_eq_false, goodWidth_iff, goodRes_iff, and_assoc]

/-- A context is IDLE if its phase is and no stop is recorded (05 R76). -/
theorem IngestCtx.isIdle_iff (x : IngestCtx) : x.isIdle = true ↔ x.phase = .idle ∧ x.stop = none := by
  unfold IngestCtx.isIdle IngestCtx.stateCode
  cases x.stop with
  | some y => simp
  | none => cases x.phase <;> simp

section OpenDocument

variable {p : Chip} {c desk w res : Nat}

/-- Without a store no document opens (02 R32). -/
theorem Chip.openDoc_unconfigured (h : p.store.configured = false) : p.openDoc c desk = .error .state := by
  unfold Chip.openDoc; rw [h]; rfl

/-- With no record FREE no document opens (02 R32). -/
theorem Chip.openDoc_full (hs : p.store.configured = true) (h : ∀ e, e < 64 → (p.doc e).st ≠ .free) :
    p.openDoc c desk = .error .noRoom := by
  have hfind : tfind p.store.docs (·.st == .free) = none := tfind_eq_none.2 fun e he => beq_false_of_ne (h e he)
  unfold Chip.openDoc
  rw [hs, hfind]
  rfl

/-- Otherwise the lowest record that is FREE opens with the desk and the clock (02 R32). -/
theorem Chip.openDoc_lowest {d : Nat} (hs : p.store.configured = true) (hd : d < 64) (hfree : (p.doc d).st = .free)
    (hlow : ∀ e, e < d → (p.doc e).st ≠ .free) :
    p.openDoc c desk = .ok (d, p.onDoc d fun _ => { DocRecord.free with
      st := .opened, origin := c, desk := desk, createdDay := p.charge.day, createdSecond := p.charge.second }) := by
  have hfind : tfind p.store.docs (·.st == .free) = some d :=
    tfind_eq_some.2 ⟨hd, beq_iff_eq.2 hfree, fun e he => beq_false_of_ne (hlow e he)⟩
  unfold Chip.openDoc
  rw [hs, hfind]
  rfl

/-- The fields come first (05 R77). -/
theorem Chip.openIngest_badField (hf : 63 < desk ∨ goodWidth w = false ∨ goodRes res = false) :
    p.openIngest c desk w res = .error .badField := by
  unfold Chip.openIngest
  rw [if_pos hf]

variable (hf : ¬ (63 < desk ∨ goodWidth w = false ∨ goodRes res = false))
include hf

/-- With the fields in range, a context that is not IDLE is busy (05 R77). -/
theorem Chip.openIngest_busy (h : ¬ ((p.ing c).phase = .idle ∧ (p.ing c).stop = none)) :
    p.openIngest c desk w res = .error .busy := by
  rw [← IngestCtx.isIdle_iff] at h
  unfold Chip.openIngest
  rw [if_neg hf, Bool.eq_false_iff.2 h]
  rfl

variable (hidle : (p.ing c).phase = .idle ∧ (p.ing c).stop = none)
include hidle

/-- An IDLE context must have a ring bound (05 R77). -/
theorem Chip.openIngest_unbound (h : (p.ing c).ring = none) : p.openIngest c desk w res = .error .state := by
  unfold Chip.openIngest
  rw [if_neg hf, (IngestCtx.isIdle_iff _).2 hidle, h]
  rfl

/-- With a ring bound the document decides, if the ring is wide enough for the line (05 R77). -/
theorem Chip.openIngest_bound {r : IngestRing} (hr : (p.ing c).ring = some r) : p.openIngest c desk w res =
    if w / 8 + 4 ≤ r.slotSize then p.openDoc c desk else .error .badField := by
  unfold Chip.openIngest widthFits
  rw [if_neg hf, (IngestCtx.isIdle_iff _).2 hidle, hr]
  dsimp only
  by_cases h : w / 8 + 4 ≤ r.slotSize
  · rw [if_pos h, decide_eq_true h]; rfl
  · rw [if_neg h, decide_eq_false h]; rfl

end OpenDocument

/-! ## SCAN_BEGIN and CONNECT RX (05 R77, R78; 07 R133) -/

section Opening

variable {p q : Chip} {tag : Half} {desk w res d n : Nat} {why : Result}

/-- SCAN_BEGIN answers a refusal of its checks. -/
theorem Chip.scanBegin_refused (h : p.openIngest 0 desk w res = .error why) :
    p.scanBegin tag desk res w = p.done tag 9 why := by
  unfold Chip.scanBegin; rw [h]

/-- SCAN_BEGIN starts its context on the document opened. -/
theorem Chip.scanBegin_opened (h : p.openIngest 0 desk w res = .ok (d, q)) :
    p.scanBegin tag desk res w = ((q.startIngest 0 d w res).done tag 9 .ok d).serveRing 0 := by
  unfold Chip.scanBegin; rw [h]

/-- CONNECT RX checks its line first (07 R133). -/
theorem Chip.connectRxCheck_eq (hn : n ≤ 3) : p.connectRxCheck n 0 desk w res =
    if (p.line n).state = .answered ∧ (p.line n).dir = .inward then p.openIngest (n + 1) desk w res
    else .error .state := by
  unfold Chip.connectRxCheck
  rw [if_neg (by omega)]
  simp only [ne_eq, ← Classical.not_and_iff_not_or_not, ite_not]

/-- CONNECT RX answers a refusal of its checks. -/
theorem Chip.connectRx_refused (h : p.connectRxCheck n 0 desk w res = .error why) :
    p.connectRx tag n 0 desk w res = p.done tag 17 why := by
  unfold Chip.connectRx; rw [h]

/-- CONNECT RX starts its context on the document opened; its line is CONNECTED and its attempt receives (05 R78). -/
theorem Chip.connectRx_opened (hn : n ≤ 3) (h : p.connectRxCheck n 0 desk w res = .ok (d, q)) :
    let u := q.startIngest (n + 1) d w res
    p.connectRx tag n 0 desk w res =
      (Chip.done { u.lineEnters n { u.line n with conn := .rx, state := .connected } with
        charge := { u.charge with attempts := tset u.charge.attempts n { u.attempt n with
          desk := some desk, rxDoc := some d, rxGone := false } } } tag 17 .ok d).serveRing (n + 1) := by
  intro u
  have hrun : p.connectRx tag n 0 desk w res =
      ((((u.attemptReceives n desk d).onLine n fun l => { l with conn := .rx }).setLineState n .connected).done
        tag 17 .ok d).serveRing (n + 1) := by
    unfold Chip.connectRx; rw [h]
  rw [hrun, Chip.setLineState_eq, Chip.line_onLine_self _ (by omega)]
  unfold Chip.lineEnters Chip.onLine
  dsimp only
  rw [tset_tset]
  rfl

end Opening

/-- A served request whose block acts. -/
theorem request_acts {i : Instr} {act : Chip → Chip} {s : State} {q : Chip} (h : s.served i = true)
    (ha : act s.chip.freePort = q) : request i act s = .next { s with chip := q.nextRequest } :=
  ha ▸ request_served h

section IngestRequest

variable {tag width : Half} {desk res : Byte} {c : Nat} {i : Instr} {s : State}

/-- The request that opens a document on context `c`: SCAN_BEGIN on SCAN, CONNECT RX on the context of a line. -/
def OpensIngest (tag width : Half) (desk res : Byte) (c : Nat) (i : Instr) : Prop :=
  c = 0 ∧ i = .scanBegin tag desk res width
    ∨ 1 ≤ c ∧ c ≤ 4 ∧ i = .connectRx tag (BitVec.ofNat 8 (c - 1)) 0 width res desk

/-- CONNECT RX of a line of the part acts on that line. -/
theorem exec_connectRx_line {n : Nat} (hn : n ≤ 3) :
    exec (.connectRx tag (BitVec.ofNat 8 n) 0 width res desk) s =
      request (.connectRx tag (BitVec.ofNat 8 n) 0 width res desk)
        (fun p => p.connectRx tag n 0 desk.toNat width.toNat res.toNat) s := by
  have hline : (BitVec.ofNat 8 n).toNat = n := by rw [BitVec.toNat_ofNat]; omega
  change request _ (fun p => p.connectRx tag (BitVec.ofNat 8 n).toNat 0 _ _ _) s = _
  rw [hline]

variable (hi : OpensIngest tag width desk res c i) (hs : s.served i = true)
include hi hs

/-- A line that is not ANSWERED inward is refused STATE (07 R133). -/
theorem ingestRequest_line_refused
    (hline : ¬ (c = 0 ∨ (s.chip.freePort.line (c - 1)).state = .answered ∧ (s.chip.freePort.line (c - 1)).dir = .inward)) :
    ∃ t : Chip, exec i s = .next { s with chip := t }
      ∧ s.chip.freePort.AnsweredWith t (.done tag.toNat (if c = 0 then 9 else 17) .state 0) := by
  rw [not_or] at hline
  obtain ⟨hc, hline⟩ := hline
  obtain ⟨h0, -⟩ | ⟨-, h4, rfl⟩ := hi
  · exact absurd h0 hc
  · rw [exec_connectRx_line (by omega), if_neg hc]
    exact request_done hs (Chip.connectRx_refused ((Chip.connectRxCheck_eq (by omega)).trans (if_neg hline)))

/-- With the line as 07 R133 asks, a refusal of the checks is the answer. -/
theorem ingestRequest_refused {why : Result}
    (hline : c = 0 ∨ (s.chip.freePort.line (c - 1)).state = .answered ∧ (s.chip.freePort.line (c - 1)).dir = .inward)
    (h : s.chip.freePort.openIngest c desk.toNat width.toNat res.toNat = .error why) :
    ∃ t : Chip, exec i s = .next { s with chip := t }
      ∧ s.chip.freePort.AnsweredWith t (.done tag.toNat (if c = 0 then 9 else 17) why 0) := by
  obtain ⟨rfl, rfl⟩ | ⟨h1, h4, rfl⟩ := hi
  · exact request_done hs (Chip.scanBegin_refused h)
  · obtain ⟨n, rfl⟩ := Nat.exists_eq_add_of_le' h1
    have hinward := hline.resolve_left (Nat.succ_ne_zero n)
    rw [exec_connectRx_line (by omega), if_neg (Nat.succ_ne_zero n)]
    exact request_done hs (Chip.connectRx_refused ((Chip.connectRxCheck_eq (by omega)).trans ((if_pos hinward).trans h)))

end IngestRequest

/-! ## INGEST_STOP and INGEST_SET (05 R83, R92) -/

section StopAndLimit

variable {p : Chip} {tag : Half} {c mode : Nat} (hc : c ≤ 4) (hm : mode ≤ 1)
include hc

/-- A poor-run limit is taken in every state (05 R83). -/
theorem Chip.ingestSet_taken {limit : Nat} (h0 : limit ≠ 0) (h255 : limit ≤ 255) :
    p.ingestSet tag c limit = (p.onIng c fun x => { x with poorLimit := limit }).done tag 11 .ok := by
  unfold Chip.ingestSet within
  exact if_neg (by simp; omega)

include hm

/-- A context already stopping is busy (05 R92). -/
theorem Chip.ingestStop_busy (h : (p.ing c).stop.isSome = true) : p.ingestStop tag c mode = p.done tag 10 .busy := by
  unfold Chip.ingestStop
  rw [if_neg (by omega), if_pos h]

/-- An IDLE context has nothing to stop (05 R92). -/
theorem Chip.ingestStop_idle (hstop : (p.ing c).stop = none) (h : (p.ing c).phase = .idle) :
    p.ingestStop tag c mode = p.done tag 10 .state := by
  unfold Chip.ingestStop
  rw [if_neg (by omega), if_neg (by rw [hstop]; decide), if_pos ((IngestCtx.isIdle_iff _).2 ⟨h, hstop⟩)]

/-- A stop is recorded and carried out as far as it can be (05 R92). -/
theorem Chip.ingestStop_taken (hstop : (p.ing c).stop = none) (h : (p.ing c).phase ≠ .idle) :
    p.ingestStop tag c mode = p.stopIngest c (mode == 0) (.request tag.toNat) := by
  have hidle : ¬ (p.ing c).isIdle = true := fun hx => h ((IngestCtx.isIdle_iff _).1 hx).1
  unfold Chip.ingestStop
  rw [if_neg (by omega), if_neg (by rw [hstop]; decide), if_neg hidle]

end StopAndLimit

/-- Settles O45: the requests that open, their refusals in order, and the stop and the limit. -/
theorem ingestRequestsOpenStopAndLimit : Obligations.IngestRequestsOpenStopAndLimit := by
  refine ⟨?opened, ?refused, ?stopped⟩
  case opened =>
    intro tag desk res width c d r i s p x n hi hs hdesk hwidth hres hphase hstop hr hfits hstore hd hfree hlow opened on
    have hopen : p.openIngest c desk.toNat width.toNat res.toNat = _ :=
      (Chip.openIngest_bound (by simp [hwidth, hres, hdesk]) ⟨hphase, hstop⟩ hr).trans
        ((if_pos hfits).trans (Chip.openDoc_lowest hstore hd hfree hlow))
    obtain ⟨rfl, rfl⟩ | ⟨h1, h4, rfl, hinward⟩ := hi
    · have hon : on = opened := if_pos rfl
      refine ⟨_, _, request_acts hs (Chip.scanBegin_opened hopen), ?_, Chip.ended_nextRequest _⟩
      rw [hon, if_pos rfl]
      exact Chip.told_send _ _
    · obtain ⟨m, rfl⟩ := Nat.exists_eq_add_of_le' h1
      have hon : on = _ := if_neg (Nat.succ_ne_zero m)
      have hcheck : p.connectRxCheck m 0 desk.toNat width.toNat res.toNat = _ :=
        (Chip.connectRxCheck_eq (by omega)).trans ((if_pos hinward).trans hopen)
      refine ⟨_, _, (exec_connectRx_line (by omega)).trans (request_acts hs (Chip.connectRx_opened (by omega) hcheck)),
        ?_, Chip.ended_nextRequest _⟩
      rw [hon, if_neg (Nat.succ_ne_zero m)]
      exact Chip.told_send _ _
  case refused =>
    intro tag desk res width c i s p x l hi hs lineOk inRange idle refused
    have hrange := ingestFields_iff desk.toNat width.toNat res.toNat
    refine ⟨ingestRequest_line_refused hi hs, fun hl hf => ingestRequest_refused hi hs hl ?_,
      fun hl hf hidle => ingestRequest_refused hi hs hl (Chip.openIngest_busy (hrange.2 hf) hidle),
      fun hl hf hidle hr => ingestRequest_refused hi hs hl (Chip.openIngest_unbound (hrange.2 hf) hidle hr),
      fun r hl hf hidle hr => ?_⟩
    · exact Chip.openIngest_badField (Classical.not_not.1 (mt hrange.1 hf))
    · have hbound : p.openIngest c desk.toNat width.toNat res.toNat = _ := Chip.openIngest_bound (hrange.2 hf) hidle hr
      refine ⟨fun hfits => ingestRequest_refused hi hs hl (hbound.trans (if_neg (Nat.not_le.2 hfits))), fun hfits =>
        ⟨fun hstore => ingestRequest_refused hi hs hl (hbound.trans ((if_pos hfits).trans ?_)),
          fun hstore hfull => ingestRequest_refused hi hs hl (hbound.trans ((if_pos hfits).trans ?_))⟩⟩
      · exact Chip.openDoc_unconfigured hstore
      · exact Chip.openDoc_full hstore hfull
  case stopped =>
    intro tag context x s hc p c k
    refine ⟨fun hs hm => ⟨_, request_served hs, fun hstop hphase => ?_, fun hstop => ?_, fun hstop hphase => ?_⟩,
      fun hs hx => request_done hs (Chip.ingestSet_taken hc hx (Nat.le_of_lt_succ x.isLt))⟩
    · rw [Chip.ingestStop_idle hc hm hstop hphase]; exact p.answeredWith_done tag 10 .state 0
    · rw [Chip.ingestStop_busy hc hm hstop]; exact p.answeredWith_done tag 10 .busy 0
    · rw [Chip.ingestStop_taken hc hm hstop hphase]; exact Chip.ended_nextRequest _

end Sys2Proof.Machine
end

section
/-! PROOFS. PRINT_CANCEL (06 R110; log 45), CONNECT TX (06 R112, 07 R133) and PAGE_RESULT (06 R114, 09 R174). -/

namespace Sys2Proof.Machine

/-! ## PRINT_CANCEL (06 R110) -/

/-- The part with a QUEUED job out of the queue, marked as cancelled. -/
def Chip.unqueued (p : Chip) (j : Nat) : Chip :=
  { p with print := { p.print with
      queue := p.print.queue.filter fun k => k != j
      jobs := tset p.print.jobs j { p.job j with cancelled := true } } }

section Cancel

variable {p : Chip} {tag : Half} {j : Nat} (hj : j ≤ 15)
include hj

/-- A job of the table is cancelled by its state. -/
theorem Chip.printCancel_eq : p.printCancel tag j = match (p.job j).st with
    | .free => p.done tag 14 .notFound
    | .queued => p.cancelQueued tag j
    | .active => if (p.ren 0).state = .ending then p.done tag 14 .state else (p.cutJob j).done tag 14 .ok
    | .finishing => p.done tag 14 .state := by
  unfold Chip.printCancel
  exact (if_neg (by omega)).trans rfl

/-- A FREE job is not found. -/
theorem Chip.printCancel_free (h : (p.job j).st = .free) : p.printCancel tag j = p.done tag 14 .notFound := by
  rw [Chip.printCancel_eq hj, h]

/-- A QUEUED job leaves the queue. -/
theorem Chip.printCancel_queued (h : (p.job j).st = .queued) : p.printCancel tag j = p.cancelQueued tag j := by
  rw [Chip.printCancel_eq hj, h]

/-- An ACTIVE job that has not come to its end is cut. -/
theorem Chip.printCancel_cut (h : (p.job j).st = .active) (hy : (p.ren 0).state ≠ .ending) :
    p.printCancel tag j = (p.cutJob j).done tag 14 .ok := by
  rw [Chip.printCancel_eq hj, h]; exact if_neg hy

/-- A job that has come to its end is refused. -/
theorem Chip.printCancel_ended (h : (p.job j).st = .finishing ∨ (p.job j).st = .active ∧ (p.ren 0).state = .ending) :
    p.printCancel tag j = p.done tag 14 .state := by
  rw [Chip.printCancel_eq hj]
  obtain hfin | ⟨hact, hend⟩ := h
  · rw [hfin]
  · rw [hact]; exact if_pos hend

/-- A QUEUED job's PRINT_DONE, the release of its hold and its record FREE. -/
theorem Chip.cancelQueued_told : let x := p.job j
    ∃ q u : Chip, (p.unqueued j).Told q (.printDone j x.doc x.pagesOut true x.short x.corrupt x.restart)
      ∧ u = q.releaseHold x.doc
      ∧ p.cancelQueued tag j =
        ({ u with print := { u.print with jobs := tset u.print.jobs j Job.free } } : Chip).done tag 14 .ok := by
  intro x
  have hjob : (p.unqueued j).job j = { x with cancelled := true } := tget_tset_self _ (Nat.lt_succ_of_le hj) _
  have hdone : (p.unqueued j).sendPrintDone j =
      (p.unqueued j).send (.printDone j x.doc x.pagesOut true x.short x.corrupt x.restart) := by
    unfold Chip.sendPrintDone; rw [hjob]
  have hkept : ((p.unqueued j).sendPrintDone j).job j = (p.unqueued j).job j := by
    unfold Chip.sendPrintDone Chip.job; rw [Chip.send_print]
  have hrun : p.cancelQueued tag j = ((((p.unqueued j).sendPrintDone j).releaseHold
      (((p.unqueued j).sendPrintDone j).job j).doc).onJob j fun _ => .free).done tag 14 .ok := rfl
  rw [hkept, hjob, hdone] at hrun
  exact ⟨_, _, Chip.told_send _ _, rfl, hrun⟩

end Cancel

/-- Settles O48: the answer by the job's state, and what a QUEUED job goes through. -/
theorem printCancelEndsTheJob : Obligations.PrintCancelEndsTheJob := by
  intro tag job s hs hj p x y
  have hanswer {q : Chip} {r : Result} (h : p.printCancel tag job.toNat = q.done tag 14 r) :
      q.AnsweredWith (p.printCancel tag job.toNat).nextRequest (.done tag.toNat 14 r 0) :=
    h ▸ q.answeredWith_done tag 14 r 0
  refine ⟨_, request_served hs, fun hfree => hanswer (Chip.printCancel_free hj hfree),
    fun hended => hanswer (Chip.printCancel_ended hj hended), fun hqueued => ?_,
    fun hactive hy => hanswer (Chip.printCancel_cut hj hactive hy)⟩
  obtain ⟨q, u, htold, hu, hrun⟩ := Chip.cancelQueued_told (p := p) (tag := tag) hj
  exact ⟨q, u, htold, hu, hanswer ((Chip.printCancel_queued hj hqueued).trans hrun)⟩

/-! ## CONNECT TX (06 R112, 07 R133) -/

section ConnectTx

variable {p : Chip} {tag : Half} {n w res : Nat} (hn : n ≤ 3)
include hn

/-- The line comes first: it must be ANSWERED outward with a call on it (07 R133). -/
theorem Chip.connectTxCheck_line
    (h : ¬ ((p.line n).state = .answered ∧ (p.line n).dir = .outward ∧ (p.line n).call.isSome = true)) :
    p.connectTxCheck n w res = .error .state := by
  unfold Chip.connectTxCheck
  rw [if_neg (by omega)]
  split
  · next hst hdir hcall => exact absurd ⟨hst, hdir, hcall ▸ rfl⟩ h
  · rfl

/-- Then width and resolution, the ring, and the width of its slots (06 R112). -/
theorem Chip.connectTxCheck_outward {i : Nat} (hst : (p.line n).state = .answered) (hdir : (p.line n).dir = .outward)
    (hcall : (p.line n).call = some i) : p.connectTxCheck n w res =
      if (goodWidth w && goodRes res) = false then .error .badField
      else match (p.ren (n + 1)).ring with
        | none => .error .state
        | some r => if w / 8 + 4 ≤ r.slotSize then .ok i else .error .badField := by
  unfold Chip.connectTxCheck Chip.ringFits widthFits
  rw [if_neg (by omega), hst, hdir, hcall]
  simp only [Bool.and_eq_false_iff]
  split
  · rfl
  · cases (p.ren (n + 1)).ring with
    | none => rfl
    | some r => by_cases hfits : w / 8 + 4 ≤ r.slotSize <;> simp [hfits]

/-- The transmit context starts: the line is CONNECTED to transmit, and the context takes record and target. -/
theorem Chip.startTransmit_eq {i : Nat} {r : RenderRing} (hr : (p.ren (n + 1)).ring = some r) :
    p.startTransmit n i w res = Chip.advance (Chip.txSelect
      { p.lineEnters n { p.line n with conn := .tx, state := .connected } with
        render := tset p.render (n + 1) { p.ren (n + 1) with
          target := some (w, res), call := some i, position := (p.callRec i).first - 1
          ring := some { r with sequence := 0 } } } (n + 1)) (n + 1) := by
  have hline : (p.onLine n fun l => { l with conn := .tx }).setLineState n .connected =
      p.lineEnters n { p.line n with conn := .tx, state := .connected } := by
    rw [Chip.setLineState_eq, Chip.line_onLine_self _ (by omega)]
    unfold Chip.lineEnters Chip.onLine
    dsimp only
    rw [tset_tset]
  have hring : some { r with sequence := 0 } = (p.ren (n + 1)).ring.map fun r => { r with sequence := 0 } := by
    rw [hr]; rfl
  unfold Chip.startTransmit
  rw [hline, hring]
  rfl

end ConnectTx

/-- CONNECT TX answers a refusal of its checks. -/
theorem Chip.connectTx_refused {p : Chip} {tag : Half} {n w res : Nat} {why : Result}
    (h : p.connectTxCheck n w res = .error why) : p.connectTx tag n w res = p.done tag 17 why := by
  unfold Chip.connectTx; rw [h]

/-- CONNECT TX starts transmission and answers with the page selected, or 0 in DOC_DONE. -/
theorem Chip.connectTx_started {p : Chip} {tag : Half} {n w res i : Nat} (h : p.connectTxCheck n w res = .ok i) :
    p.connectTx tag n w res = (p.startTransmit n i w res).done tag 17 .ok
      (if ((p.startTransmit n i w res).ren (n + 1)).state = .docDone then 0
        else ((p.startTransmit n i w res).ren (n + 1)).page) := by
  unfold Chip.connectTx; rw [h]; rfl

/-- Settles O49: the checks in their order, then the start of the context. -/
theorem connectTxStartsTransmission : Obligations.ConnectTxStartsTransmission := by
  intro tag line width res s hs hn p n l x outward inRange
  have hrefused {why : Result} (h : p.connectTxCheck n width.toNat res.toNat = .error why) :
      p.AnsweredWith (p.connectTx tag n width.toNat res.toNat).nextRequest (.done tag.toNat 17 why 0) := by
    rw [Chip.connectTx_refused h]; exact p.answeredWith_done tag 17 why 0
  have hcheck (hout : outward) : ∃ i, l.call = some i ∧ p.connectTxCheck n width.toNat res.toNat =
      if inRange = false then .error .badField
      else match x.ring with
        | none => .error .state
        | some r => if width.toNat / 8 + 4 ≤ r.slotSize then .ok i else .error .badField := by
    obtain ⟨hst, hdir, hcall⟩ := hout
    obtain ⟨i, hi⟩ := Option.isSome_iff_exists.1 hcall
    exact ⟨i, hi, Chip.connectTxCheck_outward hn hst hdir hi⟩
  refine ⟨_, request_served hs, fun hline => hrefused (Chip.connectTxCheck_line hn hline), fun hout hrange => ?_,
    fun hout hrange hr => ?_, fun r hout hrange hr hnarrow => ?_, fun r i hout hrange hr hfits hcall => ?_⟩
  all_goals
    obtain ⟨k, hk, hc⟩ := hcheck hout
    rw [hrange] at hc
  · exact hrefused hc
  · rw [hr] at hc; exact hrefused hc
  · rw [hr] at hc; exact hrefused (hc.trans (if_neg (Nat.not_le.2 hnarrow)))
  · rw [hr] at hc
    obtain rfl : k = i := Option.some.inj (hk.symm.trans hcall)
    have hstarted := Chip.connectTx_started (tag := tag) (hc.trans (if_pos hfits))
    rw [Chip.startTransmit_eq hn hr] at hstarted
    rw [hstarted]
    exact Chip.answeredWith_done _ tag 17 .ok _

/-! ## PAGE_RESULT (06 R114, 09 R174) -/

section PageResult

variable {p : Chip} {tag : Half} {n i page result : Nat}

/-- Without a page that waits, the result is refused. -/
theorem Chip.pageResult_refused (hn : n ≤ 3) (hresult : result ≤ 2)
    (h : (p.ren (n + 1)).state ≠ .pageWait ∨ (p.ren (n + 1)).call = none) :
    p.pageResult tag n result = p.done tag 18 .state := by
  unfold Chip.pageResult
  rw [if_neg (by omega)]
  dsimp only
  split
  · next hst hcall => exact h.elim (absurd hst) fun hnone => absurd (hcall.symm.trans hnone) (Option.some_ne_none _)
  · rfl

/-- The result of the page that waits acts as taken, and the context selects its next page. -/
theorem Chip.pageResult_taken (hn : n ≤ 3) (hresult : result ≤ 2) (hst : (p.ren (n + 1)).state = .pageWait)
    (hcall : (p.ren (n + 1)).call = some i) :
    let page := (p.ren (n + 1)).position
    let taken := resultTaken (p.callRec i) page result
    p.pageResult tag n result =
      (((p.takeResult n i page taken).txSelect (n + 1)).advance (n + 1)).done tag 18 .ok taken := by
  intro page taken
  unfold Chip.pageResult
  rw [if_neg (by omega)]
  dsimp only
  rw [hst, hcall]

/-- A page sent is counted, of the desk and of the attempt (09 R174). -/
theorem Chip.countPageSent_eq : p.countPageSent n = { p with charge := { p.charge with
    accounts := match (p.attempt n).desk with
      | some d => tset p.charge.accounts d { p.account d with sent := min 65535 ((p.account d).sent + 1) }
      | none => p.charge.accounts
    attempts := tset p.charge.attempts n { p.attempt n with pages := (p.attempt n).pages + 1 } } } := by
  unfold Chip.countPageSent
  cases (p.attempt n).desk <;> rfl

/-- ACCEPTED: the page joins the call's accepted set and is counted. -/
theorem Chip.takeResult_accepted : p.takeResult n i page 0 = { p with
    calls := { p.calls with records := tset p.calls.records i { p.callRec i with
      accepted := if page ∈ (p.callRec i).accepted then (p.callRec i).accepted else (p.callRec i).accepted ++ [page] } }
    charge := { p.charge with
      accounts := match (p.attempt n).desk with
        | some d => tset p.charge.accounts d { p.account d with sent := min 65535 ((p.account d).sent + 1) }
        | none => p.charge.accounts
      attempts := tset p.charge.attempts n { p.attempt n with pages := (p.attempt n).pages + 1 } } } := by
  simp only [← List.contains_iff_mem]
  exact Chip.countPageSent_eq

/-- RESEND: counted, and the position moves back. -/
theorem Chip.takeResult_resend : p.takeResult n i page 1 = { p with
    calls := { p.calls with records := tset p.calls.records i { p.callRec i with
      resends := (p.callRec i).resends ++ [page] } }
    render := tset p.render (n + 1) { p.ren (n + 1) with position := page - 1 } } := rfl

/-- REJECTED changes nothing. -/
theorem Chip.takeResult_rejected (h0 : result ≠ 0) (h1 : result ≠ 1) : p.takeResult n i page result = p := by
  unfold Chip.takeResult
  split
  · exact absurd rfl h0
  · exact absurd rfl h1
  · rfl

end PageResult

/-- Settles O50: the refusal, or the result as taken, by its three values. -/
theorem pageResultActsOnThePage : Obligations.PageResultActsOnThePage := by
  intro tag line result s hs hn hresult p n x page
  refine ⟨_, request_served hs, fun h => ?_, fun i hst hcall => ?_⟩
  · rw [Chip.pageResult_refused hn hresult h]; exact p.answeredWith_done tag 18 .state 0
  · intro c taken after
    have hafter : p.takeResult n i page taken = after := by
      unfold after
      by_cases h0 : taken = 0
      · rw [if_pos h0, h0]; exact Chip.takeResult_accepted
      · rw [if_neg h0]
        by_cases h1 : taken = 1
        · rw [if_pos h1, h1]; exact Chip.takeResult_resend
        · rw [if_neg h1]; exact Chip.takeResult_rejected h0 h1
    have hrun : p.pageResult tag n result.toNat =
        (((p.takeResult n i page taken).txSelect (n + 1)).advance (n + 1)).done tag 18 .ok taken :=
      Chip.pageResult_taken hn hresult hst hcall
    rw [hrun, hafter]
    exact Chip.answeredWith_done _ tag 18 .ok taken

end Sys2Proof.Machine
end

section
/-! PROOFS. Conversion loses no black pel: the vertical stage (06 R100) and the width stage (06 R101, R102). -/

namespace Sys2Proof.Machine

/-- Inside a list the default is not read. -/
theorem getD_of_lt {α : Type} {xs : List α} {i : Nat} (h : i < xs.length) (d : α) : xs.getD i d = xs[i] := by
  rw [List.getD_eq_getElem?_getD, List.getElem?_eq_getElem h, Option.getD_some]

/-- What is in a stretch of a list stands at an index of the stretch. -/
theorem exists_mem_stretch_iff {α : Type} (xs : List α) (d : α) (a n : Nat) (P : α → Prop) :
    (∃ x ∈ (xs.drop a).take n, P x) ↔ ∃ i, a ≤ i ∧ i < a + n ∧ i < xs.length ∧ P (xs.getD i d) := by
  constructor
  · rintro ⟨x, hx, hP⟩
    obtain ⟨i, hi, rfl⟩ := List.mem_iff_getElem.1 hx
    rw [List.length_take, List.length_drop] at hi
    rw [List.getElem_take, List.getElem_drop] at hP
    have hlt : a + i < xs.length := by omega
    exact ⟨a + i, Nat.le_add_right _ _, by omega, hlt, (getD_of_lt hlt d).symm ▸ hP⟩
  · rintro ⟨i, hfrom, hto, hlt, hP⟩
    obtain ⟨k, rfl⟩ := Nat.exists_eq_add_of_le hfrom
    rw [getD_of_lt hlt] at hP
    refine ⟨xs[a + k], List.mem_iff_getElem.2 ⟨k, ?_, ?_⟩, hP⟩
    · rw [List.length_take, List.length_drop]; omega
    · rw [List.getElem_take, List.getElem_drop]

/-! ## The vertical stage going up, and at equal resolutions (R100) -/

/-- Each line is given as often as the ratio of the resolutions says. -/
theorem verticalLines_up {rs rt : Nat} (h0 : 0 < rs) (h : rs ≤ rt) (lines : List (List Bool)) (v : Vertical) :
    verticalLines rs rt v lines = lines.flatMap fun x => List.replicate (rt / rs) x := by
  have hratio : rt / rs = rt / rs - 1 + 1 := by have := Nat.div_pos h h0; omega
  induction lines generalizing v with
  | nil => rfl
  | cons line lines ih =>
    unfold verticalLines
    rw [Vertical.take_up h, List.flatMap_cons, hratio, List.replicate_succ, List.cons_append]
    dsimp only
    rw [ih, ← hratio]

/-! ## The vertical stage going down (R100) -/

/-- Some line of a list is black at `x`. -/
def BlackAt (lines : List (List Bool)) (x : Nat) : Prop := ∃ l ∈ lines, l.getD x false = true

/-- `out` has one line for each group of `g` of the lines, the last perhaps smaller, black where a line of the group is. -/
def MergesTo (g : Nat) (lines out : List (List Bool)) : Prop :=
  out.length = (lines.length + g - 1) / g
  ∧ ∀ k x, k < out.length → ((out.getD k []).getD x false = true ↔ BlackAt ((lines.drop (k * g)).take g) x)

/-- A group of a page's lines is black where a line with an index in its range is. -/
theorem blackAt_group (lines : List (List Bool)) (g k x : Nat) :
    BlackAt ((lines.drop (k * g)).take g) x ↔
      ∃ i, k * g ≤ i ∧ i < (k + 1) * g ∧ i < lines.length ∧ (lines.getD i []).getD x false = true := by
  rw [Nat.succ_mul]
  exact exists_mem_stretch_iff lines [] _ g fun l => l.getD x false = true

section Groups

variable {g : Nat} (hpos : 0 < g)
include hpos

/-- Of no lines there are no groups. -/
theorem MergesTo.nil : MergesTo g [] [] :=
  ⟨(Nat.div_eq_of_lt (by rw [List.length_nil]; omega)).symm, fun k _ hk => absurd hk (Nat.not_lt_zero k)⟩

/-- A first group, full or the page's last, comes before the groups of the lines after it. -/
theorem MergesTo.cons {first rest out : List (List Bool)} {line : List Bool} (hne : first ≠ []) (hle : first.length ≤ g)
    (hfull : first.length = g ∨ rest = []) (hline : ∀ x, line.getD x false = true ↔ BlackAt first x)
    (hrest : MergesTo g rest out) : MergesTo g (first ++ rest) (line :: out) := by
  obtain ⟨hlength, hpels⟩ := hrest
  have hsplit : (first ++ rest).take g = first ∧ (first ++ rest).drop g = rest := by
    obtain hfull | rfl := hfull
    · exact ⟨List.take_left' hfull, List.drop_left' hfull⟩
    · rw [List.append_nil]; exact ⟨List.take_of_length_le hle, List.drop_of_length_le hle⟩
  refine ⟨?_, fun k x hk => ?_⟩
  · have h1 : 0 < first.length := List.length_pos_iff.2 hne
    rw [List.length_cons, hlength, List.length_append]
    obtain hfull | rfl := hfull
    · rw [hfull, ← Nat.add_div_right _ hpos]; congr 1; omega
    · rw [List.length_nil, Nat.div_eq_of_lt (by omega)]
      exact (Nat.div_eq_of_lt_le (by omega) (by omega)).symm
  · cases k with
    | zero => rw [Nat.zero_mul, List.drop_zero, hsplit.1]; exact hline x
    | succ k =>
      rw [Nat.succ_mul, Nat.add_comm (k * g), ← List.drop_drop, hsplit.2]
      exact hpels k x (Nat.lt_of_succ_lt_succ hk)

end Groups

/-- A merged line is black where either line is. -/
theorem orLines_getD {a b : List Bool} (h : a.length = b.length) (x : Nat) :
    (orLines a b).getD x false = (a.getD x false || b.getD x false) := by
  simp only [orLines, List.getD_eq_getElem?_getD, List.getElem?_zipWith]
  by_cases hx : x < a.length <;> simp [hx, ← h]

/-- The open group holds the lines `part`: it counts them, and is black where one of them is. -/
def Vertical.Holds (v : Vertical) (w : Nat) (part : List (List Bool)) : Prop :=
  v.count = part.length ∧ (part ≠ [] → v.group.length = w ∧ ∀ x, v.group.getD x false = true ↔ BlackAt part x)

/-- With nothing held back the group is empty. -/
theorem Vertical.holds_blank (w : Nat) : Vertical.blank.Holds w [] := ⟨rfl, fun h => absurd rfl h⟩

/-- The group after a further line. -/
def Vertical.merged (v : Vertical) (line : List Bool) : List Bool :=
  if v.count = 0 then line else orLines v.group line

/-- The group after a further line has the line's length, and is black where the line or the group was. -/
theorem Vertical.Holds.merged {v : Vertical} {w : Nat} {part : List (List Bool)} {line : List Bool} (h : v.Holds w part)
    (hline : line.length = w) :
    (v.merged line).length = w ∧ ∀ x, (v.merged line).getD x false = true ↔ BlackAt (part ++ [line]) x := by
  obtain ⟨hcount, hgroup⟩ := h
  unfold Vertical.merged
  by_cases hpart : part = []
  · rw [hpart] at hcount ⊢
    rw [if_pos (show v.count = 0 from hcount)]
    exact ⟨hline, by simp [BlackAt]⟩
  · obtain ⟨hlength, hblack⟩ := hgroup hpart
    rw [if_neg fun h0 => hpart (List.eq_nil_of_length_eq_zero (hcount.symm.trans h0))]
    refine ⟨by rw [orLines, List.length_zipWith, hlength, hline, Nat.min_self], fun x => ?_⟩
    rw [orLines_getD (hlength.trans hline.symm), Bool.or_eq_true, hblack]
    simp [BlackAt, or_and_right, exists_or]

section Down

variable {rs rt g w : Nat} (hdown : rt < rs) (hg : g = rs / rt)
include hdown hg

/-- The line that fills its group, or ends the page, gives the group. -/
theorem verticalLines_group {v : Vertical} {line : List Bool} {lines : List (List Bool)}
    (h : v.count + 1 = g ∨ lines = []) :
    verticalLines rs rt v (line :: lines) = v.merged line :: verticalLines rs rt .blank lines := by
  have htake := Vertical.take_group (line := line) (last := lines.isEmpty) hdown
    (h.imp (hg ▸ ·) (List.isEmpty_iff.2 ·))
  rw [verticalLines, htake]
  rfl

/-- Any other line joins its group. -/
theorem verticalLines_join {v : Vertical} {line : List Bool} {lines : List (List Bool)}
    (h : ¬ (v.count + 1 = g ∨ lines = [])) :
    verticalLines rs rt v (line :: lines) =
      verticalLines rs rt { v with group := v.merged line, count := v.count + 1 } lines := by
  have htake := Vertical.take_join (line := line) (last := lines.isEmpty) hdown
    fun hlast => h (hlast.imp (hg ▸ ·) List.isEmpty_iff.1)
  rw [verticalLines, htake]
  rfl

/-- Taken one by one after the open group's lines `part`, the lines are merged group by group. -/
theorem verticalLines_down (hpos : 0 < g) (lines : List (List Bool)) :
    ∀ (v : Vertical) (part : List (List Bool)), v.Holds w part → part.length < g → (lines = [] → part = []) →
      (∀ x ∈ lines, x.length = w) → MergesTo g (part ++ lines) (verticalLines rs rt v lines) := by
  induction lines with
  | nil =>
    intro v part _ _ hnil _
    rw [hnil rfl]
    exact MergesTo.nil hpos
  | cons line lines ih =>
    intro v part hv hpart _ hw
    have hmerged := hv.merged (hw line List.mem_cons_self)
    have hrest : ∀ x ∈ lines, x.length = w := fun x hx => hw x (List.mem_cons_of_mem line hx)
    have hjoined : (part ++ [line]).length = v.count + 1 := by rw [hv.1, List.length_append]; rfl
    have hshort : v.count + 1 ≤ g := by rw [hv.1]; exact hpart
    rw [List.append_cons]
    by_cases hlast : v.count + 1 = g ∨ lines = []
    · rw [verticalLines_group hdown hg hlast]
      exact MergesTo.cons hpos (by simp) (hjoined ▸ hshort) (hlast.imp_left hjoined.trans) hmerged.2
        (ih .blank [] (Vertical.holds_blank w) hpos (fun _ => rfl) hrest)
    · obtain ⟨hfull, hnil⟩ := not_or.1 hlast
      rw [verticalLines_join hdown hg hlast]
      exact ih _ _ ⟨hjoined.symm, fun _ => hmerged⟩ (hjoined ▸ Nat.lt_of_le_of_ne hshort hfull)
        (fun h => absurd h hnil) hrest

end Down

/-! ## The width stage (R101, R102) -/

section Width

variable {wt : Nat} {line : List Bool}

/-- A line no wider than the target is centred in white (R101). -/
theorem centreLine_spec (h : line.length ≤ wt) :
    (centreLine wt line).length = wt
    ∧ ∀ x, (centreLine wt line).getD x false =
        if (wt - line.length) / 2 ≤ x ∧ x < (wt - line.length) / 2 + line.length
        then line.getD (x - (wt - line.length) / 2) false else false := by
  unfold centreLine
  generalize ho : (wt - line.length) / 2 = o
  have hfits : o + line.length ≤ wt := by omega
  refine ⟨by simp only [List.length_append, List.length_replicate]; omega, fun x => ?_⟩
  simp only [List.getD_eq_getElem?_getD, List.append_assoc, List.getElem?_append, List.length_replicate,
    List.getElem?_replicate]
  by_cases hleft : x < o
  · rw [if_pos hleft, if_pos hleft, if_neg (by omega)]; rfl
  · rw [if_neg hleft]
    by_cases hright : x - o < line.length
    · rw [if_pos hright, if_pos (by omega)]
    · rw [if_neg hright, if_neg (show ¬ (o ≤ x ∧ x < o + line.length) by omega)]; split <;> rfl

/-- Each output pel of a wider line has a source range that is not empty (R102). -/
theorem rangeStart_lt_succ {ws : Nat} (h0 : 0 < wt) (h : wt < ws) (x : Nat) : x * ws / wt < (x + 1) * ws / wt := by
  calc x * ws / wt < x * ws / wt + 1 := Nat.lt_succ_self _
    _ = (x * ws + wt) / wt := (Nat.add_div_right _ h0).symm
    _ ≤ (x + 1) * ws / wt := Nat.div_le_div_right (by rw [Nat.succ_mul]; omega)

/-- The line reduced has the target's width. -/
theorem reduceLine_length (wt : Nat) (line : List Bool) : (reduceLine wt line).length = wt := by
  rw [reduceLine, List.length_map, List.length_range]

/-- A wider line is reduced: an output pel is black just if a pel of its source range is (R102). -/
theorem reduceLine_black_iff (h0 : 0 < wt) (h : wt < line.length) {x : Nat} (hx : x < wt) :
    (reduceLine wt line).getD x false = true ↔
      ∃ i, x * line.length / wt ≤ i ∧ i < (x + 1) * line.length / wt ∧ i < line.length ∧ line.getD i false = true := by
  have hrange := rangeStart_lt_succ h0 h x
  have hpel : (reduceLine wt line).getD x false = ((line.drop (x * line.length / wt)).take
      ((x + 1) * line.length / wt - x * line.length / wt)).any id := by
    have hlt : x < (reduceLine wt line).length := by rw [reduceLine_length]; exact hx
    rw [getD_of_lt hlt]
    simp only [reduceLine, List.getElem_map, List.getElem_range, rangeStart]
  rw [hpel, List.any_eq_true, exists_mem_stretch_iff line false _ _ fun b => id b = true, Nat.add_sub_of_le (Nat.le_of_lt hrange)]
  rfl

/-- Every source pel lies in the source range of an output pel (R102). -/
theorem exists_range_of_pel {ws i : Nat} (h0 : 0 < wt) (hi : i < ws) :
    ∃ x, x < wt ∧ x * ws / wt ≤ i ∧ i < (x + 1) * ws / wt := by
  have hws : 0 < ws := Nat.zero_lt_of_lt hi
  have hpos : 0 < (i + 1) * wt := Nat.mul_pos i.succ_pos h0
  have hle : (i + 1) * wt ≤ wt * ws := by rw [Nat.mul_comm wt]; exact Nat.mul_le_mul_right wt hi
  refine ⟨((i + 1) * wt - 1) / ws, (Nat.div_lt_iff_lt_mul hws).2 (by omega), ?_, ?_⟩
  · have hstart : ((i + 1) * wt - 1) / ws * ws ≤ (i + 1) * wt - 1 := Nat.div_mul_le_self _ _
    exact Nat.le_of_lt_succ ((Nat.div_lt_iff_lt_mul h0).2 (Nat.lt_of_le_of_lt hstart (Nat.sub_one_lt (Nat.ne_of_gt hpos))))
  · have hend : (i + 1) * wt - 1 < (((i + 1) * wt - 1) / ws + 1) * ws :=
      (Nat.div_lt_iff_lt_mul hws).1 (Nat.lt_succ_self _)
    exact (Nat.le_div_iff_mul_le h0).2 (Nat.le_of_pred_lt hend)

/-- A pel that is black lies in the line. -/
theorem lt_length_of_black {i : Nat} (h : line.getD i false = true) : i < line.length := by
  refine Nat.lt_of_not_le fun hge => Bool.false_ne_true ?_
  rw [← h, List.getD_eq_getElem?_getD, List.getElem?_eq_none hge, Option.getD_none]

/-- The line fitted has the target's width. -/
theorem fitWidth_length (wt : Nat) (line : List Bool) : (fitWidth wt line).length = wt := by
  unfold fitWidth
  split
  · next hfits => exact (centreLine_spec hfits).1
  · exact reduceLine_length wt line

/-- An output pel of a wider line is black just if a pel of its source range is (R102). -/
theorem fitWidth_black_iff (h0 : 0 < wt) (h : wt < line.length) {x : Nat} (hx : x < wt) :
    (fitWidth wt line).getD x false = true ↔
      ∃ i, x * line.length / wt ≤ i ∧ i < (x + 1) * line.length / wt ∧ line.getD i false = true := by
  unfold fitWidth
  rw [if_neg (Nat.not_le.2 h), reduceLine_black_iff h0 h hx]
  exact exists_congr fun i => and_congr_right fun _ => and_congr_right fun _ => and_iff_right_of_imp lt_length_of_black

end Width

/-- A resolution of the part is not 0. -/
theorem resolution_pos {r : Nat} (h : r ∈ [1, 2, 4]) : 0 < r := Nat.pos_of_ne_zero (by rintro rfl; simp at h)

/-- Settles O57: the vertical stage by how the resolutions compare, the width stage by how the widths do. -/
theorem conversionKeepsBlackPels : Obligations.ConversionKeepsBlackPels := by
  refine ⟨fun rs rt w lines hrs hrt hw => ⟨?same, fun hup => ?up, fun hdown => ?down⟩, fun wt line h0 =>
    ⟨fitWidth_length wt line, fun hfits x _ => ?centred, fun hwide => ⟨fun x hx => ?reduced, fun i hi hblack => ?kept⟩⟩⟩
  case same =>
    rintro rfl
    have hup := verticalLines_up (resolution_pos hrs) (Nat.le_refl rs) lines .blank
    rw [Nat.div_self (resolution_pos hrs)] at hup
    exact hup.trans (List.flatMap_singleton' lines)
  case up => exact verticalLines_up (resolution_pos hrs) (Nat.le_of_lt hup) lines .blank
  case down =>
    intro g
    have hg : 0 < g := Nat.div_pos (Nat.le_of_lt hdown) (resolution_pos hrt)
    obtain ⟨hlength, hpels⟩ := verticalLines_down hdown rfl hg lines .blank [] (Vertical.holds_blank w) hg (fun _ => rfl) hw
    exact ⟨hlength, fun k x hk _ => (hpels k x hk).trans (blackAt_group lines g k x)⟩
  case centred =>
    unfold fitWidth
    rw [if_pos hfits]
    exact (centreLine_spec hfits).2 x
  case reduced =>
    have hrange := rangeStart_lt_succ h0 hwide x
    rw [fitWidth_black_iff h0 hwide hx]
    exact exists_congr fun i => and_congr_right fun _ => and_congr_left fun _ =>
      (Nat.le_sub_one_iff_lt (Nat.zero_lt_of_lt hrange)).symm
  case kept =>
    obtain ⟨x, hx, hfrom, hto⟩ := exists_range_of_pel h0 hi
    exact ⟨x, hx, hfrom, hto, (fitWidth_black_iff h0 hwide hx).2 ⟨i, hfrom, hto, hblack⟩⟩

end Sys2Proof.Machine
end

section
/-! PROOFS. SEED (08 R154): the redial LFSR takes the seed. -/

namespace Sys2Proof.Machine

/-- A seed in range is the LFSR's state, 0 being taken as 1, and DONE carries it. -/
theorem Chip.seed_taken {p : Chip} {tag : Half} {value : Nat} (h : ¬ 1023 < value) : p.seed tag value =
    let v := if value = 0 then 1 else value
    ({ p with calls := { p.calls with lfsr := v } } : Chip).done tag 23 .ok v := if_neg h

/-- Answering a request leaves the call unit. -/
theorem Chip.AnsweredWith.calls_eq {q t : Chip} {n : Notice} (h : q.AnsweredWith t n) : t.calls = q.calls := by
  obtain ⟨u, htold, hended⟩ := h
  unfold Chip.Ended at hended
  unfold Chip.Told at htold
  split at htold <;> rw [hended, htold]

/-- A redial advances the LFSR once, also where its ready time passes 32 bits (R153; log 23). -/
theorem Chip.retryCall_lfsr (p : Chip) (i : Nat) : (p.retryCall i).calls.lfsr = lfsrNext p.calls.lfsr := by
  unfold Chip.retryCall Chip.add32
  dsimp only
  split <;> rfl

/-- Settles O22: the LFSR alone of the call unit changes, so ready times stay and the next redial starts from the seed. -/
theorem seedSetsTheLfsr : Obligations.SeedSetsTheLfsr := by
  intro tag value s hs
  by_cases h : 1023 < value.toNat
  · simp only [if_pos h]
    exact request_done hs (if_pos h)
  · simp only [if_neg h]
    obtain ⟨t, hex, ht⟩ := request_done (act := fun p => p.seed tag value.toNat) hs (Chip.seed_taken h)
    refine ⟨t, hex, ht, fun i => ?_, fun i => ?_⟩
    · unfold Chip.callRec; rw [ht.calls_eq]; rfl
    · rw [Chip.retryCall_lfsr, ht.calls_eq]

end Sys2Proof.Machine
end

section
/-! PROOFS. CALL (08 R144, R145): its checks in order, and the record that an accepted call fills. -/

namespace Sys2Proof.Machine

/-! ## The field checks (R144) -/

/-- A page range in order (06 R106, 08 R144). -/
theorem goodRange_iff (first last : Nat) : goodRange first last = true ↔ first ≠ 0 ∧ (last = 0 ∨ first ≤ last) := by
  simp only [goodRange, Bool.and_eq_true, bne_iff_ne, Bool.or_eq_true, beq_iff_eq, decide_eq_true_eq]

/-- A bound on the destination's symbols is one on the bytes that the part reads (R190). -/
theorem forall_mem_callSymbols {f : CallFields} {P : Nat → Prop} :
    (∀ x ∈ callSymbols f, P x) ↔ ∀ x ∈ f.dest.take f.count.toNat, P x.toNat := by
  rw [callSymbols, ← List.map_take, List.forall_mem_map]

/-- The line mask names a line just if one of its bits 0..3 is set (R190). -/
theorem callLines_isEmpty_eq_false {f : CallFields} :
    (callLines f).isEmpty = false ↔ ∃ n, n < 4 ∧ f.lineMask.getLsbD n = true := by
  rw [callLines, List.isEmpty_eq_false_iff_exists_mem]
  simp only [List.mem_filter, List.mem_range]

/-- The not-before counts only where it is present (11.5). -/
theorem callNotBefore_or {f : CallFields} {b : Bool} :
    (!callNotBefore f || b) = true ↔ (f.flags.getLsbD 0 = true → b = true) := by
  unfold callNotBefore
  cases f.flags.getLsbD 0 <;> simp

/-- The fields that CALL accepts (R144). -/
theorem callGood_iff (f : CallFields) : callGood f = true ↔
    1 ≤ f.count.toNat ∧ f.count.toNat ≤ 40 ∧ (∀ x ∈ f.dest.take f.count.toNat, x.toNat ≤ 13)
    ∧ f.access.toNat ≤ 8 ∧ f.access.toNat ≤ f.count.toNat ∧ f.desk.toNat ≤ 63 ∧ f.document.toNat ≤ 63
    ∧ f.first.toNat ≠ 0 ∧ (f.last.toNat = 0 ∨ f.first.toNat ≤ f.last.toNat) ∧ f.priority.toNat ≤ 1
    ∧ (∃ n, n < 4 ∧ f.lineMask.getLsbD n = true)
    ∧ (f.flags.getLsbD 0 = true → f.nbDay.toNat ≤ 6 ∧ f.nbSecond.toNat ≤ 86399) := by
  simp only [callGood, within, Bool.and_eq_true, decide_eq_true_eq, List.all_eq_true, forall_mem_callSymbols,
    goodRange_iff, Bool.not_eq_true', callLines_isEmpty_eq_false, callNotBefore_or, and_assoc]

/-! ## The checks in order (R144) -/

/-- A document is gone if its record is FREE or DOOMED (02 R34). -/
theorem Chip.docGone_iff (p : Chip) (d : Nat) : p.docGone d = true ↔ (p.doc d).st = .free ∨ (p.doc d).st = .doomed := by
  simp only [Chip.docGone, Bool.or_eq_true, beq_iff_eq]

section Checks

variable {p : Chip} {f : CallFields} (hgood : callGood f = true)
include hgood

/-- With no record FREE there is no room. -/
theorem Chip.callCheck_full (h : ∀ i, i < 32 → (p.callRec i).st ≠ .free) : p.callCheck f = .error .noRoom := by
  have hfind : tfind p.calls.records (·.st == .free) = none := tfind_eq_none.2 fun i hi => beq_false_of_ne (h i hi)
  unfold Chip.callCheck
  rw [hgood, hfind]
  rfl

variable {i : Nat} (hi : i < 32) (hfree : (p.callRec i).st = .free) (hlow : ∀ j, j < i → (p.callRec j).st ≠ .free)
include hi hfree hlow

/-- Otherwise the lowest FREE record is taken, unless the document or the budget refuses it. -/
theorem Chip.callCheck_lowest : p.callCheck f =
    if (p.doc f.document.toNat).st = .free ∨ (p.doc f.document.toNat).st = .doomed then .error .gone
    else if f.priority.toNat = 0 ∧ (p.account f.desk.toNat).blocked = true then .error .budget
    else .ok i := by
  have hfind : tfind p.calls.records (·.st == .free) = some i :=
    tfind_eq_some.2 ⟨hi, beq_iff_eq.2 hfree, fun j hj => beq_false_of_ne (hlow j hj)⟩
  unfold Chip.callCheck
  rw [hgood, hfind]
  exact (if_neg Bool.false_ne_true).trans (ite_congr (propext (p.docGone_iff _)) (fun _ => rfl) fun _ => rfl)

end Checks

/-! ## The record filled (R145) -/

/-- The part with an accepted CALL in record `i`: the record filled, the acceptance counted, the hold taken. -/
def Chip.callPlaced (p : Chip) (f : CallFields) (i : Nat) : Chip :=
  { p with
    calls := { p.calls with
      acceptance := (p.calls.acceptance + 1) % 2 ^ 32
      records := tset p.calls.records i (newCall f p.calls.acceptance (p.calls.schedule + p.callDelay f)) }
    store := { p.store with
      docs := tset p.store.docs f.document.toNat
        { p.doc f.document.toNat with holds := (p.doc f.document.toNat).holds + 1 } } }

/-- A refusal of its checks is the answer of CALL. -/
theorem Chip.placeCall_refused {p : Chip} {tag : Half} {f : CallFields} {why : Result} (h : p.callCheck f = .error why) :
    p.placeCall tag f = p.done tag 21 why := by
  unfold Chip.placeCall; rw [h]

/-- An accepted CALL fills its record and sends DONE; then the arbiter is considered (log 20). Its ready time is within 32
bits (log 23). -/
theorem Chip.placeCall_accepted {p : Chip} {tag : Half} {f : CallFields} {i : Nat} (h : p.callCheck f = .ok i)
    (hready : p.calls.schedule + p.callDelay f < 2 ^ 32) :
    p.placeCall tag f = ((p.callPlaced f i).done tag 21 .ok i).arbiterPass := by
  unfold Chip.placeCall Chip.add32
  rw [h, if_pos hready]
  rfl

/-- Settles O52: the field checks one by one, then what each outcome of the checks in order comes to. -/
theorem callFillsALowestRecord : Obligations.CallFillsALowestRecord := by
  refine ⟨callGood_iff, fun tag f s hs hgood => ?_⟩
  intro p d now delay gone overBudget
  have hanswer {why : Result} (h : p.callCheck f = .error why) :
      p.AnsweredWith (p.placeCall tag f).nextRequest (.done tag.toNat 21 why 0) :=
    Chip.placeCall_refused (tag := tag) h ▸ p.answeredWith_done tag 21 why 0
  refine ⟨_, request_served hs, fun hfull => hanswer (Chip.callCheck_full hgood hfull), fun i hi hfree hlow => ?_⟩
  have hcheck := Chip.callCheck_lowest hgood hi hfree hlow
  refine ⟨fun hgone => hanswer (hcheck.trans (if_pos hgone)),
    fun hkept hbudget => hanswer (hcheck.trans ((if_neg hkept).trans (if_pos hbudget))), fun hkept hbudget hready => ?_⟩
  have htaken : p.callCheck f = .ok i := hcheck.trans ((if_neg hkept).trans (if_neg hbudget))
  exact ⟨_, (p.callPlaced f i).told_send _, Chip.placeCall_accepted htaken hready ▸ Chip.ended_nextRequest _⟩

end Sys2Proof.Machine
end

section
/-! PROOFS. The step at a queue that holds a command (log 3). -/

namespace Sys2Proof.Machine

/-- Settles O1: the queue's front picks the step's first branch. -/
theorem stepRunsTheFrontCommand : Obligations.StepRunsTheFrontCommand := by
  intro c rest s hfront
  unfold step
  rw [hfront]

end Sys2Proof.Machine
end
